-- ==== Sys2Proof/Word.lean ====
section
/-! DEFINITION. The plain word types of the model (00_scope.md R7): all values are unsigned. -/

namespace Sys2Proof

/-- One nibble: the four data lanes at one clock, lane `DATk` at bit `k` (20_memory.md R57). -/
abbrev Nibble := BitVec 4

/-- One byte. -/
abbrev Byte := BitVec 8

/-- A 16-bit value: an RCA (R29) or one lane's checksum (R104). -/
abbrev Half := BitVec 16

/-- A 32-bit value: a register, an argument, an LBA or a RAM address (R6, R50; the width of a RAM address is PRESUMED,
log 6). -/
abbrev Word := BitVec 32

end Sys2Proof
end

