-- ==== Sys2Proof/Config.lean ====
section
/-! DEFINITION. What an implementation fixes: the parameters of 00_scope.md R6 as one plain record, the numbers the
spec fixes per family (R65, R185), and the free values. The parameters are arguments of the model: every state
carries them in its field `cfg`, which no step writes (DESIGN CHOICE, log 1), so that a claim about every state is a claim about every
setting. A constant declared `opaque` has no value a proof could use. -/

namespace Sys2Proof

/-- The four transport variants (00_scope.md R2). The spec's fifth value `NONE` is `Option.none`. -/
inductive Family where
  | ci
  | edx
  | edv
  | sc64
deriving DecidableEq, Repr, Inhabited

/-- `WIRE[f]`: the wire protocol flavour (00_scope.md R6). -/
inductive Wire where
  | sdNative
  | spi
deriving DecidableEq, Repr, Inhabited

/-- `SWAP_POLICY[f]` (44_transport_handlers.md R198). The commands of `LISTED_COMMANDS` are a parameter of their own. -/
inductive SwapPolicy where
  | never
  | everyTransfer
  | listedCommands
deriving DecidableEq, Repr, Inhabited

/-- One PI timing parameter: a value that is only copied and compared (10_state.md R21). -/
structure PiParam where
  raw : Nat
deriving DecidableEq, Repr, Inhabited

/-- The four timing parameters of one PI domain (10_state.md R21). -/
structure DomainTiming where
  lat : PiParam
  pwd : PiParam
  pgs : PiParam
  rls : PiParam
deriving DecidableEq, Repr, Inhabited

/-- `BusDomainConfig`: the timing of PI domains 1 and 2 (10_state.md R21). -/
structure BusConfig where
  dom1 : DomainTiming
  dom2 : DomainTiming
deriving DecidableEq, Repr, Inhabited

/-- The cartridge registers by name (10_state.md R42). The result words are read from `arg0` and `arg1`. -/
inductive Reg where
  | id
  | key
  | status
  | command
  | arg0
  | arg1
  | sdCmd
  | sdDat
  | sdCfg
  | dmaAddr
  | dmaLen
  | swap
deriving DecidableEq, Repr, Inhabited

/-- A register's offset from its family's base, counted in 32-bit words: a register's address is a multiple of 4
(20_memory.md R59). -/
abbrev RegOffset := BitVec 30

/-- `REG_OFF[f]`, with `MAGIC_OFF[f]` as `id` and `KEY_OFF[f]` as `key` (00_scope.md R6). -/
structure RegOffsets where
  id : RegOffset
  key : RegOffset
  status : RegOffset
  command : RegOffset
  arg0 : RegOffset
  arg1 : RegOffset
  sdCmd : RegOffset
  sdDat : RegOffset
  sdCfg : RegOffset
  dmaAddr : RegOffset
  dmaLen : RegOffset
  swap : RegOffset
deriving DecidableEq, Repr, Inhabited

/-- The offset of one register. -/
def RegOffsets.of (o : RegOffsets) : Reg → RegOffset
  | .id => o.id
  | .key => o.key
  | .status => o.status
  | .command => o.command
  | .arg0 => o.arg0
  | .arg1 => o.arg1
  | .sdCmd => o.sdCmd
  | .sdDat => o.sdDat
  | .sdCfg => o.sdCfg
  | .dmaAddr => o.dmaAddr
  | .dmaLen => o.dmaLen
  | .swap => o.swap

/-- `WAIT_MAX[f][w]`, one cap per wait class (44_transport_handlers.md R200). -/
structure WaitCaps where
  port : Nat
  cmd : Nat
  dma : Nat
  dataStart : Nat
  busy : Nat
  pi : Nat
deriving DecidableEq, Repr, Inhabited

/-- The parameters of one family (00_scope.md R6). -/
structure FamilyParams where
  /-- `MAGIC[f]`, used for the two EverDrive families only: the other two are fixed (`Params.magic`). -/
  openMagic : Word
  /-- `MAGIC_MASK[f]`, used for the two EverDrive families only (R203). -/
  openMask : Word
  off : RegOffsets
  keySeq : List Word
  lockKey : Word
  cartCfg : BusConfig
  waits : WaitCaps
  wire : Wire
  offload : Bool
  swapPolicy : SwapPolicy
  /-- The command codes wrapped under `LISTED_COMMANDS` (R198). -/
  swapListed : List Byte
  /-- Whether the family has a byte-swap control (R198). -/
  hasSwap : Bool
  swapViaCfg : Bool
  swapId : Word
  cfgInit : List (Word × Word)
  cartBuf : Word
  cartBufLen : Nat
  /-- Bit positions of `STATUS.busy` and `STATUS.error` (R45a). -/
  busyBit : Nat
  errorBit : Nat
  /-- The bits `SD_CFG` holds for four lanes, for the fast clock and for single-bit length, and the reset bit (R193,
  R199; DESIGN CHOICE, log 48). -/
  wideBits : Word
  fastBits : Word
  oneBits : Word
  resetBits : Word
  /-- Whether the family moves a received block by a cartridge-side DMA (R194). -/
  hasDma : Bool
  /-- Whether the SD port events are carried out as register accesses (R192) or stand for themselves. -/
  portLevel : Bool
deriving DecidableEq, Repr, Inhabited

/-- Every parameter of 00_scope.md R6, the launch configuration of 10_state.md R22 among them. -/
structure Params where
  ci : FamilyParams
  edx : FamilyParams
  edv : FamilyParams
  sc64 : FamilyParams
  launch : BusConfig
  probeOrder : List Family
  nLeadin : Nat
  nTrail : Nat
  respSpinMax : Nat
  acmd41Max : Nat
  acmd41ArgV1 : Word
  acmd41ArgV2 : Word
  useSelect : Bool
  checkRespCrc7 : Bool
  checkRespIndex : Bool
  checkReadCrc16 : Bool
  /-- Whether the check of the index echo looks at the transmission bit and the end bit too: R260 and R269 name them among
  the checks, R122, to which R269 defers, does not (DESIGN CHOICE, log 19). -/
  checkFixedBits : Bool
  /-- Which of the card's two flags is looked at first: the checksum error (R269) or the illegal command (R122, to which
  R269 defers; DESIGN CHOICE, log 18). -/
  crcFlagFirst : Bool
  /-- Whether `card_init` asks for an `init` that has succeeded: R160's precondition and R189 taken as a flag the block holds.
  10_state.md R45 lists no such flag, and the worked programs bring a card up without one (DEDUCED, log 35). -/
  initRequired : Bool
  nVolumes : Nat
  cacheLine : Nat
  stageAddr : Nat
  sdOpInit : Word
  sdOpDeinit : Word
deriving DecidableEq, Repr, Inhabited

/-- The parameters of family `f`. -/
def Params.fam (p : Params) : Family → FamilyParams
  | .ci => p.ci
  | .edx => p.edx
  | .edv => p.edv
  | .sc64 => p.sc64

/-- `ACMD41_ARG(v2)` (30_encoding.md R87): any word, its fields not looked at (DESIGN CHOICE, log 62). -/
def Params.acmd41Arg (p : Params) (v2 : Bool) : Word :=
  if v2 then p.acmd41ArgV2 else p.acmd41ArgV1

/-- `BASE[f]` (20_memory.md R65, 44_transport_handlers.md R185). -/
def Family.base : Family → Word
  | .ci => 0x18000000
  | .edx => 0x1F800000
  | .edv => 0x08040000
  | .sc64 => 0x1FFF0000

/-- `MAGIC[f]`: "UDEV" and "SCv2" are fixed, the EverDrive values are parameters (00_scope.md R6, R185). -/
def Params.magic (p : Params) : Family → Word
  | .ci => 0x55444556
  | .sc64 => 0x53437632
  | .edx => p.edx.openMagic
  | .edv => p.edv.openMagic

/-- `MAGIC_MASK[f]`: the full mask for the two known identifiers (R203). -/
def Params.magicMask (p : Params) : Family → Word
  | .ci => 0xFFFFFFFF
  | .sc64 => 0xFFFFFFFF
  | .edx => p.edx.openMask
  | .edv => p.edv.openMask

/-- `SECTOR`, `STAGE_LEN` and the DMA length (00_scope.md R6, 46_block_adapter.md R229). -/
def sector : Nat := 512

/-- The registers the cartridge protocol names (10_state.md R42). -/
def allRegs : List Reg :=
  [.id, .key, .status, .command, .arg0, .arg1, .sdCmd, .sdDat, .sdCfg, .dmaAddr, .dmaLen, .swap]

/-- The address of a register does not pass the top of `PI` space (20_memory.md R52, 00_scope.md R7). -/
def regFits (f : Family) (off : RegOffset) : Bool := f.base.toNat + 4 * off.toNat < 2 ^ 32

/-- The address of each register of a family does not pass the top of `PI` space. -/
def regsFit (f : Family) (q : FamilyParams) : Bool := allRegs.all fun r => regFits f (q.off.of r)

/-- The range of one wait cap (R200). -/
def WaitCaps.inRange (w : WaitCaps) : Bool :=
  [w.port, w.cmd, w.dma, w.dataStart, w.busy, w.pi].all fun n => 1024 ≤ n && n ≤ 65536

/-- The constraints the spec puts on a family's parameters (R6, R59, R200). Where the window of `CART_BUF` and
`CART_BUF_LEN` lies below the top of `PI` space is not among them: it may pass it (DESIGN CHOICE, log 55). -/
def FamilyParams.inRange (q : FamilyParams) : Bool :=
  q.waits.inRange && q.cartBuf.toNat % 8 == 0 && sector ≤ q.cartBufLen
    && q.busyBit < 32 && q.errorBit < 32 && (q.swapPolicy == .never || q.hasSwap)

/-- Every parameter in the range the spec gives it (R6, R7, R51, R59, R211, R248). The two values of `ACMD41_ARG` are not
held to the fields R87 names: that a version 1 value has bit 30 clear, or that either has its bits outside 30 and 23:0
clear, is not among them (DESIGN CHOICE, log 62). -/
def Params.inRange (p : Params) : Bool :=
  p.ci.inRange && p.edx.inRange && p.edv.inRange && p.sc64.inRange
    && regsFit .ci p.ci && regsFit .edx p.edx && regsFit .edv p.edv && regsFit .sc64 p.sc64
    && p.probeOrder.isPerm [.ci, .edx, .edv, .sc64]
    && 1000 ≤ p.respSpinMax && p.respSpinMax ≤ 9999
    && 1 ≤ p.acmd41Max && 1 ≤ p.nVolumes
    && 0 < p.cacheLine && p.cacheLine % 8 == 0 && sector % p.cacheLine == 0
    && p.stageAddr % p.cacheLine == 0 && p.stageAddr % 8 == 0 && p.stageAddr + sector ≤ 2 ^ 32

/-- One sample of the PI controller's status flags (47_bus_dma.md R239). -/
structure PiStatus where
  dmaBusy : Bool
  ioBusy : Bool
deriving DecidableEq, Repr, Inhabited

/-- One act of the CPU cache on its own (20_memory.md R72): write a dirty line back, or drop a clean one. -/
inductive CacheAct where
  | writeBack (base : Nat)
  | drop (base : Nat)
deriving DecidableEq, Repr, Inhabited

/-- The free values: what the environment answers where no answer is listed (10_state.md R43; DESIGN CHOICE, log 2). -/
opaque Config.freeWord : Nat → Word
opaque Config.freeBit : Nat → Bool
opaque Config.freeNibble : Nat → Nibble
opaque Config.freeByte : Nat → Byte
opaque Config.freePi : Nat → PiStatus
opaque Config.freeCacheActs : Nat → List CacheAct

/-- The family parameters the spec gives no default for (00_scope.md R6: `OPEN`). -/
opaque Config.openFamily : Family → FamilyParams

/-- The other parameters the spec gives no default for: the staging buffer's place, `'i'` arguments, launch
configuration. -/
opaque Config.openStageLine : Nat
opaque Config.openSdOpInit : Word
opaque Config.openSdOpDeinit : Word
opaque Config.openLaunch : BusConfig

/-- An offset brought into a range where no register passes the top of `PI` space (R7). -/
def RegOffset.low (o : RegOffset) : RegOffset := o &&& 0x07FFFFFF

/-- Every offset brought into that range. -/
def RegOffsets.low (o : RegOffsets) : RegOffsets :=
  ⟨o.id.low, o.key.low, o.status.low, o.command.low, o.arg0.low, o.arg1.low, o.sdCmd.low, o.sdDat.low, o.sdCfg.low,
    o.dmaAddr.low, o.dmaLen.low, o.swap.low⟩

/-- A family's parameters at reset: the spec's defaults (R6), and constants without a value for the rest, brought into
the range the spec gives (R59; DESIGN CHOICE, log 3). The list of wrapped commands is empty and the port is taken at the
level of its events: these two are the model's own parameters, and their values its choice (log 3). -/
def Config.family (f : Family) : FamilyParams :=
  { Config.openFamily f with
    off := (Config.openFamily f).off.low
    cartBuf := (Config.openFamily f).cartBuf &&& 0xFFFFFFF8
    cartBufLen := max sector (Config.openFamily f).cartBufLen
    busyBit := (Config.openFamily f).busyBit % 32
    errorBit := (Config.openFamily f).errorBit % 32
    openMask := 0xFFFFFFFF
    waits := ⟨65536, 65536, 65536, 65536, 65536, 65536⟩
    wire := .sdNative
    offload := match f with
      | .ci => true
      | .sc64 => true
      | .edx => false
      | .edv => false
    swapPolicy := .never
    swapListed := []
    swapViaCfg := false
    cfgInit := []
    portLevel := false }

/-- The parameters at reset (00_scope.md R6, 92_eei_decisions.md). The staging buffer begins at a multiple of the line
size (47_bus_dma.md R248), at any one of those that leave room for a sector below the top of RAM (log 3). The model's own
`checkFixedBits` and `crcFlagFirst` are false: the response checks are R122's as it writes them (DESIGN CHOICE, log 18, 19).
Its own `initRequired` is false: the block holds the flags of 10_state.md R45 alone (DEDUCED, log 35). -/
def Config.params : Params where
  ci := Config.family .ci
  edx := Config.family .edx
  edv := Config.family .edv
  sc64 := Config.family .sc64
  launch := Config.openLaunch
  probeOrder := [.ci, .edx, .edv, .sc64]
  nLeadin := 1
  nTrail := 0
  respSpinMax := 4096
  acmd41Max := 1000
  acmd41ArgV1 := 0x00300000
  acmd41ArgV2 := 0x40300000
  useSelect := true
  checkRespCrc7 := false
  checkRespIndex := false
  checkReadCrc16 := false
  checkFixedBits := false
  crcFlagFirst := false
  initRequired := false
  nVolumes := 1
  cacheLine := 16
  stageAddr := Config.openStageLine % 0x0FFFFFE1 * 16
  sdOpInit := Config.openSdOpInit
  sdOpDeinit := Config.openSdOpDeinit

end Sys2Proof
end

