-- ==== Sys2Proof/Machine/Crc.lean ====
section
/-! DEFINITION. The two checksum generators (40_crc.md), both pure functions. -/

namespace Sys2Proof

/-- The bits of a byte, bit 7 first (40_crc.md R100). -/
def byteBits (b : Byte) : List Bool :=
  [b.getLsbD 7, b.getLsbD 6, b.getLsbD 5, b.getLsbD 4, b.getLsbD 3, b.getLsbD 2, b.getLsbD 1, b.getLsbD 0]

/-- One bit through the CRC7 register, taps at bits 3 and 0 (R100). -/
def crc7Bit (acc : BitVec 7) (b : Bool) : BitVec 7 :=
  bif Bool.xor (acc.getLsbD 6) b then (acc <<< 1) ^^^ 0x09#7 else acc <<< 1

/-- The CRC7 register run over a stream of bits from a given content. -/
def crc7Run (acc : BitVec 7) (bits : List Bool) : BitVec 7 :=
  bits.foldl crc7Bit acc

/-- `crc7`: the raw checksum of a byte sequence (R100). -/
def crc7 (bytes : List Byte) : BitVec 7 :=
  crc7Run 0 (bytes.flatMap byteBits)

/-- `compute_crc7`: the frame's last byte, the raw checksum with the stop bit (R101). -/
def computeCrc7 (bytes : List Byte) : Byte :=
  crc7 bytes ++ 1#1

/-- One bit through the CRC16 register, taps at bits 12, 5 and 0 (R104). -/
def crc16Bit (acc : Half) (b : Bool) : Half :=
  bif Bool.xor (acc.getLsbD 15) b then (acc <<< 1) ^^^ 0x1021#16 else acc <<< 1

/-- `crc16` of a stream of bits (R104). -/
def crc16 (bits : List Bool) : Half :=
  bits.foldl crc16Bit 0

/-- `crc16_bytes`: the single-lane checksum (R104, R111). -/
def crc16Bytes (bytes : List Byte) : Half :=
  crc16 (bytes.flatMap byteBits)

/-- Four 16-bit values, one per lane `DAT0` to `DAT3`. -/
structure Lanes where
  l0 : Half
  l1 : Half
  l2 : Half
  l3 : Half
deriving DecidableEq, Repr, Inhabited

/-- The bit stream lane `DATk` carries for a block: from each byte bit `4 + k`, then bit `k` (R106). -/
def laneStream (k : Nat) (block : List Byte) : List Bool :=
  block.flatMap fun b => [b.getLsbD (4 + k), b.getLsbD k]

/-- The four independent lane checksums (R107). -/
def laneCrcs (block : List Byte) : Lanes :=
  ⟨crc16 (laneStream 0 block), crc16 (laneStream 1 block), crc16 (laneStream 2 block), crc16 (laneStream 3 block)⟩

/-- One bit as a one-bit word. -/
def bitOf (b : Bool) : BitVec 1 := BitVec.ofBool b

/-- Trailer nibble `t[i]`: bit `15 - i` of every lane, `DATk` at nibble bit `k` (R108). -/
def trailerNibble (l : Lanes) (i : Nat) : Nibble :=
  bitOf (l.l3.getLsbD (15 - i)) ++ bitOf (l.l2.getLsbD (15 - i))
    ++ bitOf (l.l1.getLsbD (15 - i)) ++ bitOf (l.l0.getLsbD (15 - i))

/-- The eight-byte trailer, two nibbles a byte, the first nibble high (R108). -/
def trailerOf (l : Lanes) : List Byte :=
  (List.range 8).map fun j => trailerNibble l (2 * j) ++ trailerNibble l (2 * j + 1)

/-- The nibbles of a byte sequence in wire order, the high nibble first (20_memory.md R57). -/
def nibblesOf (bytes : List Byte) : List Nibble :=
  bytes.flatMap fun b => [b.extractLsb' 4 4, b.extractLsb' 0 4]

/-- The inverse of the interleaving: lane `k`'s checksum read back from a trailer (R108). -/
def laneOfTrailer (k : Nat) (trailer : List Byte) : Half :=
  (nibblesOf trailer).foldl (fun acc t => (acc <<< 1) ||| (bitOf (t.getLsbD k)).zeroExtend 16) 0

/-- One nibble through the bit-sliced register of sixteen nibbles (R109). -/
def slicedStep (s : List Nibble) (d : Nibble) : List Nibble :=
  let fb := s.getD 15 0 ^^^ d
  ((fb :: s.take 15).modify 5 (· ^^^ fb)).modify 12 (· ^^^ fb)

/-- The bit-sliced form of the four-lane checksum: the trailer nibbles are its register read from the top (R109). -/
def slicedTrailer (block : List Byte) : List Byte :=
  let s := (nibblesOf block).foldl slicedStep (List.replicate 16 0)
  (List.range 8).map fun j => s.getD (15 - 2 * j) 0 ++ s.getD (14 - 2 * j) 0

end Sys2Proof
end

