-- ==== Sys2Proof/Machine/Operands.lean ====
section
/-! DEFINITION. How operands are assembled: byte order, frames, the arguments of the SD commands and the checks on the
operands of a transfer (30_encoding.md R80 to R89, R97; 20_memory.md R56). -/

namespace Sys2Proof

/-- The four bytes of a word, most significant first (20_memory.md R55, R56). -/
def wordBytes (w : Word) : List Byte :=
  [w.extractLsb' 24 8, w.extractLsb' 16 8, w.extractLsb' 8 8, w.extractLsb' 0 8]

/-- The two bytes of a 16-bit value, most significant first. -/
def halfBytes (h : Half) : List Byte :=
  [h.extractLsb' 8 8, h.extractLsb' 0 8]

/-- The word of four bytes, most significant first. -/
def wordOf (a b c d : Byte) : Word := a ++ b ++ c ++ d

/-- The first five bytes of the frame of an index and an argument (30_encoding.md R81). -/
def headBytes (idx : BitVec 6) (arg : Word) : List Byte :=
  (1#2 ++ idx) :: wordBytes arg

/-- The six bytes of the frame of an index and an argument (30_encoding.md R80, R81). -/
def frameBytes (idx : BitVec 6) (arg : Word) : List Byte :=
  headBytes idx arg ++ [computeCrc7 (headBytes idx arg)]

/-- The checksum field of the frame of an index and an argument (30_encoding.md R80). -/
def frameCrc (idx : BitVec 6) (arg : Word) : BitVec 7 :=
  crc7 (headBytes idx arg)

/-- The argument of an addressed command: the RCA in the upper half (30_encoding.md R87, R97). -/
def rcaArg (rca : Half) : Word := rca ++ 0#16

/-- The fixed arguments of 30_encoding.md R87. -/
def argCmd8 : Word := 0x000001AA
def argAcmd6 : Word := 0x00000002
def argCmd6 : Word := 0x80FFFFF1

/-- `blockarg(lba)`: the argument of a block command, none where the byte address does not fit (30_encoding.md R89). -/
def blockArg (highCapacity : Bool) (lba : Word) : Option Word :=
  if highCapacity then some lba
  else if lba.toNat < 0x00800000 then some (lba <<< 9)
  else none

/-- The LBA a block argument stands for, none where no LBA has that argument (R89 read
backwards: DEDUCED, log 17). -/
def lbaOfArg (highCapacity : Bool) (arg : Word) : Option Word :=
  if highCapacity then some arg
  else if arg.toNat % 512 = 0 then some (arg >>> 9)
  else none

/-- The block count is at least one (R165; U7). -/
def countOk (count : Word) : Bool := count != 0

/-- `lba + count <= 2^32` (30_encoding.md R97, R165). -/
def rangeOk (lba count : Word) : Bool := lba.toNat + count.toNat ≤ 2 ^ 32

/-- The caller's buffer does not wrap past the top of RAM (20_memory.md R51; U6). -/
def noWrap (buf count : Word) : Bool := buf.toNat + sector * count.toNat ≤ 2 ^ 32

/-- The caller's buffer and the staging buffer have no byte in common (U6). -/
def noOverlap (stage : Nat) (buf count : Word) : Bool :=
  buf.toNat + sector * count.toNat ≤ stage || stage + sector ≤ buf.toNat

/-- `direct(p)`: the address is a multiple of `DMA_ALIGN` (47_bus_dma.md R241). -/
def direct (p : Nat) : Bool := p % 8 == 0

/-- The bytes of a sector with each 16-bit pair exchanged (44_transport_handlers.md R198). -/
def swapPairs : List Byte → List Byte
  | a :: b :: rest => b :: a :: swapPairs rest
  | rest => rest

end Sys2Proof
end

