-- ==== Sys2Proof/Syntax.lean ====
section
/-! DEFINITION. The syntax: one constructor per row of the opcode table. An instruction is an SD command frame
(30_encoding.md R80), a cartridge command code (R90) or a host-port operation (R88). A frame with an operand field
carries its checksum field too, so that no bit of the frame is dropped. -/

namespace Sys2Proof

/-- The three encodings share first bytes, so a request says which one it is in: a 48-bit frame, or a one-byte code
followed by its operands (the codes of R88 and R90 are disjoint). -/
inductive Format where
  | frame
  | code
deriving DecidableEq, Repr, Inhabited

/-- One request as it stands at the host port: its format and its bytes, the first byte first. -/
structure Request where
  fmt : Format
  bytes : List Byte
deriving DecidableEq, Repr, Inhabited

/-- The instructions. -/
inductive Instr where
  /-- CMD0, "go idle" (R136). -/
  | cmd0
  /-- CMD8, "voltage check" (R137). -/
  | cmd8
  /-- CMD55, the application prefix command (R139). -/
  | cmd55 (rca : Half) (crc : BitVec 7)
  /-- ACMD41, the operating-condition poll (R138). -/
  | acmd41 (arg : Word) (crc : BitVec 7)
  /-- CMD2, the CID step (R140). -/
  | cmd2
  /-- CMD3, the RCA step (R141). -/
  | cmd3
  /-- CMD7, select card (R142). -/
  | cmd7 (rca : Half) (crc : BitVec 7)
  /-- ACMD6, four lanes (R143). -/
  | acmd6
  /-- CMD6, high speed (R144). -/
  | cmd6
  /-- CMD58, read OCR (R145). -/
  | cmd58
  /-- CMD12, stop (R146). -/
  | cmd12
  /-- CMD18, open a read stream at the block argument (R147). -/
  | cmd18 (arg : Word) (crc : BitVec 7)
  /-- CMD25, open a write stream at the block argument (R148). -/
  | cmd25 (arg : Word) (crc : BitVec 7)
  /-- Cartridge command 'i', SD operation (R90, R195). -/
  | ccSdOp (a0 a1 : Word)
  /-- Cartridge command 'I', sector-set. -/
  | ccSectorSet (a0 a1 : Word)
  /-- Cartridge command 's', read. -/
  | ccRead (a0 a1 : Word)
  /-- Cartridge command 'S', write. -/
  | ccWrite (a0 a1 : Word)
  /-- Cartridge command 'C', config set. -/
  | ccConfigSet (a0 a1 : Word)
  /-- Cartridge command 'c', config get. -/
  | ccConfigGet (a0 a1 : Word)
  /-- `compute_crc7`, of five bytes (40_crc.md R101). -/
  | computeCrc7 (bytes : List Byte)
  /-- `compute_crc16_four_lanes`, of 512 bytes (R105). -/
  | computeCrc16 (block : List Byte)
  /-- `execute_command` (41_command_engine.md R115). -/
  | executeCommand (idx : BitVec 6) (arg : Word)
  /-- `send_app_command` (41_command_engine.md R123). -/
  | sendAppCommand (idx : BitVec 6) (rca : Half) (arg : Word)
  /-- `init` of the family's handler table (44_transport_handlers.md R188). -/
  | init
  /-- `exit` of the family's handler table (R189). -/
  | exit
  /-- `card_init` (43_card_sequencer.md R160). -/
  | cardInit
  /-- `card_read`: a RAM address, a first LBA, a count of sectors (R165). -/
  | cardRead (dest : Word) (lba : Word) (count : Word)
  /-- `card_write`, with the operands of `card_read` (R166). -/
  | cardWrite (src : Word) (lba : Word) (count : Word)
  /-- `card_stop` (R167). -/
  | cardStop
  /-- `set_byteswap` (44_transport_handlers.md R198). -/
  | setByteswap (on : Bool)
  /-- `probe` (45_autodetect_dispatch.md R210). -/
  | probe
  /-- `disk_initialize` (46_block_adapter.md R222). -/
  | diskInitialize (drive : Byte)
  /-- `disk_status` (R223). -/
  | diskStatus (drive : Byte)
  /-- `disk_read` (R224). -/
  | diskRead (drive : Byte) (buffer : Word) (sector : Word) (count : Word)
  /-- `disk_write` (R225). -/
  | diskWrite (drive : Byte) (buffer : Word) (sector : Word) (count : Word)
  /-- `disk_ioctl` (R226). -/
  | diskIoctl (drive : Byte) (cmd : Byte) (buf : Word)
  /-- `bind` (R220). -/
  | bind (drive : Byte)
  /-- `acquire` (47_bus_dma.md R235). -/
  | acquire
  /-- `release` (R236). -/
  | release
deriving DecidableEq, Repr, Inhabited

end Sys2Proof
end

