-- ==== Sys2Proof/WellFormed.lean ====
section
/-! DEFINITION. When an instruction is well formed: a frame's checksum field is the one of its first five bytes
(30_encoding.md R80, R81), and a checksum operation has operands of the length the spec gives (40_crc.md R101, R105). -/

namespace Sys2Proof

/-- The well-formedness check. -/
def Instr.wellFormed : Instr → Bool
  | .cmd55 rca crc => crc == frameCrc 55 (rcaArg rca)
  | .acmd41 arg crc => crc == frameCrc 41 arg
  | .cmd7 rca crc => crc == frameCrc 7 (rcaArg rca)
  | .cmd18 arg crc => crc == frameCrc 18 arg
  | .cmd25 arg crc => crc == frameCrc 25 arg
  | .computeCrc7 bytes => bytes.length == 5
  | .computeCrc16 block => block.length == 512
  | .cmd0 | .cmd8 | .cmd2 | .cmd3 | .acmd6 | .cmd6 | .cmd58 | .cmd12 => true
  | .ccSdOp _ _ | .ccSectorSet _ _ | .ccRead _ _ | .ccWrite _ _ | .ccConfigSet _ _ | .ccConfigGet _ _ => true
  | .executeCommand _ _ | .sendAppCommand _ _ _ | .init | .exit | .cardInit => true
  | .cardRead _ _ _ | .cardWrite _ _ _ | .cardStop | .setByteswap _ | .probe => true
  | .diskInitialize _ | .diskStatus _ | .diskRead _ _ _ _ | .diskWrite _ _ _ _ | .diskIoctl _ _ _ => true
  | .bind _ | .acquire | .release => true

end Sys2Proof
end

