-- ==== Sys2Proof/Decode.lean ====
section
/-! DEFINITION. The decoder of host-port requests, total on any bytes, and the encoder. A frame request is the 48-bit
frame of 30_encoding.md R80; a code request is one code byte of R88 or R90 followed by its operands in the order the
spec lists them, each most significant byte first (DESIGN CHOICE, log 5). -/

namespace Sys2Proof

/-- Why a request is rejected. -/
inductive DecodeError where
  /-- Fewer bytes than the instruction has. -/
  | truncated
  /-- The two leading bits of a frame are not `01` (R80). -/
  | badStartBits
  /-- The last bit of a frame is not 1 (R80). -/
  | badStopBit
  /-- A command index that has no row (R91). -/
  | noSuchIndex
  /-- An argument that the row of this index does not have (R87). -/
  | badArgument
  /-- A checksum field that a row of fixed bits does not have (R81). -/
  | badChecksum
  /-- A code that is neither of R88 nor of R90 (R92, R93). -/
  | noSuchCode
  /-- A bit outside an operand's field is set. -/
  | reservedBits
deriving DecidableEq, Repr, Inhabited

/-- A row all of whose bits are fixed: the argument and the checksum must be the row's. -/
def fixedRow (i : Instr) (wantArg : Word) (wantCrc : BitVec 7) (arg : Word) (crc : BitVec 7) : Except DecodeError Instr :=
  if arg ≠ wantArg then .error .badArgument
  else if crc ≠ wantCrc then .error .badChecksum
  else .ok i

/-- A row whose argument is an RCA in the upper half, zeros below (R87). -/
def rcaRow (mk : Half → BitVec 7 → Instr) (arg : Word) (crc : BitVec 7) : Except DecodeError Instr :=
  if arg.extractLsb' 0 16 ≠ 0 then .error .badArgument
  else .ok (mk (arg.extractLsb' 16 16) crc)

/-- The rows of format SDCMD48 by command index. -/
def decodeFields (idx : BitVec 6) (arg : Word) (crc : BitVec 7) : Except DecodeError Instr :=
  match idx.toNat with
  | 0 => fixedRow .cmd0 0 0x4A arg crc
  | 2 => fixedRow .cmd2 0 0x26 arg crc
  | 3 => fixedRow .cmd3 0 0x10 arg crc
  | 6 => if arg = argAcmd6 then fixedRow .acmd6 argAcmd6 0x65 arg crc else fixedRow .cmd6 argCmd6 0x14 arg crc
  | 7 => rcaRow .cmd7 arg crc
  | 8 => fixedRow .cmd8 argCmd8 0x43 arg crc
  | 12 => fixedRow .cmd12 0 0x30 arg crc
  | 18 => .ok (.cmd18 arg crc)
  | 25 => .ok (.cmd25 arg crc)
  | 41 => .ok (.acmd41 arg crc)
  | 55 => rcaRow .cmd55 arg crc
  | 58 => fixedRow .cmd58 0 0x7E arg crc
  | _ => .error .noSuchIndex

/-- The decoder of format SDCMD48 (R80). -/
def decodeFrame : List Byte → Except DecodeError Instr
  | b0 :: b1 :: b2 :: b3 :: b4 :: b5 :: _ =>
    if b0.extractLsb' 6 2 ≠ 1#2 then .error .badStartBits
    else if b5.extractLsb' 0 1 ≠ 1#1 then .error .badStopBit
    else decodeFields (b0.extractLsb' 0 6) (wordOf b1 b2 b3 b4) (b5.extractLsb' 1 7)
  | _ => .error .truncated

/-- Two argument words of a cartridge command. -/
def decodeTwoWords (mk : Word → Word → Instr) : List Byte → Except DecodeError Instr
  | a :: b :: c :: d :: e :: f :: g :: h :: _ => .ok (mk (wordOf a b c d) (wordOf e f g h))
  | _ => .error .truncated

/-- Three operand words: a buffer address, an LBA and a count. -/
def decodeTransfer (mk : Word → Word → Word → Instr) : List Byte → Except DecodeError Instr
  | a :: b :: c :: d :: e :: f :: g :: h :: i :: j :: k :: l :: _ =>
    .ok (mk (wordOf a b c d) (wordOf e f g h) (wordOf i j k l))
  | _ => .error .truncated

/-- One drive number. -/
def decodeDrive (mk : Byte → Instr) : List Byte → Except DecodeError Instr
  | d :: _ => .ok (mk d)
  | _ => .error .truncated

/-- A drive number and a transfer. -/
def decodeDiskTransfer (mk : Byte → Word → Word → Word → Instr) : List Byte → Except DecodeError Instr
  | d :: rest => decodeTransfer (mk d) rest
  | _ => .error .truncated

/-- A list of `n` bytes. -/
def decodeBytes (n : Nat) (mk : List Byte → Instr) (bs : List Byte) : Except DecodeError Instr :=
  if bs.length < n then .error .truncated else .ok (mk (bs.take n))

/-- A command index in the low six bits of a byte, and an argument word. -/
def decodeExecute : List Byte → Except DecodeError Instr
  | i :: a :: b :: c :: d :: _ =>
    if i.extractLsb' 6 2 ≠ 0 then .error .reservedBits
    else .ok (.executeCommand (i.extractLsb' 0 6) (wordOf a b c d))
  | _ => .error .truncated

/-- A command index, an RCA and an argument word. -/
def decodeSendApp : List Byte → Except DecodeError Instr
  | i :: r :: t :: a :: b :: c :: d :: _ =>
    if i.extractLsb' 6 2 ≠ 0 then .error .reservedBits
    else .ok (.sendAppCommand (i.extractLsb' 0 6) (r ++ t) (wordOf a b c d))
  | _ => .error .truncated

/-- One bit in a byte. -/
def decodeBit (mk : Bool → Instr) : List Byte → Except DecodeError Instr
  | b :: _ => if b.extractLsb' 1 7 ≠ 0 then .error .reservedBits else .ok (mk (b.getLsbD 0))
  | _ => .error .truncated

/-- A drive, an ioctl code and a buffer address. -/
def decodeIoctl : List Byte → Except DecodeError Instr
  | d :: m :: a :: b :: c :: e :: _ => .ok (.diskIoctl d m (wordOf a b c e))
  | _ => .error .truncated

/-- The codes of 30_encoding.md R88 and R90 with their operands. -/
def decodeCodeOperands (code : Byte) (rest : List Byte) : Except DecodeError Instr :=
  match code.toNat with
  | 0x01 => decodeBytes 5 .computeCrc7 rest
  | 0x02 => decodeBytes 512 .computeCrc16 rest
  | 0x03 => decodeExecute rest
  | 0x04 => decodeSendApp rest
  | 0x10 => .ok .init
  | 0x11 => .ok .exit
  | 0x12 => .ok .cardInit
  | 0x13 => decodeTransfer .cardRead rest
  | 0x14 => decodeTransfer .cardWrite rest
  | 0x15 => .ok .cardStop
  | 0x16 => decodeBit .setByteswap rest
  | 0x20 => .ok .probe
  | 0x30 => decodeDrive .diskInitialize rest
  | 0x31 => decodeDrive .diskStatus rest
  | 0x32 => decodeDiskTransfer .diskRead rest
  | 0x33 => decodeDiskTransfer .diskWrite rest
  | 0x34 => decodeIoctl rest
  | 0x35 => decodeDrive .bind rest
  | 0x40 => .ok .acquire
  | 0x41 => .ok .release
  | 0x43 => decodeTwoWords .ccConfigSet rest
  | 0x49 => decodeTwoWords .ccSectorSet rest
  | 0x53 => decodeTwoWords .ccWrite rest
  | 0x63 => decodeTwoWords .ccConfigGet rest
  | 0x69 => decodeTwoWords .ccSdOp rest
  | 0x73 => decodeTwoWords .ccRead rest
  | _ => .error .noSuchCode

/-- The decoder of code requests. -/
def decodeCode : List Byte → Except DecodeError Instr
  | c :: rest => decodeCodeOperands c rest
  | _ => .error .truncated

/-- The decoder. Bytes after the instruction's last operand are not looked at. -/
def decode (r : Request) : Except DecodeError Instr :=
  match r.fmt with
  | .frame => decodeFrame r.bytes
  | .code => decodeCode r.bytes

/-- The frame with a given checksum field (30_encoding.md R80). -/
def encodeFrame (idx : BitVec 6) (arg : Word) (crc : BitVec 7) : Request :=
  ⟨.frame, headBytes idx arg ++ [crc ++ 1#1]⟩

/-- A code with its operand bytes. -/
def encodeCode (code : Byte) (operands : List Byte) : Request :=
  ⟨.code, code :: operands⟩

/-- The encoder: the request of an instruction. -/
def encode : Instr → Request
  | .cmd0 => encodeFrame 0 0 0x4A
  | .cmd8 => encodeFrame 8 argCmd8 0x43
  | .cmd55 rca crc => encodeFrame 55 (rcaArg rca) crc
  | .acmd41 arg crc => encodeFrame 41 arg crc
  | .cmd2 => encodeFrame 2 0 0x26
  | .cmd3 => encodeFrame 3 0 0x10
  | .cmd7 rca crc => encodeFrame 7 (rcaArg rca) crc
  | .acmd6 => encodeFrame 6 argAcmd6 0x65
  | .cmd6 => encodeFrame 6 argCmd6 0x14
  | .cmd58 => encodeFrame 58 0 0x7E
  | .cmd12 => encodeFrame 12 0 0x30
  | .cmd18 arg crc => encodeFrame 18 arg crc
  | .cmd25 arg crc => encodeFrame 25 arg crc
  | .ccSdOp a0 a1 => encodeCode 0x69 (wordBytes a0 ++ wordBytes a1)
  | .ccSectorSet a0 a1 => encodeCode 0x49 (wordBytes a0 ++ wordBytes a1)
  | .ccRead a0 a1 => encodeCode 0x73 (wordBytes a0 ++ wordBytes a1)
  | .ccWrite a0 a1 => encodeCode 0x53 (wordBytes a0 ++ wordBytes a1)
  | .ccConfigSet a0 a1 => encodeCode 0x43 (wordBytes a0 ++ wordBytes a1)
  | .ccConfigGet a0 a1 => encodeCode 0x63 (wordBytes a0 ++ wordBytes a1)
  | .computeCrc7 bytes => encodeCode 0x01 bytes
  | .computeCrc16 block => encodeCode 0x02 block
  | .executeCommand idx arg => encodeCode 0x03 ((0#2 ++ idx) :: wordBytes arg)
  | .sendAppCommand idx rca arg => encodeCode 0x04 ((0#2 ++ idx) :: (halfBytes rca ++ wordBytes arg))
  | .init => encodeCode 0x10 []
  | .exit => encodeCode 0x11 []
  | .cardInit => encodeCode 0x12 []
  | .cardRead dest lba count => encodeCode 0x13 (wordBytes dest ++ wordBytes lba ++ wordBytes count)
  | .cardWrite src lba count => encodeCode 0x14 (wordBytes src ++ wordBytes lba ++ wordBytes count)
  | .cardStop => encodeCode 0x15 []
  | .setByteswap on => encodeCode 0x16 [0#7 ++ BitVec.ofBool on]
  | .probe => encodeCode 0x20 []
  | .diskInitialize drive => encodeCode 0x30 [drive]
  | .diskStatus drive => encodeCode 0x31 [drive]
  | .diskRead drive buffer sector count =>
    encodeCode 0x32 (drive :: (wordBytes buffer ++ wordBytes sector ++ wordBytes count))
  | .diskWrite drive buffer sector count =>
    encodeCode 0x33 (drive :: (wordBytes buffer ++ wordBytes sector ++ wordBytes count))
  | .diskIoctl drive cmd buf => encodeCode 0x34 (drive :: cmd :: wordBytes buf)
  | .bind drive => encodeCode 0x35 [drive]
  | .acquire => encodeCode 0x40 []
  | .release => encodeCode 0x41 []

/-- The code bytes of a table word: the first byte is its least significant one; `k` bytes, then `fill` zero bytes. -/
def tableBytes : Nat → Nat → Nat → List Byte
  | 0, fill, _ => List.replicate fill 0
  | k + 1, fill, w => BitVec.ofNat 8 w :: tableBytes k fill (w / 256)

/-- The request of an instruction whose bits are numbered as the opcode table numbers them: a 48-bit row is one
frame whose bit 47 is sent first, any other row a code, its operands zeros (longest instruction: 513 bytes). -/
def tableRequest (nbits w : Nat) : Request :=
  if nbits = 48 then
    ⟨.frame, [BitVec.ofNat 8 (w / 2 ^ 40), BitVec.ofNat 8 (w / 2 ^ 32), BitVec.ofNat 8 (w / 2 ^ 24),
      BitVec.ofNat 8 (w / 2 ^ 16), BitVec.ofNat 8 (w / 2 ^ 8), BitVec.ofNat 8 w]⟩
  else ⟨.code, tableBytes (nbits / 8) (513 - nbits / 8) w⟩

/-- The instruction the decoder reads from a word of the opcode table. -/
def decodeTableWord (nbits w : Nat) : Option Instr :=
  (decode (tableRequest nbits w)).toOption

end Sys2Proof
end

