-- ==== Sys2Proof/Machine/State.lean ====
section
/-! DEFINITION. The state of SDSEQ as plain data (10_state.md), the error causes, faults and refusals, the event
history, and the state after reset (R46, R285). -/

namespace Sys2Proof.Machine

/-- The error causes of a host operation (60_exceptions.md R260). -/
inductive Cause where
  | noCartridge
  | probe
  | timeout
  | absent
  | mismatch
  | crc
  | illegal
  | malformed
  | write
  | cart
  | notReady
  | param
deriving DecidableEq, Repr, Inhabited

/-- Reads the spec calls a model error (93_implementation_defined.md U11). -/
inductive Fault where
  /-- A byte of the response buffer at or above `resp_len` was read (R34). Raised by CMD3 on the SPI flavour, whose
  response has no address byte. Safe: the machine stops where the spec gives no value. -/
  | respBeyondLength
  /-- The bus was released with no configuration captured (R23). Raised by `release`; no run from reset reaches it.
  Safe: the machine stops where the spec gives no value. -/
  | nativeConfigUnsaved
deriving DecidableEq, Repr, Inhabited

/-- Operations the spec refuses: it gives them no meaning (00_scope.md R11). -/
inductive Refusal where
  /-- An instruction that has no meaning yet. Raised by an arm of `exec`. Safe. -/
  | notModelled (mnemonic : String)
  /-- The request decodes to no instruction (R91, R92). Raised by `step`. Safe. -/
  | badRequest (e : DecodeError)
  /-- The instruction is not well formed: a checksum field or a length is wrong (R80). Raised by `step`. Safe. -/
  | illFormed
  /-- A register whose address passes the top of `PI` space (00_scope.md R7). Raised by every register access. Safe. -/
  | regAddrOverflow
  /-- A cartridge access or a command with the bus not acquired (R125, R186, R187; U1). Raised by the frames, the
  cartridge commands, `execute_command` and `send_app_command` outside a bracket. Safe: the spec gives no effect. -/
  | busNotOwned
  /-- An acquire inside a bracket (R238). Raised by every operation that opens one, when one is open. Safe. -/
  | nestedAcquire
  /-- An acquire with no cartridge bound: the precondition of R235. Raised by `acquire`. Safe. -/
  | acquireWithoutCartridge
  /-- A release with no matching acquire (R236). Raised by `release`. Safe. -/
  | releaseWithoutAcquire
  /-- The command engine or a data lane on a family whose cartridge does the framing, which has none (R126, R191).
  Raised by the frames, `execute_command` and `send_app_command`. Safe. -/
  | engineOffloaded
  /-- A command with no row in the response-kind table (R91, R127; U13). Raised by `execute_command` and
  `send_app_command`. Safe. -/
  | noResponseKind
  /-- The data path of the SPI flavour (R126, R162; U9). Raised by the commands that end
  in a data phase or a busy wait, before their frame, by the transfers, and by `card_stop` and `exit` with a stream open
  (log 22). Safe. -/
  | spiDataPath
  /-- A transfer of no blocks (U7). Raised by `card_read`, `card_write`, `disk_read` and `disk_write`. Safe. -/
  | countZero
  /-- A transfer past the last LBA (R97; U7). Raised by `card_read` and `card_write`; the adapter answers it first. Safe. -/
  | lbaOverflow
  /-- A caller buffer that wraps past the top of RAM (R51; U6). Raised by the same four as `countZero`. Safe. -/
  | bufferWraps
  /-- A caller buffer that overlaps the staging buffer (U6). Raised by the same four. Safe. -/
  | bufferOverlapsStage
  /-- A standard-capacity LBA whose byte address does not fit 32 bits (R89; U7). Raised by the
  same four. Safe. -/
  | lbaBeyondByteAddress
  /-- The byte swap on a family without the control (R198; U19). Raised by `set_byteswap`. Safe. -/
  | noSwapControl
deriving DecidableEq, Repr, Inhabited

/-- Why an operation ends other than by its normal exit. -/
inductive Halt where
  | cause (c : Cause)
  | refuse (r : Refusal)
  | fault (f : Fault)
deriving DecidableEq, Repr, Inhabited

/-- The adapter's result codes (30_encoding.md R98). -/
inductive DiskResult where
  | ok
  | notReady
  | error
  | paramError
deriving DecidableEq, Repr, Inhabited

/-- What the last host operation returned (R11): the values its rule lists, or the cause of its error. -/
inductive HostResult where
  | none
  | ok
  | error (c : Cause)
  | crc7 (v : Byte)
  | crc16 (lanes : Lanes) (trailer : List Byte)
  | version (v2 : Bool)
  | cart (r0 r1 : Word)
  | bufferSize (n : Nat)
  | family (f : Family)
  | status (v : Byte)
  | disk (r : DiskResult)
deriving DecidableEq, Repr, Inhabited

/-- The two PI domains and their four fields (R21), as `PiCfgWrite` names them. -/
inductive Domain where
  | d1
  | d2
deriving DecidableEq, Repr, Inhabited

inductive PiField where
  | lat
  | pwd
  | pgs
  | rls
deriving DecidableEq, Repr, Inhabited

/-- What a `DatTx` event drives: one nibble of framing, or bytes. -/
inductive TxData where
  | nibble (n : Nibble)
  | bytes (bs : List Byte)
deriving DecidableEq, Repr, Inhabited

/-- The events of 00_scope.md R10. -/
inductive Event where
  | piCfgWrite (d : Domain) (p : PiField) (v : PiParam)
  | regRead (addr : Word) (v : Word)
  | regWrite (addr : Word) (v : Word)
  | cmdTx (b : Byte)
  | cmdRxBit (b : Bool)
  | cmdRx (b : Byte)
  | datTx (d : TxData)
  | datRx (n : Nat) (bs : List Byte)
  | datRxBit (b : Bool)
  | dmaToCart (ram : Nat) (cart : Word) (len : Nat)
  | dmaFromCart (cart : Word) (ram : Nat) (len : Nat)
  | cacheWb (addr : Nat) (len : Nat)
  | cacheWbInv (addr : Nat) (len : Nat)
  /-- A cartridge command and its answer: no result words where it ends in an error. -/
  | cartCmd (code : Byte) (a0 a1 : Word) (answer : Option (Word × Word))
deriving DecidableEq, Repr, Inhabited

/-- `S.sess.bus_width` (R27). -/
inductive BusWidth where
  | w1
  | w4
deriving DecidableEq, Repr, Inhabited

/-- `S.sess.clock_mode.speed` (R28). -/
inductive Speed where
  | slow
  | fast
deriving DecidableEq, Repr, Inhabited

/-- `S.sess.clock_mode.bitlen` (R28). -/
inductive BitLen where
  | b1
  | b8
deriving DecidableEq, Repr, Inhabited

/-- `S.sess.mode` (R31). -/
inductive AccessMode where
  | none
  | blockRead
  | blockWrite
deriving DecidableEq, Repr, Inhabited

/-- `SdCardSession` (R26 to R32). -/
structure Session where
  ready : Bool
  mode : AccessMode
  busWidth : BusWidth
  speed : Speed
  bitlen : BitLen
  rca : Half
  highCapacity : Bool
  lastLba : Word
deriving DecidableEq, Repr, Inhabited

/-- `S.bus_owner` (R25), with the family a bracket was taken for (R240c; DEDUCED, log 28). -/
inductive BusOwner where
  | native
  | cart (f : Family)
deriving DecidableEq, Repr, Inhabited

/-- The probe machine of `seq` (R40a, R215). -/
inductive ProbeSeq where
  | unprobed
  | probing (i : Nat)
  | bound (f : Family)
  | noCart
deriving DecidableEq, Repr, Inhabited

/-- The bring-up machine of `seq` (R40b); `rest` between operations (DESIGN CHOICE, log 39). -/
inductive BringUpSeq where
  | rest
  | idle
  | volt
  | opcond (n : Nat)
  | ocr
  | cid
  | rca
  | select
  | width
  | speed
  | done
  | fail
deriving DecidableEq, Repr, Inhabited

/-- `seq` (R40): the probe machine and the bring-up machine. The access machine is the session's mode. -/
structure Seq where
  probe : ProbeSeq
  bringUp : BringUpSeq
deriving DecidableEq, Repr, Inhabited

/-- One byte-addressed memory: the listed (address, byte) pairs. -/
abbrev Memory := List Host.Cell

/-- One present line of the CPU cache (20_memory.md R72). -/
structure CacheLine where
  base : Nat
  dirty : Bool
  data : List Byte
deriving DecidableEq, Repr, Inhabited

/-- What the environment will answer (10_state.md R43), one stream a source, the next answer first. The last listed
answer stands for every later one; a stream with nothing listed answers with free values (DESIGN CHOICE, log 2). -/
structure Env where
  /-- Reads of `STATUS`. -/
  status : List Word
  /-- Reads of `ID`. -/
  ident : List Word
  /-- Reads of every other register, the result words among them. -/
  words : List Word
  /-- The card's output on the command line, one bit a clock. -/
  cmdLine : List Bool
  /-- The data lanes, one nibble a clock. -/
  datLine : List Nibble
  /-- Samples of the PI controller's status. -/
  pi : List PiStatus
  /-- Bytes an offloaded cartridge puts into its sector buffer. -/
  sector : List Byte
  /-- Bytes a DMA whose completion wait timed out leaves at its destination (U4). -/
  junk : List Byte
  /-- What the cache does on its own at each point where it may act (R72). -/
  cacheActs : List (List CacheAct)
deriving DecidableEq, Repr, Inhabited

/-- The registers of the PI controller's DMA engine (47_bus_dma.md R244): the RAM address, the cartridge address, and a
length less one for each direction. -/
structure DmaEngine where
  ramAddr : Word
  cartAddr : Word
  toRamLen : Word
  toCartLen : Word
deriving DecidableEq, Repr, Inhabited

/-- The state of the block. -/
structure State where
  /-- The parameters (R6, R47); no step writes them. -/
  cfg : Params
  /-- The environment's coming answers (R43). -/
  env : Env
  /-- How many free values have been used. -/
  freeCount : Nat
  /-- The requests the host will make, in order (R9; DESIGN CHOICE, log 4). -/
  port : List Request
  /-- What the last operation returned (R11; DESIGN CHOICE, log 33). -/
  result : HostResult
  /-- The event history, the newest event first (R10). -/
  hist : List Event
  /-- `S.probed` (R20). -/
  probed : Bool
  /-- `S.cart_type`, `NONE` as `none` (R20). -/
  cartType : Option Family
  /-- `seq` (R40). -/
  seq : Seq
  /-- `PI.dom` (R22). -/
  piDom : BusConfig
  /-- `S.native_cfg` (R23). -/
  nativeCfg : BusConfig
  /-- `S.native_saved` (R23). -/
  nativeSaved : Bool
  /-- `S.bus_owner` (R25). -/
  busOwner : BusOwner
  /-- `S.sess` (R26 to R32). -/
  sess : Session
  /-- The MODEL's own: the family's `init` succeeded and no `exit` has run since, the precondition of `card_init`
  (43_card_sequencer.md R160, 44_transport_handlers.md R188, R189). R45 lists no such flag: it is read and written only where
  the parameter `initRequired` is true, which it is not at reset (DEDUCED, log 35). -/
  initDone : Bool
  /-- `frame`, the bytes of the last frame built (R33). -/
  frame : List Byte
  /-- `resp[0 .. resp_len - 1]`, the bytes the last command filled (R34). -/
  resp : List Byte
  /-- The engine's `app` input: the last frame sent was the application prefix (R115; DESIGN CHOICE, log 15). -/
  app : Bool
  /-- `crc7_acc` after the last frame's checksum or `compute_crc7` (R35; DESIGN CHOICE, log 34). -/
  crc7Acc : BitVec 7
  /-- `crc16_acc` after the last computation (R35; DESIGN CHOICE, log 34). -/
  crc16Acc : Lanes
  /-- `spin_count` (R41). -/
  spinCount : Nat
  /-- `S.byteswap` (R37). -/
  byteswap : Bool
  /-- `S.bind[d]`, true for BOUND (R38). -/
  bound : List Bool
  /-- `S.disk_status[d].NOINIT` (R39). -/
  noinit : List Bool
  /-- `Phys`, the physical view of RAM (20_memory.md R72). -/
  phys : Memory
  /-- The lines present in the CPU cache (R44, R72). -/
  cache : List CacheLine
  /-- `CB`, the cartridge's sector buffer by offset (47_bus_dma.md R244). -/
  cb : Memory
  /-- The DMA engine's registers as the block last wrote them (R244). -/
  dma : DmaEngine
deriving DecidableEq, Repr, Inhabited

/-- The session at reset (R46); the value of `last_lba` is the model's (DESIGN CHOICE, log 8). -/
def Session.reset : Session where
  ready := false
  mode := .none
  busWidth := .w1
  speed := .slow
  bitlen := .b8
  rca := 0
  highCapacity := false
  lastLba := 0

/-- A configuration of zeros: `S.native_cfg` before the capture (DESIGN CHOICE, log 8). -/
def zeroTiming : DomainTiming := ⟨⟨0⟩, ⟨0⟩, ⟨0⟩, ⟨0⟩⟩

/-- The state right after reset (10_state.md R46, 70_reset_and_hazards.md R285). DESIGN CHOICE: the environment, the
queue, the result, the accumulators, the memories, the cache and the DMA engine's registers are empty or zero (log 2, 4,
8, 9, 10, 15, 33, 34, 46), and no `init` has succeeded (log 35). -/
def State.reset : State where
  cfg := Config.params
  env := ⟨[], [], [], [], [], [], [], [], []⟩
  freeCount := 0
  port := []
  result := .none
  hist := []
  probed := false
  cartType := none
  seq := ⟨.unprobed, .rest⟩
  piDom := Config.openLaunch
  nativeCfg := ⟨zeroTiming, zeroTiming⟩
  nativeSaved := false
  busOwner := .native
  sess := Session.reset
  initDone := false
  frame := []
  resp := []
  app := false
  crc7Acc := 0
  crc16Acc := ⟨0, 0, 0, 0⟩
  spinCount := 0
  byteswap := false
  bound := [false]
  noinit := [true]
  phys := []
  cache := []
  cb := []
  dma := ⟨0, 0, 0, 0⟩

end Sys2Proof.Machine
end

