-- ==== Sys2Proof/Machine/Flags.lean ====
section
/-! DEFINITION. Every test the block makes on a status bit or a response (10_state.md R45), the response kinds
(41_command_engine.md R126, R127) and the response checks (R122). -/

namespace Sys2Proof.Machine

/-- The SD response kinds, written as in 30_encoding.md R83. -/
inductive SdKind where
  | none
  | sdr1
  | sdr1b
  | sdr2
  | sdr3
  | sdr6
  | sdr7
deriving DecidableEq, Repr, Inhabited

/-- `RESP_KIND(idx, app)`; no kind where the table has no row (R127). -/
def respKind (idx : BitVec 6) (app : Bool) : Option SdKind :=
  match idx.toNat, app with
  | 0, false => some .none
  | 8, false => some .sdr7
  | 55, false => some .sdr1
  | 41, true => some .sdr3
  | 58, false => some .sdr3
  | 2, false => some .sdr2
  | 3, false => some .sdr6
  | 7, false => some .sdr1b
  | 6, true => some .sdr1
  | 6, false => some .sdr1
  | 12, false => some .sdr1b
  | 18, false => some .sdr1
  | 25, false => some .sdr1
  | _, _ => none

/-- The bytes of a response of one kind on the native wire (R83, R127). -/
def SdKind.nativeLength : SdKind → Nat
  | .none => 0
  | .sdr2 => 17
  | .sdr1 | .sdr1b | .sdr3 | .sdr6 | .sdr7 => 6

/-- The bytes of a response on the SPI flavour: one, or five for CMD8 and CMD58 (R126). -/
def spiLength (idx : BitVec 6) : Nat :=
  if idx = 8 ∨ idx = 58 then 5 else 1

/-- How many bytes answer a command. -/
def respLength (wire : Wire) (idx : BitVec 6) (kind : SdKind) : Nat :=
  match wire with
  | .sdNative => kind.nativeLength
  | .spi => spiLength idx

/-- Check (a): the index echo of a native response (R122a). -/
def indexOk (kind : SdKind) (idx : BitVec 6) (resp : List Byte) : Bool :=
  match kind with
  | .none => true
  | .sdr1 | .sdr1b | .sdr6 | .sdr7 => (resp.getD 0 0).extractLsb' 0 6 == idx
  | .sdr2 | .sdr3 => resp.getD 0 0 == 0x3F

/-- The transmission bit of a native response is 0 and its end bit 1 (R260, R269). -/
def fixedBitsOk (kind : SdKind) (resp : List Byte) : Bool :=
  match kind with
  | .none => true
  | .sdr1 | .sdr1b | .sdr2 | .sdr3 | .sdr6 | .sdr7 =>
    !(resp.getD 0 0).getLsbD 6 && (resp.getD (kind.nativeLength - 1) 0).getLsbD 0

/-- Check (b): the checksum of a native response that carries one (R122b). It is a function of the bytes and leaves
`crc7_acc` as the frame's checksum left it (R35, R100; DESIGN CHOICE, log 34). -/
def checksumOk (kind : SdKind) (resp : List Byte) : Bool :=
  match kind with
  | .sdr1 | .sdr1b | .sdr6 | .sdr7 => resp.getD 5 0 == computeCrc7 (resp.take 5)
  | .none | .sdr2 | .sdr3 => true

/-- Check (c), the card's own flags in an SDR1 answer: illegal command and command checksum error (R84, R122c). Where a
card sets both, illegal command is seen unless a parameter asks for R269's order (DESIGN CHOICE, log 18). An SDR7 answer is
looked at for no flag (R122, R127; DEDUCED, log 53). -/
def cardFlags (crcFirst : Bool) (kind : SdKind) (resp : List Byte) : Option Cause :=
  match kind with
  | .sdr1 | .sdr1b =>
    let illegal := (resp.getD 2 0).getLsbD 6
    let crc := (resp.getD 2 0).getLsbD 7
    if crc && (crcFirst || !illegal) then some .crc
    else if illegal then some .illegal
    else none
  | .none | .sdr2 | .sdr3 | .sdr6 | .sdr7 => none

/-- The response checks in their order, on the native wire (R122, R269). The SPI flavour has no index echo and no
checksum byte, and its status byte is looked at by the bring-up (R126, R162; DEDUCED, log 22). -/
def responseFault (p : Params) (wire : Wire) (kind : SdKind) (idx : BitVec 6) (resp : List Byte) : Option Cause :=
  match wire with
  | .spi => none
  | .sdNative =>
    if p.checkRespIndex && p.checkFixedBits && !fixedBitsOk kind resp then some .malformed
    else if p.checkRespIndex && !indexOk kind idx resp then some .malformed
    else if p.checkRespCrc7 && !checksumOk kind resp then some .crc
    else cardFlags p.crcFlagFirst kind resp

/-- `STATUS.busy` (R45a). -/
def statusBusy (q : FamilyParams) (w : Word) : Bool := w.getLsbD q.busyBit

/-- `STATUS.error` (R45a). -/
def statusError (q : FamilyParams) (w : Word) : Bool := w.getLsbD q.errorBit

/-- The ready bit of an ACMD41 answer's first OCR byte (R45b). -/
def ocrReady (b : Byte) : Bool := b.getLsbD 7

/-- The capacity bit, mask `0x40` of the first OCR byte (R45c). -/
def ocrHighCapacity (b : Byte) : Bool := b.getLsbD 6

/-- The CMD8 echo: the voltage nibble and the check pattern (R45d, R137). -/
def echoOk (b3 b4 : Byte) : Bool := b3.extractLsb' 0 4 == 1#4 && b4 == 0xAA

/-- The illegal-command bit of an SPI status byte (R162). -/
def spiIllegal (b : Byte) : Bool := b.getLsbD 2

/-- The identifier test (R203, R212). -/
def identifierMatches (p : Params) (f : Family) (id : Word) : Bool :=
  (id &&& p.magicMask f) == p.magic f

/-- What the CRC status token of a written block says: no cause if accepted (R173). -/
def tokenFault (tok : BitVec 3) : Option Cause :=
  if tok = 0b101 then some .crc
  else if tok = 0b110 then some .write
  else if tok = 0b010 then none
  else some .malformed

/-- The value `SD_CFG` holds for a width, a speed and a bit length: one mask for each of four lanes, fast and single-bit,
no bit for the others (R193; DESIGN CHOICE, log 48). -/
def sdCfgWord (q : FamilyParams) (width : BusWidth) (speed : Speed) (len : BitLen) : Word :=
  (if width = .w4 then q.wideBits else 0) ||| (if speed = .fast then q.fastBits else 0)
    ||| (if len = .b1 then q.oneBits else 0)

end Sys2Proof.Machine
end

