-- ==== Sys2Proof/Machine/Mem.lean ====
section
/-! DEFINITION. Byte memory in canonical form, and the CPU cache between the two views of RAM (20_memory.md R72 to
R74). -/

namespace Sys2Proof.Machine

/-- What an address with nothing listed reads as (DESIGN CHOICE, log 10). -/
def blankByte : Byte := 0

/-- Read one byte. -/
def Memory.read : Memory → Nat → Byte
  | [], _ => blankByte
  | (k, v) :: rest, a => if k = a then v else Memory.read rest a

/-- Write one byte, keeping the addresses rising and listing no blank byte. -/
def Memory.write : Memory → Nat → Byte → Memory
  | [], a, v => if v = blankByte then [] else [(a, v)]
  | (k, w) :: rest, a, v =>
    if a < k then (if v = blankByte then (k, w) :: rest else (a, v) :: (k, w) :: rest)
    else if a = k then (if v = blankByte then rest else (a, v) :: rest)
    else (k, w) :: Memory.write rest a v

/-- Write bytes at ascending addresses (00_scope.md R8, `MemWrite`). -/
def Memory.writeBytes (m : Memory) (a : Nat) : List Byte → Memory
  | [] => m
  | b :: bs => Memory.writeBytes (m.write a b) (a + 1) bs

/-- The `n` bytes from an address upward (00_scope.md R8, `MemRead`). -/
def Memory.readBytes (m : Memory) (a n : Nat) : List Byte :=
  (List.range n).map fun j => m.read (a + j)

/-- Every listed address is at least `lo`, the addresses rise and no listed byte is blank. -/
def Memory.wfFrom (lo : Nat) : Memory → Bool
  | [] => true
  | (k, v) :: rest => decide (lo ≤ k) && v != blankByte && Memory.wfFrom (k + 1) rest

/-- The canonical form. -/
def Memory.wf (m : Memory) : Bool := Memory.wfFrom 0 m

/-- `line(a)`: the base of the line of an address (R72). -/
def lineBase (size a : Nat) : Nat := a - a % size

/-- The line of the cache with a given base, if present. -/
def findLine (cache : List CacheLine) (base : Nat) : Option CacheLine :=
  cache.find? fun l => l.base == base

/-- The host view of one byte of RAM: the line if present, else the physical byte (R72). -/
def State.hostByte (s : State) (a : Nat) : Byte :=
  match findLine s.cache (lineBase s.cfg.cacheLine a) with
  | some l => l.data.getD (a - l.base) blankByte
  | none => s.phys.read a

/-- The host view of `n` bytes. -/
def State.hostBytes (s : State) (a n : Nat) : List Byte :=
  (List.range n).map fun j => s.hostByte (a + j)

/-- A host access makes the line present, as a clean copy, if it is absent (R72; DEDUCED, log 12). Every address counts as
cached, one in an uncached view of RAM (47_bus_dma.md R241) too (DESIGN CHOICE, log 12). -/
def State.fillLine (s : State) (a : Nat) : State :=
  match findLine s.cache (lineBase s.cfg.cacheLine a) with
  | some _ => s
  | none =>
    { s with cache := ⟨lineBase s.cfg.cacheLine a, false,
        s.phys.readBytes (lineBase s.cfg.cacheLine a) s.cfg.cacheLine⟩ :: s.cache }

/-- The lines after a host store of one byte: the line of the address becomes dirty and holds the byte. -/
def storeInLines (base a : Nat) (v : Byte) (cache : List CacheLine) : List CacheLine :=
  cache.map fun l => if l.base = base then { l with dirty := true, data := l.data.set (a - l.base) v } else l

/-- A host store of one byte (R72). -/
def State.hostStore (s : State) (a : Nat) (v : Byte) : State :=
  let t := s.fillLine a
  { t with cache := storeInLines (lineBase t.cfg.cacheLine a) a v t.cache }

/-- Host stores of bytes at ascending addresses. -/
def State.hostStoreBytes (s : State) (a : Nat) : List Byte → State
  | [] => s
  | b :: bs => State.hostStoreBytes (s.hostStore a b) (a + 1) bs

/-- Host loads of `n` bytes make their lines present. -/
def State.touchBytes (s : State) (a : Nat) : Nat → State
  | 0 => s
  | n + 1 => State.touchBytes (s.fillLine a) (a + 1) n

/-- One 64-bit move of the staging copy, as eight byte moves (20_memory.md R60). -/
def State.move8 (s : State) (src dst : Nat) : State :=
  (s.touchBytes src 8).hostStoreBytes dst (s.hostBytes src 8)

/-- A line overlaps `[a, a + n)`. -/
def CacheLine.covers (size a n : Nat) (l : CacheLine) : Bool :=
  decide (n ≠ 0) && decide (l.base < a + n) && decide (a < l.base + size)

/-- Physical RAM after the dirty ones among the chosen lines are written back. -/
def writeBackLines (pick : CacheLine → Bool) (cache : List CacheLine) (m : Memory) : Memory :=
  cache.foldl (fun m l => if l.dirty && pick l then m.writeBytes l.base l.data else m) m

/-- The lines with the chosen ones clean. -/
def cleanLines (pick : CacheLine → Bool) (cache : List CacheLine) : List CacheLine :=
  cache.map fun l => if pick l then { l with dirty := false } else l

/-- `CacheWb(a, n)` (R73). -/
def State.cacheWb (s : State) (a n : Nat) : State :=
  { s with
    phys := writeBackLines (CacheLine.covers s.cfg.cacheLine a n) s.cache s.phys
    cache := cleanLines (CacheLine.covers s.cfg.cacheLine a n) s.cache }

/-- `CacheWbInv(a, n)` (R74). -/
def State.cacheWbInv (s : State) (a n : Nat) : State :=
  { s with
    phys := writeBackLines (CacheLine.covers s.cfg.cacheLine a n) s.cache s.phys
    cache := s.cache.filter fun l => !CacheLine.covers s.cfg.cacheLine a n l }

/-- One act of the cache on its own: it writes a dirty line back, or drops a clean one (R72). -/
def State.cacheAct (s : State) : CacheAct → State
  | .writeBack b =>
    { s with
      phys := writeBackLines (fun l => l.base == b) s.cache s.phys
      cache := cleanLines (fun l => l.base == b) s.cache }
  | .drop b => { s with cache := s.cache.filter fun l => !(l.base == b && !l.dirty) }

end Sys2Proof.Machine
end

