-- ==== Sys2Proof/Machine/Ops.lean ====
section
/-! DEFINITION. The shared operations every meaning is made of: the operation type, the environment's answers, the
bus bracket, register accesses, bounded waits, the cartridge command channel, the SD port, DMA and sector moves, and
the one error exit (60_exceptions.md R270). -/

namespace Sys2Proof.Machine

/-- An operation: it ends in a value, or in a halt, and in either case says what the state is then. -/
abbrev Op (α : Type) := EStateM Halt State α

/-- Read something of the state. -/
def get' {α : Type} (f : State → α) : Op α := fun s => .ok (f s) s

/-- Change the state. -/
def upd (f : State → State) : Op Unit := fun s => .ok () (f s)

/-- `raise <Error>` (00_scope.md R8): end with a cause. -/
def raise {α : Type} (c : Cause) : Op α := fun s => .error (.cause c) s

/-- End with a refusal (00_scope.md R11). -/
def refuse {α : Type} (r : Refusal) : Op α := fun s => .error (.refuse r) s

/-- End with a fault (93_implementation_defined.md U11). -/
def faultWith {α : Type} (f : Fault) : Op α := fun s => .error (.fault f) s

/-- Run an operation and have its cause, if it ends in one, as a value. -/
def attempt {α : Type} (x : Op α) : Op (Except Cause α) := fun s =>
  match x s with
  | .ok a t => .ok (.ok a) t
  | .error (.cause c) t => .ok (.error c) t
  | .error (.refuse r) t => .error (.refuse r) t
  | .error (.fault f) t => .error (.fault f) t

/-- Best effort: run it once and ignore its own failure (60_exceptions.md R271). -/
def bestEffort {α : Type} (x : Op α) : Op Unit := do
  let _ ← attempt x
  pure ()

/-- Give a caught outcome back. -/
def rethrow {α : Type} : Except Cause α → Op α
  | .ok a => pure a
  | .error c => raise c

/-- Do an operation `n` times and collect what it answers. -/
def many {α : Type} (one : Op α) : Nat → Op (List α)
  | 0 => pure []
  | n + 1 => do
    let a ← one
    let rest ← many one n
    pure (a :: rest)

/-- Do an operation for each element of a list, in order. -/
def forEach {α : Type} (act : α → Op Unit) : List α → Op Unit
  | [] => pure ()
  | a :: rest => do
    act a
    forEach act rest

/-- Do an operation only under a condition. -/
def onlyIf (c : Bool) (x : Op Unit) : Op Unit := if c then x else pure ()

/-- Write the session (10_state.md R26). -/
def setSession (f : Session → Session) : Op Unit := upd fun s => { s with sess := f s.sess }

/-! ### The environment's answers (10_state.md R43) -/

/-- Take the next answer of a stream (DESIGN CHOICE, log 2). -/
def draw {α : Type} (get : Env → List α) (put : List α → Env → Env) (free : Nat → α) : Op α := fun s =>
  match get s.env with
  | [] => .ok (free s.freeCount) { s with freeCount := s.freeCount + 1 }
  | [x] => .ok x s
  | x :: y :: rest => .ok x { s with env := put (y :: rest) s.env }

def nextStatus : Op Word := draw Env.status (fun l e => { e with status := l }) Config.freeWord
def nextIdent : Op Word := draw Env.ident (fun l e => { e with ident := l }) Config.freeWord
def nextWord : Op Word := draw Env.words (fun l e => { e with words := l }) Config.freeWord
def nextCmdBit : Op Bool := draw Env.cmdLine (fun l e => { e with cmdLine := l }) Config.freeBit
def nextNibble : Op Nibble := draw Env.datLine (fun l e => { e with datLine := l }) Config.freeNibble
def nextPi : Op PiStatus := draw Env.pi (fun l e => { e with pi := l }) Config.freePi
def nextSectorByte : Op Byte := draw Env.sector (fun l e => { e with sector := l }) Config.freeByte
def nextJunkByte : Op Byte := draw Env.junk (fun l e => { e with junk := l }) Config.freeByte
def nextCacheActs : Op (List CacheAct) := draw Env.cacheActs (fun l e => { e with cacheActs := l }) Config.freeCacheActs

/-- A value the spec leaves open. -/
def freshWord : Op Word := fun s => .ok (Config.freeWord s.freeCount) { s with freeCount := s.freeCount + 1 }

/-- `emit Event(...)` (00_scope.md R8, R10). -/
def emit (e : Event) : Op Unit := upd fun s => { s with hist := e :: s.hist }

/-- A point at which the cache may act on its own (20_memory.md R72; DESIGN CHOICE, log 11). -/
def cacheMayAct : Op Unit := do
  let acts ← nextCacheActs
  upd fun s => acts.foldl State.cacheAct s

/-! ### Bounded waits (41_command_engine.md R124) -/

/-- `spin`: poll until the test answers, at most `max` times. At port level a poll may hold a wait of its own: the inner
one then uses `spinCount`, and the outer one goes on with its own count (10_state.md R41; DESIGN CHOICE, log 57). -/
def spinOn {α : Type} (poll : Op (Option α)) : Nat → Op α
  | 0 => raise .timeout
  | n + 1 => do
    upd fun s => { s with spinCount := n + 1 }
    let r ← poll
    match r with
    | some a => pure a
    | none => do
      upd fun s => { s with spinCount := n }
      spinOn poll n

/-- One sample of the PI status: neither DMA busy nor I/O busy (47_bus_dma.md R239). A sample is no event of the history
(00_scope.md R10; DESIGN CHOICE, log 54). -/
def pollPiIdle : Op (Option Unit) := do
  let p ← nextPi
  pure (if p.dmaBusy || p.ioBusy then none else some ())

/-- One sample of the PI status: the write-busy flag is clear (44_transport_handlers.md R187; DEDUCED, log 30). A
sample is no event (DESIGN CHOICE, log 54). -/
def pollPiWritten : Op (Option Unit) := do
  let p ← nextPi
  pure (if p.ioBusy then none else some ())

/-- `pi_wait_idle` for a family's cap (R239). -/
def piWaitIdle (f : Family) : Op Unit := do
  let p ← get' State.cfg
  spinOn pollPiIdle (p.fam f).waits.pi

/-! ### The bus arbiter (47_bus_dma.md R235 to R238) -/

/-- The four `PiCfgWrite` events of one domain, in order. -/
def timingEvents (d : Domain) (t : DomainTiming) : List Event :=
  [.piCfgWrite d .lat t.lat, .piCfgWrite d .pwd t.pwd, .piCfgWrite d .pgs t.pgs, .piCfgWrite d .rls t.rls]

/-- The eight `PiCfgWrite` events of a configuration, in order. -/
def cfgEvents (c : BusConfig) : List Event :=
  timingEvents .d1 c.dom1 ++ timingEvents .d2 c.dom2

/-- Write the eight fields of `PI.dom`. -/
def applyConfig (c : BusConfig) : Op Unit :=
  upd fun s => { s with piDom := c, hist := (cfgEvents c).reverse ++ s.hist }

/-- The capture: the first acquire saves `PI.dom` (R237). Its eight reads are no events (00_scope.md R10, R252; DESIGN
CHOICE, log 54). -/
def captureNative : Op Unit :=
  upd fun s => if s.nativeSaved then s else { s with nativeCfg := s.piDom, nativeSaved := true }

/-- `acquire_for(f)` (R237); the wait's outcome is ignored (DEDUCED, log 31). -/
def acquireFor (f : Family) : Op Unit := do
  let owner ← get' State.busOwner
  match owner with
  | .cart _ => refuse .nestedAcquire
  | .native => do
    bestEffort (piWaitIdle f)
    captureNative
    let p ← get' State.cfg
    applyConfig (p.fam f).cartCfg
    upd fun s => { s with busOwner := .cart f }

/-- `acquire()` (R235). -/
def acquireBus : Op Unit := do
  let c ← get' State.cartType
  match c with
  | none => refuse .acquireWithoutCartridge
  | some f => acquireFor f

/-- `release()` (R236). -/
def releaseBus : Op Unit := do
  let owner ← get' State.busOwner
  match owner with
  | .native => refuse .releaseWithoutAcquire
  | .cart f => do
    let saved ← get' State.nativeSaved
    if saved then do
      bestEffort (piWaitIdle f)
      let c ← get' State.nativeCfg
      applyConfig c
      upd fun s => { s with busOwner := .native }
    else faultWith .nativeConfigUnsaved

/-- The error path of a host operation, the one place an error is taken: clean up, release the bus, hand the cause up
(60_exceptions.md R270). Nothing is saved for a later resume and there is no return from it (R273). -/
def errorExit {α : Type} (clean : Op Unit) (c : Cause) : Op α := do
  clean
  releaseBus
  raise c

/-- One bracket around a whole operation: acquired at its start, released on every exit (43_card_sequencer.md R179). -/
def bracketed {α : Type} (clean : Op Unit) (body : Op α) : Op α := do
  acquireBus
  let r ← attempt body
  match r with
  | .ok a => do
    releaseBus
    pure a
  | .error c => errorExit clean c

/-- The family the current bracket was taken for; every cartridge access needs one (R125, R186). -/
def busFamily : Op Family := do
  let owner ← get' State.busOwner
  match owner with
  | .cart f => pure f
  | .native => refuse .busNotOwned

/-- The parameters of the bracket's family. -/
def famParams : Op FamilyParams := do
  let f ← busFamily
  get' fun s => s.cfg.fam f

/-! ### Cartridge registers (44_transport_handlers.md R186, R187) -/

/-- The PI address of a register (20_memory.md R52). -/
def regAddr (p : Params) (f : Family) (r : Reg) : Word := f.base + ((p.fam f).off.of r ++ 0#2)

/-- The address of a register of the bracket's family; one that passes the top of `PI` space is refused (00_scope.md
R7, 44_transport_handlers.md R186). The refusal comes at the access, after what the operation did before it, answers of
the cartridge included (R9; DESIGN CHOICE, log 56). -/
def regAt (r : Reg) : Op Word := do
  let f ← busFamily
  let p ← get' State.cfg
  if regFits f ((p.fam f).off.of r) then pure (regAddr p f r) else refuse .regAddrOverflow

/-- The answer of the cartridge to a read of a register. -/
def nextRegValue : Reg → Op Word
  | .status => nextStatus
  | .id => nextIdent
  | .key | .command | .arg0 | .arg1 | .sdCmd | .sdDat | .sdCfg | .dmaAddr | .dmaLen | .swap => nextWord

/-- `reg_read` (R186). -/
def regRead (r : Reg) : Op Word := do
  let a ← regAt r
  let v ← nextRegValue r
  emit (.regRead a v)
  pure v

/-- `reg_write` (R187): the write, then the wait for the PI controller's own write-busy flag. -/
def regWrite (r : Reg) (v : Word) : Op Unit := do
  let a ← regAt r
  emit (.regWrite a v)
  let q ← famParams
  spinOn pollPiWritten q.waits.pi

/-- One read of `STATUS`, answered when the busy bit is clear. -/
def pollStatus : Op (Option Word) := do
  let q ← famParams
  let w ← regRead .status
  pure (if statusBusy q w then none else some w)

/-! ### The cartridge command channel (R195) -/

/-- Bytes coming from the card land in the cartridge's sector buffer, each pair exchanged while the swap is on
(R171, R198; DEDUCED, log 25). -/
def placeInBuffer (offset : Nat) (bs : List Byte) : Op Unit :=
  upd fun s => { s with cb := s.cb.writeBytes offset (if s.byteswap then swapPairs bs else bs) }

/-- A sector going to the card leaves the cartridge's sector buffer, each pair exchanged while the swap is on (R198;
DEDUCED, log 25). -/
def takeFromBuffer : Op (List Byte) :=
  get' fun s => let d := s.cb.readBytes 0 sector; if s.byteswap then swapPairs d else d

/-- Where in the sector buffer the sectors of an 's' command begin to land (R178). -/
def readOffset (q : FamilyParams) (a0 : Word) : Nat := max a0.toNat q.cartBuf.toNat - q.cartBuf.toNat

/-- How many bytes of the sectors of an 's' command land in the sector buffer (R178). -/
def readCount (q : FamilyParams) (a0 a1 : Word) : Nat :=
  min (a0.toNat + sector * a1.toNat) (q.cartBuf.toNat + q.cartBufLen) - max a0.toNat q.cartBuf.toNat

/-- What the command 's' does to the cartridge's sector buffer: the sectors it reads land there (R178; DESIGN CHOICE,
log 26). -/
def cartSideEffect (code : Byte) (a0 a1 : Word) : Op Unit := do
  let q ← famParams
  onlyIf (code == 0x73) do
    let bs ← many nextSectorByte (readCount q a0 a1)
    placeInBuffer (readOffset q a0) bs

/-- The first half of the handshake: wait, arguments, code. -/
def cartIssue (code : Byte) (a0 a1 : Word) : Op Unit := do
  let q ← famParams
  let _ ← spinOn pollStatus q.waits.cmd
  regWrite .arg0 a0
  regWrite .arg1 a1
  regWrite .command (code.zeroExtend 32)

/-- The second half: wait, error bit of the same status value, result words. -/
def cartFinish : Op (Word × Word) := do
  let q ← famParams
  let w ← spinOn pollStatus q.waits.cmd
  if statusError q w then raise .cart
  else do
    let r0 ← regRead .arg0
    let r1 ← regRead .arg1
    pure (r0, r1)

/-- What follows once a command is issued: what it does to the buffer, and the second half. -/
def cartAnswer (code : Byte) (a0 a1 : Word) : Op (Word × Word) := do
  cartSideEffect code a0 a1
  cartFinish

/-- The answer part of a `CartCmd` event, whose `err` no rule defines (00_scope.md R10): the result words, and none where
the command ends in a timeout of its second wait or in `fail(cart)`, the two recorded alike (DESIGN CHOICE, log 50). -/
def answerOf : EStateM.Result Halt State (Word × Word) → Option (Word × Word)
  | .ok r _ => some r
  | .error _ _ => none

/-- The `CartCmd` event of a command just issued, with the answer it comes to (00_scope.md R10, R195). -/
def recordCommand (code : Byte) (a0 a1 : Word) : Op Unit := fun s =>
  emit (.cartCmd code a0 a1 (answerOf (cartAnswer code a0 a1 s))) s

/-- The handshake of R195. -/
def cartHandshake (code : Byte) (a0 a1 : Word) : Op (Word × Word) := do
  cartIssue code a0 a1
  recordCommand code a0 a1
  cartAnswer code a0 a1

/-! ### Byte swap (R198) -/

/-- Set the control, by its register or by a configuration command, and mirror it. -/
def swapDrive (on : Bool) : Op Unit := do
  let q ← famParams
  if q.swapViaCfg then do
    let _ ← cartHandshake 0x43 q.swapId (if on then 1 else 0)
    upd fun s => { s with byteswap := on }
  else do
    regWrite .swap (if on then 1 else 0)
    upd fun s => { s with byteswap := on }

/-- Run a body with the swap enabled around it and restored after, if its policy says so (DESIGN CHOICE, log 24). A
restore that fails is a failed step and its cause is handed up (60_exceptions.md R270), but behind a failed body it is
part of the clean-up and the body's cause stands (R271; DEDUCED, log 42). Where enabling fails, neither the body nor a
restoring write is made (log 42). -/
def swapAround {α : Type} (wrap : Bool) (body : Op α) : Op α :=
  if wrap then do
    let old ← get' State.byteswap
    swapDrive true
    let r ← attempt body
    match r with
    | .ok a => do
      swapDrive old
      pure a
    | .error c => do
      bestEffort (swapDrive old)
      raise c
  else body

/-- `cart_command` (R195), wrapped in the byte swap where the family's policy lists the code (R198). -/
def cartCommand (code : Byte) (a0 a1 : Word) : Op (Word × Word) := do
  let q ← famParams
  swapAround (q.hasSwap && q.swapPolicy == .listedCommands && q.swapListed.contains code) (cartHandshake code a0 a1)

/-- Run a transfer with the swap around it where the family's policy is `EVERY_TRANSFER` (R198). -/
def swapTransfer {α : Type} (body : Op α) : Op α := do
  let q ← famParams
  swapAround (q.hasSwap && q.swapPolicy == .everyTransfer) body

/-! ### The SD port (R191 to R193, R199) -/

/-- The parameters of a family that has an SD port of its own (R191; DEDUCED, log 16). -/
def sdPort : Op FamilyParams := do
  let q ← famParams
  if q.offload then refuse .engineOffloaded else pure q

/-- The same for the data lanes, which the SPI flavour's rules do not cover (R126). -/
def datPort : Op FamilyParams := do
  let q ← sdPort
  if q.wire = .spi then refuse .spiDataPath else pure q

/-- Write `SD_CFG` from the session, with extra bits (R193). -/
def writeSdCfg (extra : Word) : Op Unit := do
  let q ← sdPort
  let ss ← get' State.sess
  regWrite .sdCfg (sdCfgWord q ss.busWidth ss.speed ss.bitlen ||| extra)

/-- `port_config` of the session's own settings (R193). -/
def portConfig : Op Unit := writeSdCfg 0

/-- `port_config` with changed settings, which the session takes once the port has them (R193, 42_sd_commands.md R135;
DEDUCED, log 52). -/
def reconfigure (f : Session → Session) : Op Unit := do
  let q ← sdPort
  let ss ← get' fun s => f s.sess
  regWrite .sdCfg (sdCfgWord q ss.busWidth ss.speed ss.bitlen)
  setSession f

/-- Set the bit length; changing it is one register write where the port is modelled by its registers (R192, R193;
DESIGN CHOICE, log 13). -/
def setBitLen (len : BitLen) : Op Unit := do
  let q ← sdPort
  let old ← get' fun s => s.sess.bitlen
  setSession fun ss => { ss with bitlen := len }
  onlyIf (q.portLevel && old != len) portConfig

/-- Run with the single-bit length and go back to whole bytes, also when the body fails (R118). -/
def atSingleBit {α : Type} (body : Op α) : Op α := do
  let r ← attempt (setBitLen .b1 >>= fun _ => body)
  match r with
  | .ok a => do
    setBitLen .b8
    pure a
  | .error c => do
    bestEffort (setBitLen .b8)
    raise c

/-- The register write and the port wait of one access, where the port is modelled by its registers (R192). -/
def portWrite (r : Reg) (v : Word) : Op Unit := do
  let q ← sdPort
  onlyIf q.portLevel do
    regWrite r v
    let _ ← spinOn pollStatus q.waits.port

/-- The register read of one access: the bits outside `mask` are free values (DESIGN CHOICE, log 14). -/
def portRead (r : Reg) (mask : Word) (v : Word) : Op Unit := do
  let q ← sdPort
  onlyIf q.portLevel do
    let a ← regAt r
    let w ← freshWord
    emit (.regRead a ((w &&& ~~~mask) ||| (v &&& mask)))

/-- `CmdTx(b)` (41_command_engine.md R116). A sending event is recorded before its register accesses, a receiving one
after them (DESIGN CHOICE, log 13). -/
def cmdTx (b : Byte) : Op Unit := do
  let _ ← sdPort
  emit (.cmdTx b)
  portWrite .sdCmd (b.zeroExtend 32)

/-- `CmdRxBit()` (R118). -/
def cmdRxBit : Op Bool := do
  let _ ← sdPort
  portWrite .sdCmd 0xFF
  let b ← nextCmdBit
  portRead .sdCmd 1 (if b then 1 else 0)
  emit (.cmdRxBit b)
  pure b

/-- The byte of eight bits, the first one highest (20_memory.md R56). -/
def byteOfBits (bits : List Bool) : Byte :=
  bits.foldl (fun acc b => (acc <<< 1) ||| (BitVec.ofBool b).zeroExtend 8) 0

/-- `CmdRx()`: eight clocks, bit 7 first (R119). -/
def cmdRx : Op Byte := do
  let _ ← sdPort
  portWrite .sdCmd 0xFF
  let bits ← many nextCmdBit 8
  let b := byteOfBits bits
  portRead .sdCmd 0xFF (b.zeroExtend 32)
  emit (.cmdRx b)
  pure b

/-- One clock of the data lanes through `SD_DAT`. -/
def laneClock : Op Nibble := do
  portWrite .sdDat 0xFF
  let n ← nextNibble
  portRead .sdDat 1 (if n.getLsbD 0 then 1 else 0)
  pure n

/-- The same at the single-bit length, where the port is modelled by its registers (R192; DEDUCED, log 40). -/
def singleLaneClock (q : FamilyParams) : Op Nibble :=
  if q.portLevel then atSingleBit laneClock else laneClock

/-- `DatRxBit()`: one clock, lane `DAT0` (44_transport_handlers.md R192). -/
def datRxBit : Op Bool := do
  let q ← datPort
  let n ← singleLaneClock q
  emit (.datRxBit (n.getLsbD 0))
  pure (n.getLsbD 0)

/-- The clocks of one data byte: two nibbles on four lanes, eight bits of `DAT0` on one lane (20_memory.md R57). -/
def clockByte (width : BusWidth) : Op Byte :=
  match width with
  | .w4 => do
    let hi ← nextNibble
    let lo ← nextNibble
    pure (hi ++ lo)
  | .w1 => do
    let ns ← many nextNibble 8
    pure (byteOfBits (ns.map fun n => n.getLsbD 0))

/-- One data byte through `SD_DAT` (44_transport_handlers.md R192). -/
def datByte (width : BusWidth) : Op Byte := do
  portWrite .sdDat 0xFF
  let b ← clockByte width
  portRead .sdDat 0xFF (b.zeroExtend 32)
  pure b

/-- The cartridge-side DMA of `n` bytes from the card (R194). Where its wait times out, the sector buffer stays as it was
(DESIGN CHOICE, log 58). -/
def cartSideDma (q : FamilyParams) (width : BusWidth) (n : Nat) : Op (List Byte) := do
  regWrite .dmaAddr q.cartBuf
  regWrite .dmaLen (BitVec.ofNat 32 n)
  let _ ← spinOn pollStatus q.waits.dma
  many (clockByte width) n

/-- `n` bytes from the data lanes, through the data register or by a cartridge-side DMA (R192, R194). -/
def datBytes (q : FamilyParams) (width : BusWidth) (n : Nat) : Op (List Byte) :=
  if q.portLevel && q.hasDma then cartSideDma q width n else many (datByte width) n

/-- `DatRx(n)` (R171, R192). -/
def datRx (n : Nat) : Op (List Byte) := do
  let q ← datPort
  let width ← get' fun s => s.sess.busWidth
  let bs ← datBytes q width n
  emit (.datRx n bs)
  pure bs

/-- The register accesses of a `DatTx` (R192); a nibble of framing goes at the single-bit length (DESIGN CHOICE, log 40). -/
def driveLanes : TxData → Op Unit
  | .bytes bs => forEach (fun b => portWrite .sdDat (b.zeroExtend 32)) bs
  | .nibble n => atSingleBit (portWrite .sdDat (n.zeroExtend 32))

/-- `DatTx(d)` (R173, R192). -/
def datTx (d : TxData) : Op Unit := do
  let q ← datPort
  emit (.datTx d)
  onlyIf q.portLevel (driveLanes d)

/-- `reset_port()` (R199): every step once, failures ignored. The write of the reset bit holds the session's width and
speed too (DESIGN CHOICE, log 48). -/
def resetPort : Op Unit := do
  let q ← famParams
  let p ← get' State.cfg
  if q.offload then bestEffort (cartCommand 0x69 p.sdOpDeinit 0)
  else do
    let ss ← get' State.sess
    bestEffort (regWrite .sdCfg (sdCfgWord q ss.busWidth ss.speed .b8 ||| q.resetBits))
    bestEffort (regWrite .sdCfg (sdCfgWord q ss.busWidth ss.speed .b8))

/-! ### DMA and sector moves (47_bus_dma.md R241 to R244) -/

/-- `CacheWbInv` as an event with its effect (20_memory.md R74). -/
def opCacheWbInv (a n : Nat) : Op Unit := do
  cacheMayAct
  emit (.cacheWbInv a n)
  upd fun s => s.cacheWbInv a n

/-- `CacheWb` as an event with its effect (20_memory.md R73). -/
def opCacheWb (a n : Nat) : Op Unit := do
  cacheMayAct
  emit (.cacheWb a n)
  upd fun s => s.cacheWb a n

/-- The DMA engine's registers for a transfer into RAM (R244). -/
def programToRam (ram : Nat) (cart : Word) : Op Unit :=
  upd fun s => { s with
    dma := { s.dma with
      ramAddr := BitVec.ofNat 32 ram
      cartAddr := cart
      toRamLen := BitVec.ofNat 32 (sector - 1) } }

/-- The DMA engine's registers for a transfer out of RAM (R244). -/
def programToCart (ram : Nat) (cart : Word) : Op Unit :=
  upd fun s => { s with
    dma := { s.dma with
      ramAddr := BitVec.ofNat 32 ram
      cartAddr := cart
      toCartLen := BitVec.ofNat 32 (sector - 1) } }

/-- `pi_dma_from_cart` of one sector into RAM (R244). A completion wait that times out leaves any bytes there (U4;
log 27). -/
def dmaFromCart (ram : Nat) : Op Unit := do
  let f ← busFamily
  let q ← famParams
  piWaitIdle f
  programToRam ram q.cartBuf
  emit (.dmaFromCart q.cartBuf ram sector)
  cacheMayAct
  let r ← attempt (piWaitIdle f)
  match r with
  | .ok _ => upd fun s => { s with phys := s.phys.writeBytes ram (s.cb.readBytes 0 sector) }
  | .error c => do
    let junk ← many nextJunkByte sector
    upd fun s => { s with phys := s.phys.writeBytes ram junk }
    raise c

/-- `pi_dma_to_cart` of one sector out of RAM (R244). -/
def dmaToCart (ram : Nat) : Op Unit := do
  let f ← busFamily
  let q ← famParams
  piWaitIdle f
  programToCart ram q.cartBuf
  emit (.dmaToCart ram q.cartBuf sector)
  cacheMayAct
  let r ← attempt (piWaitIdle f)
  match r with
  | .ok _ => upd fun s => { s with cb := s.cb.writeBytes 0 (s.phys.readBytes ram sector) }
  | .error c => do
    let junk ← many nextJunkByte sector
    upd fun s => { s with cb := s.cb.writeBytes 0 junk }
    raise c

/-- The staging copy: `k` 64-bit moves, the cache free to act before each (R242, R243). -/
def copyMoves : Nat → Nat → Nat → Op Unit
  | 0, _, _ => pure ()
  | k + 1, src, dst => do
    cacheMayAct
    upd fun s => s.move8 src dst
    copyMoves k (src + 8) (dst + 8)

/-- The cache operation, the DMA and the copy of `move_to_ram` (R242). -/
def bringToRam (dest : Nat) : Op Unit := do
  let p ← get' State.cfg
  if direct dest then do
    opCacheWbInv dest sector
    dmaFromCart dest
  else do
    opCacheWbInv p.stageAddr sector
    dmaFromCart p.stageAddr
    copyMoves 64 p.stageAddr dest

/-- `move_to_ram(dest)` (R242). The cache may act after it as before it (20_memory.md R72). -/
def moveToRam (dest : Nat) : Op Unit := do
  bringToRam dest
  cacheMayAct

/-- The copy, the cache operation and the DMA of `move_from_ram` (R243). -/
def takeFromRam (src : Nat) : Op Unit := do
  let p ← get' State.cfg
  if direct src then do
    opCacheWb src sector
    dmaToCart src
  else do
    copyMoves 64 src p.stageAddr
    opCacheWb p.stageAddr sector
    dmaToCart p.stageAddr

/-- `move_from_ram(src)` (R243). -/
def moveFromRam (src : Nat) : Op Unit := do
  takeFromRam src
  cacheMayAct

/-! ### Host operations as steps -/

/-- One byte of the response buffer; reading at or above `resp_len` is a fault (10_state.md R34). -/
def respByte (i : Nat) : Op Byte := fun s =>
  match s.resp[i]? with
  | some b => .ok b s
  | none => .error (.fault .respBeyondLength) s

/-- Between two host operations, and where none is pending, the cache may act on its own (20_memory.md R72; DESIGN CHOICE,
log 11). A cache without a line has nothing to write back or to drop, and no act is asked of it. -/
def settle (s : State) : State :=
  match s.cache with
  | [] => s
  | _ :: _ =>
    match cacheMayAct s with
    | .ok _ t => t
    | .error _ t => t

/-- A host operation as the outcome of a step: its value or its cause is what it returns (00_scope.md R11). -/
def runHost (x : Op HostResult) (s : State) : Host.Outcome State Fault Refusal :=
  match x s with
  | .ok r t => .next { t with result := r }
  | .error (.cause c) t => .next { t with result := .error c }
  | .error (.refuse r) _ => .refused r
  | .error (.fault f) _ => .fault f

end Sys2Proof.Machine
end

