-- ==== Sys2Proof/Machine/Bus.lean ====
section
/-! DEFINITION. The bus arbiter's host operations (47_bus_dma.md R235, R236). -/

namespace Sys2Proof.Machine

/-- `acquire()`. -/
def execAcquire (s : State) : Host.Outcome State Fault Refusal :=
  runHost (do acquireBus; pure .none) s

/-- `release()`. -/
def execRelease (s : State) : Host.Outcome State Fault Refusal :=
  runHost (do releaseBus; pure .none) s

end Sys2Proof.Machine
end

