-- ==== Sys2Proof/Machine/CartCommands.lean ====
section
/-! DEFINITION. The six cartridge commands as instructions (30_encoding.md R90): each is the handshake of
44_transport_handlers.md R195 with its own code; 's' also brings sectors into the cartridge buffer (R178). -/

namespace Sys2Proof.Machine

/-- One cartridge command and its result words. -/
def cartOperation (code : Byte) (a0 a1 : Word) : Op HostResult := do
  let r ← cartCommand code a0 a1
  pure (.cart r.1 r.2)

/-- 'i', SD operation. -/
def execCcSdOp (a0 a1 : Word) (s : State) : Host.Outcome State Fault Refusal :=
  runHost (cartOperation 0x69 a0 a1) s

/-- 'I', sector-set. -/
def execCcSectorSet (a0 a1 : Word) (s : State) : Host.Outcome State Fault Refusal :=
  runHost (cartOperation 0x49 a0 a1) s

/-- 's', read. -/
def execCcRead (a0 a1 : Word) (s : State) : Host.Outcome State Fault Refusal :=
  runHost (cartOperation 0x73 a0 a1) s

/-- 'S', write. -/
def execCcWrite (a0 a1 : Word) (s : State) : Host.Outcome State Fault Refusal :=
  runHost (cartOperation 0x53 a0 a1) s

/-- 'C', config set (R197). -/
def execCcConfigSet (a0 a1 : Word) (s : State) : Host.Outcome State Fault Refusal :=
  runHost (cartOperation 0x43 a0 a1) s

/-- 'c', config get (R197). -/
def execCcConfigGet (a0 a1 : Word) (s : State) : Host.Outcome State Fault Refusal :=
  runHost (cartOperation 0x63 a0 a1) s

end Sys2Proof.Machine
end

