-- ==== Sys2Proof/Machine/Checksums.lean ====
section
/-! DEFINITION. The two checksum generators as host operations (30_encoding.md R88, 40_crc.md R101, R105). They write
their own accumulators and nothing else. -/

namespace Sys2Proof.Machine

/-- `compute_crc7(bytes)` (R101). -/
def execComputeCrc7 (bytes : List Byte) (s : State) : Host.Outcome State Fault Refusal :=
  runHost (do
    upd fun s => { s with crc7Acc := crc7 bytes }
    pure (.crc7 (computeCrc7 bytes))) s

/-- `compute_crc16_four_lanes(block)` (R105). -/
def execComputeCrc16 (block : List Byte) (s : State) : Host.Outcome State Fault Refusal :=
  runHost (do
    upd fun s => { s with crc16Acc := laneCrcs block }
    pure (.crc16 (laneCrcs block) (trailerOf (laneCrcs block)))) s

end Sys2Proof.Machine
end

