-- ==== Sys2Proof/Machine/Detect.lean ====
section
/-! DEFINITION. Autodetection and dispatch (45_autodetect_dispatch.md). -/

namespace Sys2Proof.Machine

/-- The identifier test of `match(f)` inside the bracket taken for `f` (R212). -/
def matchFamily (f : Family) : Op Bool := do
  let p ← get' State.cfg
  forEach (fun k => regWrite .key k) (p.fam f).keySeq
  let id ← regRead .id
  pure (identifierMatches p f id)

/-- One bracket of the probe; a timed-out wait counts as no match (R210). -/
def probeOne (f : Family) : Op Bool := do
  acquireFor f
  let r ← attempt (matchFamily f)
  releaseBus
  match r with
  | .ok m => pure m
  | .error _ => pure false

/-- Set the probe machine of `seq` (R40, R215). -/
def setProbeSeq (q : ProbeSeq) : Op Unit := upd fun s => { s with seq := { s.seq with probe := q } }

/-- The loop of the probe over the families in their order (R210). -/
def probeLoop : List Family → Nat → Op (Option Family)
  | [], _ => do
    upd fun s => { s with cartType := none, probed := true }
    setProbeSeq .noCart
    pure none
  | f :: rest, i => do
    setProbeSeq (.probing i)
    let m ← probeOne f
    if m then do
      upd fun s => { s with cartType := some f, probed := true }
      setProbeSeq (.bound f)
      pure (some f)
    else probeLoop rest (i + 1)

/-- `probe()` (R210): a second probe gives the first one's answer with no bus activity. -/
def probeOp : Op (Option Family) := do
  let done ← get' State.probed
  if done then get' State.cartType
  else do
    let p ← get' State.cfg
    probeLoop p.probeOrder 0

/-- The dispatch of the five cartridge operations (R214). -/
def dispatch {α : Type} (handler : Family → Op α) : Op α := do
  let c ← probeOp
  match c with
  | none => raise .noCartridge
  | some f => handler f

/-- `probe` as an instruction. -/
def execProbe (s : State) : Host.Outcome State Fault Refusal :=
  runHost (do
    let c ← probeOp
    match c with
    | none => raise .noCartridge
    | some f => pure (.family f)) s

end Sys2Proof.Machine
end

