-- ==== Sys2Proof/Machine/Engine.lean ====
section
/-! DEFINITION. The command engine: `execute_command` and `send_app_command` (41_command_engine.md), and the movement
of one block over the data lanes (43_card_sequencer.md R169 to R174), with the two host operations over it. -/

namespace Sys2Proof.Machine

/-- One poll of the start-bit hunt (R118). -/
def pollStartBit : Op (Option Unit) := do
  let b ← cmdRxBit
  pure (if b then none else some ())

/-- Phases 3 and 4: hunt for the start bit, then collect `len` bytes (R118, R119). -/
def collectResponse (spinMax len : Nat) : Op (List Byte) := do
  let b0 ← atSingleBit do
    spinOn pollStartBit spinMax
    let bits ← many cmdRxBit 7
    pure (byteOfBits (false :: bits))
  let rest ← many cmdRx (len - 1)
  pure (b0 :: rest)

/-- Phase 1: the frame, after its lead-in (R116). It sets the `app` input of the next command (DESIGN CHOICE, log 15). -/
def transmitFrame (leadin : Nat) (idx : BitVec 6) (arg : Word) : Op Unit := do
  upd fun s => { s with frame := frameBytes idx arg, crc7Acc := frameCrc idx arg }
  setBitLen .b8
  forEach cmdTx (List.replicate leadin 0xFF)
  forEach cmdTx (frameBytes idx arg)
  upd fun s => { s with app := idx == 55 }

/-- The trailing idle clocks (R117; where they stand is a DESIGN CHOICE, log 21). -/
def trailClocks (n : Nat) : Op Unit := forEach cmdTx (List.replicate n 0xFF)

/-- Phases 2 to 4 and the response checks (R117 to R119, R122). -/
def receiveResponse (p : Params) (q : FamilyParams) (kind : SdKind) (idx : BitVec 6) : Op Unit :=
  let len := respLength q.wire idx kind
  if len = 0 then do
    upd fun s => { s with resp := [] }
    trailClocks p.nTrail
  else do
    let r ← attempt (collectResponse p.respSpinMax len)
    match r with
    | .error c => do
      upd fun s => { s with resp := [] }
      raise c
    | .ok bytes => do
      upd fun s => { s with resp := bytes }
      trailClocks p.nTrail
      match responseFault p q.wire kind idx bytes with
      | some c => raise c
      | none => pure ()

/-- `execute_command` (R115), with the `app` input that selects the row of the response-kind table. A port wait that
times out while the frame goes out leaves the response buffer and the `app` input as they were (DESIGN CHOICE, log 44). With
a stream open it is sent as at any time (70_reset_and_hazards.md R300; DESIGN CHOICE, log 61). -/
def executeCommand (app : Bool) (idx : BitVec 6) (arg : Word) : Op Unit := do
  let q ← sdPort
  let p ← get' State.cfg
  match respKind idx app with
  | none => refuse .noResponseKind
  | some kind => do
    transmitFrame p.nLeadin idx arg
    receiveResponse p q kind idx

/-- `send_app_command` (R123). An index without a row is refused before the prefix goes out, so that the refusal does not
depend on the card (00_scope.md R9; U13). -/
def sendAppCommand (idx : BitVec 6) (rca : Half) (arg : Word) : Op Unit := do
  let _ ← sdPort
  onlyIf (respKind idx true).isNone (refuse .noResponseKind)
  executeCommand false 55 (rcaArg rca)
  executeCommand true idx arg

/-- `wait_data_start` (43_card_sequencer.md R169). -/
def waitDataStart : Op Unit := do
  let q ← datPort
  spinOn (do
    let b ← datRxBit
    pure (if b then none else some ())) q.waits.dataStart

/-- `wait_not_busy` (R174). -/
def waitNotBusy : Op Unit := do
  let q ← datPort
  spinOn (do
    let b ← datRxBit
    pure (if b then some () else none)) q.waits.busy

/-- The checksum bytes a block of this content carries at a lane width (40_crc.md R108, R111). -/
def blockTrailer (width : BusWidth) (d : List Byte) : List Byte :=
  match width with
  | .w4 => trailerOf (laneCrcs d)
  | .w1 => halfBytes (crc16Bytes d)

/-- How many checksum bytes follow a block at a lane width (R86, R111; DEDUCED, log 36). -/
def trailerLength : BusWidth → Nat
  | .w4 => 8
  | .w1 => 2

/-- The accumulators after a block's checksum: four lanes, or, where no rule says which of the four holds the single-lane
checksum, the first of them with the others zero (40_crc.md R111; DESIGN CHOICE, log 34). -/
def blockAcc (width : BusWidth) (d : List Byte) : Lanes :=
  match width with
  | .w4 => laneCrcs d
  | .w1 => ⟨crc16Bytes d, 0, 0, 0⟩

/-- The comparison of a received trailer with the block's own (R112, R171). -/
def checkTrailer (width : BusWidth) (d t : List Byte) : Op Unit := do
  upd fun s => { s with crc16Acc := blockAcc width d }
  if t = blockTrailer width d then pure () else raise .crc

/-- `receive_block(n)` (R171): 512 bytes go to the cartridge buffer, 64 are discarded. -/
def receiveBlock (n : Nat) : Op Unit := do
  waitDataStart
  let d ← datRx n
  let width ← get' fun s => s.sess.busWidth
  let t ← datRx (trailerLength width)
  let _ ← datRxBit
  let p ← get' State.cfg
  onlyIf (p.checkReadCrc16 && n == sector) (checkTrailer width d t)
  onlyIf (n == sector) (placeInBuffer 0 d)

/-- The CRC status token: five clocks of `DAT0`, of which the middle three are the status (30_encoding.md R86;
DEDUCED, log 20). -/
def readToken : Op (BitVec 3) := do
  let _ ← datRxBit
  let a ← datRxBit
  let b ← datRxBit
  let c ← datRxBit
  let _ ← datRxBit
  pure (bitOf a ++ bitOf b ++ bitOf c)

/-- `send_block(d)` (R173). R173's nibbles `0x0` and `0xF` are for four lanes; on one lane, where R86 gives one start bit
and one end bit, the event is the same nibble, whose bit of `DAT0` is that bit (DESIGN CHOICE, log 51). -/
def sendBlock (d : List Byte) : Op Unit := do
  let width ← get' fun s => s.sess.busWidth
  upd fun s => { s with crc16Acc := blockAcc width d }
  datTx (.nibble 0)
  datTx (.bytes d)
  datTx (.bytes (blockTrailer width d))
  datTx (.nibble 0xF)
  let tok ← readToken
  match tokenFault tok with
  | some c => raise c
  | none => waitNotBusy

/-- Host operation `execute_command(idx, arg)` (30_encoding.md R88, R115). -/
def execExecuteCommand (idx : BitVec 6) (arg : Word) (s : State) : Host.Outcome State Fault Refusal :=
  runHost (do
    let app ← get' State.app
    executeCommand app idx arg
    pure .ok) s

/-- Host operation `send_app_command(idx, rca, arg)` (R88, R123). -/
def execSendAppCommand (idx : BitVec 6) (rca : Half) (arg : Word) (s : State) : Host.Outcome State Fault Refusal :=
  runHost (do
    sendAppCommand idx rca arg
    pure .ok) s

end Sys2Proof.Machine
end

