-- ==== Sys2Proof/Machine/SdCommands.lean ====
section
/-! DEFINITION. The thirteen SD commands (42_sd_commands.md): the shared operation of each, which the sequencer calls
too, and its meaning as an instruction. -/

namespace Sys2Proof.Machine

/-- CMD0 (R136). It has no answer, so on the native wire with `portLevel` false it is always ok, as R136 has it. With
`portLevel` true each byte of its frame is a register write with a PI wait and a port wait behind it (R187, R192, R200): one
that runs out ends CMD0 in timeout, which no rule gives it (DESIGN CHOICE, log 64). On the SPI flavour it has an answer of one
byte (R162; log 22). -/
def goIdle : Op Unit := executeCommand false 0 0

/-- The echo test of CMD8 (R137). -/
def checkEcho : Op Bool := do
  let b3 ← respByte 3
  let b4 ← respByte 4
  if echoOk b3 b4 then pure true else raise .mismatch

/-- CMD8 (R137): true for a version 2 card, false for version 1. On the SPI flavour the illegal-command bit of the
status byte says version 1 (R162); on the native wire no flag of an SDR7 answer is looked at, so one with the
illegal-command flag is judged by its echo (R122, R127; DEDUCED, log 53). -/
def voltageCheck : Op Bool := do
  let q ← sdPort
  let r ← attempt (executeCommand false 8 argCmd8)
  match r with
  | .error .timeout => pure false
  | .error .illegal => pure false
  | .error c => raise c
  | .ok _ =>
    match q.wire with
    | .sdNative => checkEcho
    | .spi => do
      let b0 ← respByte 0
      if spiIllegal b0 then pure false else checkEcho

/-- One ACMD41 round's test: true when the card is ready; the native answer then gives the capacity class (R138, R162). -/
def testReady (wire : Wire) : Op Bool :=
  match wire with
  | .sdNative => do
    let b1 ← respByte 1
    if ocrReady b1 then do
      setSession fun ss => { ss with highCapacity := ocrHighCapacity b1 }
      pure true
    else pure false
  | .spi => do
    let b0 ← respByte 0
    pure (b0 == 0)

/-- The ACMD41 poll: `fuel` rounds left, `k` made. `mark` records the round in `seq` (R40, R138). -/
def pollLoop (mark : Nat → Op Unit) (arg : Word) (wire : Wire) : Nat → Nat → Op Unit
  | 0, _ => raise .absent
  | fuel + 1, k => do
    mark k
    sendAppCommand 41 0 arg
    let ready ← testReady wire
    if ready then pure () else pollLoop mark arg wire fuel (k + 1)

/-- ACMD41 (R138). -/
def pollReady (mark : Nat → Op Unit) (arg : Word) : Op Unit := do
  let q ← sdPort
  let p ← get' State.cfg
  pollLoop mark arg q.wire p.acmd41Max 0

/-- CMD2 (R140). -/
def readCid : Op Unit := executeCommand false 2 0

/-- CMD3 (R141). Where its response has no address byte, as on the SPI flavour, it is stopped before its frame, so that the
stop does not depend on the card (00_scope.md R9; U11; log 22). -/
def publishRca : Op Unit := do
  let q ← sdPort
  onlyIf (respLength q.wire 3 .sdr6 ≤ 2) (faultWith .respBeyondLength)
  executeCommand false 3 0
  let b1 ← respByte 1
  let b2 ← respByte 2
  setSession fun ss => { ss with rca := b1 ++ b2 }

/-- CMD7 (R142). It ends on the data lanes, which are asked for before its frame (00_scope.md R9; U9; log 22). -/
def selectCard (rca : Half) : Op Unit := do
  let _ ← datPort
  executeCommand false 7 (rcaArg rca)
  waitNotBusy

/-- ACMD6 (R143): the session takes the new width on the command's own ok, the write of `SD_CFG` included (R135). As a
frame it does so on the SPI flavour too, whose bring-up has no such step (R126, R162; DESIGN CHOICE, log 22). -/
def widenBus : Op Unit := do
  let rca ← get' fun s => s.sess.rca
  sendAppCommand 6 rca argAcmd6
  reconfigure fun ss => { ss with busWidth := .w4 }

/-- CMD6 (R144): the session takes the new speed on the command's own ok, the write of `SD_CFG` included (R135). Its data
lanes are asked for before its frame (00_scope.md R9; U9; log 22). -/
def highSpeed : Op Unit := do
  let _ ← datPort
  executeCommand false 6 argCmd6
  receiveBlock 64
  reconfigure fun ss => { ss with speed := .fast }

/-- CMD58 (R145). No bring-up issues it on the native wire; a frame the host asks for there is sent all the same and takes
the capacity class from the same byte (R127; DESIGN CHOICE, log 63). -/
def readOcr : Op Unit := do
  executeCommand false 58 0
  let b1 ← respByte 1
  setSession fun ss => { ss with highCapacity := ocrHighCapacity b1 }

/-- CMD12 (R146): the mode is NONE afterwards whatever happened. It ends on the data lanes, which are asked for before its
frame (00_scope.md R9; U9; log 22). -/
def stopStream : Op Unit := do
  let _ ← datPort
  let r ← attempt (executeCommand false 12 0)
  setSession fun ss => { ss with mode := .none }
  rethrow r
  waitNotBusy

/-- CMD18 and CMD25: open a stream in mode `m` at a block argument; `last` is the LBA before the first block (R147, R148). -/
def openStream (m : AccessMode) (idx : BitVec 6) (arg last : Word) : Op Unit := do
  executeCommand false idx arg
  setSession fun ss => { ss with mode := m, lastLba := last }

/-- Open a stream at an LBA (R89, R147, R148). -/
def openAt (m : AccessMode) (idx : BitVec 6) (lba : Word) : Op Unit := do
  let hc ← get' fun s => s.sess.highCapacity
  match blockArg hc lba with
  | none => refuse .lbaBeyondByteAddress
  | some arg => openStream m idx arg (lba - 1)

/-- Open a stream at the block argument of a frame. Where no LBA has that argument, the recorded LBA is a free value
(DESIGN CHOICE, log 17). A CMD18 or CMD25 frame opens the stream on the SPI flavour too, whose data path is left out
(R126; U9; DESIGN CHOICE, log 22). -/
def openAtArg (m : AccessMode) (idx : BitVec 6) (arg : Word) : Op Unit := do
  let hc ← get' fun s => s.sess.highCapacity
  match lbaOfArg hc arg with
  | some lba => openStream m idx arg (lba - 1)
  | none => do
    let last ← freshWord
    openStream m idx arg last

/-- CMD0 as an instruction. -/
def execCmd0 (s : State) : Host.Outcome State Fault Refusal :=
  runHost (do goIdle; pure .ok) s

/-- CMD8 as an instruction. -/
def execCmd8 (s : State) : Host.Outcome State Fault Refusal :=
  runHost (do
    let v ← voltageCheck
    pure (.version v)) s

/-- CMD55 as an instruction (R139). -/
def execCmd55 (rca : Half) (s : State) : Host.Outcome State Fault Refusal :=
  runHost (do executeCommand false 55 (rcaArg rca); pure .ok) s

/-- ACMD41 as an instruction: the poll with the frame's argument, whatever it is (R138; DESIGN CHOICE, log 60). -/
def execAcmd41 (arg : Word) (s : State) : Host.Outcome State Fault Refusal :=
  runHost (do pollReady (fun _ => pure ()) arg; pure .ok) s

/-- CMD2 as an instruction. -/
def execCmd2 (s : State) : Host.Outcome State Fault Refusal :=
  runHost (do readCid; pure .ok) s

/-- CMD3 as an instruction. -/
def execCmd3 (s : State) : Host.Outcome State Fault Refusal :=
  runHost (do publishRca; pure .ok) s

/-- CMD7 as an instruction, with the frame's RCA, which is not compared with the session's (R142; DESIGN CHOICE, log 60). -/
def execCmd7 (rca : Half) (s : State) : Host.Outcome State Fault Refusal :=
  runHost (do selectCard rca; pure .ok) s

/-- ACMD6 as an instruction. -/
def execAcmd6 (s : State) : Host.Outcome State Fault Refusal :=
  runHost (do widenBus; pure .ok) s

/-- CMD6 as an instruction. -/
def execCmd6 (s : State) : Host.Outcome State Fault Refusal :=
  runHost (do highSpeed; pure .ok) s

/-- CMD58 as an instruction, on either wire (DESIGN CHOICE, log 63). -/
def execCmd58 (s : State) : Host.Outcome State Fault Refusal :=
  runHost (do readOcr; pure .ok) s

/-- CMD12 as an instruction. -/
def execCmd12 (s : State) : Host.Outcome State Fault Refusal :=
  runHost (do stopStream; pure .ok) s

/-- CMD18 as an instruction. -/
def execCmd18 (arg : Word) (s : State) : Host.Outcome State Fault Refusal :=
  runHost (do openAtArg .blockRead 18 arg; pure .ok) s

/-- CMD25 as an instruction. -/
def execCmd25 (arg : Word) (s : State) : Host.Outcome State Fault Refusal :=
  runHost (do openAtArg .blockWrite 25 arg; pure .ok) s

end Sys2Proof.Machine
end

