-- ==== Sys2Proof/Machine/CardSequencer.lean ====
section
/-! DEFINITION. The card sequencer (43_card_sequencer.md): bring-up in its three forms, streaming reads and writes,
stop, and the error exit of a transfer. -/

namespace Sys2Proof.Machine

/-- Set the bring-up machine of `seq` (10_state.md R40). -/
def setBringUpSeq (q : BringUpSeq) : Op Unit := upd fun s => { s with seq := { s.seq with bringUp := q } }

/-- The session created anew (R160). `last_lba` is not among the fields R160 clears and keeps its value, which nothing reads
while the mode is NONE (10_state.md R32; DESIGN CHOICE, log 59). -/
def clearSession : Op Unit :=
  setSession fun ss => { ss with
    ready := false, mode := .none, busWidth := .w1, speed := .slow, bitlen := .b8, rca := 0, highCapacity := false }

/-- The session put down: not ready, no stream open (R160, R180). -/
def sessionDown : Op Unit := setSession fun ss => { ss with ready := false, mode := .none }

/-- The native bring-up from CMD0 to CMD6 (R160). R160 tests no outcome of CMD0: where `portLevel` is false it has none but
ok, and where it is true a port or PI wait that runs out while the frame goes out ends the bring-up as a failed step, with the
cause timeout (R136, R187, R192, R200; DESIGN CHOICE, log 64). -/
def nativeBringUp : Op Unit := do
  let p ← get' State.cfg
  setBringUpSeq .idle
  goIdle
  setBringUpSeq .volt
  let v2 ← voltageCheck
  pollReady (fun k => setBringUpSeq (.opcond k)) (p.acmd41Arg v2)
  setBringUpSeq .cid
  readCid
  setBringUpSeq .rca
  publishRca
  onlyIf p.useSelect do
    setBringUpSeq .select
    let rca ← get' fun s => s.sess.rca
    selectCard rca
  setBringUpSeq .width
  widenBus
  setBringUpSeq .speed
  highSpeed

/-- The SPI bring-up: CMD0, CMD8, the ACMD41 poll, CMD58 (R162). No rule says which step of `seq` is `CI_OCR`, which
10_state.md R40 lists: here it is CMD58 of this bring-up, and the native one has no such step (DESIGN CHOICE, log 39). -/
def spiBringUp : Op Unit := do
  let p ← get' State.cfg
  setBringUpSeq .idle
  goIdle
  let b0 ← respByte 0
  if b0 = 0x01 then do
    setBringUpSeq .volt
    let v2 ← voltageCheck
    pollReady (fun k => setBringUpSeq (.opcond k)) (p.acmd41Arg v2)
    setBringUpSeq .ocr
    readOcr
  else raise .malformed

/-- The bring-up of a family whose cartridge does the framing (R178). It has no step of the bring-up machine, which stays at
rest until the session is ready (10_state.md R40; DESIGN CHOICE, log 39). -/
def offloadBringUp : Op Unit := do
  let p ← get' State.cfg
  let _ ← cartCommand 0x69 p.sdOpInit 0

/-- The bring-up of a bit-level family: configure the port, then the sequence of its wire (R160, R162). R193 gives SD_CFG
no choice of wire, so the port is configured for SPI by the same word as for the native wire (DESIGN CHOICE, log 22). -/
def wireBringUp (wire : Wire) : Op Unit := do
  portConfig
  match wire with
  | .sdNative => nativeBringUp
  | .spi => spiBringUp

/-- The bring-up of a family: by its cartridge, or over the wire. -/
def familyBringUp (q : FamilyParams) : Op Unit :=
  if q.offload then offloadBringUp else wireBringUp q.wire

/-- The body of `card_init` inside its bracket: offloaded (R178), SPI (R162) or native (R160). -/
def bringUp : Op Unit := do
  clearSession
  let q ← famParams
  familyBringUp q
  setSession fun ss => { ss with ready := true }
  setBringUpSeq .done

/-- The clean-up of a failed bring-up (R160). -/
def failBringUp : Op Unit := do
  setBringUpSeq .fail
  resetPort
  sessionDown

/-- One bring-up in its bracket. The bring-up machine is at rest again at its end (10_state.md R40; DESIGN CHOICE, log 39). -/
def runBringUp : Op Unit := do
  let r ← attempt (bracketed failBringUp bringUp)
  setBringUpSeq .rest
  rethrow r

/-- Whether `card_init` brings the card up. At the setting of reset it always does: the flags of 10_state.md R45 are the only
ones, and none of them records an `init`. Where the parameter `initRequired` asks for one, the family's `init` has succeeded
and no `exit` has run since, or the session is ready, which may always be started again (R160 and its corner case; DEDUCED,
log 35). -/
def State.mayInit (s : State) : Bool := !s.cfg.initRequired || s.initDone || s.sess.ready

/-- `card_init()` (R160), dispatched. Where an `init` is asked for and there was none, and the session is not ready, it is
answered not ready, with no event; as after every failed `card_init` the session is down then (44_transport_handlers.md
R189, 60_exceptions.md R272, 70_reset_and_hazards.md R289; DEDUCED, log 35). -/
def cardInit : Op Unit := dispatch fun _ => do
  let may ← get' State.mayInit
  if may then runBringUp
  else do
    sessionDown
    raise .notReady

/-- The bring-up that `disk_initialize` makes of a bound drive, after `exit` too, whatever `initRequired` says: a bound drive
had its `init` (46_block_adapter.md R222; DEDUCED, log 35). -/
def bringUpAgain : Op Unit := dispatch fun _ => runBringUp

/-- `needs_switch(m, lba)` (R163). -/
def needsSwitch (ss : Session) (m : AccessMode) (lba : Word) : Bool :=
  !(ss.mode == m && lba == ss.lastLba + 1)

/-- Open the stream of a mode at an LBA: CMD18 to read, CMD25 to write (R164). -/
def enterMode (m : AccessMode) (lba : Word) : Op Unit :=
  openAt m (if m = .blockRead then 18 else 25) lba

/-- `ensure_mode(m, lba)` (R164). -/
def ensureMode (m : AccessMode) (lba : Word) : Op Unit := do
  let ss ← get' State.sess
  onlyIf (needsSwitch ss m lba) do
    onlyIf (ss.mode != .none) stopStream
    enterMode m lba

/-- The clean-up of a failed transfer (R168); an offloaded family has no stream to stop (R178; DEDUCED,
log 43). -/
def abortTransfer : Op Unit := do
  let q ← famParams
  let m ← get' fun s => s.sess.mode
  onlyIf (m != .none && !q.offload) (bestEffort stopStream)
  setSession fun ss => { ss with mode := .none }
  resetPort

/-- One more block of the stream has moved (R165). -/
def countBlock : Op Unit :=
  setSession fun ss => { ss with lastLba := ss.lastLba + 1 }

/-- The read loop: `n` blocks to ascending addresses (R165). -/
def readLoop : Nat → Nat → Op Unit
  | 0, _ => pure ()
  | n + 1, dest => do
    receiveBlock sector
    moveToRam dest
    countBlock
    readLoop n (dest + sector)

/-- The write loop: `n` blocks from ascending addresses (R166). -/
def writeLoop : Nat → Nat → Op Unit
  | 0, _ => pure ()
  | n + 1, src => do
    moveFromRam src
    let d ← takeFromBuffer
    sendBlock d
    countBlock
    writeLoop n (src + sector)

/-- The read loop of an offloaded family (R178). -/
def offloadReadLoop (buf : Word) : Nat → Word → Nat → Op Unit
  | 0, _, _ => pure ()
  | n + 1, lba, dest => do
    let _ ← cartCommand 0x49 lba 0
    let _ ← cartCommand 0x73 buf 1
    moveToRam dest
    offloadReadLoop buf n (lba + 1) (dest + sector)

/-- The write loop of an offloaded family (R178). -/
def offloadWriteLoop (buf : Word) : Nat → Word → Nat → Op Unit
  | 0, _, _ => pure ()
  | n + 1, lba, src => do
    moveFromRam src
    let _ ← cartCommand 0x49 lba 0
    let _ ← cartCommand 0x53 buf 1
    offloadWriteLoop buf n (lba + 1) (src + sector)

/-- Why the operands of a transfer have no meaning, if they have none (R165; U6, U7). -/
def operandRefusal (p : Params) (buf lba count : Word) : Option Refusal :=
  if !countOk count then some .countZero
  else if !rangeOk lba count then some .lbaOverflow
  else if !noWrap buf count then some .bufferWraps
  else if !noOverlap p.stageAddr buf count then some .bufferOverlapsStage
  else none

/-- The native body of a transfer, in one bracket. An LBA without a block argument is refused whether or not a stream has
to be opened for it, and before the bus is touched (30_encoding.md R89; U7; log 47). -/
def nativeTransfer (lba : Word) (body : Op Unit) : Op Unit := do
  let hc ← get' fun s => s.sess.highCapacity
  match blockArg hc lba with
  | none => refuse .lbaBeyondByteAddress
  | some _ => bracketed abortTransfer body

/-- The body of a transfer with a ready session: operands without a meaning are refused, then the offloaded or the native
body runs in one bracket (R165, R166, R178). The order of the refusals is a DESIGN CHOICE (log 29). -/
def transferBody (p : Params) (f : Family) (buf lba count : Word) (offloaded : Word → Op Unit) (native : Op Unit) :
    Op Unit :=
  match operandRefusal p buf lba count with
  | some r => refuse r
  | none =>
    if (p.fam f).offload then bracketed abortTransfer (swapTransfer (offloaded (p.fam f).cartBuf))
    else if (p.fam f).wire = .spi then refuse .spiDataPath
    else nativeTransfer lba native

/-- Either transfer: dispatch, require a ready session, run the body (45_autodetect_dispatch.md R214, R165, R166, R268). -/
def transfer (buf lba count : Word) (offloaded : Word → Op Unit) (native : Op Unit) : Op Unit :=
  dispatch fun f => do
    let p ← get' State.cfg
    let ready ← get' fun s => s.sess.ready
    if ready then transferBody p f buf lba count offloaded native else raise .notReady

/-- `card_read(dest, lba, count)` (R165). -/
def cardRead (dest lba count : Word) : Op Unit :=
  transfer dest lba count
    (fun buf => offloadReadLoop buf count.toNat lba dest.toNat)
    (do
      ensureMode .blockRead lba
      swapTransfer (readLoop count.toNat dest.toNat))

/-- `card_write(src, lba, count)` (R166). -/
def cardWrite (src lba count : Word) : Op Unit :=
  transfer src lba count
    (fun buf => offloadWriteLoop buf count.toNat lba src.toNat)
    (do
      ensureMode .blockWrite lba
      swapTransfer (writeLoop count.toNat src.toNat))

/-- `card_stop()` (R167). -/
def cardStop : Op Unit := do
  let m ← get' fun s => s.sess.mode
  onlyIf (m != .none) (bracketed (pure ()) stopStream)

/-- `card_init` as an instruction. -/
def execCardInit (s : State) : Host.Outcome State Fault Refusal :=
  runHost (do cardInit; pure .ok) s

/-- `card_read` as an instruction. -/
def execCardRead (dest lba count : Word) (s : State) : Host.Outcome State Fault Refusal :=
  runHost (do cardRead dest lba count; pure .ok) s

/-- `card_write` as an instruction. -/
def execCardWrite (src lba count : Word) (s : State) : Host.Outcome State Fault Refusal :=
  runHost (do cardWrite src lba count; pure .ok) s

/-- `card_stop` as an instruction. -/
def execCardStop (s : State) : Host.Outcome State Fault Refusal :=
  runHost (do cardStop; pure .ok) s

end Sys2Proof.Machine
end

