-- ==== Sys2Proof/Machine/Disk.lean ====
section
/-! DEFINITION. The block-device adapter (46_block_adapter.md). -/

namespace Sys2Proof.Machine

/-- `STA_NOINIT`, bit 0 (30_encoding.md R98). -/
def staNoinit : Byte := 0x01

/-- `CTRL_SYNC` (R98). -/
def ctrlSync : Byte := 0x00

/-- `translate` for the error causes (R228). -/
def translate : Cause → DiskResult
  | .noCartridge | .notReady => .notReady
  | .timeout | .crc | .mismatch | .malformed | .illegal | .absent | .write | .cart | .probe => .error
  | .param => .paramError

/-- The drive is in range (R221). -/
def driveInRange (s : State) (drive : Byte) : Bool := decide (drive.toNat < s.cfg.nVolumes)

/-- `S.bind[d]` (10_state.md R38). -/
def State.isBound (s : State) (drive : Byte) : Bool := s.bound.getD drive.toNat false

/-- `S.disk_status[d].NOINIT` (R39). -/
def State.isNoinit (s : State) (drive : Byte) : Bool := s.noinit.getD drive.toNat true

/-- Write `S.disk_status[d].NOINIT`. -/
def setNoinit (drive : Byte) (v : Bool) : Op Unit :=
  upd fun s => { s with noinit := s.noinit.set drive.toNat v }

/-- `disk_initialize(drive)` (R222). -/
def diskInitialize (drive : Byte) : Op Byte := do
  let s ← get' id
  if !driveInRange s drive then pure staNoinit
  else if !s.isBound drive then pure staNoinit
  else if s.sess.ready then do
    setNoinit drive false
    pure 0
  else do
    let r ← attempt bringUpAgain
    match r with
    | .ok _ => do
      setNoinit drive false
      pure 0
    | .error _ => do
      setNoinit drive true
      pure staNoinit

/-- `disk_status(drive)` (R223): no state change. -/
def diskStatus (s : State) (drive : Byte) : Byte :=
  if !driveInRange s drive || !s.isBound drive || s.isNoinit drive then staNoinit else 0

/-- The checks of `disk_read` and `disk_write` before the card operation, in their order (R224, R268). -/
def diskCheck (s : State) (drive : Byte) (lba count : Word) : Option DiskResult :=
  if !driveInRange s drive then some .paramError
  else if !countOk count || !rangeOk lba count then some .paramError
  else if !s.isBound drive then some .notReady
  else if s.isNoinit drive then some .notReady
  else none

/-- `disk_read` and `disk_write`: check, run the card operation, translate; a session that was not ready sets the
drive's NOINIT bit (R224, R225). -/
def diskTransfer (drive : Byte) (lba count : Word) (op : Op Unit) : Op DiskResult := do
  let s ← get' id
  match diskCheck s drive lba count with
  | some r => pure r
  | none => do
    let r ← attempt op
    match r with
    | .ok _ => pure .ok
    | .error .notReady => do
      setNoinit drive true
      pure .notReady
    | .error c => pure (translate c)

/-- `disk_ioctl(drive, cmd, buf)` (R226): the buffer is not touched. -/
def diskIoctl (s : State) (drive cmd : Byte) : DiskResult :=
  if !driveInRange s drive then .paramError
  else if !s.isBound drive then .notReady
  else if cmd = ctrlSync then .ok
  else .paramError

/-- `bind(drive)` (R220). Binding a bound drive again changes nothing and returns ok, as the rule's prose says; its
pseudocode has no test for it, which the model puts behind the range check (DEDUCED, log 49). -/
def bindOp (drive : Byte) : Op Unit := do
  let s ← get' id
  if !driveInRange s drive then raise .param
  else if s.isBound drive then pure ()
  else if !s.probed || s.cartType.isNone then raise .noCartridge
  else if !s.sess.ready then raise .notReady
  else
    upd fun s => { s with
      bound := s.bound.set drive.toNat true, noinit := s.noinit.set drive.toNat false }

/-- `disk_initialize` as an instruction. -/
def execDiskInitialize (drive : Byte) (s : State) : Host.Outcome State Fault Refusal :=
  runHost (do
    let v ← diskInitialize drive
    pure (.status v)) s

/-- `disk_status` as an instruction. -/
def execDiskStatus (drive : Byte) (s : State) : Host.Outcome State Fault Refusal :=
  runHost (do
    let v ← get' fun s => diskStatus s drive
    pure (.status v)) s

/-- `disk_read` as an instruction. -/
def execDiskRead (drive : Byte) (buffer lba count : Word) (s : State) : Host.Outcome State Fault Refusal :=
  runHost (do
    let r ← diskTransfer drive lba count (cardRead buffer lba count)
    pure (.disk r)) s

/-- `disk_write` as an instruction. -/
def execDiskWrite (drive : Byte) (buffer lba count : Word) (s : State) : Host.Outcome State Fault Refusal :=
  runHost (do
    let r ← diskTransfer drive lba count (cardWrite buffer lba count)
    pure (.disk r)) s

/-- `disk_ioctl` as an instruction. -/
def execDiskIoctl (drive cmd : Byte) (_buf : Word) (s : State) : Host.Outcome State Fault Refusal :=
  runHost (do
    let r ← get' fun s => diskIoctl s drive cmd
    pure (.disk r)) s

/-- `bind` as an instruction. -/
def execBind (drive : Byte) (s : State) : Host.Outcome State Fault Refusal :=
  runHost (do bindOp drive; pure .ok) s

end Sys2Proof.Machine
end

