-- ==== Sys2Proof/Machine/Transport.lean ====
section
/-! DEFINITION. The transport contract's `init` and `exit` (44_transport_handlers.md R188, R189) and the byte-swap
toggle (R198). -/

namespace Sys2Proof.Machine

/-- The settings `init` sends (R188, R197). -/
def sendSettings (settings : List (Word × Word)) : Op Unit :=
  forEach (fun kv => do
    let _ ← cartCommand 0x43 kv.1 kv.2) settings

/-- The record of `init` after it is set to `v`: where the parameter `initRequired` does not have the block hold it, it stays
as it was (10_state.md R45; DEDUCED, log 35). -/
def State.noted (s : State) (v : Bool) : Bool := if s.cfg.initRequired then v else s.initDone

/-- Record whether the family's `init` has succeeded, where the block holds that (R188, R189; DEDUCED, log 35). -/
def setInitDone (v : Bool) : Op Unit := upd fun s => { s with initDone := s.noted v }

/-- The session put down: not ready, no stream, its `init` undone (R188, R189). -/
def putDown : Op Unit := do
  sessionDown
  setInitDone false

/-- The body of `init` inside its bracket (R188). -/
def initBody (f : Family) : Op Unit := do
  putDown
  let m ← matchFamily f
  if m then do
    let q ← famParams
    onlyIf (!q.offload) resetPort
    sendSettings q.cfgInit
    setInitDone true
  else raise .probe

/-- `init()` (R188), dispatched: the reported size is the parameter. -/
def initOp : Op Nat := dispatch fun f => do
  bracketed (pure ()) (initBody f)
  get' fun s => (s.cfg.fam f).cartBufLen

/-- The body of `exit` inside its bracket (R189; DEDUCED, log 41). -/
def exitBody (f : Family) : Op Unit := do
  let on ← get' State.byteswap
  onlyIf on (swapDrive false)
  let p ← get' State.cfg
  regWrite .key (p.fam f).lockKey
  putDown

/-- `exit()` (R189), dispatched: an open stream is stopped first, its outcome ignored. However it ends, the session is
down (43_card_sequencer.md R180). On the SPI flavour the stop of an open stream is refused (U9), and `exit` is refused with
it: a refusal is no outcome to ignore (DESIGN CHOICE, log 22). -/
def exitOp : Op Unit := dispatch fun f => do
  let m ← get' fun s => s.sess.mode
  onlyIf (m != .none) (bestEffort cardStop)
  bracketed putDown (exitBody f)

/-- `set_byteswap(on)` (R198): refused on a family without the control. It returns `ok` and mirrors the value whatever
becomes of its accesses, since its signature lists no error (60_exceptions.md R280; DEDUCED, log 23). -/
def setByteswap (on : Bool) : Op Unit :=
  bracketed (pure ()) do
    let q ← famParams
    if q.hasSwap then do
      bestEffort (swapDrive on)
      upd fun s => { s with byteswap := on }
    else refuse .noSwapControl

/-- `init` as an instruction. -/
def execInit (s : State) : Host.Outcome State Fault Refusal :=
  runHost (do
    let n ← initOp
    pure (.bufferSize n)) s

/-- `exit` as an instruction. -/
def execExit (s : State) : Host.Outcome State Fault Refusal :=
  runHost (do exitOp; pure .ok) s

/-- `set_byteswap` as an instruction. -/
def execSetByteswap (on : Bool) (s : State) : Host.Outcome State Fault Refusal :=
  runHost (do setByteswap on; pure .ok) s

end Sys2Proof.Machine
end

