-- ==== Sys2Proof/Machine/Dispatch.lean ====
section
/-! DEFINITION. One arm per instruction. -/

namespace Sys2Proof.Machine

/-- The meaning of an instruction in a state. -/
def exec (i : Instr) (s : State) : Host.Outcome State Fault Refusal :=
  match i with
  | .cmd0 => Sys2Proof.Machine.execCmd0 s
  | .cmd8 => Sys2Proof.Machine.execCmd8 s
  | .cmd55 rca _ => Sys2Proof.Machine.execCmd55 rca s
  | .acmd41 arg _ => Sys2Proof.Machine.execAcmd41 arg s
  | .cmd2 => Sys2Proof.Machine.execCmd2 s
  | .cmd3 => Sys2Proof.Machine.execCmd3 s
  | .cmd7 rca _ => Sys2Proof.Machine.execCmd7 rca s
  | .acmd6 => Sys2Proof.Machine.execAcmd6 s
  | .cmd6 => Sys2Proof.Machine.execCmd6 s
  | .cmd58 => Sys2Proof.Machine.execCmd58 s
  | .cmd12 => Sys2Proof.Machine.execCmd12 s
  | .cmd18 arg _ => Sys2Proof.Machine.execCmd18 arg s
  | .cmd25 arg _ => Sys2Proof.Machine.execCmd25 arg s
  | .ccSdOp a0 a1 => Sys2Proof.Machine.execCcSdOp a0 a1 s
  | .ccSectorSet a0 a1 => Sys2Proof.Machine.execCcSectorSet a0 a1 s
  | .ccRead a0 a1 => Sys2Proof.Machine.execCcRead a0 a1 s
  | .ccWrite a0 a1 => Sys2Proof.Machine.execCcWrite a0 a1 s
  | .ccConfigSet a0 a1 => Sys2Proof.Machine.execCcConfigSet a0 a1 s
  | .ccConfigGet a0 a1 => Sys2Proof.Machine.execCcConfigGet a0 a1 s
  | .computeCrc7 bytes => Sys2Proof.Machine.execComputeCrc7 bytes s
  | .computeCrc16 block => Sys2Proof.Machine.execComputeCrc16 block s
  | .executeCommand idx arg => Sys2Proof.Machine.execExecuteCommand idx arg s
  | .sendAppCommand idx rca arg => Sys2Proof.Machine.execSendAppCommand idx rca arg s
  | .init => Sys2Proof.Machine.execInit s
  | .exit => Sys2Proof.Machine.execExit s
  | .cardInit => Sys2Proof.Machine.execCardInit s
  | .cardRead dest lba count => Sys2Proof.Machine.execCardRead dest lba count s
  | .cardWrite src lba count => Sys2Proof.Machine.execCardWrite src lba count s
  | .cardStop => Sys2Proof.Machine.execCardStop s
  | .setByteswap on => Sys2Proof.Machine.execSetByteswap on s
  | .probe => Sys2Proof.Machine.execProbe s
  | .diskInitialize drive => Sys2Proof.Machine.execDiskInitialize drive s
  | .diskStatus drive => Sys2Proof.Machine.execDiskStatus drive s
  | .diskRead drive buffer sector count => Sys2Proof.Machine.execDiskRead drive buffer sector count s
  | .diskWrite drive buffer sector count => Sys2Proof.Machine.execDiskWrite drive buffer sector count s
  | .diskIoctl drive cmd buf => Sys2Proof.Machine.execDiskIoctl drive cmd buf s
  | .bind drive => Sys2Proof.Machine.execBind drive s
  | .acquire => Sys2Proof.Machine.execAcquire s
  | .release => Sys2Proof.Machine.execRelease s

end Sys2Proof.Machine
end

