-- ==== Sys2Proof/Machine/Step.lean ====
section
/-! DEFINITION. One step: the block takes the next request of the host, decodes it and runs it to its end (00_scope.md
R9). Before it, and in a step that finds no request, the CPU cache may act on its own (20_memory.md R72). -/

namespace Sys2Proof.Machine

/-- Decode a request and run it: a request with no meaning is refused by name (30_encoding.md R91, R92). -/
def runRequest (r : Request) (s : State) : Host.Outcome State Fault Refusal :=
  match decode r with
  | .error e => .refused (.badRequest e)
  | .ok i => if i.wellFormed then exec i s else .refused .illFormed

/-- One step of the machine: what the cache does on its own (log 11), then the next request, if there is one. -/
def step (s : State) : Host.Outcome State Fault Refusal :=
  match s.port with
  | [] => .next (settle s)
  | r :: rest => runRequest r (settle { s with port := rest })

/-- The state with an instruction of the opcode table, numbered as the table numbers it, as the next request (DESIGN
CHOICE, log 4). -/
def State.withFetchWord (s : State) (nbits w : Nat) : State :=
  { s with port := tableRequest nbits w :: s.port }

end Sys2Proof.Machine
end

