-- ==== Sys2Proof/Safety.lean ====
section
/-! DEFINITION. What claims are stated in: what a run leaves unchanged, what it sent, an environment that answers at
once, the invariants of the state, and the scripts of what a card answers on its lines. -/

namespace Sys2Proof.Machine

/-! ### What is left unchanged -/

/-- The parts of the state an operation may write. No operation writes the parameters, the request queue or the result. -/
structure Foot where
  /-- Oracle answers, free values, history, poll counter. -/
  log : Bool := false
  /-- The bit length of the port. -/
  line : Bool := false
  /-- The command engine's own registers: frame, response, prefix input, CRC7 register. -/
  engine : Bool := false
  /-- The CRC16 registers. -/
  lanes : Bool := false
  /-- The session but for the bit length. -/
  sess : Bool := false
  /-- The PI timing, its saved copy and the bus owner. -/
  bus : Bool := false
  /-- RAM, the cache and the DMA engine's registers. -/
  ram : Bool := false
  /-- The cartridge's sector buffer. -/
  buffer : Bool := false
  /-- The cartridge's identity. -/
  ident : Bool := false
  /-- The sequencer machines. -/
  seq : Bool := false
  /-- The byte swap. -/
  swap : Bool := false
  /-- The drive table. -/
  disk : Bool := false
  /-- Whether the family's `init` has succeeded. -/
  init : Bool := false
deriving DecidableEq, Repr

/-- One footprint lies in another. -/
def Foot.le (F G : Foot) : Bool :=
  (!F.log || G.log) && (!F.line || G.line) && (!F.engine || G.engine) && (!F.lanes || G.lanes)
    && (!F.sess || G.sess) && (!F.bus || G.bus) && (!F.ram || G.ram) && (!F.buffer || G.buffer)
    && (!F.ident || G.ident) && (!F.seq || G.seq) && (!F.swap || G.swap) && (!F.disk || G.disk)
    && (!F.init || G.init)

/-- The two states agree outside a footprint. -/
structure SameOn (F : Foot) (s t : State) : Prop where
  fixed : t.cfg = s.cfg ∧ t.port = s.port ∧ t.result = s.result
  log : F.log = false → t.env = s.env ∧ t.freeCount = s.freeCount ∧ t.hist = s.hist ∧ t.spinCount = s.spinCount
  line : F.line = false → t.sess.bitlen = s.sess.bitlen
  engine : F.engine = false → t.frame = s.frame ∧ t.resp = s.resp ∧ t.app = s.app ∧ t.crc7Acc = s.crc7Acc
  lanes : F.lanes = false → t.crc16Acc = s.crc16Acc
  sess : F.sess = false → { t.sess with bitlen := .b8 } = { s.sess with bitlen := BitLen.b8 }
  bus : F.bus = false → t.piDom = s.piDom ∧ t.nativeCfg = s.nativeCfg ∧ t.nativeSaved = s.nativeSaved ∧
    t.busOwner = s.busOwner
  ram : F.ram = false → t.phys = s.phys ∧ t.cache = s.cache
  dma : F.ram = false → t.dma = s.dma
  buffer : F.buffer = false → t.cb = s.cb
  ident : F.ident = false → t.probed = s.probed ∧ t.cartType = s.cartType
  seq : F.seq = false → t.seq = s.seq
  swap : F.swap = false → t.byteswap = s.byteswap
  disk : F.disk = false → t.bound = s.bound ∧ t.noinit = s.noinit
  init : F.init = false → t.initDone = s.initDone

/-- What a step leaves unchanged: all but a footprint and the result it returns. -/
def Kept (F : Foot) (s t : State) : Prop := SameOn F s { t with result := s.result }

/-- Every byte of RAM in both of its views, and every byte of the cartridge's buffer, reads as before. -/
def SameBytes (s t : State) : Prop :=
  ∀ a, t.hostByte a = s.hostByte a ∧ t.phys.read a = s.phys.read a ∧ t.cb.read a = s.cb.read a

namespace Foot

/-- An access: answers taken, events recorded, polls counted. -/
def access : Foot := { log := true }
/-- An access that may switch the bit length. -/
def clocked : Foot := { access with line := true }
/-- One exchange on the command line. -/
def exchange : Foot := { clocked with engine := true }
/-- A received block. -/
def receive : Foot := { clocked with lanes := true, buffer := true }
/-- A sent block. -/
def sendBlock : Foot := { clocked with lanes := true }
/-- An access that also writes the session. -/
def setting : Foot := { clocked with sess := true }
/-- A command that also writes the session. -/
def command : Foot := { exchange with sess := true }
/-- A bring-up over the wire. -/
def bringUp : Foot := { command with seq := true }
/-- A sector move. -/
def move : Foot := { access with ram := true, buffer := true }
/-- A cartridge command. -/
def cart : Foot := { access with buffer := true, swap := true }
/-- The transfer of a family whose cartridge does the framing. -/
def offload : Foot := { move with swap := true }
/-- The bracket alone. -/
def bracket : Foot := { access with bus := true }
/-- A streaming transfer inside its bracket. -/
def transfer : Foot := { command with lanes := true, ram := true, buffer := true, swap := true }
/-- Whatever the body of a card operation may write inside its bracket. -/
def inside : Foot := { transfer with seq := true }
/-- Whatever a card operation may write. -/
def card : Foot := { inside with bus := true, ident := true }
/-- Whatever `init` and `exit` may write. -/
def contract : Foot := { card with init := true }
/-- Whatever a disk operation may write. -/
def all : Foot := { card with disk := true }

end Foot

/-! ### What a run did -/

/-- What the block puts on the wire: a byte of the command line, or nibbles of the data lanes. -/
inductive Sent where
  | cmd (b : Byte)
  | dat (d : TxData)
deriving DecidableEq, Repr

/-- What a `CmdTx` or a `DatTx` event sends (00_scope.md R10). -/
def Event.sends : Event → Option Sent
  | .cmdTx b => some (.cmd b)
  | .datTx d => some (.dat d)
  | .piCfgWrite _ _ _ | .regRead _ _ | .regWrite _ _ | .cmdRxBit _ | .cmdRx _ | .datRx _ _
  | .datRxBit _ | .dmaToCart _ _ _ | .dmaFromCart _ _ _ | .cacheWb _ _ | .cacheWbInv _ _ | .cartCmd _ _ _ _ => none

/-- What a history sent, in order. -/
def sent (h : List Event) : List Sent := (h.filterMap Event.sends).reverse

/-- The address and the value of a `RegWrite` event. -/
def Event.written : Event → Option (Word × Word)
  | .regWrite a v => some (a, v)
  | .piCfgWrite _ _ _ | .regRead _ _ | .cmdTx _ | .cmdRxBit _ | .cmdRx _ | .datTx _ | .datRx _ _
  | .datRxBit _ | .dmaToCart _ _ _ | .dmaFromCart _ _ _ | .cacheWb _ _ | .cacheWbInv _ _ | .cartCmd _ _ _ _ => none

/-- The register writes of a history, in order. -/
def writes (h : List Event) : List (Word × Word) := (h.filterMap Event.written).reverse

/-- The code and the arguments of a `CartCmd` event. -/
def Event.cartCommand : Event → Option (Byte × Word × Word)
  | .cartCmd c a0 a1 _ => some (c, a0, a1)
  | .piCfgWrite _ _ _ | .regRead _ _ | .regWrite _ _ | .cmdTx _ | .cmdRxBit _ | .cmdRx _ | .datTx _ | .datRx _ _
  | .datRxBit _ | .dmaToCart _ _ _ | .dmaFromCart _ _ _ | .cacheWb _ _ | .cacheWbInv _ _ => none

/-- The cartridge commands of a history, in order. -/
def commands (h : List Event) : List (Byte × Word × Word) := (h.filterMap Event.cartCommand).reverse

/-- What an event says of the way of sectors and commands between the block and the cartridge: a sector's DMA, by its place
in RAM, or a cartridge command, by its code and arguments. -/
inductive Traffic where
  | toCart (ram : Nat)
  | fromCart (ram : Nat)
  | command (c : Byte × Word × Word)
deriving DecidableEq, Repr

/-- A `DmaToCart`, a `DmaFromCart` or a `CartCmd` event (00_scope.md R10). -/
def Event.traffic : Event → Option Traffic
  | .dmaToCart ram _ _ => some (.toCart ram)
  | .dmaFromCart _ ram _ => some (.fromCart ram)
  | .cartCmd c a0 a1 _ => some (.command (c, a0, a1))
  | .piCfgWrite _ _ _ | .regRead _ _ | .regWrite _ _ | .cmdTx _ | .cmdRxBit _ | .cmdRx _ | .datTx _ | .datRx _ _
  | .datRxBit _ | .cacheWb _ _ | .cacheWbInv _ _ => none

/-- The sectors moved and the commands issued in a history, in order. -/
def traffic (h : List Event) : List Traffic := (h.filterMap Event.traffic).reverse

/-- The byte of a `CmdTx` event. -/
def Event.cmdByte : Event → Option Byte
  | .cmdTx b => some b
  | .piCfgWrite _ _ _ | .regRead _ _ | .regWrite _ _ | .cmdRxBit _ | .cmdRx _ | .datTx _ | .datRx _ _ | .datRxBit _
  | .dmaToCart _ _ _ | .dmaFromCart _ _ _ | .cacheWb _ _ | .cacheWbInv _ _ | .cartCmd _ _ _ _ => none

/-- The bytes a history put on the command line, in order. -/
def cmdBytes (h : List Event) : List Byte := (h.filterMap Event.cmdByte).reverse

/-- The history after a step is the history before it with later events in front: nothing recorded is lost. -/
def Extends (s t : State) : Prop := ∃ new, t.hist = new ++ s.hist

/-- The outcome is a next state. -/
def Completes (o : Host.Outcome State Fault Refusal) : Prop := ∃ t, o = .next t

/-- `n` polls of a wait in a row, the counter at `c` before the first, that all answer none: from `s` to `t`, the counter
counted down after each (41_command_engine.md R124). -/
def misses {α : Type} (poll : Op (Option α)) : Nat → Nat → State → State → Prop
  | _, 0, s, t => t = s
  | c, n + 1, s, t => ∃ u, poll { s with spinCount := c } = .ok none u ∧
      misses poll (c - 1) n { u with spinCount := c - 1 } t

/-- The instructions of the command engine: the thirteen frames and the two operations over them (R125). -/
def usesEngine : Instr → Bool
  | .cmd0 | .cmd8 | .cmd55 _ _ | .acmd41 _ _ | .cmd2 | .cmd3 | .cmd7 _ _ | .acmd6 | .cmd6 | .cmd58 | .cmd12
  | .cmd18 _ _ | .cmd25 _ _ | .executeCommand _ _ | .sendAppCommand _ _ _ => true
  | .ccSdOp _ _ | .ccSectorSet _ _ | .ccRead _ _ | .ccWrite _ _ | .ccConfigSet _ _ | .ccConfigGet _ _
  | .computeCrc7 _ | .computeCrc16 _ | .init | .exit | .cardInit | .cardRead _ _ _ | .cardWrite _ _ _ | .cardStop
  | .setByteswap _ | .probe | .diskInitialize _ | .diskStatus _ | .diskRead _ _ _ _ | .diskWrite _ _ _ _
  | .diskIoctl _ _ _ | .bind _ | .acquire | .release => false

/-- The cartridge commands and their codes (R90). -/
def cartOperands : Instr → Option (Byte × Word × Word)
  | .ccSdOp a0 a1 => some (0x69, a0, a1)
  | .ccSectorSet a0 a1 => some (0x49, a0, a1)
  | .ccRead a0 a1 => some (0x73, a0, a1)
  | .ccWrite a0 a1 => some (0x53, a0, a1)
  | .ccConfigSet a0 a1 => some (0x43, a0, a1)
  | .ccConfigGet a0 a1 => some (0x63, a0, a1)
  | .cmd0 | .cmd8 | .cmd55 _ _ | .acmd41 _ _ | .cmd2 | .cmd3 | .cmd7 _ _ | .acmd6 | .cmd6 | .cmd58 | .cmd12
  | .cmd18 _ _ | .cmd25 _ _ | .computeCrc7 _ | .computeCrc16 _ | .executeCommand _ _ | .sendAppCommand _ _ _
  | .init | .exit | .cardInit | .cardRead _ _ _ | .cardWrite _ _ _ | .cardStop | .setByteswap _ | .probe
  | .diskInitialize _ | .diskStatus _ | .diskRead _ _ _ _ | .diskWrite _ _ _ _ | .diskIoctl _ _ _ | .bind _
  | .acquire | .release => none

/-- The adapter's answer to what a card operation returned (46_block_adapter.md R228). -/
def adapterResult : HostResult → DiskResult
  | .error c => translate c
  | .none | .ok | .crc7 _ | .crc16 _ _ | .version _ | .cart _ _ | .bufferSize _ | .family _ | .status _ | .disk _ => .ok

/-! ### An environment that answers at once -/

/-- Every sample of the PI status is idle, every value of `STATUS` says neither busy nor error, and each of the two is
listed. -/
def QuietEnv (q : FamilyParams) (e : Env) : Prop :=
  (e.pi ≠ [] ∧ ∀ p ∈ e.pi, p.dmaBusy = false ∧ p.ioBusy = false) ∧
    (e.status ≠ [] ∧ ∀ w ∈ e.status, statusBusy q w = false ∧ statusError q w = false)

/-- Every wait of a family may poll at least once (R124). -/
def positiveCaps (w : WaitCaps) : Prop :=
  0 < w.port ∧ 0 < w.cmd ∧ 0 < w.dma ∧ 0 < w.dataStart ∧ 0 < w.busy ∧ 0 < w.pi

/-- The PI controller and the cartridge answer every poll at once, and each register of the family has an address. -/
def Quiet (s : State) (f : Family) : Prop :=
  QuietEnv (s.cfg.fam f) s.env ∧ positiveCaps (s.cfg.fam f).waits ∧ regsFit f (s.cfg.fam f) = true

/-- The environment's answers but for the PI and cartridge status and what the cache does on its own. -/
def Env.core (e : Env) : Env := { e with pi := [], status := [], cacheActs := [] }

/-- What a run of a bracket of family `f` did in an environment that answers at once: it wrote nothing outside the
footprint `F`, left the environment's other answers as `e`, put `out` on the wire, and left an environment that still
answers at once. -/
structure Went (f : Family) (F : Foot) (e : Env) (out : List Sent) (s t : State) : Prop where
  same : SameOn F s t
  env : t.env.core = e
  sent : sent t.hist = sent s.hist ++ out
  quiet : Quiet t f

/-- The same of a step, with the result it returned. Where the footprint has no memory, every byte of it reads as
before. -/
structure Did (f : Family) (F : Foot) (e : Env) (out : List Sent) (r : HostResult) (s t : State) : Prop where
  result : t.result = r
  went : Went f F e out s { t with result := s.result }
  ram : F.ram = false → ∀ a, t.hostByte a = s.hostByte a ∧ t.phys.read a = s.phys.read a
  buffer : F.buffer = false → ∀ a, t.cb.read a = s.cb.read a

/-- What one exchange on the command line did: it sent the frame and filled the response buffer, and changed nothing but
the command engine; the bit length is whole bytes again (R115 to R119). -/
structure DidExchange (f : Family) (e : Env) (out : List Sent) (idx : BitVec 6) (arg : Word) (resp : List Byte)
    (r : HostResult) (s t : State) : Prop where
  did : Did f .exchange e out r s t
  frame : t.frame = frameBytes idx arg
  crc : t.crc7Acc = frameCrc idx arg
  app : t.app = (idx == 55)
  resp : t.resp = resp
  sess : t.sess = { s.sess with bitlen := .b8 }

/-- Inside a bracket, in an environment that answers at once. -/
structure Held (s : State) (f : Family) : Prop where
  owner : s.busOwner = .cart f
  quiet : Quiet s f

/-- Inside a bracket of a family that has an SD port of its own, in an environment that answers at once. -/
structure OnPort (s : State) (f : Family) : Prop where
  owner : s.busOwner = .cart f
  bitLevel : (s.cfg.fam f).offload = false
  quiet : Quiet s f

/-- The same on the native wire, which has data lanes. -/
structure OnLanes (s : State) (f : Family) : Prop where
  port : OnPort s f
  native : (s.cfg.fam f).wire = .sdNative

/-- Between operations, with a known cartridge, in an environment that answers at once. -/
structure Idle (s : State) (f : Family) : Prop where
  probed : s.probed = true
  cart : s.cartType = some f
  bus : s.busOwner = .native
  quiet : Quiet s f

/-- The configuration the next capture leaves in `S.native_cfg` (10_state.md R23). -/
def captured (s : State) : BusConfig := if s.nativeSaved then s.nativeCfg else s.piDom

/-- The bus after a bracket: the native timing is back, and captured (47_bus_dma.md R236, R245). -/
structure Restored (s t : State) : Prop where
  owner : t.busOwner = .native
  saved : t.nativeSaved = true
  native : t.nativeCfg = captured s
  dom : t.piDom = captured s

/-! ### Invariants -/

/-- The bracket invariant (47_bus_dma.md R240, R245): the saved copy is the launch configuration; until it is taken the
live timing is the launch configuration; outside a bracket the live timing is the saved copy; inside one it is the
configuration of the family the bracket was taken for. -/
structure BusInv (s : State) : Prop where
  saved : s.nativeSaved = true → s.nativeCfg = s.cfg.launch
  fresh : s.nativeSaved = false → s.piDom = s.cfg.launch ∧ s.busOwner = .native
  native : s.busOwner = .native → s.nativeSaved = true → s.piDom = s.nativeCfg
  cart : ∀ f, s.busOwner = .cart f → s.piDom = (s.cfg.fam f).cartCfg

/-- The two memories are in canonical form. -/
structure MemInv (s : State) : Prop where
  phys : s.phys.wf = true
  cb : s.cb.wf = true

/-- The cache holds each line once, at a multiple of the line size and in full, and a clean line is a copy of RAM
(20_memory.md R72). -/
structure CacheInv (s : State) : Prop where
  distinct : s.cache.Pairwise fun l m => l.base ≠ m.base
  aligned : ∀ l ∈ s.cache, l.base % s.cfg.cacheLine = 0
  full : ∀ l ∈ s.cache, l.data.length = s.cfg.cacheLine
  clean : ∀ l ∈ s.cache, l.dirty = false → ∀ j < s.cfg.cacheLine, l.data.getD j blankByte = s.phys.read (l.base + j)

/-- RAM as the sector moves need it. -/
structure Ram (s : State) : Prop where
  pos : 0 < s.cfg.cacheLine
  cache : CacheInv s
  phys : s.phys.wf = true

/-- The sequencer's machines between operations: the probe machine says what the identity says, the bring-up machine is at
rest (10_state.md R40; log 39). -/
structure SeqInv (s : State) : Prop where
  unprobed : s.probed = false → s.seq.probe = .unprobed
  bound : ∀ f, s.probed = true → s.cartType = some f → s.seq.probe = .bound f
  noCart : s.probed = true → s.cartType = none → s.seq.probe = .noCart
  bringUp : s.seq.bringUp = .rest

/-- The drive table has one entry a drive (10_state.md R38, R39). -/
structure TableInv (s : State) : Prop where
  bound : s.bound.length = s.cfg.nVolumes
  noinit : s.noinit.length = s.cfg.nVolumes

/-! ### What the card answers on the command line -/

/-- One answer: the bits the line idles high before it, and its bytes. -/
structure Answer where
  idle : Nat
  bytes : List Byte
deriving DecidableEq, Repr

/-- The bits of an answer on the command line (20_memory.md R56). -/
def Answer.wire (a : Answer) : List Bool := List.replicate a.idle true ++ a.bytes.flatMap byteBits

/-- The bits of several answers, one after another. -/
def wireOf (l : List Answer) : List Bool := l.flatMap Answer.wire

/-- An answer has the length of its command's response, begins with a 0 bit, and begins in time (R118, R119). -/
def Answer.fits (p : Params) (wire : Wire) (idx : BitVec 6) (kind : SdKind) (a : Answer) : Prop :=
  a.bytes.length = respLength wire idx kind ∧
    if respLength wire idx kind = 0 then a.idle = 0
    else a.idle < p.respSpinMax ∧ (a.bytes.getD 0 0).getLsbD 7 = false

/-- A command's answer fits and passes the response checks (R122). -/
def Answer.good (p : Params) (wire : Wire) (app : Bool) (idx : BitVec 6) (a : Answer) : Prop :=
  ∃ kind, respKind idx app = some kind ∧ a.fits p wire idx kind ∧ responseFault p wire kind idx a.bytes = none

/-- The lead-in and the frame of a command on the command line (R116). -/
def frameSent (p : Params) (idx : BitVec 6) (arg : Word) : List Sent :=
  (List.replicate p.nLeadin 0xFF ++ frameBytes idx arg).map .cmd

/-- All that one command puts on the command line (R116, R117). -/
def commandSent (p : Params) (idx : BitVec 6) (arg : Word) : List Sent :=
  frameSent p idx arg ++ (List.replicate p.nTrail 0xFF).map .cmd

/-- All that one sent block puts on the data lanes: start, data, checksum, end (R173). -/
def blockSent (width : BusWidth) (d : List Byte) : List Sent :=
  [.dat (.nibble 0), .dat (.bytes d), .dat (.bytes (blockTrailer width d)), .dat (.nibble 0xF)]

/-- What one ACMD41 round puts on the command line: the prefix, then the command (R123, R138). -/
def roundSent (p : Params) (arg : Word) : List Sent := commandSent p 55 0 ++ commandSent p 41 arg

/-- The answer to an ACMD41 says ready: the OCR's bit natively, an empty status byte on the SPI flavour (R138, R162). -/
def saysReady (wire : Wire) (a : Answer) : Bool :=
  match wire with
  | .sdNative => ocrReady (a.bytes.getD 1 0)
  | .spi => a.bytes.getD 0 0 == 0

/-- The session after the poll's last answer: the native one gives the capacity class (R138). -/
def Session.polled (wire : Wire) (a : Answer) (ss : Session) : Session :=
  match wire with
  | .sdNative => { ss with bitlen := .b8, highCapacity := ocrHighCapacity (a.bytes.getD 1 0) }
  | .spi => { ss with bitlen := .b8 }

/-- The two answers of one ACMD41 round are good. -/
def roundGood (p : Params) (wire : Wire) (r : Answer × Answer) : Prop :=
  r.1.good p wire false 55 ∧ r.2.good p wire true 41

/-! ### What a cartridge command writes and takes -/

/-- The register writes of one handshake (R195). -/
def handshakeWrites (p : Params) (f : Family) (code : Byte) (a0 a1 : Word) : List (Word × Word) :=
  [(regAddr p f .arg0, a0), (regAddr p f .arg1, a1), (regAddr p f .command, code.zeroExtend 32)]

/-- Whether the family's policy wraps a command in the byte swap (R198). -/
def wraps (q : FamilyParams) (code : Byte) : Bool :=
  q.hasSwap && q.swapPolicy == .listedCommands && q.swapListed.contains code

/-- The register writes that set the byte swap (R198). -/
def swapWrites (p : Params) (f : Family) (on : Bool) : List (Word × Word) :=
  if (p.fam f).swapViaCfg then handshakeWrites p f 0x43 (p.fam f).swapId (if on then 1 else 0)
  else [(regAddr p f .swap, if on then 1 else 0)]

/-- The cartridge commands that set the byte swap. -/
def swapCommands (q : FamilyParams) (on : Bool) : List (Byte × Word × Word) :=
  if q.swapViaCfg then [(0x43, q.swapId, if on then 1 else 0)] else []

/-- How many result words setting the byte swap takes. -/
def swapWords (q : FamilyParams) : Nat := if q.swapViaCfg then 2 else 0

/-- Register writes with those of a wrap around them, the swap being `on` before (R198). -/
def aroundWrites (p : Params) (f : Family) (wrap on : Bool) (w : List (Word × Word)) : List (Word × Word) :=
  if wrap then swapWrites p f true ++ w ++ swapWrites p f on else w

/-- Cartridge commands with those of a wrap around them. -/
def aroundCommands (q : FamilyParams) (wrap on : Bool) (c : List (Byte × Word × Word)) : List (Byte × Word × Word) :=
  if wrap then swapCommands q true ++ c ++ swapCommands q on else c

/-- How many result words a wrap takes on each side. -/
def aroundWords (q : FamilyParams) (wrap : Bool) : Nat := if wrap then swapWords q else 0

/-- How many bytes the cartridge brings into its buffer for a command: those of 's' (R178). -/
def broughtBytes (q : FamilyParams) (code : Byte) (a0 a1 : Word) : Nat :=
  if code == 0x73 then readCount q a0 a1 else 0

/-- The buffer after a command that brought these bytes, at a setting of the byte swap. -/
def bufferAfter (q : FamilyParams) (swapped : Bool) (code : Byte) (a0 : Word) (bs : List Byte) (m : Memory) : Memory :=
  if code == 0x73 then m.writeBytes (readOffset q a0) (if swapped then swapPairs bs else bs) else m

/-! ### What `init`, `exit` and the probe write -/

/-- The writes of a family's unlock key sequence (45_autodetect_dispatch.md R212). -/
def keyWrites (p : Params) (f : Family) : List (Word × Word) :=
  (p.fam f).keySeq.map fun k => (regAddr p f .key, k)

/-- The writes that reset the SD port at a session's settings (44_transport_handlers.md R199). -/
def resetWrites (p : Params) (f : Family) (ss : Session) : List (Word × Word) :=
  [(regAddr p f .sdCfg, sdCfgWord (p.fam f) ss.busWidth ss.speed .b8 ||| (p.fam f).resetBits),
    (regAddr p f .sdCfg, sdCfgWord (p.fam f) ss.busWidth ss.speed .b8)]

/-- The register writes of the settings `init` sends (R188, R197). -/
def settingsWrites (p : Params) (f : Family) (on : Bool) (l : List (Word × Word)) : List (Word × Word) :=
  l.flatMap fun kv => aroundWrites p f (wraps (p.fam f) 0x43) on (handshakeWrites p f 0x43 kv.1 kv.2)

/-- The cartridge commands of the settings `init` sends. -/
def settingsCommands (q : FamilyParams) (on : Bool) (l : List (Word × Word)) : List (Byte × Word × Word) :=
  l.flatMap fun kv => aroundCommands q (wraps q 0x43) on [(0x43, kv.1, kv.2)]

/-- All the register writes of `init` (R188). -/
def initWrites (p : Params) (f : Family) (ss : Session) (on : Bool) : List (Word × Word) :=
  keyWrites p f ++ (if (p.fam f).offload then [] else resetWrites p f ss) ++ settingsWrites p f on (p.fam f).cfgInit

/-- All the register writes of `exit` but for those of a stopped stream: the swap cleared where it is on, the lock key
(R189). -/
def exitWrites (p : Params) (f : Family) (on : Bool) : List (Word × Word) :=
  (if on then swapWrites p f false else []) ++ [(regAddr p f .key, (p.fam f).lockKey)]

/-! ### What the card answers on the data lanes -/

/-- Nibbles on the lanes that carry these bytes at a lane width (20_memory.md R57). -/
def Carries (width : BusWidth) (ns : List Nibble) (bytes : List Byte) : Prop :=
  match width with
  | .w4 => ns = nibblesOf bytes
  | .w1 => (ns.map fun n => n.getLsbD 0) = bytes.flatMap byteBits

/-- The lanes show a data block: high until its start, fewer clocks than the wait's cap, then start, data, checksum
and end (30_encoding.md R86, R169, R171). -/
def BlockOnLanes (q : FamilyParams) (width : BusWidth) (d t : List Byte) (ns : List Nibble) : Prop :=
  ∃ wait start data crc stop, ns = wait ++ start :: (data ++ crc ++ [stop]) ∧
    wait.length < q.waits.dataStart ∧ (∀ n ∈ wait, n.getLsbD 0 = true) ∧ start.getLsbD 0 = false ∧
    Carries width data d ∧ Carries width crc t ∧ t.length = trailerLength width

/-- The lanes show a busy period: `DAT0` low, then high, fewer clocks than the wait's cap (R174). -/
def BusyOnLanes (q : FamilyParams) (ns : List Nibble) : Prop :=
  ∃ busy free, ns = busy ++ [free] ∧ busy.length < q.waits.busy ∧ (∀ n ∈ busy, n.getLsbD 0 = false) ∧
    free.getLsbD 0 = true

/-! ### A bring-up -/

/-- What a card does with CMD8: it stays silent, or answers. -/
def voltWire (p : Params) : Option Answer → List Bool
  | none => List.replicate p.respSpinMax true
  | some a => a.wire

/-- The version CMD8 finds: 1 for a silent card or an illegal-command bit on the SPI flavour, 2 for the right echo, none
where the echo is wrong (R137, R162). -/
def voltVersion (wire : Wire) : Option Answer → Option Bool
  | none => some false
  | some a =>
    if wire = .spi ∧ spiIllegal (a.bytes.getD 0 0) = true then some false
    else if echoOk (a.bytes.getD 3 0) (a.bytes.getD 4 0) then some true
    else none

/-- What CMD8 puts on the command line. -/
def voltSent (p : Params) : Option Answer → List Sent
  | none => frameSent p 8 argCmd8
  | some _ => commandSent p 8 argCmd8

/-- What a card answers in the ACMD41 poll: rounds that say not ready, then one that says ready. -/
structure PollScript where
  waits : List (Answer × Answer)
  last : Answer × Answer
deriving DecidableEq, Repr

def PollScript.bits (b : PollScript) : List Bool := (b.waits ++ [b.last]).flatMap fun r => r.1.wire ++ r.2.wire

/-- The poll ends within its cap (R138). -/
def PollScript.good (p : Params) (wire : Wire) (b : PollScript) : Prop :=
  b.waits.length < p.acmd41Max ∧
    (∀ r ∈ b.waits, roundGood p wire r ∧ saysReady wire r.2 = false) ∧
    roundGood p wire b.last ∧ saysReady wire b.last.2 = true

def PollScript.sent (p : Params) (arg : Word) (b : PollScript) : List Sent :=
  (List.replicate (b.waits.length + 1) (roundSent p arg)).flatten

/-- What a card answers in a native bring-up (R160). -/
structure NativeScript where
  volt : Option Answer
  poll : PollScript
  cid : Answer
  rca : Answer
  select : Answer
  busy : List Nibble
  widthPrefix : Answer
  width : Answer
  speed : Answer
  data : List Byte
  trailer : List Byte
  lanes : List Nibble
deriving DecidableEq, Repr

/-- The bits on the command line. -/
def NativeScript.bits (p : Params) (b : NativeScript) : List Bool :=
  voltWire p b.volt ++ b.poll.bits ++ b.cid.wire ++ b.rca.wire ++ (if p.useSelect then b.select.wire else []) ++
    b.widthPrefix.wire ++ b.width.wire ++ b.speed.wire

/-- The nibbles on the lanes: a busy period after CMD7, the 64-byte block of CMD6. -/
def NativeScript.nibbles (p : Params) (b : NativeScript) : List Nibble :=
  (if p.useSelect then b.busy else []) ++ b.lanes

/-- Every answer is good; `v2` is the version CMD8 finds. -/
structure NativeScript.good (p : Params) (q : FamilyParams) (v2 : Bool) (b : NativeScript) : Prop where
  volt : ∀ a, b.volt = some a → a.good p .sdNative false 8
  version : voltVersion .sdNative b.volt = some v2
  poll : b.poll.good p .sdNative
  cid : b.cid.good p .sdNative false 2
  rca : b.rca.good p .sdNative false 3
  select : p.useSelect = true → b.select.good p .sdNative false 7 ∧ BusyOnLanes q b.busy
  widthPrefix : b.widthPrefix.good p .sdNative false 55
  width : b.width.good p .sdNative true 6
  speed : b.speed.good p .sdNative false 6
  data : b.data.length = 64 ∧ BlockOnLanes q .w4 b.data b.trailer b.lanes

/-- The RCA the card publishes (R141). -/
def NativeScript.rcaValue (b : NativeScript) : Half := b.rca.bytes.getD 1 0 ++ b.rca.bytes.getD 2 0

/-- What the block puts on the command line in a native bring-up, in order (R160). -/
def NativeScript.sent (p : Params) (v2 : Bool) (b : NativeScript) : List Sent :=
  commandSent p 0 0 ++ voltSent p b.volt ++ b.poll.sent p (p.acmd41Arg v2) ++ commandSent p 2 0 ++ commandSent p 3 0 ++
    (if p.useSelect then commandSent p 7 (rcaArg b.rcaValue) else []) ++
    commandSent p 55 (rcaArg b.rcaValue) ++ commandSent p 6 argAcmd6 ++ commandSent p 6 argCmd6

/-- What a card answers in an SPI bring-up (R162). -/
structure SpiScript where
  idle : Answer
  volt : Option Answer
  poll : PollScript
  ocr : Answer
deriving DecidableEq, Repr

def SpiScript.bits (p : Params) (b : SpiScript) : List Bool :=
  b.idle.wire ++ voltWire p b.volt ++ b.poll.bits ++ b.ocr.wire

structure SpiScript.good (p : Params) (v2 : Bool) (b : SpiScript) : Prop where
  idle : b.idle.good p .spi false 0 ∧ b.idle.bytes.getD 0 0 = 0x01
  volt : ∀ a, b.volt = some a → a.good p .spi false 8
  version : voltVersion .spi b.volt = some v2
  poll : b.poll.good p .spi
  ocr : b.ocr.good p .spi false 58

def SpiScript.sent (p : Params) (v2 : Bool) (b : SpiScript) : List Sent :=
  commandSent p 0 0 ++ voltSent p b.volt ++ b.poll.sent p (p.acmd41Arg v2) ++ commandSent p 58 0

/-- The session a bring-up starts from (R160). -/
def Session.cleared (ss : Session) : Session :=
  { ss with ready := false, mode := .none, busWidth := .w1, speed := .slow, bitlen := .b8, rca := 0, highCapacity := false }

/-! ### A bring-up that fails -/

/-- A command fails with a cause: the card stays silent, or its answer fails a response check (41_command_engine.md R118,
R122). The lists are the bits the line shows and what the block sends. -/
inductive CommandFails (p : Params) (wire : Wire) (app : Bool) (idx : BitVec 6) (arg : Word) :
    Cause → List Bool → List Sent → Prop
  | silent (kind : SdKind) : respKind idx app = some kind → respLength wire idx kind ≠ 0 →
      CommandFails p wire app idx arg .timeout (List.replicate p.respSpinMax true) (frameSent p idx arg)
  | check (kind : SdKind) (a : Answer) (c : Cause) : respKind idx app = some kind → a.fits p wire idx kind →
      responseFault p wire kind idx a.bytes = some c →
      CommandFails p wire app idx arg c a.wire (commandSent p idx arg)

/-- A command behind its prefix fails, by its prefix or by itself (R123). -/
inductive AppCommandFails (p : Params) (wire : Wire) (idx : BitVec 6) (rca : Half) (arg : Word) :
    Cause → List Bool → List Sent → Prop
  | atPrefix (c : Cause) (bits : List Bool) (out : List Sent) : CommandFails p wire false 55 (rcaArg rca) c bits out →
      AppCommandFails p wire idx rca arg c bits out
  | atCommand (a : Answer) (c : Cause) (bits : List Bool) (out : List Sent) : a.good p wire false 55 →
      CommandFails p wire true idx arg c bits out →
      AppCommandFails p wire idx rca arg c (a.wire ++ bits) (commandSent p 55 (rcaArg rca) ++ out)

/-- CMD8 fails: a wrong echo, or a response check, but for the silence and the illegal command that say version 1 (R137,
R162). -/
inductive VoltageFails (p : Params) (wire : Wire) : Cause → List Bool → List Sent → Prop
  | echo (a : Answer) : a.good p wire false 8 → voltVersion wire (some a) = none →
      VoltageFails p wire .mismatch a.wire (commandSent p 8 argCmd8)
  | check (c : Cause) (bits : List Bool) (out : List Sent) : c ≠ .timeout → c ≠ .illegal →
      CommandFails p wire false 8 argCmd8 c bits out → VoltageFails p wire c bits out

/-- The ACMD41 poll fails: rounds that say not ready up to its cap, or fewer and then a round that fails (R138). -/
inductive PollFails (p : Params) (wire : Wire) (arg : Word) : Cause → List Bool → List Sent → Prop
  | absent (rounds : List (Answer × Answer)) : rounds.length = p.acmd41Max →
      (∀ r ∈ rounds, roundGood p wire r ∧ saysReady wire r.2 = false) →
      PollFails p wire arg .absent (rounds.flatMap fun r => r.1.wire ++ r.2.wire)
        (List.replicate rounds.length (roundSent p arg)).flatten
  | round (rounds : List (Answer × Answer)) (c : Cause) (bits : List Bool) (out : List Sent) :
      rounds.length < p.acmd41Max → (∀ r ∈ rounds, roundGood p wire r ∧ saysReady wire r.2 = false) →
      AppCommandFails p wire 41 0 arg c bits out →
      PollFails p wire arg c ((rounds.flatMap fun r => r.1.wire ++ r.2.wire) ++ bits)
        ((List.replicate rounds.length (roundSent p arg)).flatten ++ out)

/-- The steps of a native bring-up behind CMD0 (R160). -/
inductive NativeStep where
  | volt
  | poll
  | cid
  | rca
  | select
  | width
  | speed
deriving DecidableEq, Repr

/-- The steps before one, in their order (R160). -/
def NativeStep.before (x : NativeStep) : List NativeStep :=
  [.volt, .poll, .cid, .rca, .select, .width, .speed].takeWhile (· != x)

/-- What a step that succeeds takes from the command line. -/
def NativeScript.stepBits (p : Params) (b : NativeScript) : NativeStep → List Bool
  | .volt => voltWire p b.volt
  | .poll => b.poll.bits
  | .cid => b.cid.wire
  | .rca => b.rca.wire
  | .select => if p.useSelect then b.select.wire else []
  | .width => b.widthPrefix.wire ++ b.width.wire
  | .speed => b.speed.wire

/-- What a step that succeeds takes from the data lanes. -/
def NativeScript.stepNibbles (p : Params) (b : NativeScript) : NativeStep → List Nibble
  | .select => if p.useSelect then b.busy else []
  | .speed => b.lanes
  | .volt | .poll | .cid | .rca | .width => []

/-- What a step that succeeds sends. -/
def NativeScript.stepSent (p : Params) (v2 : Bool) (b : NativeScript) : NativeStep → List Sent
  | .volt => voltSent p b.volt
  | .poll => b.poll.sent p (p.acmd41Arg v2)
  | .cid => commandSent p 2 0
  | .rca => commandSent p 3 0
  | .select => if p.useSelect then commandSent p 7 (rcaArg b.rcaValue) else []
  | .width => commandSent p 55 (rcaArg b.rcaValue) ++ commandSent p 6 argAcmd6
  | .speed => commandSent p 6 argCmd6

/-- What the card answered before a step. -/
def NativeScript.bitsBefore (p : Params) (b : NativeScript) (x : NativeStep) : List Bool :=
  x.before.flatMap (b.stepBits p)

def NativeScript.nibblesBefore (p : Params) (b : NativeScript) (x : NativeStep) : List Nibble :=
  x.before.flatMap (b.stepNibbles p)

/-- What was sent before a step, CMD0 first. -/
def NativeScript.sentBefore (p : Params) (v2 : Bool) (b : NativeScript) (x : NativeStep) : List Sent :=
  commandSent p 0 0 ++ x.before.flatMap (b.stepSent p v2)

/-- The session as the steps before one leave it: the capacity class from the poll, the address from CMD3, the width from
ACMD6 (R138, R141, R143). -/
def NativeScript.sessionAt (b : NativeScript) (ss : Session) (x : NativeStep) : Session :=
  { ss.cleared with
    highCapacity := decide (.poll ∈ x.before) && ocrHighCapacity (b.poll.last.2.bytes.getD 1 0)
    rca := if .rca ∈ x.before then b.rcaValue else 0
    busWidth := if .width ∈ x.before then .w4 else .w1 }

/-- The card answers a step so that it fails with a cause: what its lines show, and what the block sends in that step. CMD7
and CMD6 fail on the data lanes too: busy for too long, or a block that never starts (R122, R160, R169, R174). -/
inductive NativeScript.FailsAt (p : Params) (q : FamilyParams) (b : NativeScript) (v2 : Bool) :
    NativeStep → Cause → List Bool → List Nibble → List Sent → Prop
  | volt (c : Cause) (bits : List Bool) (out : List Sent) : VoltageFails p .sdNative c bits out →
      FailsAt p q b v2 .volt c bits [] out
  | poll (c : Cause) (bits : List Bool) (out : List Sent) : PollFails p .sdNative (p.acmd41Arg v2) c bits out →
      FailsAt p q b v2 .poll c bits [] out
  | cid (c : Cause) (bits : List Bool) (out : List Sent) : CommandFails p .sdNative false 2 0 c bits out →
      FailsAt p q b v2 .cid c bits [] out
  | rca (c : Cause) (bits : List Bool) (out : List Sent) : CommandFails p .sdNative false 3 0 c bits out →
      FailsAt p q b v2 .rca c bits [] out
  | select (c : Cause) (bits : List Bool) (out : List Sent) : p.useSelect = true →
      CommandFails p .sdNative false 7 (rcaArg b.rcaValue) c bits out → FailsAt p q b v2 .select c bits [] out
  | busy (stuck : List Nibble) : p.useSelect = true → stuck.length = q.waits.busy → (∀ n ∈ stuck, n.getLsbD 0 = false) →
      FailsAt p q b v2 .select .timeout b.select.wire stuck (commandSent p 7 (rcaArg b.rcaValue))
  | width (c : Cause) (bits : List Bool) (out : List Sent) :
      AppCommandFails p .sdNative 6 b.rcaValue argAcmd6 c bits out → FailsAt p q b v2 .width c bits [] out
  | speed (c : Cause) (bits : List Bool) (out : List Sent) : CommandFails p .sdNative false 6 argCmd6 c bits out →
      FailsAt p q b v2 .speed c bits [] out
  | block (high : List Nibble) : high.length = q.waits.dataStart → (∀ n ∈ high, n.getLsbD 0 = true) →
      FailsAt p q b v2 .speed .timeout b.speed.wire high (commandSent p 6 argCmd6)

/-- The steps of an SPI bring-up (R162). -/
inductive SpiStep where
  | idle
  | volt
  | poll
  | ocr
deriving DecidableEq, Repr

/-- The steps before one, in their order (R162). -/
def SpiStep.before (x : SpiStep) : List SpiStep := [.idle, .volt, .poll, .ocr].takeWhile (· != x)

/-- What a step that succeeds takes from the command line. -/
def SpiScript.stepBits (p : Params) (b : SpiScript) : SpiStep → List Bool
  | .idle => b.idle.wire
  | .volt => voltWire p b.volt
  | .poll => b.poll.bits
  | .ocr => b.ocr.wire

/-- What a step that succeeds sends. -/
def SpiScript.stepSent (p : Params) (v2 : Bool) (b : SpiScript) : SpiStep → List Sent
  | .idle => commandSent p 0 0
  | .volt => voltSent p b.volt
  | .poll => b.poll.sent p (p.acmd41Arg v2)
  | .ocr => commandSent p 58 0

/-- The card answers a step so that it fails with a cause; CMD0 fails by silence, or by an answer that does not say idle
(R118, R162; log 22). -/
inductive SpiScript.FailsAt (p : Params) (v2 : Bool) : SpiStep → Cause → List Bool → List Sent → Prop
  | silent (c : Cause) (bits : List Bool) (out : List Sent) : CommandFails p .spi false 0 0 c bits out →
      FailsAt p v2 .idle c bits out
  | notIdle (a : Answer) : a.good p .spi false 0 → a.bytes.getD 0 0 ≠ 0x01 →
      FailsAt p v2 .idle .malformed a.wire (commandSent p 0 0)
  | volt (c : Cause) (bits : List Bool) (out : List Sent) : VoltageFails p .spi c bits out → FailsAt p v2 .volt c bits out
  | poll (c : Cause) (bits : List Bool) (out : List Sent) : PollFails p .spi (p.acmd41Arg v2) c bits out →
      FailsAt p v2 .poll c bits out
  | ocr (c : Cause) (bits : List Bool) (out : List Sent) : CommandFails p .spi false 58 0 c bits out →
      FailsAt p v2 .ocr c bits out

/-- The write of `SD_CFG` at a width and a speed, in whole bytes (44_transport_handlers.md R193). -/
def configWrite (p : Params) (f : Family) (width : BusWidth) (speed : Speed) : Word × Word :=
  (regAddr p f .sdCfg, sdCfgWord (p.fam f) width speed .b8)

/-! ### A transfer -/

/-- What a card answers when the stream is switched: to CMD12, to the command that opens the stream (R164). -/
structure SwitchScript where
  stop : Answer
  busy : List Nibble
  start : Answer
deriving DecidableEq, Repr

/-- Whether a transfer stops the stream that is open (R164). -/
def stopsFirst (ss : Session) (m : AccessMode) (lba : Word) : Bool := needsSwitch ss m lba && ss.mode != .none

/-- The command that opens a mode's stream (R164). -/
def openIndex (m : AccessMode) : BitVec 6 := if m = .blockRead then 18 else 25

def SwitchScript.bits (ss : Session) (m : AccessMode) (lba : Word) (b : SwitchScript) : List Bool :=
  (if stopsFirst ss m lba then b.stop.wire else []) ++ (if needsSwitch ss m lba then b.start.wire else [])

def SwitchScript.nibbles (ss : Session) (m : AccessMode) (lba : Word) (b : SwitchScript) : List Nibble :=
  if stopsFirst ss m lba then b.busy else []

structure SwitchScript.good (p : Params) (q : FamilyParams) (ss : Session) (m : AccessMode) (lba : Word)
    (b : SwitchScript) : Prop where
  stop : stopsFirst ss m lba = true → b.stop.good p .sdNative false 12 ∧ BusyOnLanes q b.busy
  start : needsSwitch ss m lba = true → b.start.good p .sdNative false (openIndex m)

/-- What a switch puts on the command line; `arg` is the block argument. -/
def switchSent (p : Params) (ss : Session) (m : AccessMode) (lba arg : Word) : List Sent :=
  (if stopsFirst ss m lba then commandSent p 12 0 else []) ++
    (if needsSwitch ss m lba then commandSent p (openIndex m) arg else [])

/-- One block on the lanes. -/
structure BlockScript where
  data : List Byte
  trailer : List Byte
  lanes : List Nibble
deriving DecidableEq, Repr

/-- A sector that is received without error (R171, R112). -/
def BlockScript.good (p : Params) (q : FamilyParams) (width : BusWidth) (b : BlockScript) : Prop :=
  b.data.length = sector ∧ BlockOnLanes q width b.data b.trailer b.lanes ∧
    (p.checkReadCrc16 = true → b.trailer = blockTrailer width b.data)

/-- The bytes of a sector as they are placed in the cartridge's buffer (R198). -/
def placed (swapped : Bool) (d : List Byte) : List Byte := if swapped then swapPairs d else d

/-- The bytes of several sectors as they are placed. -/
def landed (swapped : Bool) (blocks : List BlockScript) : List Byte := blocks.flatMap fun b => placed swapped b.data

/-- What a card answers to a written block: five clocks of status, then busy (R173). -/
structure TokenScript where
  before : Nibble
  tok0 : Nibble
  tok1 : Nibble
  tok2 : Nibble
  after : Nibble
  busy : List Nibble
deriving DecidableEq, Repr

def TokenScript.nibbles (b : TokenScript) : List Nibble :=
  b.before :: b.tok0 :: b.tok1 :: b.tok2 :: b.after :: b.busy

/-- The three status bits (30_encoding.md R86). -/
def TokenScript.status (b : TokenScript) : BitVec 3 :=
  bitOf (b.tok0.getLsbD 0) ++ bitOf (b.tok1.getLsbD 0) ++ bitOf (b.tok2.getLsbD 0)

/-- The status says accepted, and the busy period ends in time. -/
def TokenScript.good (q : FamilyParams) (b : TokenScript) : Prop :=
  b.status = 0b010 ∧ BusyOnLanes q b.busy

/-- The lanes show a sector whose receipt fails with a cause: its start outlasts the wait, or its trailer is wrong where
trailers are checked (R169, R171). -/
def BadBlock (p : Params) (q : FamilyParams) (width : BusWidth) : Cause → List Nibble → Prop
  | .timeout, ns => ns.length = q.waits.dataStart ∧ ∀ n ∈ ns, n.getLsbD 0 = true
  | .crc, ns => p.checkReadCrc16 = true ∧
      ∃ d t, d.length = sector ∧ BlockOnLanes q width d t ns ∧ t ≠ blockTrailer width d
  | _, _ => False

/-- The lanes show what ends the sending of a sector with a cause: a status that does not say accepted, or an accepted
block with a busy period that outlasts the wait (R173, R174). -/
def BadToken (q : FamilyParams) (c : Cause) (ns : List Nibble) : Prop :=
  ∃ b : TokenScript, ns = b.nibbles ∧
    ((b.busy = [] ∧ ((b.status = 0b101 ∧ c = .crc) ∨ (b.status = 0b110 ∧ c = .write) ∨
        (b.status ≠ 0b101 ∧ b.status ≠ 0b110 ∧ b.status ≠ 0b010 ∧ c = .malformed))) ∨
      (b.status = 0b010 ∧ c = .timeout ∧ b.busy.length = q.waits.busy ∧ ∀ n ∈ b.busy, n.getLsbD 0 = false))

/-- Whether the family's policy wraps every transfer in the byte swap (R198). -/
def wrapsTransfer (q : FamilyParams) : Bool := q.hasSwap && q.swapPolicy == .everyTransfer

/-- A transfer may begin: between operations, a session is up, the operands have a meaning, and both memories are as
they should be (R165). -/
structure CanTransfer (s : State) (f : Family) (buf lba count : Word) : Prop where
  idle : Idle s f
  ready : s.sess.ready = true
  operands : operandRefusal s.cfg buf lba count = none
  ram : Ram s
  cb : s.cb.wf = true

/-- The result words a wrap around a whole transfer takes: before it, after it, and more behind them. -/
structure WrapWords (s : State) (f : Family) (xs ys ws : List Word) : Prop where
  before : xs.length = aroundWords (s.cfg.fam f) (wrapsTransfer (s.cfg.fam f))
  after : ys.length = aroundWords (s.cfg.fam f) (wrapsTransfer (s.cfg.fam f))
  words : s.env.core.words = xs ++ (ys ++ ws)
  more : wrapsTransfer (s.cfg.fam f) = true → (s.cfg.fam f).swapViaCfg = true → ws ≠ []

/-- The caller's buffer and the staging buffer as a transfer of `n` sectors needs them: a direct buffer, or one with no
byte of the staging buffer in it (R241, U6). -/
def bufferFits (stage buf n : Nat) : Prop :=
  direct buf = true ∨ stage + sector ≤ buf ∨ buf + sector * n ≤ stage

/-- The host view after sectors were moved to a buffer: the buffer holds them, the staging buffer may have changed, every
other byte reads as before. -/
def ReadInto (stage buf : Nat) (data : List Byte) (s t : State) : Prop :=
  (∀ j < data.length, t.hostByte (buf + j) = data.getD j blankByte) ∧
    ∀ b, (b < buf ∨ buf + data.length ≤ b) → (direct buf = true ∨ b < stage ∨ stage + sector ≤ b) →
      t.hostByte b = s.hostByte b

/-- What a write of `n` sectors puts on the data lanes: the host view of the caller's buffer, block after block, each pair
of bytes exchanged where the swap is on (R166, R198). -/
def blocksSent (s : State) (swapped : Bool) : Nat → Nat → List Sent
  | 0, _ => []
  | n + 1, src =>
    blockSent s.sess.busWidth (placed swapped (s.hostBytes src sector)) ++ blocksSent s swapped n (src + sector)

/-- The host view after sectors were moved out: only the staging buffer may have changed. -/
def ReadFrom (stage buf : Nat) (s t : State) : Prop :=
  ∀ b, (direct buf = true ∨ b < stage ∨ stage + sector ≤ b) → t.hostByte b = s.hostByte b

/-! ### A transfer of a family whose cartridge does the framing -/

/-- How many result words one cartridge command takes, its wrap included. -/
def commandWords (q : FamilyParams) (code : Byte) : Nat := 2 * aroundWords q (wraps q code) + 2

/-- The cartridge commands of `n` sectors from an LBA: sector-set, then `code`, for each (R178). -/
def sectorCommands (q : FamilyParams) (swapped : Bool) (code : Byte) : Nat → Word → List (Byte × Word × Word)
  | 0, _ => []
  | n + 1, lba =>
    aroundCommands q (wraps q 0x49) swapped [(0x49, lba, 0)] ++
      aroundCommands q (wraps q code) swapped [(code, q.cartBuf, 1)] ++ sectorCommands q swapped code n (lba + 1)

/-- A cartridge command fails (44_transport_handlers.md R195): the first wait of the handshake outlasts its cap and nothing is
issued; or the command is issued and its second wait outlasts the cap, or ends at a value with the error bit. The list holds
the values of `STATUS` it takes; the Bool says whether the command was issued. -/
inductive CartFails (q : FamilyParams) : Cause → Bool → List Word → Prop
  | unissued (busy : List Word) : busy.length = q.waits.cmd → (∀ w ∈ busy, statusBusy q w = true) →
      CartFails q .timeout false busy
  | unanswered (w : Word) (busy : List Word) : statusBusy q w = false → busy.length = q.waits.cmd →
      (∀ w ∈ busy, statusBusy q w = true) → CartFails q .timeout true (w :: busy)
  | error (w w' : Word) : statusBusy q w = false → statusBusy q w' = false → statusError q w' = true →
      CartFails q .cart true [w, w']

/-- The values of `STATUS` that commands which succeed take, two for each: neither is busy, the second has no error bit. -/
def CartGood (q : FamilyParams) (l : List (Word × Word)) : Prop :=
  ∀ p ∈ l, statusBusy q p.1 = false ∧ statusBusy q p.2 = false ∧ statusError q p.2 = false

/-- Between operations, with a known cartridge that does the framing itself and a PI controller that is idle at every sample;
what the policy wraps in the byte swap, if anything, it wraps by the family's register and not by commands (R178, R198). -/
structure IdleOffload (s : State) (f : Family) : Prop where
  probed : s.probed = true
  cart : s.cartType = some f
  bus : s.busOwner = .native
  offload : (s.cfg.fam f).offload = true
  pi : s.env.pi ≠ [] ∧ ∀ p ∈ s.env.pi, p.dmaBusy = false ∧ p.ioBusy = false
  caps : positiveCaps (s.cfg.fam f).waits
  regs : regsFit f (s.cfg.fam f) = true
  plain : (s.cfg.fam f).swapViaCfg = false ∨ wrapsTransfer (s.cfg.fam f) = false ∧
    ∀ code : Byte, code = 0x69 ∨ code = 0x49 ∨ code = 0x73 ∨ code = 0x53 → wraps (s.cfg.fam f) code = false

/-- How many result words `n` sectors take. -/
def sectorWords (q : FamilyParams) (code : Byte) (n : Nat) : Nat := n * (commandWords q 0x49 + commandWords q code)

/-- How many result words a whole transfer takes, the wrap around it included. -/
def transferWords (q : FamilyParams) (code : Byte) (n : Nat) : Nat :=
  aroundWords q (wrapsTransfer q) + sectorWords q code n + aroundWords q (wrapsTransfer q)

/-- The cartridge commands of a whole transfer. -/
def transferCommands (q : FamilyParams) (swapped : Bool) (code : Byte) (n : Nat) (lba : Word) :
    List (Byte × Word × Word) :=
  aroundCommands q (wrapsTransfer q) swapped (sectorCommands q (wrapsTransfer q || swapped) code n lba)

/-- Where in RAM the DMA of a sector goes: the buffer itself, or the staging buffer (47_bus_dma.md R242, R243). -/
def dmaWindow (p : Params) (a : Nat) : Nat := if direct a then a else p.stageAddr

/-- The traffic of one cartridge command, its wrap included. -/
def commandTraffic (q : FamilyParams) (swapped : Bool) (code : Byte) (a0 a1 : Word) : List Traffic :=
  (aroundCommands q (wraps q code) swapped [(code, a0, a1)]).map .command

/-- The traffic of a read of `n` sectors: sector-set, read, then the sector's DMA to its place in RAM or to the staging
buffer, for each (R178, R242). -/
def readTraffic (p : Params) (f : Family) (swapped : Bool) : Nat → Word → Nat → List Traffic
  | 0, _, _ => []
  | n + 1, lba, dest =>
    commandTraffic (p.fam f) swapped 0x49 lba 0 ++ commandTraffic (p.fam f) swapped 0x73 (p.fam f).cartBuf 1 ++
      .fromCart (dmaWindow p dest) :: readTraffic p f swapped n (lba + 1) (dest + sector)

/-- The traffic of a write of `n` sectors: the sector's DMA from its place in RAM or from the staging buffer, then
sector-set and write, for each (R178, R243). -/
def writeTraffic (p : Params) (f : Family) (swapped : Bool) : Nat → Word → Nat → List Traffic
  | 0, _, _ => []
  | n + 1, lba, src =>
    .toCart (dmaWindow p src) :: (commandTraffic (p.fam f) swapped 0x49 lba 0 ++
      commandTraffic (p.fam f) swapped 0x53 (p.fam f).cartBuf 1 ++ writeTraffic p f swapped n (lba + 1) (src + sector))

/-- Traffic with the commands of the wrap around a whole transfer (R198). -/
def transferTraffic (q : FamilyParams) (swapped : Bool) (l : List Traffic) : List Traffic :=
  if wrapsTransfer q then (swapCommands q true).map .command ++ l ++ (swapCommands q swapped).map .command else l

end Sys2Proof.Machine
end

