-- ==== Sys2Proof/Certificates/Slice0/Obligations.lean ====
section
/-! DEFINITION. The statements for the provers. Each docstring names the rules it formalises; a clause that rests on a
choice of the model names its row of the assumption log. `Did f F e out r s t` (Safety.lean) says: `t` returns `r`, nothing
outside the footprint `F` changed, the environment's answers left are `e`, and `out` was put on the wire. -/

set_option autoImplicit false

open Sys2Proof Sys2Proof.Machine

/-! ### Encoding -/

/-- Decoding the encoding of a well-formed instruction gives it back, for every instruction and operand (R80, R88, R90;
the operand layout of a code request is the model's, log 5). -/
def Obligations.DecodeOfEncode : Prop :=
  ∀ i : Instr, i.wellFormed = true → decode (encode i) = .ok i

/-- What decodes to an instruction is its encoding, with nothing but bytes behind it: no bit of it is ignored (R80, R88,
R90; log 5). -/
def Obligations.EncodeOfDecode : Prop :=
  ∀ (r : Request) (i : Instr), decode r = .ok i → ∃ rest, r = ⟨(encode i).fmt, (encode i).bytes ++ rest⟩

/-- The six bytes of the frame of an index and an argument (R80, R81); and words written out from the spec decode to the
instruction they stand for: frames of the worked examples (R136 to R148) and codes (R88, R90). That the operands of a code
request follow it as bytes in this order, as in the last two words, is the model's choice (log 5). -/
def Obligations.SpecWords : Prop :=
  (∀ (idx : BitVec 6) (arg : Word),
    frameBytes idx arg =
      [0x40 ||| idx.zeroExtend 8, arg.extractLsb' 24 8, arg.extractLsb' 16 8, arg.extractLsb' 8 8, arg.extractLsb' 0 8,
        computeCrc7 [0x40 ||| idx.zeroExtend 8, arg.extractLsb' 24 8, arg.extractLsb' 16 8, arg.extractLsb' 8 8,
          arg.extractLsb' 0 8]]) ∧
  decode ⟨.frame, [0x40, 0x00, 0x00, 0x00, 0x00, 0x95]⟩ = .ok .cmd0 ∧
  decode ⟨.frame, [0x48, 0x00, 0x00, 0x01, 0xAA, 0x87]⟩ = .ok .cmd8 ∧
  decode ⟨.frame, [0x77, 0x12, 0x34, 0x00, 0x00, 0xBF]⟩ = .ok (.cmd55 0x1234 0x5F) ∧
  decode ⟨.frame, [0x69, 0x40, 0x30, 0x00, 0x00, 0xAB]⟩ = .ok (.acmd41 0x40300000 0x55) ∧
  decode ⟨.frame, [0x46, 0x00, 0x00, 0x00, 0x02, 0xCB]⟩ = .ok .acmd6 ∧
  decode ⟨.frame, [0x46, 0x80, 0xFF, 0xFF, 0xF1, 0x29]⟩ = .ok .cmd6 ∧
  decode ⟨.frame, [0x52, 0x00, 0x00, 0x10, 0x00, 0x93]⟩ = .ok (.cmd18 0x1000 0x49) ∧
  decode ⟨.code, [0x12]⟩ = .ok .cardInit ∧ decode ⟨.code, [0x30, 0x01]⟩ = .ok (.diskInitialize 1) ∧
  decode ⟨.code, [0x49, 0, 0, 0, 5, 0, 0, 0, 0]⟩ = .ok (.ccSectorSet 5 0)

/-- A frame of an index without a row and a code without a meaning decode to nothing, and a request that decodes to
nothing is refused (R91, R92, R93). -/
def Obligations.RequestsWithoutMeaning : Prop :=
  (∀ (idx : BitVec 6) (arg : Word) (crc : BitVec 7), idx.toNat ∉ [0, 2, 3, 6, 7, 8, 12, 18, 25, 41, 55, 58] →
    decode (encodeFrame idx arg crc) = .error .noSuchIndex) ∧
  (∀ (c : Byte) (rest : List Byte), c.toNat ∉ [0x01, 0x02, 0x03, 0x04, 0x10, 0x11, 0x12, 0x13, 0x14, 0x15, 0x16, 0x20, 0x30,
      0x31, 0x32, 0x33, 0x34, 0x35, 0x40, 0x41, 0x43, 0x49, 0x53, 0x63, 0x69, 0x73] →
    decode ⟨.code, c :: rest⟩ = .error .noSuchCode) ∧
  ∀ (s : State) (r : Request) (rest : List Request) (e : DecodeError), s.port = r :: rest → decode r = .error e →
    step s = .refused (.badRequest e)

/-- A step runs the instruction its next request decodes to, the request taken off the queue; a request whose checksum
field or length is wrong is refused (R9, R80; the queue is the model's, log 4; that such a request is refused is the
model's choice, log 37). With no request nothing runs. Before either, what the cache does on its own may change the physical
view of RAM and the lines present, the host sees none of it, and with no line present nothing changes (R72; that it acts at
the start of a step is the model's choice, log 11). -/
def Obligations.StepRunsDecoded : Prop :=
  (∀ (s : State) (r : Request) (rest : List Request) (i : Instr), s.port = r :: rest → decode r = .ok i →
    step s = if i.wellFormed then exec i (settle { s with port := rest }) else .refused .illFormed) ∧
  (∀ s : State, s.port = [] → step s = .next (settle s)) ∧
  (∀ (s : State) (nbits w : Nat) (i : Instr), decodeTableWord nbits w = some i → i.wellFormed = true →
    step (s.withFetchWord nbits w) = exec i (settle s) ∧ (s.cache = [] → step (s.withFetchWord nbits w) = exec i s)) ∧
  ∀ s : State, SameOn { Foot.access with ram := true } s (settle s) ∧ (settle s).dma = s.dma ∧
    (settle s).hist = s.hist ∧ (settle s).spinCount = s.spinCount ∧ (s.cache = [] → settle s = s) ∧
    (Ram s → Ram (settle s) ∧ ∀ a, (settle s).hostByte a = s.hostByte a)

/-! ### Checksums -/

/-- The laws of the raw checksum: linear, deaf to leading zero bytes, zero residue, and the last message bit (R102); the worked
examples, with the register after each byte and inside the first (R103). -/
def Obligations.Crc7Laws : Prop :=
  (∀ a b : List Byte, a.length = b.length → crc7 (List.zipWith (· ^^^ ·) a b) = crc7 a ^^^ crc7 b) ∧
  (∀ m : List Byte, crc7 (0x00 :: m) = crc7 m) ∧
  (∀ m : List Byte, crc7Run 0 (m.flatMap byteBits ++ (List.range 7).map fun j => (crc7 m).getLsbD (6 - j)) = 0) ∧
  crc7 [0x00, 0x00, 0x00, 0x00, 0x01] = 0x09 ∧
  (List.range 8).map (fun j => crc7Run 0 ((byteBits 0x40).take (j + 1))) =
    [0x00, 0x09, 0x12, 0x24, 0x48, 0x19, 0x32, 0x64] ∧
  (List.range 5).map (fun j => crc7 (([0x40, 0x00, 0x00, 0x00, 0x00] : List Byte).take (j + 1))) =
    [0x64, 0x6D, 0x66, 0x49, 0x4A] ∧
  (List.range 5).map (fun j => crc7 (([0x48, 0x00, 0x00, 0x01, 0xAA] : List Byte).take (j + 1))) =
    [0x2C, 0x35, 0x0C, 0x58, 0x43] ∧
  computeCrc7 [0x40, 0x00, 0x00, 0x00, 0x00] = 0x95 ∧ computeCrc7 [0x48, 0x00, 0x00, 0x01, 0xAA] = 0x87

/-- `compute_crc7`: the result for five bytes, its corner cases and its worked example; nothing but the generator's own
accumulator and the result changes (R101; that the accumulator keeps its last value is log 34). -/
def Obligations.ComputeCrc7Result : Prop :=
  (∀ (bytes : List Byte) (s : State), bytes.length = 5 →
    exec (.computeCrc7 bytes) s =
      .next { s with crc7Acc := crc7 bytes, result := .crc7 (((crc7 bytes).zeroExtend 8 <<< 1) ||| 1) } ∧
    (computeCrc7 bytes).getLsbD 0 = true ∧ (computeCrc7 bytes).extractLsb' 1 7 = crc7 bytes) ∧
  computeCrc7 [0, 0, 0, 0, 0] = 0x01 ∧ crc7 [0xFF, 0xFF, 0xFF, 0xFF, 0xFF] = 0x11 ∧
  computeCrc7 [0xFF, 0xFF, 0xFF, 0xFF, 0xFF] = 0x23 ∧ computeCrc7 [0x40, 0x00, 0x00, 0x00, 0x00] = 0x95

/-- `compute_crc16_four_lanes`: four checksums, each of one lane's bit stream, and their interleaving; nothing but the
generator's own accumulators and the result changes (R105 to R108; the accumulators keep their last value, log 34). -/
def Obligations.ComputeCrc16Result : Prop :=
  ∀ (block : List Byte) (s : State), block.length = 512 →
    ∃ lanes : Lanes, exec (.computeCrc16 block) s =
        .next { s with crc16Acc := lanes, result := .crc16 lanes (trailerOf lanes) } ∧
      lanes.l0 = crc16 (block.flatMap fun b => [b.getLsbD 4, b.getLsbD 0]) ∧
      lanes.l1 = crc16 (block.flatMap fun b => [b.getLsbD 5, b.getLsbD 1]) ∧
      lanes.l2 = crc16 (block.flatMap fun b => [b.getLsbD 6, b.getLsbD 2]) ∧
      lanes.l3 = crc16 (block.flatMap fun b => [b.getLsbD 7, b.getLsbD 3]) ∧
      (trailerOf lanes).length = 8 ∧
      ∀ i < 16, (nibblesOf (trailerOf lanes)).getD i 0 =
        bitOf (lanes.l3.getLsbD (15 - i)) ++ bitOf (lanes.l2.getLsbD (15 - i)) ++ bitOf (lanes.l1.getLsbD (15 - i)) ++
          bitOf (lanes.l0.getLsbD (15 - i))

/-- Un-interleaving the trailer gives the four lane checksums back, for every block; the two corner cases (R110). -/
def Obligations.TrailerRoundTrip : Prop :=
  (∀ block : List Byte, block.length = 512 →
    laneOfTrailer 0 (trailerOf (laneCrcs block)) = crc16 (laneStream 0 block) ∧
    laneOfTrailer 1 (trailerOf (laneCrcs block)) = crc16 (laneStream 1 block) ∧
    laneOfTrailer 2 (trailerOf (laneCrcs block)) = crc16 (laneStream 2 block) ∧
    laneOfTrailer 3 (trailerOf (laneCrcs block)) = crc16 (laneStream 3 block)) ∧
  laneCrcs (List.replicate 512 0x00) = ⟨0, 0, 0, 0⟩ ∧
  trailerOf (laneCrcs (List.replicate 512 0x00)) = [0x00, 0x00, 0x00, 0x00, 0x00, 0x00, 0x00, 0x00] ∧
  laneCrcs (List.replicate 512 0xFF) = ⟨0xEDA9, 0xEDA9, 0xEDA9, 0xEDA9⟩ ∧
  trailerOf (laneCrcs (List.replicate 512 0xFF)) = [0xFF, 0xF0, 0xFF, 0x0F, 0xF0, 0xF0, 0xF0, 0x0F]

/-- The bit-sliced form computes the same trailer, for a block of any length (R109). -/
def Obligations.SlicedTrailer : Prop :=
  ∀ block : List Byte, slicedTrailer block = trailerOf (laneCrcs block)

/-! ### Waits -/

/-- The one wait primitive, whatever a poll answers: it answers at the first poll that answers, and times out after exactly
`max` polls that do not (R124). -/
def Obligations.BoundedWait : Prop :=
  ∀ (α : Type) (poll : Op (Option α)) (max n : Nat) (s t u : State) (w : α),
    (n < max → misses poll max n s t → poll { t with spinCount := max - n } = .ok (some w) u →
      spinOn poll max s = .ok w u) ∧
    (1 ≤ max → misses poll max max s t → t.spinCount = 0 ∧ spinOn poll max s = .error (.cause .timeout) t)

/-! ### The command engine -/

/-- `execute_command` with any answer that begins in time: the frame goes out, the response buffer holds the answer, and
the response checks decide; with a silent line it times out and holds no response (R115 to R119, R127). The checks, in
their order, are those of R122: index echo, checksum, the card's flags. The model's choices: that the frame, the checksum
and the application input are kept (log 34, 15), where the trailing clocks stand (log 21), the fixed bits behind a
parameter of their own (log 19), a parameter for the order of the card's two flags (log 18; both are false at reset, as R122
has it), no check on the SPI flavour (log 22) and none of the flags of an SDR7 answer (log 53). -/
def Obligations.ExecuteCommandDecides : Prop :=
  ∀ (s : State) (f : Family) (idx : BitVec 6) (arg : Word) (kind : SdKind) (l : List Bool), OnPort s f →
    respKind idx s.app = some kind → l ≠ [] →
    (∀ a : Answer, a.fits s.cfg (s.cfg.fam f).wire idx kind → s.env.cmdLine = a.wire ++ l →
      ∃ t, exec (.executeCommand idx arg) s = .next t ∧
        DidExchange f { s.env.core with cmdLine := l } (commandSent s.cfg idx arg) idx arg a.bytes
          (match responseFault s.cfg (s.cfg.fam f).wire kind idx a.bytes with
            | some c => .error c
            | none => .ok) s t) ∧
    (respLength (s.cfg.fam f).wire idx kind ≠ 0 → s.env.cmdLine = List.replicate s.cfg.respSpinMax true ++ l →
      ∃ t, exec (.executeCommand idx arg) s = .next t ∧
        DidExchange f { s.env.core with cmdLine := l } (frameSent s.cfg idx arg) idx arg [] (.error .timeout) s t) ∧
    (∀ resp : List Byte, responseFault s.cfg .spi kind idx resp = none ∧
      responseFault s.cfg .sdNative kind idx resp =
        if s.cfg.checkRespIndex = true ∧ s.cfg.checkFixedBits = true ∧ kind ≠ .none ∧
            (resp.getD 0 0 &&& 0x40 ≠ 0 ∨ resp.getD (kind.nativeLength - 1) 0 &&& 0x01 = 0) then some .malformed
        else if s.cfg.checkRespIndex = true ∧
            ((kind = .sdr1 ∨ kind = .sdr1b ∨ kind = .sdr6 ∨ kind = .sdr7) ∧ (resp.getD 0 0).extractLsb' 0 6 ≠ idx ∨
              (kind = .sdr2 ∨ kind = .sdr3) ∧ resp.getD 0 0 ≠ 0x3F) then some .malformed
        else if s.cfg.checkRespCrc7 = true ∧ (kind = .sdr1 ∨ kind = .sdr1b ∨ kind = .sdr6 ∨ kind = .sdr7) ∧
            resp.getD 5 0 ≠ computeCrc7 (resp.take 5) then some .crc
        else if (kind = .sdr1 ∨ kind = .sdr1b) ∧ resp.getD 2 0 &&& 0xC0 = 0xC0 then
          some (if s.cfg.crcFlagFirst then .crc else .illegal)
        else if (kind = .sdr1 ∨ kind = .sdr1b) ∧ resp.getD 2 0 &&& 0x40 = 0x40 then some .illegal
        else if (kind = .sdr1 ∨ kind = .sdr1b) ∧ resp.getD 2 0 &&& 0x80 = 0x80 then some .crc
        else none)

/-- CMD0, CMD2 and CMD55 as instructions complete with their one exchange (R136, R139, R140). That the frame, the checksum
and the application input are kept, and where the trailing clocks stand, is the model's choice (log 34, 15, 21), as is CMD2
on the SPI flavour (log 22). -/
def Obligations.SimpleFrames : Prop :=
  ∀ (s : State) (f : Family) (a : Answer) (l : List Bool) (rca : Half) (crc : BitVec 7), OnPort s f → l ≠ [] →
    s.env.cmdLine = a.wire ++ l →
    ∀ (i : Instr) (idx : BitVec 6) (arg : Word),
      (i, idx, arg) = (Instr.cmd0, 0, 0) ∨ (i, idx, arg) = (Instr.cmd2, 2, 0) ∨
        (i, idx, arg) = (Instr.cmd55 rca crc, 55, rcaArg rca) →
      a.good s.cfg (s.cfg.fam f).wire false idx →
      ∃ t, exec i s = .next t ∧
        DidExchange f { s.env.core with cmdLine := l } (commandSent s.cfg idx arg) idx arg a.bytes .ok s t

/-- `send_app_command` sends the prefix, then the command, and holds the command's response; where the prefix fails, by
silence or by a response check, the command is not sent and the prefix's cause is returned (R123, R94); an index without a
row is refused before the prefix goes out (R91; U13). What is kept of the
last frame, and where the trailing clocks stand, is the model's choice (log 34, 15, 21). -/
def Obligations.SendAppCommand : Prop :=
  ∀ (s : State) (f : Family) (idx : BitVec 6) (rca : Half) (arg : Word) (l : List Bool), OnPort s f → l ≠ [] →
    (∀ a b : Answer, a.good s.cfg (s.cfg.fam f).wire false 55 → b.good s.cfg (s.cfg.fam f).wire true idx →
      s.env.cmdLine = a.wire ++ (b.wire ++ l) →
      ∃ t, exec (.sendAppCommand idx rca arg) s = .next t ∧
        DidExchange f { s.env.core with cmdLine := l } (commandSent s.cfg 55 (rcaArg rca) ++ commandSent s.cfg idx arg)
          idx arg b.bytes .ok s t) ∧
    (respKind idx true = none → exec (.sendAppCommand idx rca arg) s = .refused .noResponseKind) ∧
    (∀ (a : Answer) (c : Cause), respKind idx true ≠ none → a.fits s.cfg (s.cfg.fam f).wire 55 .sdr1 →
      responseFault s.cfg (s.cfg.fam f).wire .sdr1 55 a.bytes = some c → s.env.cmdLine = a.wire ++ l →
      ∃ t, exec (.sendAppCommand idx rca arg) s = .next t ∧
        DidExchange f { s.env.core with cmdLine := l } (commandSent s.cfg 55 (rcaArg rca)) 55 (rcaArg rca) a.bytes
          (.error c) s t) ∧
    (respKind idx true ≠ none → s.env.cmdLine = List.replicate s.cfg.respSpinMax true ++ l →
      ∃ t, exec (.sendAppCommand idx rca arg) s = .next t ∧
        DidExchange f { s.env.core with cmdLine := l } (frameSent s.cfg 55 (rcaArg rca)) 55 (rcaArg rca) []
          (.error .timeout) s t)

/-- CMD8: the right echo says version 2, a wrong one is a mismatch, an illegal-command answer or silence says version 1
(R137, R162). What is kept of the frame, and where the trailing clocks stand, is the model's choice (log 34, 15, 21); that no
flag of a native answer is looked at, so one with the illegal-command flag is judged by its echo, is its reading (log 53). -/
def Obligations.VoltageCheck : Prop :=
  ∀ (s : State) (f : Family) (l : List Bool), OnPort s f → l ≠ [] →
    (∀ a : Answer, a.good s.cfg (s.cfg.fam f).wire false 8 →
      ((s.cfg.fam f).wire = .spi → spiIllegal (a.bytes.getD 0 0) = false) → s.env.cmdLine = a.wire ++ l →
      ∃ t, exec .cmd8 s = .next t ∧
        DidExchange f { s.env.core with cmdLine := l } (commandSent s.cfg 8 0x000001AA) 8 0x000001AA a.bytes
          (if a.bytes.getD 3 0 &&& 0x0F = 0x01 ∧ a.bytes.getD 4 0 = 0xAA then .version true else .error .mismatch) s t) ∧
    (∀ a : Answer, a.fits s.cfg (s.cfg.fam f).wire 8 .sdr7 → (s.cfg.fam f).wire = .spi →
      spiIllegal (a.bytes.getD 0 0) = true → s.env.cmdLine = a.wire ++ l →
      ∃ t, exec .cmd8 s = .next t ∧
        DidExchange f { s.env.core with cmdLine := l } (commandSent s.cfg 8 0x000001AA) 8 0x000001AA a.bytes
          (.version false) s t) ∧
    (s.env.cmdLine = List.replicate s.cfg.respSpinMax true ++ l →
      ∃ t, exec .cmd8 s = .next t ∧
        DidExchange f { s.env.core with cmdLine := l } (frameSent s.cfg 8 0x000001AA) 8 0x000001AA [] (.version false)
          s t)

/-- ACMD41: rounds until the card says ready, and the capacity class from the last native answer; a card that never says
ready within the cap is absent (R138, R162). That every round sends the argument of the frame, whatever it is, where R138's
operand is the argument of the card's version, is the model's choice (log 60). -/
def Obligations.OperatingConditionPoll : Prop :=
  ∀ (s : State) (f : Family) (arg : Word) (crc : BitVec 7) (l : List Bool), OnPort s f → l ≠ [] →
    (∀ b : PollScript, b.good s.cfg (s.cfg.fam f).wire → s.env.cmdLine = b.bits ++ l →
      ∃ t, exec (.acmd41 arg crc) s = .next t ∧
        Did f .command { s.env.core with cmdLine := l } (b.sent s.cfg arg) .ok s t ∧
        t.sess = s.sess.polled (s.cfg.fam f).wire b.last.2) ∧
    (∀ rounds : List (Answer × Answer), rounds.length = s.cfg.acmd41Max → 1 ≤ s.cfg.acmd41Max →
      (∀ r ∈ rounds, roundGood s.cfg (s.cfg.fam f).wire r ∧ saysReady (s.cfg.fam f).wire r.2 = false) →
      s.env.cmdLine = (rounds.flatMap fun r => r.1.wire ++ r.2.wire) ++ l →
      ∃ t, exec (.acmd41 arg crc) s = .next t ∧
        Did f .command { s.env.core with cmdLine := l } ((List.replicate s.cfg.acmd41Max (roundSent s.cfg arg)).flatten)
          (.error .absent) s t ∧
        t.sess = { s.sess with bitlen := .b8 })

/-- CMD3 stores the address the card publishes; CMD58 stores the capacity class (R141, R145). A frame, `execute_command` or
`send_app_command` that does not return ok leaves the session as it was but for the bit length, in every environment: the
address, the capacity class, the mode, the last LBA, the width and the speed; CMD12 alone is another matter (R135;
`BusyFrames`). That a CMD58 frame is sent on the native wire too, and has this effect there, is the model's choice (log
63). -/
def Obligations.PublishedValues : Prop :=
  (∀ (i : Instr) (s t : State), usesEngine i = true → i ≠ .cmd12 → exec i s = .next t → t.result ≠ .ok →
    { t.sess with bitlen := s.sess.bitlen } = s.sess) ∧
  ∀ (s : State) (f : Family) (a : Answer) (l : List Bool), OnPort s f → l ≠ [] → s.env.cmdLine = a.wire ++ l →
    ((s.cfg.fam f).wire = .sdNative → a.good s.cfg .sdNative false 3 →
      ∃ t, exec .cmd3 s = .next t ∧
        Did f .command { s.env.core with cmdLine := l } (commandSent s.cfg 3 0) .ok s t ∧
        t.sess = { s.sess with bitlen := .b8, rca := a.bytes.getD 1 0 ++ a.bytes.getD 2 0 }) ∧
    (a.good s.cfg (s.cfg.fam f).wire false 58 →
      ∃ t, exec .cmd58 s = .next t ∧
        Did f .command { s.env.core with cmdLine := l } (commandSent s.cfg 58 0) .ok s t ∧
        t.sess = { s.sess with bitlen := .b8, highCapacity := (a.bytes.getD 1 0).getLsbD 6 })

/-- CMD7 and CMD12 complete once the card is no longer busy, and CMD12 ends the stream (R142, R146, R174). Whatever becomes of
a CMD12, the mode is none and the rest of the session but the bit length as it was, in every environment; one that is
not answered times out, one whose answer fails a response check returns that check's cause, and either command times out
behind a busy period that outlasts its wait (R122, R146, R174, R271). On the SPI flavour both are refused
(`EngineRefusals`). That CMD7 is sent with the address of the frame, whatever it is, where R142's operand is the session's,
is the model's choice (log 60). -/
def Obligations.BusyFrames : Prop :=
  (∀ s t : State, exec .cmd12 s = .next t → { t.sess with bitlen := s.sess.bitlen } = { s.sess with mode := .none }) ∧
  (∀ (s : State) (f : Family) (a : Answer) (busy m : List Nibble) (l : List Bool) (rca : Half) (crc : BitVec 7),
      OnLanes s f → l ≠ [] → m ≠ [] → s.env.cmdLine = a.wire ++ l → BusyOnLanes (s.cfg.fam f) busy →
      s.env.datLine = busy ++ m →
      (a.good s.cfg .sdNative false 7 →
        ∃ t, exec (.cmd7 rca crc) s = .next t ∧
          Did f .exchange { s.env.core with cmdLine := l, datLine := m } (commandSent s.cfg 7 (rcaArg rca)) .ok s t ∧
          t.sess = { s.sess with bitlen := .b8 }) ∧
      (a.good s.cfg .sdNative false 12 →
        ∃ t, exec .cmd12 s = .next t ∧
          Did f .command { s.env.core with cmdLine := l, datLine := m } (commandSent s.cfg 12 0) .ok s t ∧
          t.sess = { s.sess with bitlen := .b8, mode := .none })) ∧
  (∀ (s : State) (f : Family) (a : Answer) (stuck m : List Nibble) (l : List Bool) (rca : Half) (crc : BitVec 7),
      OnLanes s f → l ≠ [] → m ≠ [] → s.env.cmdLine = a.wire ++ l → stuck.length = (s.cfg.fam f).waits.busy →
      (∀ n ∈ stuck, n.getLsbD 0 = false) → s.env.datLine = stuck ++ m →
      (a.good s.cfg .sdNative false 7 →
        ∃ t, exec (.cmd7 rca crc) s = .next t ∧
          Did f .exchange { s.env.core with cmdLine := l, datLine := m } (commandSent s.cfg 7 (rcaArg rca))
            (.error .timeout) s t) ∧
      (a.good s.cfg .sdNative false 12 →
        ∃ t, exec .cmd12 s = .next t ∧
          Did f .command { s.env.core with cmdLine := l, datLine := m } (commandSent s.cfg 12 0) (.error .timeout) s t)) ∧
  (∀ (s : State) (f : Family) (a : Answer) (c : Cause) (l : List Bool), OnLanes s f → l ≠ [] →
    a.fits s.cfg .sdNative 12 .sdr1b → responseFault s.cfg .sdNative .sdr1b 12 a.bytes = some c →
    s.env.cmdLine = a.wire ++ l →
    ∃ t, exec .cmd12 s = .next t ∧
      Did f .command { s.env.core with cmdLine := l } (commandSent s.cfg 12 0) (.error c) s t) ∧
  ∀ (s : State) (f : Family) (l : List Bool), OnLanes s f → l ≠ [] →
    s.env.cmdLine = List.replicate s.cfg.respSpinMax true ++ l →
    ∃ t, exec .cmd12 s = .next t ∧
      Did f .command { s.env.core with cmdLine := l } (frameSent s.cfg 12 0) (.error .timeout) s t ∧
      t.sess = { s.sess with bitlen := .b8, mode := .none }

/-- ACMD6 sends the prefix with the session's address, then the command, and sets four lanes in the session and at the
port; where it does not return ok, the width stays as it was, in every environment (R143, R193, R135; that the session takes
the width after the write of the port is the model's reading, log 52; that the frame has this effect on the SPI flavour too
is its choice, log 22). -/
def Obligations.WidenBus : Prop :=
  (∀ s t : State, exec .acmd6 s = .next t → t.result ≠ .ok → t.sess.busWidth = s.sess.busWidth) ∧
  ∀ (s : State) (f : Family) (a b : Answer) (l : List Bool), OnPort s f → l ≠ [] →
    a.good s.cfg (s.cfg.fam f).wire false 55 → b.good s.cfg (s.cfg.fam f).wire true 6 →
    s.env.cmdLine = a.wire ++ (b.wire ++ l) →
    ∃ t, exec .acmd6 s = .next t ∧
      Did f .command { s.env.core with cmdLine := l }
        (commandSent s.cfg 55 (rcaArg s.sess.rca) ++ commandSent s.cfg 6 0x00000002) .ok s t ∧
      t.sess = { s.sess with bitlen := .b8, busWidth := .w4 } ∧
      t.hist.head? = some (.regWrite (regAddr s.cfg f .sdCfg) (sdCfgWord (s.cfg.fam f) .w4 s.sess.speed .b8))

/-- CMD6 takes the 64-byte status block, discards it, and sets the fast clock in the session and at the port (R144,
R171, R193); where it does not return ok, the speed stays as it was, in every environment (R135; log 52). -/
def Obligations.HighSpeed : Prop :=
  (∀ s t : State, exec .cmd6 s = .next t → t.result ≠ .ok → t.sess.speed = s.sess.speed) ∧
  ∀ (s : State) (f : Family) (a : Answer) (d tr : List Byte) (ns m : List Nibble) (l : List Bool), OnLanes s f →
    l ≠ [] → m ≠ [] → a.good s.cfg .sdNative false 6 → s.env.cmdLine = a.wire ++ l → d.length = 64 →
    BlockOnLanes (s.cfg.fam f) s.sess.busWidth d tr ns → s.env.datLine = ns ++ m →
    ∃ t, exec .cmd6 s = .next t ∧
      Did f .command { s.env.core with cmdLine := l, datLine := m } (commandSent s.cfg 6 0x80FFFFF1) .ok s t ∧
      t.sess = { s.sess with bitlen := .b8, speed := .fast } ∧
      t.hist.head? = some (.regWrite (regAddr s.cfg f .sdCfg) (sdCfgWord (s.cfg.fam f) s.sess.busWidth .fast .b8))

/-- CMD18 and CMD25 open a stream at a block argument and record the LBA before it (R147, R148, R89). Where no LBA has
that argument the recorded LBA is a free value (log 17). That the frames open a stream on the SPI flavour too is the model's
choice (log 22). One that does not return ok opens none and leaves the session as it was (`PublishedValues`). -/
def Obligations.OpenStream : Prop :=
  ∀ (s : State) (f : Family) (a : Answer) (l : List Bool) (arg : Word) (crc : BitVec 7), OnPort s f → l ≠ [] →
    s.env.cmdLine = a.wire ++ l →
    ∀ (i : Instr) (idx : BitVec 6) (mode : AccessMode),
      (i, idx, mode) = (Instr.cmd18 arg crc, 18, AccessMode.blockRead) ∨
        (i, idx, mode) = (Instr.cmd25 arg crc, 25, AccessMode.blockWrite) →
      a.good s.cfg (s.cfg.fam f).wire false idx →
      ∃ t, exec i s = .next t ∧
        Did f .command { s.env.core with cmdLine := l } (commandSent s.cfg idx arg) .ok s t ∧
        ((∀ lba, blockArg s.sess.highCapacity lba = some arg →
            t.sess = { s.sess with bitlen := .b8, mode := mode, lastLba := lba - 1 }) ∧
          ((∀ lba, blockArg s.sess.highCapacity lba ≠ some arg) →
            t.sess = { s.sess with bitlen := .b8, mode := mode, lastLba := Config.freeWord s.freeCount }))

/-- The command engine is refused outside a bracket (R125), inside the bracket of a family whose cartridge does the
framing (R126, R191), and for an index without a row in the response-kind table (R91, R127). On the SPI flavour the
commands that end on the data lanes are refused, and CMD3, whose answer has no address there, is the fault of a read beyond
the response (R126; U9, U11), whatever the card would answer (R9; log 22). -/
def Obligations.EngineRefusals : Prop :=
  (∀ (i : Instr) (s : State), usesEngine i = true → s.busOwner = .native → exec i s = .refused .busNotOwned) ∧
  (∀ (i : Instr) (s : State) (f : Family), usesEngine i = true → s.busOwner = .cart f → (s.cfg.fam f).offload = true →
    exec i s = .refused .engineOffloaded) ∧
  (∀ (s : State) (f : Family) (idx : BitVec 6) (arg : Word), s.busOwner = .cart f → (s.cfg.fam f).offload = false →
    respKind idx s.app = none → exec (.executeCommand idx arg) s = .refused .noResponseKind) ∧
  ∀ (s : State) (f : Family), s.busOwner = .cart f → (s.cfg.fam f).offload = false → (s.cfg.fam f).wire = .spi →
    (∀ i : Instr, i = .cmd6 ∨ i = .cmd12 ∨ (∃ rca crc, i = .cmd7 rca crc) → exec i s = .refused .spiDataPath) ∧
    exec .cmd3 s = .fault .respBeyondLength

/-! ### The cartridge -/

/-- The six cartridge commands: arguments and code are written between two waits, the result words are returned, the byte
swap is around it where the family's policy lists the code and as before after it; the event holds the command and its
answer; 's' alone fills the cartridge's buffer (R10, R195, R178, R197, R198; the wrap, the swapped bytes and when 's' fills
the buffer are the model's reading, log 24 to 26). -/
def Obligations.CartCommands : Prop :=
  ∀ (s : State) (f : Family) (i : Instr) (code : Byte) (a0 a1 r0 r1 : Word) (xs ys ws : List Word)
    (bs sec : List Byte), Held s f → cartOperands i = some (code, a0, a1) →
    xs.length = aroundWords (s.cfg.fam f) (wraps (s.cfg.fam f) code) →
    ys.length = aroundWords (s.cfg.fam f) (wraps (s.cfg.fam f) code) →
    s.env.words = xs ++ r0 :: r1 :: (ys ++ ws) → ws ≠ [] →
    s.env.sector = bs ++ sec → (bs = [] ∨ sec ≠ []) → bs.length = broughtBytes (s.cfg.fam f) code a0 a1 →
    ∃ t, exec i s = .next t ∧
      Did f .cart { s.env.core with words := ws, sector := sec } [] (.cart r0 r1) s t ∧
      writes t.hist = writes s.hist ++
        aroundWrites s.cfg f (wraps (s.cfg.fam f) code) s.byteswap (handshakeWrites s.cfg f code a0 a1) ∧
      commands t.hist = commands s.hist ++
        aroundCommands (s.cfg.fam f) (wraps (s.cfg.fam f) code) s.byteswap [(code, a0, a1)] ∧
      Event.cartCmd code a0 a1 (some (r0, r1)) ∈ t.hist ∧
      t.byteswap = s.byteswap ∧
      t.cb = bufferAfter (s.cfg.fam f) (wraps (s.cfg.fam f) code || s.byteswap) code a0 bs s.cb

/-- A cartridge command requested while the bus is the rest of the machine's is refused and writes no register (R186, R187,
R240). Inside a bracket, one whose busy bit never clears times out and writes no register; one that ends with the error bit
set fails with `cart`, its event without an answer (R10, R195, R200; what stands in the event of a
command that failed is the model's choice, log 50). -/
def Obligations.CartCommandFailures : Prop :=
  (∀ (i : Instr) (s : State) (op : Byte × Word × Word), cartOperands i = some op → s.busOwner = .native →
    exec i s = .refused .busNotOwned) ∧
  ∀ (s : State) (f : Family) (i : Instr) (code : Byte) (a0 a1 : Word), s.busOwner = .cart f →
    cartOperands i = some (code, a0, a1) → wraps (s.cfg.fam f) code = false → regsFit f (s.cfg.fam f) = true →
    (s.env.status ≠ [] → (∀ w ∈ s.env.status, statusBusy (s.cfg.fam f) w = true) →
      ∃ t, exec i s = .next t ∧ t.result = .error .timeout ∧ Kept .access s t ∧ writes t.hist = writes s.hist ∧
        commands t.hist = commands s.hist) ∧
    (∀ (w0 w1 : Word) (rest : List Word), s.env.status = w0 :: w1 :: rest → statusBusy (s.cfg.fam f) w0 = false →
      statusBusy (s.cfg.fam f) w1 = false → statusError (s.cfg.fam f) w1 = true → s.env.pi ≠ [] →
      (∀ p ∈ s.env.pi, p.ioBusy = false) → positiveCaps (s.cfg.fam f).waits →
      ∃ t, exec i s = .next t ∧ t.result = .error .cart ∧ Kept { Foot.access with buffer := true } s t ∧
        writes t.hist = writes s.hist ++ handshakeWrites s.cfg f code a0 a1 ∧
        commands t.hist = commands s.hist ++ [(code, a0, a1)] ∧ Event.cartCmd code a0 a1 none ∈ t.hist)

/-- `set_byteswap` drives the control and mirrors it, in a bracket of its own; whatever becomes of its accesses it returns ok
and mirrors the value (R198, R280; DEDUCED, log 23); a family without the control refuses it. -/
def Obligations.SetByteswap : Prop :=
  (∀ (s : State) (f : Family) (on : Bool) (xs ws : List Word), Idle s f → (s.cfg.fam f).hasSwap = true →
    xs.length = swapWords (s.cfg.fam f) → s.env.words = xs ++ ws → ((s.cfg.fam f).swapViaCfg = true → ws ≠ []) →
    ∃ t, exec (.setByteswap on) s = .next t ∧
      Did f { Foot.cart with bus := true } { s.env.core with words := ws } [] .ok s t ∧
      writes t.hist = writes s.hist ++ swapWrites s.cfg f on ∧
      commands t.hist = commands s.hist ++ swapCommands (s.cfg.fam f) on ∧
      Restored s t ∧ t.byteswap = on ∧ t.cb = s.cb) ∧
  (∀ (s t : State) (on : Bool), exec (.setByteswap on) s = .next t →
    t.result = .ok ∧ t.byteswap = on ∧ t.sess = s.sess ∧ t.busOwner = .native) ∧
  ∀ (s : State) (f : Family) (on : Bool), s.cartType = some f → s.busOwner = .native → (s.cfg.fam f).hasSwap = false →
    exec (.setByteswap on) s = .refused .noSwapControl

/-- `init`: the session is put down, the key sequence written, the identifier read; if it matches, the port is reset on a
family with a port of its own, the settings are sent and the buffer size is reported; if not, it fails with `probe`
(R188, R197, R198, R199). That a setting is wrapped in the byte swap where the policy lists 'C' is the model's reading
(log 24), as is what the reset write holds beside the reset bit (log 48). In every environment, where the parameter
`initRequired` has the block hold it, `init` is recorded as done exactly where it returned the size, and `exit` leaves it
undone; no other operation writes the record, and where the parameter is false, as it is at reset, none does (R45, R160,
R189; that it is a field and a parameter is the model's reading, log 35). -/
def Obligations.InitCompletes : Prop :=
  (∀ s t : State, s.cfg.initRequired = true → s.probed = true → s.cartType ≠ none → exec .init s = .next t →
    (t.initDone = true ↔ ∃ n, t.result = .bufferSize n)) ∧
  (∀ s t : State, s.cfg.initRequired = true → s.probed = true → s.cartType ≠ none → exec .exit s = .next t →
    t.initDone = false) ∧
  (∀ (i : Instr) (s t : State), (i ≠ .init ∧ i ≠ .exit) ∨ s.cfg.initRequired = false → exec i s = .next t →
    t.initDone = s.initDone) ∧
  ∀ (s : State) (f : Family) (id : Word) (ids : List Word), Idle s f → s.env.ident = id :: ids → ids ≠ [] →
    (identifierMatches s.cfg f id = true →
      (s.cfg.fam f).cfgInit.length * commandWords (s.cfg.fam f) 0x43 < s.env.words.length →
      ∃ t, exec .init s = .next t ∧
        Did f { Foot.cart with line := true, sess := true, init := true, bus := true } { s.env.core with
          ident := ids
          words := s.env.words.drop ((s.cfg.fam f).cfgInit.length * commandWords (s.cfg.fam f) 0x43) } []
          (.bufferSize (s.cfg.fam f).cartBufLen) s t ∧
        writes t.hist = writes s.hist ++ initWrites s.cfg f s.sess s.byteswap ∧
        commands t.hist = commands s.hist ++ settingsCommands (s.cfg.fam f) s.byteswap (s.cfg.fam f).cfgInit ∧
        Restored s t ∧ t.sess = { s.sess with ready := false, mode := .none } ∧ t.byteswap = s.byteswap ∧ t.cb = s.cb ∧
        t.initDone = s.noted true) ∧
    (identifierMatches s.cfg f id = false →
      ∃ t, exec .init s = .next t ∧
        Did f { Foot.setting with init := true, bus := true } { s.env.core with ident := ids } [] (.error .probe) s t ∧
        writes t.hist = writes s.hist ++ keyWrites s.cfg f ∧
        Restored s t ∧ t.sess = { s.sess with ready := false, mode := .none } ∧
        t.initDone = s.noted false)

/-- `exit`: an open stream is stopped first; the byte swap is cleared where it is on, the lock key written, the session
put down (R189). That the swap is cleared by a config command where that is the family's control is the model's reading
(log 41). The writes of the stopped stream, on a port modelled by its registers, come before these. With a stream open on
the SPI flavour it is refused with its `card_stop`, in every environment (the model's choice, log 22). Where the parameter
`initRequired` has the block hold whether `init` has run, it is undone (log 35). -/
def Obligations.ExitCompletes : Prop :=
  (∀ (s : State) (f : Family), s.probed = true → s.cartType = some f → s.busOwner = .native → s.sess.mode ≠ .none →
    (s.cfg.fam f).offload = false → (s.cfg.fam f).wire = .spi → exec .exit s = .refused .spiDataPath) ∧
  ∀ (s : State) (f : Family) (xs ws : List Word), Idle s f →
    xs.length = (if s.byteswap then swapWords (s.cfg.fam f) else 0) → s.env.words = xs ++ ws →
    (s.byteswap = true → (s.cfg.fam f).swapViaCfg = true → ws ≠ []) →
    (s.sess.mode = .none →
      ∃ t, exec .exit s = .next t ∧
        Did f { Foot.cart with line := true, sess := true, init := true, bus := true } { s.env.core with words := ws } []
          .ok s t ∧
        writes t.hist = writes s.hist ++ exitWrites s.cfg f s.byteswap ∧ Restored s t ∧
        t.sess = { s.sess with ready := false, mode := .none } ∧ t.byteswap = false ∧ t.cb = s.cb ∧
        t.initDone = s.noted false) ∧
    (∀ (a : Answer) (busy m : List Nibble) (l : List Bool), s.sess.mode ≠ .none → (s.cfg.fam f).offload = false →
      (s.cfg.fam f).wire = .sdNative → a.good s.cfg .sdNative false 12 → s.env.cmdLine = a.wire ++ l → l ≠ [] →
      BusyOnLanes (s.cfg.fam f) busy → s.env.datLine = busy ++ m → m ≠ [] →
      ∃ t, exec .exit s = .next t ∧
        Did f { Foot.command with bus := true, buffer := true, swap := true, init := true }
          { s.env.core with cmdLine := l, datLine := m, words := ws } (commandSent s.cfg 12 0) .ok s t ∧
        (∃ stop, writes t.hist = writes s.hist ++ stop ++ exitWrites s.cfg f s.byteswap ∧
          ((s.cfg.fam f).portLevel = false → stop = [])) ∧
        Restored s t ∧ t.sess = { s.sess with ready := false, mode := .none, bitlen := .b8 } ∧ t.byteswap = false ∧
        t.cb = s.cb ∧ t.initDone = s.noted false)

/-! ### Detection -/

/-- The probe stops at the first family of its order whose identifier matches, having written the keys of the families up
to it and nothing else, and gives the bus back; a second probe gives the same answer with no bus activity (R210, R212,
R215). -/
def Obligations.ProbeFinds : Prop :=
  (∀ (s : State) (f : Family) (pre post : List Family) (vals ids : List Word) (id : Word), s.probed = false →
    s.busOwner = .native → (∀ g, Quiet s g) → s.cfg.probeOrder = pre ++ f :: post → vals.length = pre.length →
    (∀ gv ∈ pre.zip vals, identifierMatches s.cfg gv.1 gv.2 = false) → identifierMatches s.cfg f id = true →
    s.env.ident = vals ++ id :: ids → ids ≠ [] →
    ∃ t, exec .probe s = .next t ∧ t.result = .family f ∧ t.probed = true ∧ t.cartType = some f ∧
      t.seq = { s.seq with probe := .bound f } ∧ Restored s t ∧
      Kept { Foot.bracket with ident := true, seq := true } s t ∧ SameBytes s t ∧
      t.env.core = { s.env.core with ident := ids } ∧ sent t.hist = sent s.hist ∧
      writes t.hist = writes s.hist ++ (pre ++ [f]).flatMap (keyWrites s.cfg)) ∧
  ∀ (s : State) (f : Family), s.probed = true → s.cartType = some f →
    exec .probe s = .next { s with result := .family f }

/-- A probe that no identifier matches binds nothing and says so, now and at every later probe (R210, R263). -/
def Obligations.ProbeNone : Prop :=
  (∀ (s : State) (vals ids : List Word), s.probed = false → s.busOwner = .native → (∀ g, Quiet s g) →
    vals.length = s.cfg.probeOrder.length →
    (∀ gv ∈ s.cfg.probeOrder.zip vals, identifierMatches s.cfg gv.1 gv.2 = false) → s.env.ident = vals ++ ids → ids ≠ [] →
    ∃ t, exec .probe s = .next t ∧ t.result = .error .noCartridge ∧ t.probed = true ∧ t.cartType = none ∧
      t.seq = { s.seq with probe := .noCart } ∧ t.busOwner = .native ∧
      Kept { Foot.bracket with ident := true, seq := true } s t ∧ SameBytes s t ∧
      writes t.hist = writes s.hist ++ s.cfg.probeOrder.flatMap (keyWrites s.cfg)) ∧
  ∀ s : State, s.probed = true → s.cartType = none →
    exec .probe s = .next { s with result := .error .noCartridge }

/-- A cartridge that matches exactly one family is bound as that family, whatever the order of the probe (R213). -/
def Obligations.ProbeExclusive : Prop :=
  ∀ (s : State) (f : Family) (val : Family → Word) (rest : List Word), s.probed = false → s.busOwner = .native →
    (∀ g, Quiet s g) → f ∈ s.cfg.probeOrder → (∀ g, identifierMatches s.cfg g (val g) = decide (g = f)) →
    s.env.ident = s.cfg.probeOrder.map val ++ rest → rest ≠ [] →
    ∃ t, exec .probe s = .next t ∧ t.result = .family f ∧ t.cartType = some f ∧ t.seq.probe = .bound f

/-- The five dispatched operations probe first where nothing has: they do what they would do after a `probe` (R214). -/
def Obligations.DispatchProbesFirst : Prop :=
  ∀ (i : Instr) (s t : State), s.probed = false →
    (i = .init ∨ i = .exit ∨ i = .cardInit ∨ (∃ d l c, i = .cardRead d l c) ∨ ∃ d l c, i = .cardWrite d l c) →
    exec .probe s = .next t → exec i s = exec i { t with result := s.result }

/-! ### The card -/

/-- `card_init` on a native wire: the write of the port at one lane and the slow clock, CMD0, CMD8, the ACMD41 poll, CMD2,
CMD3, CMD7 if used, ACMD6, CMD6, and a session that is ready, four lanes wide and fast, with the address and the capacity
class the card gave (R160, R193). It starts a ready session again from CMD0 (R160). Where the parameter `initRequired` asks
for an `init`, which at reset it does not, it does so once `init` has succeeded or with a session that is ready; else, on any
family, it is not ready, no stream is open after it, and nothing else changes, in every environment (R45, R160, R189, R272,
R289; the parameter, that not ready is its answer, and when, are the model's reading, log 35). A step that fails behind CMD0
ends it: no later step is attempted, the port is reset, the session is down, and the cause of that step is returned:
`mismatch` of CMD8, `absent` at the cap of the poll, the timeout of a card that is silent or busy, or whatever response check
failed (R122, R137, R138, R160, R199). That CMD0 itself has no outcome where `portLevel` is false is R136; what it can come to
where it is true is the model's choice (log 64), and so is what the reset write holds beside the reset bit (log 48). The rest
of the bring-up machine, and that the last LBA stays as it was, are the model's choice (log 39, 59). -/
def Obligations.CardInitNative : Prop :=
  (∀ s : State, s.cfg.initRequired = true → s.probed = true → s.cartType ≠ none → s.initDone = false → s.sess.ready = false →
    exec .cardInit s = .next { s with sess := { s.sess with mode := .none }, result := .error .notReady }) ∧
  ∀ (s : State) (f : Family) (b : NativeScript) (v2 : Bool) (l : List Bool) (m : List Nibble), Idle s f →
    (s.cfg.initRequired = false ∨ s.initDone = true ∨ s.sess.ready = true) → (s.cfg.fam f).offload = false →
    (s.cfg.fam f).wire = .sdNative → b.good s.cfg (s.cfg.fam f) v2 → l ≠ [] → m ≠ [] →
    (s.env.cmdLine = b.bits s.cfg ++ l → s.env.datLine = b.nibbles s.cfg ++ m →
      ∃ t, exec .cardInit s = .next t ∧
        Did f { Foot.bringUp with bus := true } { s.env.core with cmdLine := l, datLine := m } (b.sent s.cfg v2) .ok s t ∧
        Restored s t ∧ t.seq.bringUp = .rest ∧
        ((s.cfg.fam f).portLevel = false → writes t.hist = writes s.hist ++
          [configWrite s.cfg f .w1 .slow, configWrite s.cfg f .w4 .slow, configWrite s.cfg f .w4 .fast]) ∧
        t.sess = { s.sess with
          ready := true, mode := .none, busWidth := .w4, speed := .fast, bitlen := .b8, rca := b.rcaValue
          highCapacity := (b.poll.last.2.bytes.getD 1 0).getLsbD 6 }) ∧
    (∀ (x : NativeStep) (c : Cause) (bits : List Bool) (nibs : List Nibble) (out : List Sent),
      b.FailsAt s.cfg (s.cfg.fam f) v2 x c bits nibs out →
      s.env.cmdLine = b.bitsBefore s.cfg x ++ (bits ++ l) → s.env.datLine = b.nibblesBefore s.cfg x ++ (nibs ++ m) →
      ∃ t, exec .cardInit s = .next t ∧
        Did f { Foot.bringUp with bus := true } { s.env.core with cmdLine := l, datLine := m }
          (b.sentBefore s.cfg v2 x ++ out) (.error c) s t ∧
        Restored s t ∧ t.seq.bringUp = .rest ∧
        t.sess = { b.sessionAt s.sess x with ready := false, mode := .none } ∧
        ((s.cfg.fam f).portLevel = false → writes t.hist = writes s.hist ++
          (configWrite s.cfg f .w1 .slow :: if .width ∈ x.before then [configWrite s.cfg f .w4 .slow] else []) ++
          resetWrites s.cfg f (b.sessionAt s.sess x)))

/-- `card_init` on the SPI flavour: the write of the port, CMD0, CMD8, the ACMD41 poll, CMD58; no address, one lane (R162,
R160, R193; where `initRequired` asks for an `init`, it runs once that has succeeded or with a session that is ready, the
model's reading, log 35). A step that fails, CMD0 among them, ends it: no later step is attempted, the port is reset, the
session is down, and the cause of that step is returned (R160, R162, R199). That the port is configured by the word of one
lane here too, and that an answer to CMD0 other than 0x01 is malformed, is the model's choice (log 22), as is what the reset
write holds beside the reset bit (log 48). The rest of the bring-up machine, and that the last LBA stays as it was, are the
model's choice (log 39, 59). -/
def Obligations.CardInitSpi : Prop :=
  ∀ (s : State) (f : Family) (b : SpiScript) (v2 : Bool) (l : List Bool), Idle s f →
    (s.cfg.initRequired = false ∨ s.initDone = true ∨ s.sess.ready = true) →
    (s.cfg.fam f).offload = false → (s.cfg.fam f).wire = .spi → b.good s.cfg v2 → l ≠ [] →
    (s.env.cmdLine = b.bits s.cfg ++ l →
      ∃ t, exec .cardInit s = .next t ∧
        Did f { Foot.bringUp with bus := true } { s.env.core with cmdLine := l } (b.sent s.cfg v2) .ok s t ∧
        Restored s t ∧ t.seq.bringUp = .rest ∧
        ((s.cfg.fam f).portLevel = false → writes t.hist = writes s.hist ++ [configWrite s.cfg f .w1 .slow]) ∧
        t.sess = { s.sess with
          ready := true, mode := .none, busWidth := .w1, speed := .slow, bitlen := .b8, rca := 0
          highCapacity := (b.ocr.bytes.getD 1 0).getLsbD 6 }) ∧
    (∀ (x : SpiStep) (c : Cause) (bits : List Bool) (out : List Sent), SpiScript.FailsAt s.cfg v2 x c bits out →
      s.env.cmdLine = x.before.flatMap (b.stepBits s.cfg) ++ (bits ++ l) →
      ∃ t, exec .cardInit s = .next t ∧
        Did f { Foot.bringUp with bus := true } { s.env.core with cmdLine := l }
          (x.before.flatMap (b.stepSent s.cfg v2) ++ out) (.error c) s t ∧
        Restored s t ∧ t.seq.bringUp = .rest ∧ t.sess = s.sess.cleared ∧
        ((s.cfg.fam f).portLevel = false → writes t.hist = writes s.hist ++ [configWrite s.cfg f .w1 .slow] ++
          resetWrites s.cfg f s.sess.cleared))

/-- `card_init` of a family whose cartridge does the framing: one cartridge command and no frame (R178, R196, R160; where
`initRequired` asks for an `init`, it runs once that has succeeded or with a session that is ready, the model's reading, log
35). Where that command fails, by the error bit or by a wait that runs out, and is not wrapped in other commands,
`'i'(SD_OP_DEINIT, 0)` comes behind it and the session is not ready (R160, R178, R199). That the byte swap is around the
command where the policy lists it is the model's reading (log 24); the rest of the bring-up machine, and that the last LBA
stays as it was, are its choice (log 39, 59). -/
def Obligations.CardInitOffload : Prop :=
  (∀ (s : State) (f : Family) (r0 r1 : Word) (xs ys ws : List Word), Idle s f →
    (s.cfg.initRequired = false ∨ s.initDone = true ∨ s.sess.ready = true) →
    (s.cfg.fam f).offload = true →
    xs.length = aroundWords (s.cfg.fam f) (wraps (s.cfg.fam f) 0x69) →
    ys.length = aroundWords (s.cfg.fam f) (wraps (s.cfg.fam f) 0x69) →
    s.env.words = xs ++ r0 :: r1 :: (ys ++ ws) → ws ≠ [] →
    ∃ t, exec .cardInit s = .next t ∧
      Did f { Foot.cart with line := true, sess := true, seq := true, bus := true } { s.env.core with words := ws } [] .ok
        s t ∧
      commands t.hist = commands s.hist ++ aroundCommands (s.cfg.fam f) (wraps (s.cfg.fam f) 0x69) s.byteswap
        [(0x69, s.cfg.sdOpInit, 0)] ∧
      Restored s t ∧ t.seq.bringUp = .rest ∧ t.byteswap = s.byteswap ∧ t.cb = s.cb ∧
      t.sess = { s.sess with
        ready := true, mode := .none, busWidth := .w1, speed := .slow, bitlen := .b8, rca := 0, highCapacity := false }) ∧
  ∀ (s : State) (f : Family) (c : Cause) (issued : Bool) (ws l : List Word), IdleOffload s f →
    (s.cfg.initRequired = false ∨ s.initDone = true ∨ s.sess.ready = true) → CartFails (s.cfg.fam f) c issued ws →
    s.env.status = ws ++ l → l ≠ [] → (∀ w ∈ l, statusBusy (s.cfg.fam f) w = false) →
    ∃ t, exec .cardInit s = .next t ∧ t.result = .error c ∧ t.sess.ready = false ∧
      commands t.hist = commands s.hist ++
        ((if issued then [(0x69, s.cfg.sdOpInit, 0)] else []) ++ [(0x69, s.cfg.sdOpDeinit, 0)])

/-- A read of any number of sectors on a native wire, by `card_read` or `disk_read`: the stream is switched if it must be,
the caller's buffer holds the sectors in the host view and every other byte of RAM but the staging buffer reads as before,
the stream stays open at the last LBA (R164, R165, R171, R242, R224). The wrap around the transfer and the exchanged bytes of
a swapped sector are the model's reading (log 24, 25). -/
def Obligations.CardReadNative : Prop :=
  ∀ (s : State) (f : Family) (dest lba count arg : Word) (b : SwitchScript) (blocks : List BlockScript) (l : List Bool)
    (m : List Nibble) (xs ys ws : List Word), CanTransfer s f dest lba count → (s.cfg.fam f).offload = false →
    (s.cfg.fam f).wire = .sdNative → s.sess.bitlen = .b8 →
    blockArg s.sess.highCapacity lba = some arg →
    b.good s.cfg (s.cfg.fam f) s.sess .blockRead lba → blocks.length = count.toNat →
    (∀ b ∈ blocks, b.good s.cfg (s.cfg.fam f) s.sess.busWidth) →
    s.env.cmdLine = b.bits s.sess .blockRead lba ++ l → l ≠ [] →
    s.env.datLine = b.nibbles s.sess .blockRead lba ++ (blocks.flatMap BlockScript.lanes ++ m) → m ≠ [] →
    WrapWords s f xs ys ws →
    ∀ (i : Instr) (r : HostResult), (i = .cardRead dest lba count ∧ r = .ok) ∨
        (∃ drive, i = .diskRead drive dest lba count ∧ diskCheck s drive lba count = none ∧ r = .disk .ok) →
      ∃ t, exec i s = .next t ∧
        Did f { Foot.transfer with bus := true } { s.env.core with cmdLine := l, datLine := m, words := ws }
          (switchSent s.cfg s.sess .blockRead lba arg) r s t ∧
        Restored s t ∧ t.sess = { s.sess with mode := .blockRead, lastLba := lba - 1 + count } ∧
        t.byteswap = s.byteswap ∧ (∀ a, sector ≤ a → t.cb.read a = s.cb.read a) ∧
        ReadInto s.cfg.stageAddr dest.toNat (landed (wrapsTransfer (s.cfg.fam f) || s.byteswap) blocks) s t

/-- A write of any number of sectors on a native wire, by `card_write` or `disk_write`: the stream is switched if it must
be, every sector of the host view goes out with its start, its checksum and its end, each pair of its bytes exchanged while
the swap is on, the caller's buffer is unchanged (R164, R166, R173, R198, R243, R225). The wrap around the transfer, that the
checksum of a swapped sector is that of the bytes sent, and the five clocks of the token with its framing bits unread are the
model's reading (log 24, 25, 20). On one lane the start and the end are the nibbles R173 gives for four (log 51). -/
def Obligations.CardWriteNative : Prop :=
  ∀ (s : State) (f : Family) (src lba count arg : Word) (b : SwitchScript) (tokens : List TokenScript) (l : List Bool)
    (m : List Nibble) (xs ys ws : List Word), CanTransfer s f src lba count → (s.cfg.fam f).offload = false →
    (s.cfg.fam f).wire = .sdNative → s.sess.bitlen = .b8 →
    blockArg s.sess.highCapacity lba = some arg →
    b.good s.cfg (s.cfg.fam f) s.sess .blockWrite lba → tokens.length = count.toNat →
    (∀ b ∈ tokens, b.good (s.cfg.fam f)) →
    s.env.cmdLine = b.bits s.sess .blockWrite lba ++ l → l ≠ [] →
    s.env.datLine = b.nibbles s.sess .blockWrite lba ++ (tokens.flatMap TokenScript.nibbles ++ m) → m ≠ [] →
    WrapWords s f xs ys ws →
    ∀ (i : Instr) (r : HostResult), (i = .cardWrite src lba count ∧ r = .ok) ∨
        (∃ drive, i = .diskWrite drive src lba count ∧ diskCheck s drive lba count = none ∧ r = .disk .ok) →
      ∃ t, exec i s = .next t ∧
        Did f { Foot.transfer with bus := true } { s.env.core with cmdLine := l, datLine := m, words := ws }
          (switchSent s.cfg s.sess .blockWrite lba arg ++ blocksSent s (wrapsTransfer (s.cfg.fam f) || s.byteswap)
            count.toNat src.toNat) r s t ∧
        Restored s t ∧ t.sess = { s.sess with mode := .blockWrite, lastLba := lba - 1 + count } ∧
        t.byteswap = s.byteswap ∧ (∀ a, sector ≤ a → t.cb.read a = s.cb.read a) ∧
        ReadFrom s.cfg.stageAddr src.toNat s t

/-- A read by a family whose cartridge does the framing: for each sector, in this order, sector-set, read, and the sector's
DMA to its place in the caller's buffer, or to the staging buffer where that place is not 8-byte aligned; nothing
is sent by the block and the session does not change (R178, R196, R224, R242). The wraps, the exchanged bytes of a
swapped sector and when 's' fills the buffer are the model's reading (log 24 to 26). -/
def Obligations.CardReadOffload : Prop :=
  ∀ (s : State) (f : Family) (dest lba count : Word) (sectors : List (List Byte)) (sec : List Byte),
    CanTransfer s f dest lba count → (s.cfg.fam f).offload = true → sector ≤ (s.cfg.fam f).cartBufLen →
    sectors.length = count.toNat → (∀ d ∈ sectors, d.length = sector) → s.env.sector = sectors.flatten ++ sec →
    sec ≠ [] → transferWords (s.cfg.fam f) 0x73 count.toNat < s.env.words.length →
    ∀ (i : Instr) (r : HostResult), (i = .cardRead dest lba count ∧ r = .ok) ∨
        (∃ drive, i = .diskRead drive dest lba count ∧ diskCheck s drive lba count = none ∧ r = .disk .ok) →
      ∃ t, exec i s = .next t ∧
        Did f { Foot.offload with bus := true } { s.env.core with
          words := s.env.words.drop (transferWords (s.cfg.fam f) 0x73 count.toNat), sector := sec } [] r s t ∧
        Restored s t ∧ t.sess = s.sess ∧ t.byteswap = s.byteswap ∧
        commands t.hist = commands s.hist ++ transferCommands (s.cfg.fam f) s.byteswap 0x73 count.toNat lba ∧
        traffic t.hist = traffic s.hist ++ transferTraffic (s.cfg.fam f) s.byteswap
          (readTraffic s.cfg f (wrapsTransfer (s.cfg.fam f) || s.byteswap) count.toNat lba dest.toNat) ∧
        (∀ a, sector ≤ a → t.cb.read a = s.cb.read a) ∧
        ReadInto s.cfg.stageAddr dest.toNat
          (sectors.flatMap (placed (wraps (s.cfg.fam f) 0x73 || (wrapsTransfer (s.cfg.fam f) || s.byteswap)))) s t

/-- A write by such a family: for each sector, in this order, its DMA from its place in the caller's buffer, or from the
staging buffer where that place is not 8-byte aligned, to the cartridge's buffer, then sector-set and write (R178, R196,
R225, R243). At the end the buffer holds the last sector: of a transfer of any length, the sector of its last 'S'. The
wraps, and that a sector goes out unswapped, are the model's reading (log 24, 25). -/
def Obligations.CardWriteOffload : Prop :=
  ∀ (s : State) (f : Family) (src lba count : Word), CanTransfer s f src lba count → (s.cfg.fam f).offload = true →
    transferWords (s.cfg.fam f) 0x53 count.toNat < s.env.words.length →
    ∀ (i : Instr) (r : HostResult), (i = .cardWrite src lba count ∧ r = .ok) ∨
        (∃ drive, i = .diskWrite drive src lba count ∧ diskCheck s drive lba count = none ∧ r = .disk .ok) →
      ∃ t, exec i s = .next t ∧
        Did f { Foot.offload with bus := true } { s.env.core with
          words := s.env.words.drop (transferWords (s.cfg.fam f) 0x53 count.toNat) } [] r s t ∧
        Restored s t ∧ t.sess = s.sess ∧ t.byteswap = s.byteswap ∧
        commands t.hist = commands s.hist ++ transferCommands (s.cfg.fam f) s.byteswap 0x53 count.toNat lba ∧
        traffic t.hist = traffic s.hist ++ transferTraffic (s.cfg.fam f) s.byteswap
          (writeTraffic s.cfg f (wrapsTransfer (s.cfg.fam f) || s.byteswap) count.toNat lba src.toNat) ∧
        (∀ a, sector ≤ a → t.cb.read a = s.cb.read a) ∧
        t.cb.readBytes 0 sector = s.hostBytes (src.toNat + sector * (count.toNat - 1)) sector ∧
        ReadFrom s.cfg.stageAddr src.toNat s t

/-- The mode-switch test, and that a transfer which passes it sends no frame (R163). -/
def Obligations.ModeSwitchTest : Prop :=
  ∀ (ss : Session) (m : AccessMode) (lba : Word),
    (needsSwitch ss m lba = false ↔ ss.mode = m ∧ lba.toNat = (ss.lastLba.toNat + 1) % 2 ^ 32) ∧
    ∀ s : State, s.sess = ss → needsSwitch ss m lba = false → ensureMode m lba s = .ok () s

/-- Two contiguous reads, or two contiguous writes, that both return ok: the second puts no byte on the command line, in
every environment (R175). -/
def Obligations.ContiguousTransfers : Prop :=
  ∀ (s t u : State) (f : Family) (p q a n k : Word), s.probed = true → s.cartType = some f →
    (s.cfg.fam f).offload = false →
    (exec (.cardRead p a n) s = .next t → t.result = .ok →
      t.sess.mode = .blockRead ∧ t.sess.lastLba = a + n - 1 ∧
        (exec (.cardRead q (a + n) k) t = .next u → u.result = .ok → cmdBytes u.hist = cmdBytes t.hist)) ∧
    (exec (.cardWrite p a n) s = .next t → t.result = .ok →
      t.sess.mode = .blockWrite ∧ t.sess.lastLba = a + n - 1 ∧
        (exec (.cardWrite q (a + n) k) t = .next u → u.result = .ok → cmdBytes u.hist = cmdBytes t.hist))

/-- `card_stop`: nothing where no stream is open, else CMD12 in a bracket of its own (R167, R146), which on the SPI flavour
is refused, in every environment (R126; U9; that it is so there is the model's reading, log 22). -/
def Obligations.CardStop : Prop :=
  (∀ s : State, s.sess.mode = .none → exec .cardStop s = .next { s with result := .ok }) ∧
  (∀ (s : State) (f : Family), s.cartType = some f → s.busOwner = .native → s.sess.mode ≠ .none →
    (s.cfg.fam f).offload = false → (s.cfg.fam f).wire = .spi → exec .cardStop s = .refused .spiDataPath) ∧
  ∀ (s : State) (f : Family) (a : Answer) (busy m : List Nibble) (l : List Bool), Idle s f → s.sess.mode ≠ .none →
    (s.cfg.fam f).offload = false → (s.cfg.fam f).wire = .sdNative → a.good s.cfg .sdNative false 12 →
    s.env.cmdLine = a.wire ++ l → l ≠ [] → BusyOnLanes (s.cfg.fam f) busy → s.env.datLine = busy ++ m → m ≠ [] →
    ∃ t, exec .cardStop s = .next t ∧
      Did f { Foot.command with bus := true } { s.env.core with cmdLine := l, datLine := m } (commandSent s.cfg 12 0) .ok
        s t ∧
      Restored s t ∧ t.sess = { s.sess with bitlen := .b8, mode := .none }

/-- What stops a transfer before it touches the bus: no cartridge and a session that is not ready are errors that change
nothing but the result; then operands without a meaning and the SPI flavour are refused: a count of 0, a range past the last
LBA, a buffer that wraps past the top of RAM, a buffer with a byte of the staging buffer in it (R51, R97, R162, R165, R178,
R214; U6, U7, U9; the order of the refusals is the model's choice, log 29). -/
def Obligations.TransferPreChecks : Prop :=
  ∀ (s : State) (buf lba count : Word) (i : Instr), (i = .cardRead buf lba count ∨ i = .cardWrite buf lba count) →
    s.probed = true →
    (s.cartType = none → exec i s = .next { s with result := .error .noCartridge }) ∧
    (s.cartType ≠ none → s.sess.ready = false → exec i s = .next { s with result := .error .notReady }) ∧
    (operandRefusal s.cfg buf lba count = none ↔
      count ≠ 0 ∧ lba.toNat + count.toNat ≤ 2 ^ 32 ∧ buf.toNat + 512 * count.toNat ≤ 2 ^ 32 ∧
        (buf.toNat + 512 * count.toNat ≤ s.cfg.stageAddr ∨ s.cfg.stageAddr + 512 ≤ buf.toNat)) ∧
    (s.cartType ≠ none → s.sess.ready = true →
      (count = 0 → exec i s = .refused .countZero) ∧
      (count ≠ 0 → 2 ^ 32 < lba.toNat + count.toNat → exec i s = .refused .lbaOverflow) ∧
      (count ≠ 0 → lba.toNat + count.toNat ≤ 2 ^ 32 → 2 ^ 32 < buf.toNat + 512 * count.toNat →
        exec i s = .refused .bufferWraps) ∧
      (count ≠ 0 → lba.toNat + count.toNat ≤ 2 ^ 32 → buf.toNat + 512 * count.toNat ≤ 2 ^ 32 →
        s.cfg.stageAddr < buf.toNat + 512 * count.toNat → buf.toNat < s.cfg.stageAddr + 512 →
        exec i s = .refused .bufferOverlapsStage) ∧
      (∀ f, operandRefusal s.cfg buf lba count = none → s.cartType = some f → (s.cfg.fam f).offload = false →
        (s.cfg.fam f).wire = .spi → exec i s = .refused .spiDataPath))

/-- The block argument of an LBA, and that a transfer at a standard-capacity LBA whose byte address does not fit is refused
before the bus is touched, whether or not a stream is open (R89, R147, R148; U7; where the refusal stands among the others is
the model's choice, log 29; that an open stream does not let it pass is its reading, log 47). -/
def Obligations.BlockArgument : Prop :=
  (∀ lba : Word, blockArg true lba = some lba) ∧
  (∀ lba : Word, lba.toNat < 0x00800000 → ∃ arg, blockArg false lba = some arg ∧ arg.toNat = lba.toNat * 512) ∧
  (∀ lba : Word, 0x00800000 ≤ lba.toNat → blockArg false lba = none) ∧
  ∀ (s : State) (f : Family) (buf lba count : Word) (i : Instr), s.probed = true → s.cartType = some f →
    s.sess.ready = true → (s.cfg.fam f).offload = false → (s.cfg.fam f).wire = .sdNative →
    operandRefusal s.cfg buf lba count = none → s.sess.highCapacity = false → 0x00800000 ≤ lba.toNat →
    (i = .cardRead buf lba count ∨ i = .cardWrite buf lba count) → exec i s = .refused .lbaBeyondByteAddress

/-- A card operation that ends in a hardware error leaves no stream open and the bus with the rest of the machine, whatever
the hardware did; `card_init` leaves the session ready exactly where it returned ok and no stream open however it ended, not
ready included, `exit` leaves the session down, and no transfer changes `ready` (R26, R160, R168, R180, R270, R272, R280;
that `card_init` may be answered not ready is log 35, the bring-up machine at rest log 39). A transfer returns
the cause of the block that failed, at whichever block of the transfer: a data start or a busy period that outlasts its
wait, a wrong trailer where trailers are checked, a token that does not say accepted (R169, R171, R173, R174, R177). Behind
that block it sends CMD12, whether or not the card answers it, and then makes the two writes of the port reset; where the
command that opens the stream fails, no stream is open and no CMD12 is sent (R164, R168, R199). A transfer of a family whose
cartridge does the framing, its commands not wrapped in others, ends at the command that fails, returns its cause, and issues
`'i'(SD_OP_DEINIT, 0)` behind it (R178). In these clauses the model's reading, not R173's words: the token is five clocks at
once, with no hunt for it and its framing bits unread (log 20); the wrap around the transfer, undone before the clean-up (log
24, 42); and, its choice, what the reset write holds beside the reset bit (log 48). -/
def Obligations.AfterHardwareErrors : Prop :=
  (∀ (i : Instr) (s t : State),
      (i = .init ∨ i = .exit ∨ i = .cardInit ∨ i = .cardStop ∨ (∃ d l c, i = .cardRead d l c ∨ i = .cardWrite d l c) ∨
        ∃ v d l c, i = .diskRead v d l c ∨ i = .diskWrite v d l c) →
      exec i s = .next t →
      (t.result = .disk .error ∨ ∃ c, t.result = .error c ∧ c ≠ .noCartridge ∧ c ≠ .notReady ∧ c ≠ .param) →
      t.sess.mode = .none ∧ t.busOwner = .native) ∧
  (∀ s t : State, s.probed = true → s.cartType ≠ none → exec .cardInit s = .next t →
    (t.sess.ready = true ↔ t.result = .ok) ∧ t.sess.mode = .none ∧
      (s.cfg.initRequired = false ∨ s.initDone = true ∨ s.sess.ready = true ∨ s.seq.bringUp = .rest →
        t.seq.bringUp = .rest)) ∧
  (∀ s t : State, s.probed = true → s.cartType ≠ none → exec .exit s = .next t →
    t.sess.ready = false ∧ t.sess.mode = .none) ∧
  (∀ (i : Instr) (s t : State), (∃ d l c, i = .cardRead d l c ∨ i = .cardWrite d l c) → exec i s = .next t →
    t.sess.ready = s.sess.ready) ∧
  (∀ (s : State) (f : Family) (dest lba count arg : Word) (b : SwitchScript) (blocks : List BlockScript)
      (bad m : List Nibble) (l : List Bool) (xs ys ws : List Word) (c : Cause), CanTransfer s f dest lba count →
    (s.cfg.fam f).offload = false → (s.cfg.fam f).wire = .sdNative → s.sess.bitlen = .b8 →
    blockArg s.sess.highCapacity lba = some arg →
    b.good s.cfg (s.cfg.fam f) s.sess .blockRead lba → blocks.length < count.toNat →
    (∀ b ∈ blocks, b.good s.cfg (s.cfg.fam f) s.sess.busWidth) →
    BadBlock s.cfg (s.cfg.fam f) s.sess.busWidth c bad →
    s.env.cmdLine = b.bits s.sess .blockRead lba ++ l → l ≠ [] →
    s.env.datLine = b.nibbles s.sess .blockRead lba ++ (blocks.flatMap BlockScript.lanes ++ (bad ++ m)) → m ≠ [] →
    WrapWords s f xs ys ws → ∃ t, exec (.cardRead dest lba count) s = .next t ∧ t.result = .error c ∧
      (∃ stop, (stop = frameSent s.cfg 12 0 ∨ stop = commandSent s.cfg 12 0) ∧
        sent t.hist = sent s.hist ++ (switchSent s.cfg s.sess .blockRead lba arg ++ stop)) ∧
      ((s.cfg.fam f).portLevel = false → writes t.hist = writes s.hist ++
        (aroundWrites s.cfg f (wrapsTransfer (s.cfg.fam f)) s.byteswap [] ++ resetWrites s.cfg f s.sess))) ∧
  (∀ (s : State) (f : Family) (src lba count arg : Word) (b : SwitchScript) (tokens : List TokenScript)
      (bad m : List Nibble) (l : List Bool) (xs ys ws : List Word) (c : Cause), CanTransfer s f src lba count →
    (s.cfg.fam f).offload = false → (s.cfg.fam f).wire = .sdNative → s.sess.bitlen = .b8 →
    blockArg s.sess.highCapacity lba = some arg →
    b.good s.cfg (s.cfg.fam f) s.sess .blockWrite lba → tokens.length < count.toNat →
    (∀ b ∈ tokens, b.good (s.cfg.fam f)) → BadToken (s.cfg.fam f) c bad →
    s.env.cmdLine = b.bits s.sess .blockWrite lba ++ l → l ≠ [] →
    s.env.datLine = b.nibbles s.sess .blockWrite lba ++ (tokens.flatMap TokenScript.nibbles ++ (bad ++ m)) → m ≠ [] →
    WrapWords s f xs ys ws → ∃ t, exec (.cardWrite src lba count) s = .next t ∧ t.result = .error c ∧
      (∃ stop, (stop = frameSent s.cfg 12 0 ∨ stop = commandSent s.cfg 12 0) ∧
        sent t.hist = sent s.hist ++ (switchSent s.cfg s.sess .blockWrite lba arg ++
          blocksSent s (wrapsTransfer (s.cfg.fam f) || s.byteswap) (tokens.length + 1) src.toNat ++ stop)) ∧
      ((s.cfg.fam f).portLevel = false → writes t.hist = writes s.hist ++
        (aroundWrites s.cfg f (wrapsTransfer (s.cfg.fam f)) s.byteswap [] ++ resetWrites s.cfg f s.sess))) ∧
  (∀ (s : State) (f : Family) (buf lba count arg : Word) (b : SwitchScript) (c : Cause) (bits l : List Bool) (m : List Nibble)
      (out : List Sent) (i : Instr) (mode : AccessMode),
    (i, mode) = (Instr.cardRead buf lba count, AccessMode.blockRead) ∨
      (i, mode) = (Instr.cardWrite buf lba count, AccessMode.blockWrite) →
    CanTransfer s f buf lba count → (s.cfg.fam f).offload = false → (s.cfg.fam f).wire = .sdNative →
    blockArg s.sess.highCapacity lba = some arg → needsSwitch s.sess mode lba = true →
    (stopsFirst s.sess mode lba = true → b.stop.good s.cfg .sdNative false 12 ∧ BusyOnLanes (s.cfg.fam f) b.busy) →
    CommandFails s.cfg .sdNative false (openIndex mode) arg c bits out →
    s.env.cmdLine = (if stopsFirst s.sess mode lba then b.stop.wire else []) ++ (bits ++ l) → l ≠ [] →
    s.env.datLine = b.nibbles s.sess mode lba ++ m → m ≠ [] →
    ∃ t, exec i s = .next t ∧ t.result = .error c ∧
      sent t.hist = sent s.hist ++ ((if stopsFirst s.sess mode lba then commandSent s.cfg 12 0 else []) ++ out) ∧
      ((s.cfg.fam f).portLevel = false → writes t.hist = writes s.hist ++ resetWrites s.cfg f s.sess)) ∧
  (∀ (s : State) (f : Family) (buf lba count : Word) (i : Instr) (code : Byte) (good : List (Word × Word)) (c : Cause)
      (issued : Bool) (ws l : List Word),
    (i, code) = (Instr.cardRead buf lba count, 0x73) ∨ (i, code) = (Instr.cardWrite buf lba count, 0x53) →
    IdleOffload s f → s.sess.ready = true → operandRefusal s.cfg buf lba count = none →
    CartGood (s.cfg.fam f) good → CartFails (s.cfg.fam f) c issued ws → good.length < 2 * count.toNat →
    s.env.status = good.flatMap (fun p => [p.1, p.2]) ++ (ws ++ l) → l ≠ [] →
    (∀ w ∈ l, statusBusy (s.cfg.fam f) w = false) →
    ∃ t, exec i s = .next t ∧ t.result = .error c ∧
      commands t.hist = commands s.hist ++
        ((sectorCommands (s.cfg.fam f) s.byteswap code count.toNat lba).take (good.length + if issued then 1 else 0) ++
          [(0x69, s.cfg.sdOpDeinit, 0)]))

/-! ### The block-device adapter -/

/-- `bind`: the range of the drive first; a drive already bound is left as it is and the answer is ok; else the other two
checks in order, then the drive is bound and initialised; nothing else changes (R220, R221). That the answer for a bound drive
comes right behind the range check is the model's reading (log 49). -/
def Obligations.BindResult : Prop :=
  ∀ (s : State) (drive : Byte),
    exec (.bind drive) s = .next
      (if s.cfg.nVolumes ≤ drive.toNat then { s with result := .error .param }
      else if s.bound.getD drive.toNat false = true then { s with result := .ok }
      else if s.probed = false ∨ s.cartType = none then { s with result := .error .noCartridge }
      else if s.sess.ready = false then { s with result := .error .notReady }
      else { s with
        bound := s.bound.set drive.toNat true, noinit := s.noinit.set drive.toNat false, result := .ok })

/-- `disk_initialize`: an out-of-range or unbound drive is not initialised, a bound drive with a ready session is, and
otherwise the card is brought up and the status bit follows what that returned (R222, R221). The bring-up is the one
`card_init` makes, where `initRequired` asks for an `init` the one it makes once that has succeeded or of a session that is
ready; and whatever has become of `init`, it is exactly what `card_init` makes of the same state with the session ready, which
R160 has start again from CMD0, or no cartridge where the probe found none (R214). That `disk_initialize` makes it after
`exit` too is the model's reading (log 35). -/
def Obligations.DiskInitialize : Prop :=
  (∀ s : State, s.probed = true → s.cfg.initRequired = false ∨ s.initDone = true ∨ s.sess.ready = true →
    exec .cardInit s = runHost (do bringUpAgain; pure .ok) s) ∧
  (∀ s : State, s.probed = true → s.cartType ≠ none →
    runHost (do bringUpAgain; pure .ok) s = exec .cardInit { s with sess := { s.sess with ready := true } }) ∧
  (∀ s : State, s.probed = true → s.cartType = none →
    runHost (do bringUpAgain; pure .ok) s = .next { s with result := .error .noCartridge }) ∧
  ∀ (s : State) (drive : Byte),
    (s.cfg.nVolumes ≤ drive.toNat ∨ s.bound.getD drive.toNat false = false →
      exec (.diskInitialize drive) s = .next { s with result := .status 0x01 }) ∧
    (drive.toNat < s.cfg.nVolumes → s.bound.getD drive.toNat false = true →
      (s.sess.ready = true →
        exec (.diskInitialize drive) s =
          .next { s with noinit := s.noinit.set drive.toNat false, result := .status 0 }) ∧
      (s.sess.ready = false → ∀ t, runHost (do bringUpAgain; pure .ok) s = .next t →
        (t.result = .ok →
          exec (.diskInitialize drive) s =
            .next { t with noinit := s.noinit.set drive.toNat false, result := .status 0 }) ∧
        (∀ c, t.result = .error c →
          exec (.diskInitialize drive) s =
            .next { t with noinit := s.noinit.set drive.toNat true, result := .status 0x01 })))

/-- `disk_status`: not initialised if out of range, unbound or marked so, else 0; nothing changes but the result
(R223). -/
def Obligations.DiskStatusPure : Prop :=
  ∀ (s : State) (drive : Byte),
    exec (.diskStatus drive) s = .next { s with
      result := .status (if s.cfg.nVolumes ≤ drive.toNat ∨ s.bound.getD drive.toNat false = false ∨
          s.noinit.getD drive.toNat true = true
        then 0x01 else 0x00) }

/-- `disk_ioctl`: range, then binding, then code; `CTRL_SYNC` succeeds, and nothing changes but the result (R226,
R221). -/
def Obligations.DiskIoctl : Prop :=
  ∀ (s : State) (drive cmd : Byte) (buf : Word),
    exec (.diskIoctl drive cmd buf) s = .next { s with
      result := .disk (if s.cfg.nVolumes ≤ drive.toNat then .paramError
      else if s.bound.getD drive.toNat false = false then .notReady
      else if cmd = 0x00 then .ok
      else .paramError) }

/-- `disk_read` and `disk_write`: the four checks in their order, none of which touches hardware; then the card operation,
its outcome translated: ok as ok, no cartridge and not ready as not ready, each hardware error as an error, a parameter error
as one; a session that was not ready marks the drive (R224, R225, R228, R268). -/
def Obligations.DiskTransfers : Prop :=
  ∀ (s : State) (drive : Byte) (buf lba count : Word) (i j : Instr),
    ((i, j) = (Instr.diskRead drive buf lba count, Instr.cardRead buf lba count) ∨
      (i, j) = (Instr.diskWrite drive buf lba count, Instr.cardWrite buf lba count)) →
    (s.cfg.nVolumes ≤ drive.toNat → exec i s = .next { s with result := .disk .paramError }) ∧
    (drive.toNat < s.cfg.nVolumes → (count = 0 ∨ 2 ^ 32 < lba.toNat + count.toNat) →
      exec i s = .next { s with result := .disk .paramError }) ∧
    (drive.toNat < s.cfg.nVolumes → count ≠ 0 → lba.toNat + count.toNat ≤ 2 ^ 32 →
      ((s.bound.getD drive.toNat false = false ∨ s.noinit.getD drive.toNat true = true) →
        exec i s = .next { s with result := .disk .notReady }) ∧
      (s.bound.getD drive.toNat false = true → s.noinit.getD drive.toNat true = false →
        (∀ r, exec j s = .refused r → exec i s = .refused r) ∧
        ∀ t, exec j s = .next t →
          ∃ r, exec i s = .next { t with
              result := .disk r
              noinit := if t.result = .error .notReady then s.noinit.set drive.toNat true else s.noinit } ∧
            (t.result = .ok ∨ ∃ c, t.result = .error c) ∧ (t.result = .ok → r = .ok) ∧
            ∀ c, t.result = .error c →
              ((c = .noCartridge ∨ c = .notReady) → r = .notReady) ∧
              ((c = .timeout ∨ c = .crc ∨ c = .mismatch ∨ c = .malformed ∨ c = .illegal ∨ c = .absent ∨ c = .write ∨
                c = .cart ∨ c = .probe) → r = .error) ∧
              (c = .param → r = .paramError)))

/-- A parameter error changes nothing but the result: no event, no state, not even the captured configuration (R264). -/
def Obligations.ParameterErrorsTouchNothing : Prop :=
  ∀ (i : Instr) (s t : State), exec i s = .next t → (t.result = .error .param ∨ t.result = .disk .paramError) →
    t = { s with result := t.result }

/-- Once the probe is over, an operation that returns a parameter error, not ready or no cartridge has emitted no event
(R280, R263, R264). -/
def Obligations.PreChecksEmitNothing : Prop :=
  ∀ (i : Instr) (s t : State), s.probed = true → exec i s = .next t →
    (t.result = .error .param ∨ t.result = .error .notReady ∨ t.result = .error .noCartridge ∨
      t.result = .disk .paramError ∨ t.result = .disk .notReady) →
    t.hist = s.hist

/-! ### The bus and the sector moves -/

/-- `acquire`: a wait whose outcome is ignored, the capture at the first call only, the family's configuration field by
field, the owner; refused inside a bracket and without a cartridge (R235, R237, R238). Every operation that takes a bracket
of its own is refused in an open one, once it gets to its `acquire`: `init`, `exit`, `set_byteswap`, a probe that is not over
or an operation that needs it, a `card_init` that runs, a `card_stop` of an open stream, a transfer that passes its checks,
and the disk operations behind those (R179, R238). That the wait's outcome is ignored is the model's reading (log 31). The
history holds the writes of the eight fields alone: that the samples of the PI status the wait takes, and the eight reads of
the capture, which R252 lists in the history, are no events of R10 is the model's choice (log 54, unsafe); where `card_init`
may run is its reading (log 35). -/
def Obligations.AcquireEffect : Prop :=
  (∀ (s : State) (f : Family), s.cartType = some f → s.busOwner = .native →
    ∃ w, bestEffort (piWaitIdle f) s = .ok () w ∧ SameOn .access s w ∧ w.hist = s.hist ∧
      exec .acquire s = .next { w with
        nativeCfg := if s.nativeSaved then s.nativeCfg else s.piDom
        nativeSaved := true
        piDom := (s.cfg.fam f).cartCfg
        hist := (cfgEvents (s.cfg.fam f).cartCfg).reverse ++ s.hist
        busOwner := .cart f
        result := .none }) ∧
  (∀ (s : State) (f g : Family) (i : Instr), s.cartType = some f → s.busOwner = .cart g →
    (i = .acquire ∨ (∃ on, i = .setByteswap on) ∨ i = .cardStop ∧ s.sess.mode ≠ .none) →
    exec i s = .refused .nestedAcquire) ∧
  (∀ (s : State) (g : Family) (i : Instr), s.probed = false → s.cfg.probeOrder ≠ [] → s.busOwner = .cart g →
    (i = .probe ∨ i = .init ∨ i = .exit ∨ i = .cardInit ∨ ∃ d l c, i = .cardRead d l c ∨ i = .cardWrite d l c) →
    exec i s = .refused .nestedAcquire) ∧
  (∀ (s : State) (f g : Family) (i : Instr), s.probed = true → s.cartType = some f → s.busOwner = .cart g →
    (i = .init ∨ i = .exit ∨
      i = .cardInit ∧ (s.cfg.initRequired = false ∨ s.initDone = true ∨ s.sess.ready = true) ∨
      (∃ drive : Byte, i = .diskInitialize drive ∧ drive.toNat < s.cfg.nVolumes ∧ s.bound.getD drive.toNat false = true ∧
        s.sess.ready = false) ∨
      ∃ buf lba count : Word, (i = .cardRead buf lba count ∨ i = .cardWrite buf lba count ∨
          ∃ drive, (i = .diskRead drive buf lba count ∨ i = .diskWrite drive buf lba count) ∧
            diskCheck s drive lba count = none) ∧
        s.sess.ready = true ∧ operandRefusal s.cfg buf lba count = none ∧
        ((s.cfg.fam f).offload = true ∨
          (s.cfg.fam f).wire = .sdNative ∧ blockArg s.sess.highCapacity lba ≠ none)) →
    exec i s = .refused .nestedAcquire) ∧
  ∀ s : State, s.cartType = none → exec .acquire s = .refused .acquireWithoutCartridge

/-- `release`: a wait whose outcome is ignored, the captured configuration field by field, the owner; the capture is kept;
refused with no matching acquire (R236). That the wait's outcome is ignored is the model's reading (log 31). The history holds
the writes of the eight fields alone: that the samples of the PI status the wait takes, which R252 lists in the history, are
no events of R10 is the model's choice (log 54, unsafe). -/
def Obligations.ReleaseEffect : Prop :=
  (∀ (s : State) (f : Family), s.busOwner = .cart f → s.nativeSaved = true →
    ∃ w, bestEffort (piWaitIdle f) s = .ok () w ∧ SameOn .access s w ∧ w.hist = s.hist ∧
      exec .release s = .next { w with
        piDom := s.nativeCfg
        hist := (cfgEvents s.nativeCfg).reverse ++ s.hist
        busOwner := .native
        result := .none }) ∧
  ∀ s : State, s.busOwner = .native → exec .release s = .refused .releaseWithoutAcquire

/-- `move_to_ram`: the host view of the destination is the cartridge's buffer, every other byte of RAM but the staging
buffer reads as before, and one write-back-invalidate comes before the one DMA (R242, R246, R250). The DMA engine holds the
two addresses of that DMA and its length less one, the length register of the other direction as before (R244; that they
are kept is the model's choice, log 46). The history is these two events alone: that the writes of the engine's registers
(log 46) and the samples of the PI status (log 54, unsafe), both of which R251 lists, are no events of R10 is the model's
choice. -/
def Obligations.MoveToRam : Prop :=
  ∀ (s : State) (f : Family) (dest : Nat), Held s f → Ram s →
    (direct dest = true ∨ s.cfg.stageAddr + sector ≤ dest ∨ dest + sector ≤ s.cfg.stageAddr) →
    ∃ t, moveToRam dest s = .ok () t ∧ Went f .move s.env.core [] s t ∧ Ram t ∧ t.cb = s.cb ∧
      t.dma = { s.dma with
        ramAddr := BitVec.ofNat 32 (if direct dest then dest else s.cfg.stageAddr)
        cartAddr := (s.cfg.fam f).cartBuf
        toRamLen := 511 } ∧
      t.hist = .dmaFromCart (s.cfg.fam f).cartBuf (if direct dest then dest else s.cfg.stageAddr) sector ::
        .cacheWbInv (if direct dest then dest else s.cfg.stageAddr) sector :: s.hist ∧
      ReadInto s.cfg.stageAddr dest (s.cb.readBytes 0 sector) s t

/-- `move_from_ram`: the cartridge's buffer holds the host view of the source, no byte of RAM but the staging buffer reads
otherwise, and one write-back comes before the one DMA (R243, R247, R250). The DMA engine holds the two addresses of that DMA
and its length less one, the length register of the other direction as before (R244; that they are kept is the model's
choice, log 46). The history is these two events alone: that the writes of the engine's registers (log 46) and the samples of
the PI status (log 54, unsafe) are no events of R10 is the model's choice. -/
def Obligations.MoveFromRam : Prop :=
  ∀ (s : State) (f : Family) (src : Nat), Held s f → Ram s → s.cb.wf = true →
    (direct src = true ∨ s.cfg.stageAddr + sector ≤ src ∨ src + sector ≤ s.cfg.stageAddr) →
    ∃ t, moveFromRam src s = .ok () t ∧ Went f .move s.env.core [] s t ∧ Ram t ∧
      t.dma = { s.dma with
        ramAddr := BitVec.ofNat 32 (if direct src then src else s.cfg.stageAddr)
        cartAddr := (s.cfg.fam f).cartBuf
        toCartLen := 511 } ∧
      t.hist = .dmaToCart (if direct src then src else s.cfg.stageAddr) (s.cfg.fam f).cartBuf sector ::
        .cacheWb (if direct src then src else s.cfg.stageAddr) sector :: s.hist ∧
      (∀ j < sector, t.cb.read j = s.hostByte (src + j)) ∧ (∀ a, sector ≤ a → t.cb.read a = s.cb.read a) ∧
      ReadFrom s.cfg.stageAddr src s t

/-! ### Invariants -/

/-- Every step keeps both memories in canonical form and the cache coherent with RAM, in every environment (R72 to R74;
the canonical form is the model's, log 10). -/
def Obligations.StepKeepsMemory : Prop :=
  ∀ s t : State, Ram s → s.cb.wf = true → step s = .next t → Ram t ∧ t.cb.wf = true

/-- Every step keeps the bracket invariant (R240, R245). -/
def Obligations.StepKeepsBracket : Prop :=
  ∀ s t : State, BusInv s → step s = .next t → BusInv t

/-- What no step undoes: the parameters never change, the identity is fixed once probed, the capture is read-only once
made, a bound drive stays bound, the drive table keeps one entry a drive, the sequencer's machines hold no more than the rest
of the state, the history only grows; and the bit length is whole bytes after each step, however it ended (R10, R20, R23,
R28, R38, R39, R40, R47, R118, R220, R272; the bring-up machine at rest is log 39). -/
def Obligations.StepKeepsWhatIsFixed : Prop :=
  ∀ s t : State, step s = .next t →
    t.cfg = s.cfg ∧
    (s.probed = true → t.probed = true ∧ t.cartType = s.cartType ∧ t.seq.probe = s.seq.probe) ∧
    (s.nativeSaved = true → t.nativeSaved = true ∧ t.nativeCfg = s.nativeCfg) ∧
    (∀ d, s.bound.getD d false = true → t.bound.getD d false = true) ∧
    (s.sess.bitlen = .b8 → t.sess.bitlen = .b8) ∧ (TableInv s → TableInv t) ∧ (SeqInv s → SeqInv t) ∧ Extends s t

/-- Every operation but `acquire` begun with the bus native ends so, with the launch timing back (R179, R240, R245,
R280). -/
def Obligations.NativeBetweenOperations : Prop :=
  ∀ (i : Instr) (s t : State), BusInv s → s.busOwner = .native → i ≠ .acquire → exec i s = .next t →
    t.busOwner = .native ∧ t.piDom = s.cfg.launch

/-- The state after reset has the invariants above and the reset values of the spec (R46, R285, R286). That the parameters
the spec leaves open lie in the ranges it gives, with its defaults for the others, and that memories and cache are empty, is
the model's choice (log 3, 10); so are the two parameters of its own that keep the response checks as R122 writes them (log
18, 19), and the record of `init`, with the parameter that has no operation look at it or write it (log 35). -/
def Obligations.ResetState : Prop :=
  Ram State.reset ∧ State.reset.cb.wf = true ∧ BusInv State.reset ∧ State.reset.sess.bitlen = .b8 ∧ TableInv State.reset ∧
    SeqInv State.reset ∧ State.reset.cfg.inRange = true ∧
    State.reset.cfg.checkFixedBits = false ∧ State.reset.cfg.crcFlagFirst = false ∧
    State.reset.cfg.initRequired = false ∧
    State.reset.probed = false ∧ State.reset.cartType = none ∧ State.reset.seq.probe = .unprobed ∧
    State.reset.nativeSaved = false ∧ State.reset.busOwner = .native ∧ State.reset.piDom = State.reset.cfg.launch ∧
    State.reset.sess.ready = false ∧ State.reset.initDone = false ∧ State.reset.sess.mode = .none ∧
    State.reset.sess.busWidth = .w1 ∧
    State.reset.sess.speed = .slow ∧ State.reset.sess.rca = 0 ∧ State.reset.sess.highCapacity = false ∧
    State.reset.resp = [] ∧ State.reset.byteswap = false ∧ (∀ d, State.reset.bound.getD d false = false) ∧
    (∀ d, State.reset.noinit.getD d true = true) ∧ State.reset.hist = []
end

