-- ==== Sys2Proof/Laws/Op.lean ====
section
/-! SUPPORT. Running an operation: one lemma for each way the operations are put together, in two forms. The equations
say what a run answers; `wp` says that a property holds after a run, whichever way it ends. -/

namespace Sys2Proof.Machine

variable {α β : Type}

/-! ### Equations -/

theorem bind_ok {x : Op α} {k : α → Op β} {s t : State} {a : α} (h : x s = .ok a t) : (x >>= k) s = k a t := by
  simp only [bind, EStateM.bind, h]

theorem bind_error {x : Op α} {k : α → Op β} {s t : State} {e : Halt} (h : x s = .error e t) :
    (x >>= k) s = .error e t := by
  simp only [bind, EStateM.bind, h]

/-- A sequence that ends in a value ran both of its parts to values. -/
theorem bind_eq_ok {x : Op α} {k : α → Op β} {s u : State} {b : β} :
    (x >>= k) s = .ok b u ↔ ∃ a t, x s = .ok a t ∧ k a t = .ok b u := by
  simp only [bind, EStateM.bind]
  cases h : x s <;> simp

/-- A sequence that ends in a halt halted in its first part or in its second. -/
theorem bind_eq_error {x : Op α} {k : α → Op β} {s u : State} {e : Halt} :
    (x >>= k) s = .error e u ↔ x s = .error e u ∨ ∃ a t, x s = .ok a t ∧ k a t = .error e u := by
  simp only [bind, EStateM.bind]
  cases h : x s <;> simp

@[simp] theorem pure_run (a : α) (s : State) : (pure a : Op α) s = .ok a s := rfl
@[simp] theorem get'_run (f : State → α) (s : State) : get' f s = .ok (f s) s := rfl
@[simp] theorem upd_run (f : State → State) (s : State) : upd f s = .ok () (f s) := rfl
@[simp] theorem raise_run (c : Cause) (s : State) : (raise c : Op α) s = .error (.cause c) s := rfl
@[simp] theorem refuse_run (r : Refusal) (s : State) : (refuse r : Op α) s = .error (.refuse r) s := rfl
@[simp] theorem faultWith_run (f : Fault) (s : State) : (faultWith f : Op α) s = .error (.fault f) s := rfl
@[simp] theorem emit_run (e : Event) (s : State) : emit e s = .ok () { s with hist := e :: s.hist } := rfl
@[simp] theorem freshWord_run (s : State) :
    freshWord s = .ok (Config.freeWord s.freeCount) { s with freeCount := s.freeCount + 1 } := rfl

@[simp] theorem get'_bind (f : State → α) (k : α → Op β) (s : State) : (get' f >>= k) s = k (f s) s := rfl
@[simp] theorem upd_bind (f : State → State) (k : Unit → Op β) (s : State) : (upd f >>= k) s = k () (f s) := rfl
@[simp] theorem pure_bind_run (a : α) (k : α → Op β) (s : State) : ((pure a : Op α) >>= k) s = k a s := rfl
@[simp] theorem emit_bind (e : Event) (k : Unit → Op β) (s : State) :
    (emit e >>= k) s = k () { s with hist := e :: s.hist } := rfl
@[simp] theorem freshWord_bind (k : Word → Op β) (s : State) :
    (freshWord >>= k) s = k (Config.freeWord s.freeCount) { s with freeCount := s.freeCount + 1 } := rfl
@[simp] theorem raise_bind (c : Cause) (k : α → Op β) (s : State) :
    ((raise c : Op α) >>= k) s = .error (.cause c) s := rfl
@[simp] theorem refuse_bind (r : Refusal) (k : α → Op β) (s : State) :
    ((refuse r : Op α) >>= k) s = .error (.refuse r) s := rfl

theorem attempt_ok {x : Op α} {s t : State} {a : α} (h : x s = .ok a t) : attempt x s = .ok (.ok a) t := by
  simp only [attempt, h]

theorem attempt_cause {x : Op α} {s t : State} {c : Cause} (h : x s = .error (.cause c) t) :
    attempt x s = .ok (.error c) t := by
  simp only [attempt, h]

theorem attempt_refuse {x : Op α} {s t : State} {r : Refusal} (h : x s = .error (.refuse r) t) :
    attempt x s = .error (.refuse r) t := by
  simp only [attempt, h]

theorem bestEffort_ok {x : Op α} {s t : State} {a : α} (h : x s = .ok a t) : bestEffort x s = .ok () t := by
  simp only [bestEffort, bind_ok (attempt_ok h), pure_run]

theorem bestEffort_cause {x : Op α} {s t : State} {c : Cause} (h : x s = .error (.cause c) t) :
    bestEffort x s = .ok () t := by
  simp only [bestEffort, bind_ok (attempt_cause h), pure_run]

theorem many_succ_ok {one : Op α} {n : Nat} {s t u : State} {a : α} {l : List α}
    (h : one s = .ok a t) (hr : many one n t = .ok l u) : many one (n + 1) s = .ok (a :: l) u := by
  simp only [many, bind_ok h, bind_ok hr, pure_run]

theorem forEach_cons_ok {act : α → Op Unit} {a : α} {l : List α} {s t : State} (h : act a s = .ok () t) :
    forEach act (a :: l) s = forEach act l t := by
  simp only [forEach, bind_ok h]

/-- A bounded wait whose first poll answers ends at once (R124). -/
theorem spinOn_now {poll : Op (Option α)} {n : Nat} {s t : State} {a : α}
    (h : poll { s with spinCount := n + 1 } = .ok (some a) t) : spinOn poll (n + 1) s = .ok a t := by
  simp only [spinOn, upd_bind, bind_ok h, pure_run]

/-- A bounded wait whose first poll does not answer goes on with one poll less (R124). -/
theorem spinOn_later {poll : Op (Option α)} {n : Nat} {s t : State}
    (h : poll { s with spinCount := n + 1 } = .ok none t) :
    spinOn poll (n + 1) s = spinOn poll n { t with spinCount := n } := by
  simp only [spinOn, upd_bind, bind_ok h]

/-! ### What holds after a run -/

/-- `Q` holds of the value and the state a run ends in, `E` of the halt and the state it halts in. -/
def wp (x : Op α) (Q : α → State → Prop) (E : Halt → State → Prop) (s : State) : Prop :=
  match x s with
  | .ok a t => Q a t
  | .error e t => E e t

variable {Q : α → State → Prop} {E : Halt → State → Prop} {s : State}

theorem wp_ok {x : Op α} {t : State} {a : α} (h : wp x Q E s) (hx : x s = .ok a t) : Q a t := by
  simpa only [wp, hx] using h

theorem wp_error {x : Op α} {t : State} {e : Halt} (h : wp x Q E s) (hx : x s = .error e t) : E e t := by
  simpa only [wp, hx] using h

theorem wp_intro {x : Op α} (hok : ∀ a t, x s = .ok a t → Q a t) (herr : ∀ e t, x s = .error e t → E e t) :
    wp x Q E s := by
  unfold wp
  cases h : x s with
  | ok a t => exact hok a t h
  | error e t => exact herr e t h

theorem wp_mono {Q' : α → State → Prop} {E' : Halt → State → Prop} {x : Op α} (h : wp x Q E s)
    (hQ : ∀ a t, Q a t → Q' a t) (hE : ∀ e t, E e t → E' e t) : wp x Q' E' s :=
  wp_intro (fun a t hx => hQ a t (wp_ok h hx)) (fun e t hx => hE e t (wp_error h hx))

@[simp] theorem wp_pure (a : α) : wp (pure a : Op α) Q E s ↔ Q a s := Iff.rfl
@[simp] theorem wp_get' (f : State → α) : wp (get' f) Q E s ↔ Q (f s) s := Iff.rfl
@[simp] theorem wp_upd (f : State → State) {Q : Unit → State → Prop} : wp (upd f) Q E s ↔ Q () (f s) := Iff.rfl
@[simp] theorem wp_raise (c : Cause) : wp (raise c : Op α) Q E s ↔ E (.cause c) s := Iff.rfl
@[simp] theorem wp_refuse (r : Refusal) : wp (refuse r : Op α) Q E s ↔ E (.refuse r) s := Iff.rfl
@[simp] theorem wp_faultWith (f : Fault) : wp (faultWith f : Op α) Q E s ↔ E (.fault f) s := Iff.rfl

theorem wp_bind {x : Op β} {k : β → Op α} :
    wp (x >>= k) Q E s ↔ wp x (fun b t => wp (k b) Q E t) E s := by
  simp only [wp, bind, EStateM.bind]
  cases x s <;> rfl

/-- A caught cause is a value, every other halt stays one. -/
theorem wp_attempt {x : Op α} {Q : Except Cause α → State → Prop}
    (h : wp x (fun a t => Q (.ok a) t)
      (fun e t => match e with | .cause c => Q (.error c) t | .refuse _ | .fault _ => E e t) s) :
    wp (attempt x) Q E s := by
  unfold wp attempt at *
  cases hx : x s with
  | ok a t => simpa only [hx] using h
  | error e t => cases e <;> simpa only [hx] using h

end Sys2Proof.Machine
end

