-- ==== Sys2Proof/Laws/Frame.lean ====
section
/-! SUPPORT. What each operation may change. The state outside an operation's footprint is the same
after every run, however the run ends. One lemma for each operation. -/

namespace Sys2Proof.Machine

namespace SameOn

variable {F G : Foot} {s t u : State}

theorem refl (F : Foot) (s : State) : SameOn F s s := by
  constructor <;> simp

theorem trans (h : SameOn F s t) (k : SameOn F t u) : SameOn F s u where
  fixed := by obtain ⟨a, b, c⟩ := h.fixed; obtain ⟨x, y, z⟩ := k.fixed; exact ⟨x.trans a, y.trans b, z.trans c⟩
  log hF := by
    obtain ⟨a, b, c, d⟩ := h.log hF; obtain ⟨x, y, z, w⟩ := k.log hF
    exact ⟨x.trans a, y.trans b, z.trans c, w.trans d⟩
  line hF := (k.line hF).trans (h.line hF)
  engine hF := by
    obtain ⟨a, b, c, d⟩ := h.engine hF; obtain ⟨x, y, z, w⟩ := k.engine hF
    exact ⟨x.trans a, y.trans b, z.trans c, w.trans d⟩
  lanes hF := (k.lanes hF).trans (h.lanes hF)
  sess hF := (k.sess hF).trans (h.sess hF)
  bus hF := by
    obtain ⟨a, b, c, d⟩ := h.bus hF; obtain ⟨x, y, z, w⟩ := k.bus hF
    exact ⟨x.trans a, y.trans b, z.trans c, w.trans d⟩
  ram hF := ⟨(k.ram hF).1.trans (h.ram hF).1, (k.ram hF).2.trans (h.ram hF).2⟩
  dma hF := (k.dma hF).trans (h.dma hF)
  buffer hF := (k.buffer hF).trans (h.buffer hF)
  ident hF := ⟨(k.ident hF).1.trans (h.ident hF).1, (k.ident hF).2.trans (h.ident hF).2⟩
  seq hF := (k.seq hF).trans (h.seq hF)
  swap hF := (k.swap hF).trans (h.swap hF)
  disk hF := ⟨(k.disk hF).1.trans (h.disk hF).1, (k.disk hF).2.trans (h.disk hF).2⟩
  init hF := (k.init hF).trans (h.init hF)

theorem mono (h : SameOn F s t) (hle : F.le G = true) : SameOn G s t := by
  simp only [Foot.le, Bool.and_eq_true, Bool.or_eq_true, Bool.not_eq_true'] at hle
  obtain ⟨⟨⟨⟨⟨⟨⟨⟨⟨⟨⟨⟨h1, h2⟩, h3⟩, h4⟩, h5⟩, h6⟩, h7⟩, h8⟩, h9⟩, h10⟩, h11⟩, h12⟩, h13⟩ := hle
  have low : ∀ {a b : Bool}, (a = false ∨ b = true) → b = false → a = false := by
    intro a b hab hb; simpa [hb] using hab
  exact ⟨h.fixed, fun g => h.log (low h1 g), fun g => h.line (low h2 g), fun g => h.engine (low h3 g),
    fun g => h.lanes (low h4 g), fun g => h.sess (low h5 g), fun g => h.bus (low h6 g), fun g => h.ram (low h7 g),
    fun g => h.dma (low h7 g), fun g => h.buffer (low h8 g), fun g => h.ident (low h9 g), fun g => h.seq (low h10 g),
    fun g => h.swap (low h11 g), fun g => h.disk (low h12 g), fun g => h.init (low h13 g)⟩

end SameOn

/-- An operation writes nothing outside a footprint, however it ends. -/
def Touches {α : Type} (F : Foot) (x : Op α) : Prop :=
  ∀ s, wp x (fun _ t => SameOn F s t) (fun _ t => SameOn F s t) s

namespace Touches

variable {α β : Type} {F G : Foot}

theorem of_ok {x : Op α} (h : Touches F x) {s t : State} {a : α} (hx : x s = .ok a t) : SameOn F s t :=
  wp_ok (Q := fun _ t => SameOn F s t) (h s) hx

theorem of_error {x : Op α} (h : Touches F x) {s t : State} {e : Halt} (hx : x s = .error e t) : SameOn F s t :=
  wp_error (E := fun _ t => SameOn F s t) (h s) hx

theorem mono {x : Op α} (h : Touches F x) (hle : F.le G = true) : Touches G x :=
  fun s => wp_mono (h s) (fun _ _ k => k.mono hle) (fun _ _ k => k.mono hle)

theorem pure (a : α) : Touches F (Pure.pure a : Op α) := fun s => SameOn.refl F s
theorem get' (f : State → α) : Touches F (Machine.get' f) := fun s => SameOn.refl F s
theorem raise (c : Cause) : Touches F (Machine.raise c : Op α) := fun s => SameOn.refl F s
theorem refuse (r : Refusal) : Touches F (Machine.refuse r : Op α) := fun s => SameOn.refl F s
theorem faultWith (f : Fault) : Touches F (Machine.faultWith f : Op α) := fun s => SameOn.refl F s

theorem upd {f : State → State} (h : ∀ s, SameOn F s (f s)) : Touches F (Machine.upd f) := fun s => h s

theorem bind {x : Op α} {k : α → Op β} (hx : Touches F x) (hk : ∀ a, Touches F (k a)) : Touches F (x >>= k) :=
  fun s => wp_bind.mpr (wp_mono (hx s)
    (fun a t hst => wp_mono (hk a t) (fun _ _ h => hst.trans h) (fun _ _ h => hst.trans h)) (fun _ _ h => h))

theorem attempt {x : Op α} (hx : Touches F x) : Touches F (Machine.attempt x) :=
  fun s => wp_attempt (wp_mono (hx s) (fun _ _ h => h) (fun e _ h => by cases e <;> exact h))

theorem bestEffort {x : Op α} (hx : Touches F x) : Touches F (Machine.bestEffort x) :=
  hx.attempt.bind fun _ => pure ()

theorem rethrow (r : Except Cause α) : Touches F (Machine.rethrow r) := by
  cases r
  · exact raise _
  · exact pure _

theorem ite {c : Prop} [Decidable c] {x y : Op α} (hx : Touches F x) (hy : Touches F y) :
    Touches F (if c then x else y) := by
  split <;> assumption

theorem onlyIf {c : Bool} {x : Op Unit} (h : Touches F x) : Touches F (Machine.onlyIf c x) := ite h (pure _)

theorem many {one : Op α} (h : Touches F one) (n : Nat) : Touches F (Machine.many one n) := by
  induction n with
  | zero => exact pure _
  | succ n ih => exact h.bind fun _ => ih.bind fun _ => pure _

theorem forEach {act : α → Op Unit} (h : ∀ a, Touches F (act a)) (l : List α) : Touches F (Machine.forEach act l) := by
  induction l with
  | nil => exact pure _
  | cons a l ih => exact (h a).bind fun _ => ih

end Touches

/-! ### Primitive operations -/

variable {α : Type} {F : Foot}

theorem touches_emit (e : Event) : Touches .access (emit e) :=
  .upd fun s => by constructor <;> simp [Foot.access]

theorem touches_draw (get : Env → List α) (put : List α → Env → Env) (free : Nat → α) :
    Touches .access (draw get put free) := by
  intro s
  unfold wp draw
  split <;> rename_i h
  all_goals (split at h <;> cases h)
  all_goals (constructor <;> simp [Foot.access])

theorem touches_nextStatus : Touches .access nextStatus := touches_draw _ _ _
theorem touches_nextIdent : Touches .access nextIdent := touches_draw _ _ _
theorem touches_nextWord : Touches .access nextWord := touches_draw _ _ _
theorem touches_nextCmdBit : Touches .access nextCmdBit := touches_draw _ _ _
theorem touches_nextNibble : Touches .access nextNibble := touches_draw _ _ _
theorem touches_nextPi : Touches .access nextPi := touches_draw _ _ _
theorem touches_nextSectorByte : Touches .access nextSectorByte := touches_draw _ _ _
theorem touches_nextJunkByte : Touches .access nextJunkByte := touches_draw _ _ _
theorem touches_nextCacheActs : Touches .access nextCacheActs := touches_draw _ _ _

theorem touches_freshWord : Touches .access freshWord := by
  intro s
  exact by constructor <;> simp [Foot.access]

theorem touches_spinOn {poll : Op (Option α)} (hF : Foot.access.le F = true) (h : Touches F poll) (n : Nat) :
    Touches F (spinOn poll n) := by
  have count : ∀ m, Touches F (upd fun s => { s with spinCount := m }) := fun m =>
    (Touches.upd (F := .access) fun s => by constructor <;> simp [Foot.access]).mono hF
  induction n with
  | zero => exact .raise _
  | succ n ih =>
    refine (count _).bind fun _ => h.bind fun r => ?_
    cases r with
    | some a => exact .pure _
    | none => exact (count _).bind fun _ => ih

theorem touches_piWaitIdle (f : Family) : Touches .access (piWaitIdle f) :=
  .bind (.get' _) fun _ => touches_spinOn rfl (touches_nextPi.bind fun _ => .pure _) _

theorem touches_busFamily : Touches F busFamily :=
  .bind (.get' _) fun o => by cases o <;> first | exact .pure _ | exact .refuse _

theorem touches_famParams : Touches F famParams := touches_busFamily.bind fun _ => .get' _

theorem touches_regAt (r : Reg) : Touches F (regAt r) :=
  touches_busFamily.bind fun _ => .bind (.get' _) fun _ => .ite (.pure _) (.refuse _)

theorem touches_nextRegValue (r : Reg) : Touches .access (nextRegValue r) := by
  cases r <;> first | exact touches_nextStatus | exact touches_nextIdent | exact touches_nextWord

theorem touches_regRead (r : Reg) : Touches .access (regRead r) :=
  (touches_regAt r).bind fun _ => (touches_nextRegValue r).bind fun _ => (touches_emit _).bind fun _ => .pure _

theorem touches_regWrite (r : Reg) (v : Word) : Touches .access (regWrite r v) :=
  (touches_regAt r).bind fun _ => (touches_emit _).bind fun _ => touches_famParams.bind fun _ =>
    touches_spinOn rfl (touches_nextPi.bind fun _ => .pure _) _

theorem touches_pollStatus : Touches .access pollStatus :=
  touches_famParams.bind fun _ => (touches_regRead _).bind fun _ => .pure _

theorem touches_cacheActs (acts : List CacheAct) (s : State) :
    SameOn { ram := true } s (acts.foldl State.cacheAct s) := by
  induction acts generalizing s with
  | nil => exact .refl _ _
  | cons a l ih => exact SameOn.trans (by cases a <;> constructor <;> simp [State.cacheAct]) (ih _)

/-- What the cache does on its own writes no byte of the cartridge's buffer. -/
theorem touches_cacheAlone : Touches { Foot.access with ram := true } cacheMayAct :=
  (touches_nextCacheActs.mono rfl).bind fun acts => .upd fun s => (touches_cacheActs acts s).mono rfl

theorem touches_cacheMayAct : Touches .move cacheMayAct := touches_cacheAlone.mono rfl

/-! ### The bracket -/

theorem touches_applyConfig (c : BusConfig) : Touches .bracket (applyConfig c) :=
  .upd fun s => by constructor <;> simp [Foot.bracket, Foot.access]

theorem touches_acquireFor (f : Family) : Touches .bracket (acquireFor f) := by
  refine .bind (.get' _) fun o => ?_
  cases o with
  | cart => exact .refuse _
  | native =>
    refine .bind ((touches_piWaitIdle f).bestEffort.mono rfl) fun _ => .bind (.upd fun s => ?_) fun _ =>
      .bind (.get' _) fun _ => (touches_applyConfig _).bind fun _ => .upd fun s => ?_
    · split <;> constructor <;> simp [Foot.bracket]
    · constructor <;> simp [Foot.bracket]

theorem touches_acquireBus : Touches .bracket acquireBus :=
  .bind (.get' _) fun c => by cases c <;> first | exact .refuse _ | exact touches_acquireFor _

theorem touches_releaseBus : Touches .bracket releaseBus := by
  refine .bind (.get' _) fun o => ?_
  cases o with
  | native => exact .refuse _
  | cart f =>
    refine .bind (.get' _) fun saved => .ite ?_ (.faultWith _)
    exact .bind ((touches_piWaitIdle f).bestEffort.mono rfl) fun _ => .bind (.get' _) fun _ =>
      (touches_applyConfig _).bind fun _ => .upd fun s => by constructor <;> simp [Foot.bracket]

theorem touches_bracketed {clean : Op Unit} {body : Op α} (hF : Foot.bracket.le F = true) (hc : Touches F clean)
    (hb : Touches F body) : Touches F (bracketed clean body) := by
  refine (touches_acquireBus.mono hF).bind fun _ => hb.attempt.bind fun r => ?_
  cases r with
  | ok a => exact (touches_releaseBus.mono hF).bind fun _ => .pure _
  | error c => exact hc.bind fun _ => (touches_releaseBus.mono hF).bind fun _ => .raise _

/-! ### Cartridge commands and the byte swap -/

theorem touches_placeInBuffer (offset : Nat) (bs : List Byte) : Touches { buffer := true } (placeInBuffer offset bs) :=
  .upd fun s => by constructor <;> simp

theorem touches_cartSideEffect (code : Byte) (a0 a1 : Word) :
    Touches { log := true, buffer := true } (cartSideEffect code a0 a1) := by
  exact touches_famParams.bind fun _ => .onlyIf (.bind ((Touches.many touches_nextSectorByte _).mono rfl) fun _ =>
    (touches_placeInBuffer _ _).mono rfl)

theorem touches_recordCommand (code : Byte) (a0 a1 : Word) : Touches .access (recordCommand code a0 a1) :=
  fun s => touches_emit _ s

theorem touches_cartHandshake (code : Byte) (a0 a1 : Word) :
    Touches { log := true, buffer := true } (cartHandshake code a0 a1) := by
  have wait : ∀ n, Touches .access (spinOn pollStatus n) := fun n => touches_spinOn rfl touches_pollStatus n
  refine .bind (Touches.mono (F := .access) ?_ rfl) fun _ => ((touches_recordCommand _ _ _).mono rfl).bind fun _ =>
    (touches_cartSideEffect _ _ _).bind fun _ => Touches.mono (F := .access) ?_ rfl
  · exact touches_famParams.bind fun _ => (wait _).bind fun _ => (touches_regWrite _ _).bind fun _ =>
      (touches_regWrite _ _).bind fun _ => touches_regWrite _ _
  · exact touches_famParams.bind fun _ => (wait _).bind fun _ => .ite (.raise _)
      ((touches_regRead _).bind fun _ => (touches_regRead _).bind fun _ => .pure _)

theorem touches_swapDrive (on : Bool) : Touches .cart (swapDrive on) := by
  have mirror : Touches .cart (upd fun s => { s with byteswap := on }) :=
    .upd fun s => by constructor <;> simp [Foot.cart]
  exact touches_famParams.bind fun _ => .ite
    (.bind ((touches_cartHandshake _ _ _).mono rfl) fun _ => mirror)
    (.bind ((touches_regWrite _ _).mono rfl) fun _ => mirror)

theorem touches_swapAround {wrap : Bool} {body : Op α} (hF : Foot.cart.le F = true) (h : Touches F body) :
    Touches F (swapAround wrap body) := by
  refine .ite (.bind (.get' _) fun _ => ((touches_swapDrive _).mono hF).bind fun _ => h.attempt.bind fun r => ?_) h
  cases r with
  | ok a => exact ((touches_swapDrive _).mono hF).bind fun _ => .pure _
  | error c => exact ((touches_swapDrive _).bestEffort.mono hF).bind fun _ => .raise _

theorem touches_cartCommand (code : Byte) (a0 a1 : Word) : Touches .cart (cartCommand code a0 a1) :=
  touches_famParams.bind fun _ => touches_swapAround rfl ((touches_cartHandshake _ _ _).mono rfl)

theorem touches_swapTransfer {body : Op α} (hF : Foot.cart.le F = true) (h : Touches F body) :
    Touches F (swapTransfer body) :=
  touches_famParams.bind fun _ => touches_swapAround hF h

/-! ### The SD port -/

theorem touches_sdPort : Touches F sdPort := touches_famParams.bind fun _ => .ite (.refuse _) (.pure _)

theorem touches_datPort : Touches F datPort := touches_sdPort.bind fun _ => .ite (.refuse _) (.pure _)

theorem touches_writeSdCfg (extra : Word) : Touches .access (writeSdCfg extra) :=
  touches_sdPort.bind fun _ => .bind (.get' _) fun _ => touches_regWrite _ _

theorem touches_portConfig : Touches .access portConfig := touches_writeSdCfg 0

theorem touches_reconfigure (g : Session → Session) : Touches { Foot.access with line := true, sess := true } (reconfigure g) :=
  touches_sdPort.bind fun _ => .bind (.get' _) fun _ => ((touches_regWrite _ _).mono rfl).bind fun _ =>
    .upd fun s => by constructor <;> simp

theorem touches_setBitLen (len : BitLen) : Touches .clocked (setBitLen len) :=
  touches_sdPort.bind fun _ => .bind (.get' _) fun _ => .bind
    (.upd fun s => by constructor <;> simp [Foot.clocked]) fun _ => .onlyIf (touches_portConfig.mono rfl)

theorem touches_atSingleBit {body : Op α} (hF : Foot.clocked.le F = true) (h : Touches F body) :
    Touches F (atSingleBit body) := by
  refine .bind (.attempt (.bind ((touches_setBitLen _).mono hF) fun _ => h)) fun r => ?_
  cases r with
  | ok a => exact ((touches_setBitLen _).mono hF).bind fun _ => .pure _
  | error c => exact ((touches_setBitLen _).bestEffort.mono hF).bind fun _ => .raise _

theorem touches_portWrite (r : Reg) (v : Word) : Touches .access (portWrite r v) :=
  touches_sdPort.bind fun _ => .onlyIf
    ((touches_regWrite _ _).bind fun _ => (touches_spinOn rfl touches_pollStatus _).bind fun _ => .pure _)

theorem touches_portRead (r : Reg) (mask v : Word) : Touches .access (portRead r mask v) :=
  touches_sdPort.bind fun _ => .onlyIf
    ((touches_regAt r).bind fun _ => touches_freshWord.bind fun _ => touches_emit _)

theorem touches_cmdTx (b : Byte) : Touches .access (cmdTx b) :=
  touches_sdPort.bind fun _ => (touches_emit _).bind fun _ => touches_portWrite _ _

theorem touches_cmdRxBit : Touches .access cmdRxBit :=
  touches_sdPort.bind fun _ => (touches_portWrite _ _).bind fun _ => touches_nextCmdBit.bind fun _ =>
    (touches_portRead _ _ _).bind fun _ => (touches_emit _).bind fun _ => .pure _

theorem touches_cmdRx : Touches .access cmdRx :=
  touches_sdPort.bind fun _ => (touches_portWrite _ _).bind fun _ => (touches_nextCmdBit.many 8).bind fun _ =>
    (touches_portRead _ _ _).bind fun _ => (touches_emit _).bind fun _ => .pure _

theorem touches_laneClock : Touches .access laneClock :=
  (touches_portWrite _ _).bind fun _ => touches_nextNibble.bind fun _ => (touches_portRead _ _ _).bind fun _ => .pure _

theorem touches_singleLaneClock (q : FamilyParams) : Touches .clocked (singleLaneClock q) :=
  .ite (touches_atSingleBit rfl (touches_laneClock.mono rfl)) (touches_laneClock.mono rfl)

theorem touches_datRxBit : Touches .clocked datRxBit :=
  touches_datPort.bind fun _ => (touches_singleLaneClock _).bind fun _ => ((touches_emit _).mono rfl).bind fun _ =>
    .pure _

theorem touches_clockByte (width : BusWidth) : Touches .access (clockByte width) := by
  cases width
  · exact (touches_nextNibble.many 8).bind fun _ => .pure _
  · exact touches_nextNibble.bind fun _ => touches_nextNibble.bind fun _ => .pure _

theorem touches_datByte (width : BusWidth) : Touches .access (datByte width) :=
  (touches_portWrite _ _).bind fun _ => (touches_clockByte _).bind fun _ =>
    (touches_portRead _ _ _).bind fun _ => .pure _

theorem touches_datBytes (q : FamilyParams) (width : BusWidth) (n : Nat) : Touches .access (datBytes q width n) :=
  .ite ((touches_regWrite _ _).bind fun _ => (touches_regWrite _ _).bind fun _ =>
    (touches_spinOn rfl touches_pollStatus _).bind fun _ => (touches_clockByte _).many _) ((touches_datByte _).many _)

theorem touches_datRx (n : Nat) : Touches .access (datRx n) :=
  touches_datPort.bind fun _ => .bind (.get' _) fun _ => (touches_datBytes _ _ _).bind fun _ =>
    (touches_emit _).bind fun _ => .pure _

theorem touches_datTx (d : TxData) : Touches .clocked (datTx d) := by
  refine touches_datPort.bind fun _ => ((touches_emit _).mono rfl).bind fun _ => .onlyIf ?_
  cases d with
  | bytes bs => exact .forEach (fun _ => (touches_portWrite _ _).mono rfl) _
  | nibble n => exact touches_atSingleBit rfl ((touches_portWrite _ _).mono rfl)

theorem touches_resetPort : Touches .cart resetPort :=
  touches_famParams.bind fun _ => .bind (.get' _) fun _ => .ite (touches_cartCommand _ _ _).bestEffort
    (.bind (.get' _) fun _ => ((touches_regWrite _ _).bestEffort.mono rfl).bind fun _ =>
      (touches_regWrite _ _).bestEffort.mono rfl)

/-! ### Sector moves -/

theorem sameOn_cacheWbInv (s : State) (a n : Nat) : SameOn { ram := true } s (s.cacheWbInv a n) := by
  constructor <;> simp [State.cacheWbInv]

theorem sameOn_cacheWb (s : State) (a n : Nat) : SameOn { ram := true } s (s.cacheWb a n) := by
  constructor <;> simp [State.cacheWb]

theorem sameOn_fillLine (s : State) (a : Nat) : SameOn { ram := true } s (s.fillLine a) := by
  unfold State.fillLine
  split
  · exact .refl _ _
  · constructor <;> simp

theorem sameOn_touchBytes (s : State) (a n : Nat) : SameOn { ram := true } s (s.touchBytes a n) := by
  induction n generalizing s a with
  | zero => exact .refl _ _
  | succ n ih => exact (sameOn_fillLine s a).trans (ih _ _)

theorem sameOn_hostStore (s : State) (a : Nat) (v : Byte) : SameOn { ram := true } s (s.hostStore a v) :=
  (sameOn_fillLine s a).trans (by constructor <;> simp [State.hostStore])

theorem sameOn_hostStoreBytes (s : State) (a : Nat) (bs : List Byte) :
    SameOn { ram := true } s (s.hostStoreBytes a bs) := by
  induction bs generalizing s a with
  | nil => exact .refl _ _
  | cons b bs ih => exact (sameOn_hostStore s a b).trans (ih _ _)

theorem sameOn_move8 (s : State) (src dst : Nat) : SameOn { ram := true } s (s.move8 src dst) :=
  (sameOn_touchBytes s src 8).trans (sameOn_hostStoreBytes _ _ _)

theorem touches_opCacheWbInv (a n : Nat) : Touches .move (opCacheWbInv a n) :=
  touches_cacheMayAct.bind fun _ => ((touches_emit _).mono rfl).bind fun _ =>
    .upd fun s => (sameOn_cacheWbInv s a n).mono rfl

theorem touches_opCacheWb (a n : Nat) : Touches .move (opCacheWb a n) :=
  touches_cacheMayAct.bind fun _ => ((touches_emit _).mono rfl).bind fun _ =>
    .upd fun s => (sameOn_cacheWb s a n).mono rfl

theorem touches_programToRam (ram : Nat) (cart : Word) : Touches .move (programToRam ram cart) :=
  .upd fun s => by constructor <;> simp [Foot.move]

theorem touches_programToCart (ram : Nat) (cart : Word) : Touches .move (programToCart ram cart) :=
  .upd fun s => by constructor <;> simp [Foot.move]

theorem touches_dmaFromCart (ram : Nat) : Touches .move (dmaFromCart ram) := by
  refine touches_busFamily.bind fun f => touches_famParams.bind fun _ => ((touches_piWaitIdle f).mono rfl).bind fun _ =>
    (touches_programToRam _ _).bind fun _ => ((touches_emit _).mono rfl).bind fun _ => touches_cacheMayAct.bind fun _ =>
    ((touches_piWaitIdle f).attempt.mono rfl).bind fun r => ?_
  cases r with
  | ok => exact .upd fun s => by constructor <;> simp [Foot.move]
  | error =>
    exact ((touches_nextJunkByte.many _).mono rfl).bind fun _ =>
      .bind (.upd fun s => by constructor <;> simp [Foot.move]) fun _ => .raise _

theorem touches_dmaToCart (ram : Nat) : Touches .move (dmaToCart ram) := by
  refine touches_busFamily.bind fun f => touches_famParams.bind fun _ => ((touches_piWaitIdle f).mono rfl).bind fun _ =>
    (touches_programToCart _ _).bind fun _ => ((touches_emit _).mono rfl).bind fun _ => touches_cacheMayAct.bind fun _ =>
    ((touches_piWaitIdle f).attempt.mono rfl).bind fun r => ?_
  cases r with
  | ok => exact .upd fun s => by constructor <;> simp [Foot.move]
  | error =>
    exact ((touches_nextJunkByte.many _).mono rfl).bind fun _ =>
      .bind (.upd fun s => by constructor <;> simp [Foot.move]) fun _ => .raise _

theorem touches_copyMoves (n src dst : Nat) : Touches .move (copyMoves n src dst) := by
  induction n generalizing src dst with
  | zero => exact .pure _
  | succ n ih =>
    exact touches_cacheMayAct.bind fun _ => .bind (.upd fun s => (sameOn_move8 s src dst).mono rfl) fun _ => ih _ _

theorem touches_bringToRam (dest : Nat) : Touches .move (bringToRam dest) :=
  .bind (.get' _) fun _ => .ite ((touches_opCacheWbInv _ _).bind fun _ => touches_dmaFromCart _)
    ((touches_opCacheWbInv _ _).bind fun _ => (touches_dmaFromCart _).bind fun _ => touches_copyMoves _ _ _)

theorem touches_moveToRam (dest : Nat) : Touches .move (moveToRam dest) :=
  (touches_bringToRam dest).bind fun _ => touches_cacheMayAct

theorem touches_takeFromRam (src : Nat) : Touches .move (takeFromRam src) :=
  .bind (.get' _) fun _ => .ite ((touches_opCacheWb _ _).bind fun _ => touches_dmaToCart _)
    ((touches_copyMoves _ _ _).bind fun _ => (touches_opCacheWb _ _).bind fun _ => touches_dmaToCart _)

theorem touches_moveFromRam (src : Nat) : Touches .move (moveFromRam src) :=
  (touches_takeFromRam src).bind fun _ => touches_cacheMayAct

theorem touches_respByte (i : Nat) : Touches F (respByte i) := by
  intro s
  unfold wp respByte
  split <;> rename_i h <;> split at h <;> cases h <;> exact .refl _ _

/-! ### The command engine -/

theorem touches_collectResponse (spinMax len : Nat) : Touches .clocked (collectResponse spinMax len) := by
  refine .bind (touches_atSingleBit rfl (Touches.mono (F := .access) ?_ rfl)) fun _ =>
    .bind ((touches_cmdRx.many _).mono rfl) fun _ => .pure _
  exact .bind (touches_spinOn rfl (touches_cmdRxBit.bind fun _ => .pure _) _) fun _ =>
    (touches_cmdRxBit.many 7).bind fun _ => .pure _

theorem touches_transmitFrame (leadin : Nat) (idx : BitVec 6) (arg : Word) :
    Touches .exchange (transmitFrame leadin idx arg) := by
  have send : ∀ l, Touches .exchange (forEach cmdTx l) := fun l => (Touches.forEach touches_cmdTx l).mono rfl
  exact .bind (.upd fun s => by constructor <;> simp [Foot.exchange]) fun _ =>
    ((touches_setBitLen _).mono rfl).bind fun _ => (send _).bind fun _ => (send _).bind fun _ =>
    .upd fun s => by constructor <;> simp [Foot.exchange]

theorem touches_trailClocks (n : Nat) : Touches .access (trailClocks n) := .forEach touches_cmdTx _

theorem touches_receiveResponse (p : Params) (q : FamilyParams) (kind : SdKind) (idx : BitVec 6) :
    Touches .exchange (receiveResponse p q kind idx) := by
  have store : ∀ l, Touches .exchange (upd fun s => { s with resp := l }) := fun l =>
    .upd fun s => by constructor <;> simp [Foot.exchange]
  have trail : Touches .exchange (trailClocks p.nTrail) := (touches_trailClocks _).mono rfl
  unfold receiveResponse
  refine .ite ((store _).bind fun _ => trail) (((touches_collectResponse _ _).attempt.mono rfl).bind fun r => ?_)
  cases r with
  | error c => exact (store _).bind fun _ => .raise _
  | ok bytes =>
    refine (store _).bind fun _ => trail.bind fun _ => ?_
    split
    · exact .raise _
    · exact .pure _

theorem touches_executeCommand (app : Bool) (idx : BitVec 6) (arg : Word) :
    Touches .exchange (executeCommand app idx arg) := by
  refine touches_sdPort.bind fun _ => .bind (.get' _) fun _ => ?_
  split
  · exact .refuse _
  · exact (touches_transmitFrame _ _ _).bind fun _ => touches_receiveResponse _ _ _ _

theorem touches_sendAppCommand (idx : BitVec 6) (rca : Half) (arg : Word) :
    Touches .exchange (sendAppCommand idx rca arg) :=
  touches_sdPort.bind fun _ => .bind (.onlyIf (.refuse _)) fun _ => (touches_executeCommand _ _ _).bind fun _ =>
    touches_executeCommand _ _ _

/-! ### Data blocks -/

theorem touches_waitDataStart : Touches .clocked waitDataStart :=
  touches_datPort.bind fun _ => touches_spinOn rfl (touches_datRxBit.bind fun _ => .pure _) _

theorem touches_waitNotBusy : Touches .clocked waitNotBusy :=
  touches_datPort.bind fun _ => touches_spinOn rfl (touches_datRxBit.bind fun _ => .pure _) _

theorem touches_receiveBlock (n : Nat) : Touches .receive (receiveBlock n) := by
  refine (touches_waitDataStart.mono rfl).bind fun _ => ((touches_datRx _).mono rfl).bind fun d =>
    .bind (.get' _) fun _ => ((touches_datRx _).mono rfl).bind fun _ => (touches_datRxBit.mono rfl).bind fun _ =>
    .bind (.get' _) fun _ => .bind (.onlyIf ?_) fun _ => .onlyIf ((touches_placeInBuffer _ _).mono rfl)
  exact .bind (.upd fun s => by constructor <;> simp [Foot.receive]) fun _ => .ite (.pure _) (.raise _)

/-- A block that is not a sector goes nowhere (R171). -/
theorem touches_receiveOther {n : Nat} (hn : (n == sector) = false) : Touches .clocked (receiveBlock n) := by
  refine touches_waitDataStart.bind fun _ => ((touches_datRx _).mono rfl).bind fun d =>
    .bind (.get' _) fun _ => ((touches_datRx _).mono rfl).bind fun _ => touches_datRxBit.bind fun _ =>
    .bind (.get' _) fun _ => ?_
  rw [hn, Bool.and_false]
  exact .bind (.pure _) fun _ => .pure _

theorem touches_readToken : Touches .clocked readToken :=
  touches_datRxBit.bind fun _ => touches_datRxBit.bind fun _ => touches_datRxBit.bind fun _ =>
    touches_datRxBit.bind fun _ => touches_datRxBit.bind fun _ => .pure _

theorem touches_sendBlock (d : List Byte) : Touches .sendBlock (sendBlock d) := by
  have tx : ∀ d, Touches .sendBlock (datTx d) := fun d => (touches_datTx d).mono rfl
  refine .bind (.get' _) fun _ => .bind (.upd fun s => by constructor <;> simp [Foot.sendBlock]) fun _ =>
    (tx _).bind fun _ => (tx _).bind fun _ => (tx _).bind fun _ => (tx _).bind fun _ =>
    (touches_readToken.mono rfl).bind fun tok => ?_
  split
  · exact .raise _
  · exact touches_waitNotBusy.mono rfl

/-! ### SD commands -/

theorem touches_checkEcho : Touches F checkEcho :=
  (touches_respByte _).bind fun _ => (touches_respByte _).bind fun _ => .ite (.pure _) (.raise _)

theorem touches_voltageCheck : Touches .exchange voltageCheck := by
  refine touches_sdPort.bind fun q => (touches_executeCommand _ _ _).attempt.bind fun r => ?_
  split
  · exact .pure _
  · exact .pure _
  · exact .raise _
  · split
    · exact touches_checkEcho
    · exact (touches_respByte _).bind fun _ => .ite (.pure _) touches_checkEcho

theorem touches_setting (f : Session → Session) : Touches .setting (setSession f) :=
  .upd fun s => by constructor <;> simp [Foot.setting, Foot.clocked]

theorem touches_session (f : Session → Session) : Touches .command (setSession f) := (touches_setting f).mono rfl

theorem touches_testReady (wire : Wire) : Touches .command (testReady wire) := by
  cases wire
  · exact (touches_respByte _).bind fun b => .ite
      ((touches_session fun ss => { ss with highCapacity := ocrHighCapacity b }).bind fun _ => .pure _) (.pure _)
  · exact (touches_respByte _).bind fun _ => .pure _

theorem touches_pollLoop {mark : Nat → Op Unit} (hF : Foot.command.le F = true) (hm : ∀ k, Touches F (mark k))
    (arg : Word) (wire : Wire) (fuel k : Nat) : Touches F (pollLoop mark arg wire fuel k) := by
  induction fuel generalizing k with
  | zero => exact .raise _
  | succ n ih =>
    exact (hm k).bind fun _ => ((touches_sendAppCommand _ _ _).mono (by
      revert hF; cases F; simp [Foot.le, Foot.command, Foot.exchange, Foot.clocked, Foot.access]; intros; simp_all)).bind fun _ =>
      ((touches_testReady _).mono hF).bind fun _ => .ite (.pure _) (ih _)

theorem touches_pollReady {mark : Nat → Op Unit} (hF : Foot.command.le F = true) (hm : ∀ k, Touches F (mark k))
    (arg : Word) : Touches F (pollReady mark arg) :=
  touches_sdPort.bind fun _ => .bind (.get' _) fun _ => touches_pollLoop hF hm _ _ _ _

theorem touches_publishRca : Touches .command publishRca :=
  touches_sdPort.bind fun _ => .bind (.onlyIf (.faultWith _)) fun _ => ((touches_executeCommand _ _ _).mono rfl).bind fun _ =>
    (touches_respByte _).bind fun a => (touches_respByte _).bind fun b => touches_session fun ss => { ss with rca := a ++ b }

theorem touches_selectCard (rca : Half) : Touches .exchange (selectCard rca) :=
  touches_datPort.bind fun _ => (touches_executeCommand _ _ _).bind fun _ => touches_waitNotBusy.mono rfl

theorem touches_widenBus : Touches .command widenBus :=
  .bind (.get' _) fun _ => ((touches_sendAppCommand _ _ _).mono rfl).bind fun _ =>
    (touches_reconfigure _).mono rfl

theorem touches_highSpeed : Touches .command highSpeed :=
  touches_datPort.bind fun _ => ((touches_executeCommand _ _ _).mono rfl).bind fun _ =>
    ((touches_receiveOther rfl).mono rfl).bind fun _ => (touches_reconfigure _).mono rfl

theorem touches_readOcr : Touches .command readOcr :=
  ((touches_executeCommand _ _ _).mono rfl).bind fun _ => (touches_respByte _).bind fun b =>
    touches_session fun ss => { ss with highCapacity := ocrHighCapacity b }

theorem touches_stopStream : Touches .command stopStream :=
  touches_datPort.bind fun _ => ((touches_executeCommand _ _ _).attempt.mono rfl).bind fun _ =>
    (touches_session fun ss => { ss with mode := .none }).bind fun _ => (Touches.rethrow _).bind fun _ =>
    touches_waitNotBusy.mono rfl

theorem touches_openStream (m : AccessMode) (idx : BitVec 6) (arg last : Word) :
    Touches .command (openStream m idx arg last) :=
  ((touches_executeCommand _ _ _).mono rfl).bind fun _ =>
    touches_session fun ss => { ss with mode := m, lastLba := last }

theorem touches_openAt (m : AccessMode) (idx : BitVec 6) (lba : Word) : Touches .command (openAt m idx lba) := by
  refine .bind (.get' _) fun _ => ?_
  split
  · exact .refuse _
  · exact touches_openStream _ _ _ _

theorem touches_openAtArg (m : AccessMode) (idx : BitVec 6) (arg : Word) :
    Touches .command (openAtArg m idx arg) := by
  refine .bind (.get' _) fun _ => ?_
  split
  · exact touches_openStream _ _ _ _
  · exact (touches_freshWord.mono rfl).bind fun _ => touches_openStream _ _ _ _

/-! ### Autodetection and dispatch -/

theorem touches_matchFamily (f : Family) : Touches .access (matchFamily f) :=
  .bind (.get' _) fun _ => (Touches.forEach (touches_regWrite _) _).bind fun _ => (touches_regRead _).bind fun _ =>
    .pure _

theorem touches_probeOne (f : Family) : Touches .bracket (probeOne f) := by
  refine (touches_acquireFor f).bind fun _ => ((touches_matchFamily f).attempt.mono rfl).bind fun r =>
    touches_releaseBus.bind fun _ => ?_
  cases r <;> exact .pure _

theorem touches_probeOp : Touches { Foot.bracket with ident := true, seq := true } probeOp := by
  have mark : ∀ q, Touches { Foot.bracket with ident := true, seq := true } (setProbeSeq q) := fun q =>
    .upd fun s => by constructor <;> simp
  have found : ∀ c : Option Family, Touches { Foot.bracket with ident := true, seq := true }
      (upd fun s => { s with cartType := c, probed := true }) := fun c => .upd fun s => by constructor <;> simp
  have loop : ∀ l i, Touches { Foot.bracket with ident := true, seq := true } (probeLoop l i) := by
    intro l
    induction l with
    | nil => exact fun _ => (found _).bind fun _ => (mark _).bind fun _ => .pure _
    | cons f l ih =>
      exact fun i => (mark _).bind fun _ => ((touches_probeOne f).mono rfl).bind fun _ =>
        .ite ((found _).bind fun _ => (mark _).bind fun _ => .pure _) (ih _)
  exact .bind (.get' _) fun _ => .ite (.get' _) (.bind (.get' _) fun _ => loop _ _)

theorem touches_dispatch {handler : Family → Op α} (hF : ({ Foot.bracket with ident := true, seq := true } : Foot).le F = true)
    (h : ∀ f, Touches F (handler f)) : Touches F (dispatch handler) :=
  (touches_probeOp.mono hF).bind fun c => by cases c <;> first | exact .raise _ | exact h _

/-! ### The card sequencer -/

theorem touches_setBringUpSeq (q : BringUpSeq) : Touches { seq := true } (setBringUpSeq q) :=
  .upd fun s => by constructor <;> simp

theorem touches_nativeBringUp : Touches .bringUp nativeBringUp := by
  have mark : ∀ q, Touches .bringUp (setBringUpSeq q) := fun q => (touches_setBringUpSeq q).mono rfl
  refine .bind (.get' _) fun _ => (mark _).bind fun _ => ((touches_executeCommand _ _ _).mono rfl).bind fun _ =>
    (mark _).bind fun _ => (touches_voltageCheck.mono rfl).bind fun _ =>
    (touches_pollReady rfl (fun _ => mark _) _).bind fun _ => (mark _).bind fun _ =>
    ((touches_executeCommand _ _ _).mono rfl).bind fun _ => (mark _).bind fun _ =>
    (touches_publishRca.mono rfl).bind fun _ => .bind (.onlyIf ?_) fun _ => (mark _).bind fun _ =>
    (touches_widenBus.mono rfl).bind fun _ => (mark _).bind fun _ => touches_highSpeed.mono rfl
  exact (mark _).bind fun _ => .bind (.get' _) fun _ => (touches_selectCard _).mono rfl

theorem touches_spiBringUp : Touches .bringUp spiBringUp := by
  have mark : ∀ q, Touches .bringUp (setBringUpSeq q) := fun q => (touches_setBringUpSeq q).mono rfl
  exact .bind (.get' _) fun _ => (mark _).bind fun _ => ((touches_executeCommand _ _ _).mono rfl).bind fun _ =>
    (touches_respByte _).bind fun _ => .ite ((mark _).bind fun _ => (touches_voltageCheck.mono rfl).bind fun _ =>
      (touches_pollReady rfl (fun _ => mark _) _).bind fun _ => (mark _).bind fun _ => touches_readOcr.mono rfl)
      (.raise _)

theorem touches_sessionUpd (f : Session → Session) : Touches .card (setSession f) :=
  (touches_session f).mono rfl

theorem touches_offloadBringUp : Touches .cart offloadBringUp :=
  .bind (.get' _) fun _ => (touches_cartCommand _ _ _).bind fun _ => .pure _

theorem touches_wireBringUp (wire : Wire) : Touches .bringUp (wireBringUp wire) := by
  refine (touches_portConfig.mono rfl).bind fun _ => ?_
  cases wire
  · exact touches_nativeBringUp
  · exact touches_spiBringUp

theorem touches_familyBringUp (q : FamilyParams) : Touches .card (familyBringUp q) :=
  .ite (touches_offloadBringUp.mono rfl) ((touches_wireBringUp _).mono rfl)

theorem touches_bringUp : Touches .card bringUp :=
  (touches_sessionUpd _).bind fun _ => touches_famParams.bind fun _ => (touches_familyBringUp _).bind fun _ =>
    (touches_sessionUpd _).bind fun _ => (touches_setBringUpSeq _).mono rfl

theorem touches_sessionDown : Touches .setting sessionDown := touches_setting _

theorem touches_failBringUp : Touches .card failBringUp :=
  ((touches_setBringUpSeq _).mono rfl).bind fun _ => (touches_resetPort.mono rfl).bind fun _ =>
    touches_sessionDown.mono rfl

theorem touches_runBringUp : Touches .card runBringUp :=
  (touches_bracketed rfl touches_failBringUp touches_bringUp).attempt.bind fun _ =>
    ((touches_setBringUpSeq _).mono rfl).bind fun _ => .rethrow _

theorem touches_cardInit : Touches .card cardInit :=
  touches_dispatch rfl fun _ => .bind (.get' _) fun _ => .ite touches_runBringUp
    ((touches_sessionDown.mono rfl).bind fun _ => .raise _)

theorem touches_bringUpAgain : Touches .card bringUpAgain := touches_dispatch rfl fun _ => touches_runBringUp

theorem touches_ensureMode (m : AccessMode) (lba : Word) : Touches .command (ensureMode m lba) :=
  .bind (.get' _) fun _ => .onlyIf (.bind (.onlyIf touches_stopStream) fun _ => touches_openAt _ _ _)

theorem touches_abortTransfer : Touches .card abortTransfer :=
  touches_famParams.bind fun _ => .bind (.get' _) fun _ => .bind
    (.onlyIf (touches_stopStream.bestEffort.mono rfl)) fun _ => (touches_sessionUpd _).bind fun _ =>
    touches_resetPort.mono rfl

theorem touches_countBlock : Touches .card countBlock :=
  touches_sessionUpd fun ss => { ss with lastLba := ss.lastLba + 1 }

theorem touches_readLoop (n dest : Nat) : Touches .card (readLoop n dest) := by
  induction n generalizing dest with
  | zero => exact .pure _
  | succ n ih => exact ((touches_receiveBlock _).mono rfl).bind fun _ => ((touches_moveToRam _).mono rfl).bind fun _ =>
      touches_countBlock.bind fun _ => ih _

theorem touches_writeLoop (n src : Nat) : Touches .card (writeLoop n src) := by
  induction n generalizing src with
  | zero => exact .pure _
  | succ n ih => exact ((touches_moveFromRam _).mono rfl).bind fun _ => .bind (.get' _) fun _ =>
      ((touches_sendBlock _).mono rfl).bind fun _ => touches_countBlock.bind fun _ => ih _

theorem touches_offloadReadLoop (buf : Word) (n : Nat) (lba : Word) (dest : Nat) :
    Touches .card (offloadReadLoop buf n lba dest) := by
  induction n generalizing lba dest with
  | zero => exact .pure _
  | succ n ih => exact ((touches_cartCommand _ _ _).mono rfl).bind fun _ =>
      ((touches_cartCommand _ _ _).mono rfl).bind fun _ => ((touches_moveToRam _).mono rfl).bind fun _ => ih _ _

theorem touches_offloadWriteLoop (buf : Word) (n : Nat) (lba : Word) (src : Nat) :
    Touches .card (offloadWriteLoop buf n lba src) := by
  induction n generalizing lba src with
  | zero => exact .pure _
  | succ n ih => exact ((touches_moveFromRam _).mono rfl).bind fun _ =>
      ((touches_cartCommand _ _ _).mono rfl).bind fun _ => ((touches_cartCommand _ _ _).mono rfl).bind fun _ => ih _ _

theorem touches_nativeTransfer (lba : Word) {body : Op Unit} (h : Touches .card body) :
    Touches .card (nativeTransfer lba body) := by
  refine .bind (.get' _) fun _ => ?_
  split
  · exact .refuse _
  · exact touches_bracketed rfl touches_abortTransfer h

theorem touches_transferBody (p : Params) (f : Family) (buf lba count : Word) {offloaded : Word → Op Unit}
    {native : Op Unit} (ho : ∀ w, Touches .card (offloaded w)) (hn : Touches .card native) :
    Touches .card (transferBody p f buf lba count offloaded native) := by
  unfold transferBody
  split
  · exact .refuse _
  · exact .ite (touches_bracketed rfl touches_abortTransfer (touches_swapTransfer rfl (ho _)))
      (.ite (.refuse _) (touches_nativeTransfer lba hn))

theorem touches_transfer (buf lba count : Word) {offloaded : Word → Op Unit} {native : Op Unit}
    (ho : ∀ w, Touches .card (offloaded w)) (hn : Touches .card native) :
    Touches .card (transfer buf lba count offloaded native) :=
  touches_dispatch rfl fun f => .bind (.get' _) fun p => .bind (.get' _) fun _ =>
    .ite (touches_transferBody p f buf lba count ho hn) (.raise _)

theorem touches_cardRead (dest lba count : Word) : Touches .card (cardRead dest lba count) :=
  touches_transfer _ _ _ (fun _ => touches_offloadReadLoop _ _ _ _)
    (((touches_ensureMode _ _).mono rfl).bind fun _ => touches_swapTransfer rfl (touches_readLoop _ _))

theorem touches_cardWrite (src lba count : Word) : Touches .card (cardWrite src lba count) :=
  touches_transfer _ _ _ (fun _ => touches_offloadWriteLoop _ _ _ _)
    (((touches_ensureMode _ _).mono rfl).bind fun _ => touches_swapTransfer rfl (touches_writeLoop _ _))

theorem touches_cardStop : Touches { Foot.command with bus := true } cardStop :=
  .bind (.get' _) fun _ => .onlyIf (touches_bracketed rfl (.pure _) (touches_stopStream.mono rfl))

/-! ### The transport contract -/

theorem touches_setInitDone (v : Bool) : Touches { init := true } (setInitDone v) :=
  .upd fun s => by constructor <;> simp

theorem touches_putDown : Touches .contract putDown :=
  ((touches_sessionUpd _).mono rfl).bind fun _ => (touches_setInitDone _).mono rfl

theorem touches_initBody (f : Family) : Touches .contract (initBody f) := by
  refine touches_putDown.bind fun _ => ((touches_matchFamily f).mono rfl).bind fun _ => .ite ?_ (.raise _)
  exact touches_famParams.bind fun _ => .bind (.onlyIf (touches_resetPort.mono rfl)) fun _ =>
    .bind (.forEach (fun _ => ((touches_cartCommand _ _ _).mono rfl).bind fun _ => .pure _) _) fun _ =>
    (touches_setInitDone _).mono rfl

theorem touches_initOp : Touches .contract initOp :=
  touches_dispatch rfl fun f => .bind (touches_bracketed rfl (.pure _) (touches_initBody f)) fun _ => .get' _

theorem touches_exitBody (f : Family) : Touches .contract (exitBody f) :=
  .bind (.get' _) fun _ => .bind (.onlyIf ((touches_swapDrive _).mono rfl)) fun _ =>
    .bind (.get' _) fun _ => ((touches_regWrite _ _).mono rfl).bind fun _ => touches_putDown

theorem touches_exitOp : Touches .contract exitOp :=
  touches_dispatch rfl fun f => .bind (.get' _) fun _ => .bind
    (.onlyIf (touches_cardStop.bestEffort.mono rfl)) fun _ => touches_bracketed rfl touches_putDown (touches_exitBody f)

theorem touches_setByteswap (on : Bool) : Touches { Foot.cart with bus := true } (setByteswap on) :=
  touches_bracketed rfl (.pure _) (touches_famParams.bind fun _ =>
    .ite (((touches_swapDrive _).bestEffort.mono rfl).bind fun _ => .upd fun s => by constructor <;> simp [Foot.cart])
      (.refuse _))

/-! ### The adapter -/

theorem touches_setNoinit (drive : Byte) (v : Bool) : Touches { disk := true } (setNoinit drive v) :=
  .upd fun s => by constructor <;> simp

theorem touches_diskInitialize (drive : Byte) : Touches .all (diskInitialize drive) := by
  have flag : ∀ v, Touches .all (setNoinit drive v) := fun v => (touches_setNoinit drive v).mono rfl
  refine .bind (.get' _) fun _ => .ite (.pure _) (.ite (.pure _) (.ite ((flag _).bind fun _ => .pure _)
    ((touches_bringUpAgain.attempt.mono rfl).bind fun r => ?_)))
  cases r <;> exact (flag _).bind fun _ => .pure _

theorem touches_diskTransfer (drive : Byte) (lba count : Word) {op : Op Unit} (h : Touches .all op) :
    Touches .all (diskTransfer drive lba count op) := by
  refine .bind (.get' _) fun _ => ?_
  split
  · exact .pure _
  · refine h.attempt.bind fun r => ?_
    split
    · exact .pure _
    · exact ((touches_setNoinit drive true).mono rfl).bind fun _ => .pure _
    · exact .pure _

theorem touches_bindOp (drive : Byte) : Touches { disk := true } (bindOp drive) :=
  .bind (.get' _) fun _ => .ite (.raise _) (.ite (.pure _) (.ite (.raise _) (.ite (.raise _)
    (.upd fun s => by constructor <;> simp))))

/-! ### Host operations -/

/-- An operation that writes nothing outside a footprint leaves, as a step, all but that and the result as it was. -/
theorem runHost_sameOn {x : Op HostResult} (h : Touches F x) {s t : State} (hx : runHost x s = .next t) :
    ∃ u, SameOn F s u ∧ t = { u with result := t.result } := by
  unfold runHost at hx
  split at hx
  · rename_i r u hr; cases hx; exact ⟨u, h.of_ok hr, rfl⟩
  · rename_i c u hr; cases hx; exact ⟨u, h.of_error hr, rfl⟩
  · cases hx
  · cases hx

end Sys2Proof.Machine
end

