-- ==== Sys2Proof/Laws/Quiet.lean ====
section
/-! SUPPORT. Runs in an environment that answers at once. `Went f F e out s t` says what a run of a bracket of family `f`
did: it wrote nothing outside the footprint `F`, left the environment's other answers as `e`, sent the bytes `out` on the
command line, and left an environment that still answers at once. -/

namespace Sys2Proof.Machine

variable {α β : Type} {f : Family} {F G : Foot} {s t u : State} {e e' : Env} {out out' : List Sent}

/-! ### Reading footprints -/

theorem SameOn.cfg (h : SameOn F s t) : t.cfg = s.cfg := h.fixed.1
theorem SameOn.owner (h : SameOn F s t) (hF : F.bus = false) : t.busOwner = s.busOwner := (h.bus hF).2.2.2

theorem SameOn.session (h : SameOn F s t) (hF : F.sess = false) : t.sess = { s.sess with bitlen := t.sess.bitlen } := by
  have := h.sess hF
  cases ht : t.sess
  cases hs : s.sess
  rw [ht, hs] at this
  simp only [Session.mk.injEq] at this ⊢
  simp_all

theorem SameOn.session_eq (h : SameOn F s t) (hF : F.sess = false) (hl : F.line = false) : t.sess = s.sess := by
  rw [h.session hF, h.line hl]

/-! ### The relation -/

theorem Went.refl (F : Foot) (hq : Quiet s f) : Went f F s.env.core [] s s :=
  ⟨.refl F s, rfl, (List.append_nil _).symm, hq⟩

theorem Went.trans (h : Went f F e out s t) (k : Went f F e' out' t u) : Went f F e' (out ++ out') s u :=
  ⟨h.same.trans k.same, k.env, by rw [k.sent, h.sent, List.append_assoc], k.quiet⟩

/-- Two runs that send nothing, the first leaving the environment's other answers alone. -/
theorem Went.andThen (h : Went f F s.env.core [] s t) (k : Went f F t.env.core [] t u) : Went f F s.env.core [] s u :=
  ⟨h.same.trans k.same, k.env.trans h.env, by rw [k.sent, h.sent, List.append_nil], k.quiet⟩

theorem Went.mono (h : Went f F e out s t) (hle : F.le G = true) : Went f G e out s t :=
  ⟨h.same.mono hle, h.env, h.sent, h.quiet⟩

theorem Went.cfg (h : Went f F e out s t) : t.cfg = s.cfg := h.same.cfg

@[simp] theorem sent_cons_other {ev : Event} (h : List Event) (hev : ev.sends = none) : sent (ev :: h) = sent h := by
  simp [sent, hev]

@[simp] theorem sent_cons_cmdTx (b : Byte) (h : List Event) : sent (.cmdTx b :: h) = sent h ++ [.cmd b] := by
  simp [sent, Event.sends]

@[simp] theorem sent_cons_datTx (d : TxData) (h : List Event) : sent (.datTx d :: h) = sent h ++ [.dat d] := by
  simp [sent, Event.sends]

theorem Quiet.caps (hq : Quiet s f) : positiveCaps (s.cfg.fam f).waits := hq.2.1

/-- Each register of the family has an address. -/
theorem Quiet.regs (hq : Quiet s f) : regsFit f (s.cfg.fam f) = true := hq.2.2

/-- A change that leaves parameters, environment and history alone leaves a quiet state quiet. -/
theorem Quiet.of_env (hq : Quiet s f) (hc : t.cfg = s.cfg) (he : t.env = s.env) : Quiet t f := by
  unfold Quiet at *
  rwa [hc, he]

/-- A change within a footprint that takes no answer and records nothing. -/
theorem Went.of_same (hq : Quiet s f) (h : SameOn F s t) (he : t.env = s.env) (hh : t.hist = s.hist) :
    Went f F s.env.core [] s t :=
  ⟨h, by rw [he], by rw [hh, List.append_nil], hq.of_env h.cfg he⟩

/-! ### Answers of a stream -/

/-- Taking an answer from a stream that lists some, all with a property. -/
theorem draw_listed {get : Env → List α} {put : List α → Env → Env} {free : Nat → α} {P : α → Prop}
    (hput : ∀ e, put (get e) e = e) (hne : get s.env ≠ []) (hP : ∀ x ∈ get s.env, P x) :
    ∃ x l, P x ∧ l ≠ [] ∧ (∀ y ∈ l, P y) ∧ draw get put free s = .ok x { s with env := put l s.env } := by
  unfold draw
  split
  · contradiction
  · rename_i x hx
    refine ⟨x, [x], hP x (by simp [hx]), by simp, by simpa [hx] using hP, ?_⟩
    rw [← hx, hput]
  · rename_i x y l hx
    exact ⟨x, y :: l, hP x (by simp [hx]), by simp, fun z hz => hP z (by simp [hx]; right; simpa using hz), rfl⟩

/-- Taking the head of a stream that lists more. -/
theorem draw_head {get : Env → List α} {put : List α → Env → Env} {free : Nat → α} {x : α} {l : List α}
    (h : get s.env = x :: l) (hl : l ≠ []) : draw get put free s = .ok x { s with env := put l s.env } := by
  obtain ⟨y, m, rfl⟩ := List.exists_cons_of_ne_nil hl
  simp [draw, h]

theorem nextCmdBit_head {b : Bool} {l : List Bool} (h : s.env.cmdLine = b :: l) (hl : l ≠ []) :
    nextCmdBit s = .ok b { s with env := { s.env with cmdLine := l } } := draw_head h hl

theorem nextNibble_head {n : Nibble} {l : List Nibble} (h : s.env.datLine = n :: l) (hl : l ≠ []) :
    nextNibble s = .ok n { s with env := { s.env with datLine := l } } := draw_head h hl

theorem nextWord_head {w : Word} {l : List Word} (h : s.env.words = w :: l) (hl : l ≠ []) :
    nextWord s = .ok w { s with env := { s.env with words := l } } := draw_head h hl

/-- A PI sample in a quiet environment is idle. -/
theorem nextPi_quiet (hq : Quiet s f) : ∃ p t, nextPi s = .ok p t ∧ p.dmaBusy = false ∧ p.ioBusy = false ∧
    Went f .access s.env.core [] s t ∧ t.hist = s.hist := by
  obtain ⟨⟨⟨hne, hp⟩, hst⟩, hw⟩ := hq
  obtain ⟨p, l, hpp, hl, hall, hrun⟩ := draw_listed (get := Env.pi) (put := fun l e => { e with pi := l })
    (free := Config.freePi) (fun _ => rfl) hne hp
  exact ⟨p, _, hrun, hpp.1, hpp.2, ⟨touches_nextPi.of_ok hrun, rfl, by simp, ⟨⟨⟨hl, hall⟩, hst⟩, hw⟩⟩, rfl⟩

/-- A value of `STATUS` in a quiet environment says neither busy nor error. -/
theorem nextStatus_quiet (hq : Quiet s f) : ∃ w t, nextStatus s = .ok w t ∧ statusBusy (s.cfg.fam f) w = false ∧
    statusError (s.cfg.fam f) w = false ∧ Went f .access s.env.core [] s t ∧ t.hist = s.hist := by
  obtain ⟨⟨hp, ⟨hne, hst⟩⟩, hw⟩ := hq
  obtain ⟨w, l, hww, hl, hall, hrun⟩ := draw_listed (get := Env.status) (put := fun l e => { e with status := l })
    (free := Config.freeWord) (fun _ => rfl) hne hst
  exact ⟨w, _, hrun, hww.1, hww.2, ⟨touches_nextStatus.of_ok hrun, rfl, by simp, ⟨⟨hp, ⟨hl, hall⟩⟩, hw⟩⟩, rfl⟩

/-- A counter of polls, of free values and other bookkeeping: what `access` may change without taking an answer. -/
theorem Went.count (hq : Quiet s f) (n : Nat) : Went f .access s.env.core [] s { s with spinCount := n } :=
  .of_same hq (by constructor <;> simp [Foot.access]) rfl rfl

theorem Went.emit (hq : Quiet s f) (ev : Event) (hev : ev.sends = none) :
    Went f .access s.env.core [] s { s with hist := ev :: s.hist } :=
  ⟨by constructor <;> simp [Foot.access], rfl, by simp [hev], hq⟩

/-! ### Waits, registers -/

theorem piWaitIdle_quiet (hq : Quiet s f) : ∃ t, piWaitIdle f s = .ok () t ∧ Went f .access s.env.core [] s t ∧
    t.hist = s.hist := by
  obtain ⟨n, hn⟩ := Nat.exists_eq_succ_of_ne_zero (Nat.pos_iff_ne_zero.mp hq.caps.2.2.2.2.2)
  obtain ⟨p, t, hrun, hd, hi, hw, hh⟩ := nextPi_quiet (Went.count hq (n + 1)).quiet
  refine ⟨t, ?_, (Went.count hq (n + 1)).trans hw, hh⟩
  have hpoll : pollPiIdle { s with spinCount := n + 1 } = .ok (some ()) t := by
    simp [pollPiIdle, bind_ok hrun, hd, hi]
  simp only [piWaitIdle, get'_bind, hn]
  exact spinOn_now hpoll

theorem busFamily_run (hb : s.busOwner = .cart f) : busFamily s = .ok f s := by
  simp [busFamily, hb]

theorem famParams_run (hb : s.busOwner = .cart f) : famParams s = .ok (s.cfg.fam f) s := by
  simp [famParams, bind_ok (busFamily_run hb)]

/-- The address of a register that has one (R7). -/
theorem regAt_run (hb : s.busOwner = .cart f) (hf : regsFit f (s.cfg.fam f) = true) (r : Reg) :
    regAt r s = .ok (regAddr s.cfg f r) s := by
  have hr : regFits f ((s.cfg.fam f).off.of r) = true := List.all_eq_true.mp hf r (by cases r <;> simp [allRegs])
  simp [regAt, bind_ok (busFamily_run hb), hr]

/-- A register write in a quiet environment writes that register, once, and completes (R187). -/
theorem regWrite_quiet (hb : s.busOwner = .cart f) (hq : Quiet s f) (r : Reg) (v : Word) :
    ∃ t, regWrite r v s = .ok () t ∧ Went f .access s.env.core [] s t ∧
      t.hist = .regWrite (regAddr s.cfg f r) v :: s.hist := by
  obtain ⟨n, hn⟩ := Nat.exists_eq_succ_of_ne_zero (Nat.pos_iff_ne_zero.mp hq.caps.2.2.2.2.2)
  have he := Went.emit hq (.regWrite (regAddr s.cfg f r) v) rfl
  have hc := he.trans (Went.count he.quiet (n + 1))
  obtain ⟨p, t, hrun, hd, hi, hw, hh⟩ := nextPi_quiet hc.quiet
  refine ⟨t, ?_, hc.trans hw, hh⟩
  have hpoll : pollPiWritten { s with hist := .regWrite (regAddr s.cfg f r) v :: s.hist, spinCount := n + 1 } =
      .ok (some ()) t := by
    simp only [pollPiWritten, bind_ok hrun]
    simp [hi]
  simp only [regWrite, bind_ok (regAt_run hb hq.regs r), emit_bind,
    bind_ok (famParams_run (s := { s with hist := .regWrite (regAddr s.cfg f r) v :: s.hist }) hb), hn]
  exact spinOn_now (s := { s with hist := .regWrite (regAddr s.cfg f r) v :: s.hist }) hpoll

/-- A wait for the cartridge in a quiet environment ends with its first poll (R195). -/
theorem waitStatus_quiet (hb : s.busOwner = .cart f) (hq : Quiet s f) {n : Nat} (hn : 0 < n) :
    ∃ w t, spinOn pollStatus n s = .ok w t ∧ statusError (s.cfg.fam f) w = false ∧
      Went f .access s.env.core [] s t ∧ t.hist = .regRead (regAddr s.cfg f .status) w :: s.hist := by
  obtain ⟨n, rfl⟩ := Nat.exists_eq_succ_of_ne_zero (Nat.pos_iff_ne_zero.mp hn)
  have hc := Went.count hq (n + 1)
  obtain ⟨w, t, hrun, hbusy, herr, hw, hh⟩ := nextStatus_quiet hc.quiet
  have hbt : t.busOwner = .cart f := (hw.same.owner rfl).trans hb
  have ht := hw.trans (Went.emit hw.quiet (.regRead (regAddr t.cfg f .status) w) rfl)
  rw [hw.env] at ht
  refine ⟨w, _, ?_, herr, hc.trans ht, ?_⟩
  · have hread : regRead .status { s with spinCount := n + 1 } =
        .ok w { t with hist := .regRead (regAddr t.cfg f .status) w :: t.hist } := by
      simp only [regRead, bind_ok (regAt_run (s := { s with spinCount := n + 1 }) hb hq.regs _), nextRegValue,
        bind_ok hrun, emit_bind, pure_run, hw.cfg]
    refine spinOn_now ?_
    simp only [pollStatus, bind_ok (famParams_run (s := { s with spinCount := n + 1 }) hb), bind_ok hread]
    simp [hbusy]
  · simp only [hw.cfg, hh]

/-- A register read takes the next answer of its source and records it (R186). -/
theorem regRead_run (hb : s.busOwner = .cart f) (hf : regsFit f (s.cfg.fam f) = true) {r : Reg} {v : Word}
    (hn : nextRegValue r s = .ok v t) :
    regRead r s = .ok v { t with hist := .regRead (regAddr s.cfg f r) v :: t.hist } := by
  simp only [regRead, bind_ok (regAt_run hb hf r), bind_ok hn, emit_bind, pure_run]

end Sys2Proof.Machine
end

