-- ==== Sys2Proof/Laws/Bus.lean ====
section
/-! SUPPORT. The bus bracket: what an acquire and a release do in every environment, and what a bracketed operation does
in one that answers at once (47_bus_dma.md R235 to R240). -/

namespace Sys2Proof.Machine

variable {α β : Type} {f : Family} {F G : Foot} {s t u : State} {e : Env} {out : List Sent}

/-! ### Samples of the PI status -/

theorem nextPi_total (s : State) : ∃ p t, nextPi s = .ok p t ∧ t.hist = s.hist := by
  unfold nextPi draw
  split <;> exact ⟨_, _, rfl, rfl⟩

/-- A wait on the PI controller ends in a value or in a timeout, and records nothing (R239). -/
theorem piSpin_total {poll : Op (Option Unit)} (hpoll : ∀ s, ∃ r t, poll s = .ok r t ∧ t.hist = s.hist) (n : Nat)
    (s : State) : ∃ t, t.hist = s.hist ∧ (spinOn poll n s = .ok () t ∨ spinOn poll n s = .error (.cause .timeout) t) := by
  induction n generalizing s with
  | zero => exact ⟨s, rfl, .inr rfl⟩
  | succ n ih =>
    obtain ⟨r, t, hrun, hh⟩ := hpoll { s with spinCount := n + 1 }
    cases r with
    | some a => exact ⟨t, hh, .inl (spinOn_now hrun)⟩
    | none =>
      obtain ⟨u, hu, hres⟩ := ih { t with spinCount := n }
      rw [spinOn_later hrun]
      exact ⟨u, hu.trans hh, hres⟩

theorem pollPiIdle_total (s : State) : ∃ r t, pollPiIdle s = .ok r t ∧ t.hist = s.hist := by
  obtain ⟨p, t, hrun, hh⟩ := nextPi_total s
  exact ⟨if p.dmaBusy || p.ioBusy then none else some (), t, by simp only [pollPiIdle, bind_ok hrun, pure_run], hh⟩

/-- The wait of an acquire or a release, its own outcome ignored (60_exceptions.md R271). -/
theorem quietenPi (f : Family) (s : State) : ∃ t, bestEffort (piWaitIdle f) s = .ok () t ∧ SameOn .access s t ∧
    t.hist = s.hist ∧ (Quiet s f → t.env.core = s.env.core ∧ Quiet t f) := by
  obtain ⟨t, hh, hrun⟩ := piSpin_total pollPiIdle_total (s.cfg.fam f).waits.pi s
  have hwait : piWaitIdle f s = .ok () t ∨ piWaitIdle f s = .error (.cause .timeout) t := by
    simpa only [piWaitIdle, get'_bind] using hrun
  have hq : Quiet s f → t.env.core = s.env.core ∧ Quiet t f := fun hq => by
    obtain ⟨t', hrun', hw, -⟩ := piWaitIdle_quiet hq
    rcases hwait with h | h <;> rw [h] at hrun' <;> cases hrun'
    exact ⟨hw.env, hw.quiet⟩
  rcases hwait with h | h
  · exact ⟨t, bestEffort_ok h, (touches_piWaitIdle f).of_ok h, hh, hq⟩
  · exact ⟨t, bestEffort_cause h, (touches_piWaitIdle f).of_error h, hh, hq⟩

/-! ### Acquire and release -/

/-- What an acquire for a family did. -/
structure Acquired (f : Family) (s t : State) : Prop where
  same : SameOn .bracket s t
  owner : t.busOwner = .cart f
  dom : t.piDom = (s.cfg.fam f).cartCfg
  saved : t.nativeSaved = true
  native : t.nativeCfg = captured s
  hist : t.hist = (cfgEvents (s.cfg.fam f).cartCfg).reverse ++ s.hist
  quiet : Quiet s f → Went f .bracket s.env.core [] s t

theorem sent_cfgEvents (c : BusConfig) (h : List Event) : sent ((cfgEvents c).reverse ++ h) = sent h := by
  have : (cfgEvents c).reverse.filterMap Event.sends = [] := rfl
  simp only [sent, List.filterMap_append, this, List.nil_append]

/-- An acquire from the native bus always succeeds (R237, W1). -/
theorem acquireFor_run (f : Family) (hb : s.busOwner = .native) : ∃ t, acquireFor f s = .ok () t ∧ Acquired f s t := by
  obtain ⟨t, hrun, hsame, hh, hq⟩ := quietenPi f s
  have hbt : t.nativeSaved = s.nativeSaved ∧ t.nativeCfg = s.nativeCfg ∧ t.piDom = s.piDom :=
    ⟨(hsame.bus rfl).2.2.1, (hsame.bus rfl).2.1, (hsame.bus rfl).1⟩
  have hcfg := hsame.cfg
  have heq : acquireFor f s = .ok () { t with
      nativeCfg := captured s, nativeSaved := true, piDom := (s.cfg.fam f).cartCfg, busOwner := .cart f,
      hist := (cfgEvents (s.cfg.fam f).cartCfg).reverse ++ s.hist } := by
    simp only [acquireFor, get'_bind, hb, bind_ok hrun, captureNative, upd_bind, applyConfig, upd_run, captured, hbt,
      hcfg]
    by_cases hsv : s.nativeSaved = true
    · simp only [hsv, if_true, hcfg, hh, ← hbt.2.1]
      congr 1
      cases t; simp_all
    · simp only [hsv, if_false, hh, Bool.false_eq_true]
  have hs : SameOn .bracket s _ := (touches_acquireFor f).of_ok heq
  refine ⟨_, heq, hs, rfl, rfl, rfl, rfl, rfl, fun hquiet => ⟨hs, (hq hquiet).1, ?_, ?_⟩⟩
  · simp [sent_cfgEvents]
  · exact (hq hquiet).2.of_env rfl rfl

/-- What a release did. -/
structure Released (f : Family) (s t : State) : Prop where
  same : SameOn .bracket s t
  owner : t.busOwner = .native
  dom : t.piDom = s.nativeCfg
  saved : t.nativeSaved = true
  native : t.nativeCfg = s.nativeCfg
  hist : t.hist = (cfgEvents s.nativeCfg).reverse ++ s.hist
  quiet : Quiet s f → Went f .bracket s.env.core [] s t

/-- A release inside a bracket always succeeds (R236). -/
theorem releaseBus_run (hb : s.busOwner = .cart f) (hn : s.nativeSaved = true) :
    ∃ t, releaseBus s = .ok () t ∧ Released f s t := by
  obtain ⟨t, hrun, hsame, hh, hq⟩ := quietenPi f s
  have hbt := hsame.bus rfl
  have heq : releaseBus s = .ok () { t with
      piDom := s.nativeCfg, busOwner := .native, hist := (cfgEvents s.nativeCfg).reverse ++ s.hist } := by
    simp only [releaseBus, get'_bind, hb, hn, if_true, bind_ok hrun, hbt, applyConfig, upd_bind, upd_run, hh]
  have hs : SameOn .bracket s _ := touches_releaseBus.of_ok heq
  refine ⟨_, heq, hs, rfl, rfl, hbt.2.2.1.trans hn, hbt.2.1, rfl, fun hquiet => ⟨hs, (hq hquiet).1, ?_, ?_⟩⟩
  · simp [sent_cfgEvents]
  · exact (hq hquiet).2.of_env rfl rfl

/-! ### Brackets -/

/-- A bracket whose body ends in a value (R179, R240). -/
theorem bracketed_ok {clean : Op Unit} {body : Op α} {a : α} (hc : s.cartType = some f) (hb : s.busOwner = .native)
    (hbody : ∀ t, Acquired f s t → ∃ u, body t = .ok a u ∧ SameOn F t u) (hF : F.bus = false) :
    ∃ t u v, Acquired f s t ∧ body t = .ok a u ∧ Released f u v ∧ Restored s v ∧ bracketed clean body s = .ok a v := by
  obtain ⟨t, hacq, ht⟩ := acquireFor_run f hb
  obtain ⟨u, hrun, hsame⟩ := hbody t ht
  obtain ⟨p, n, sv, ow⟩ := hsame.bus hF
  obtain ⟨v, hrel, hv⟩ := releaseBus_run (ow.trans ht.owner) (sv.trans ht.saved)
  refine ⟨t, u, v, ht, hrun, hv, ⟨hv.owner, hv.saved, ?_, ?_⟩, ?_⟩
  · rw [hv.native, n, ht.native]
  · rw [hv.dom, n, ht.native]
  · have : acquireBus s = .ok () t := by simp only [acquireBus, get'_bind, hc, hacq]
    simp only [bracketed, bind_ok this, bind_ok (attempt_ok hrun), bind_ok hrel, pure_run]

/-- A bracket whose body ends in a cause: the clean-up, the release, the cause (R180, R270). -/
theorem bracketed_cause {clean : Op Unit} {body : Op α} {c : Cause} (hc : s.cartType = some f)
    (hb : s.busOwner = .native)
    (hbody : ∀ t, Acquired f s t → ∃ u w, body t = .error (.cause c) u ∧ SameOn F t u ∧ clean u = .ok () w ∧ SameOn F u w)
    (hF : F.bus = false) :
    ∃ t u w v, Acquired f s t ∧ body t = .error (.cause c) u ∧ clean u = .ok () w ∧ Released f w v ∧ Restored s v ∧
      bracketed clean body s = .error (.cause c) v := by
  obtain ⟨t, hacq, ht⟩ := acquireFor_run f hb
  obtain ⟨u, w, hrun, hsame, hclean, hsame'⟩ := hbody t ht
  obtain ⟨p, n, sv, ow⟩ := (hsame.trans hsame').bus hF
  obtain ⟨v, hrel, hv⟩ := releaseBus_run (ow.trans ht.owner) (sv.trans ht.saved)
  refine ⟨t, u, w, v, ht, hrun, hclean, hv, ⟨hv.owner, hv.saved, ?_, ?_⟩, ?_⟩
  · rw [hv.native, n, ht.native]
  · rw [hv.dom, n, ht.native]
  · have : acquireBus s = .ok () t := by simp only [acquireBus, get'_bind, hc, hacq]
    simp only [bracketed, bind_ok this, bind_ok (attempt_cause hrun), errorExit, bind_ok hclean, bind_ok hrel, raise_run]

/-- A bracket in an environment that answers at once. -/
theorem bracketed_quiet {clean : Op Unit} {body : Op α} {a : α} (hc : s.cartType = some f) (hb : s.busOwner = .native)
    (hq : Quiet s f) (hF : F.bus = false) (hbF : Foot.bracket.le G = true) (hFG : F.le G = true)
    (hbody : ∀ t, Acquired f s t → Went f .bracket s.env.core [] s t → ∃ u, body t = .ok a u ∧ Went f F e out t u) :
    ∃ t u v, Acquired f s t ∧ body t = .ok a u ∧ Released f u v ∧ Restored s v ∧ bracketed clean body s = .ok a v ∧
      Went f F e out t u ∧ Went f G e out s v := by
  obtain ⟨t, u, v, ht, hrun, hv, hres, hall⟩ := bracketed_ok (clean := clean) hc hb
    (fun t ht => by
      obtain ⟨u, hrun, hw⟩ := hbody t ht (ht.quiet hq)
      exact ⟨u, hrun, hw.same⟩) hF
  obtain ⟨u', hrun', hw⟩ := hbody t ht (ht.quiet hq)
  rw [hrun] at hrun'
  cases hrun'
  refine ⟨t, u, v, ht, hrun, hv, hres, hall, hw, ?_⟩
  have := ((ht.quiet hq).mono hbF).trans ((hw.mono hFG).trans ((hv.quiet hw.quiet).mono hbF))
  rw [hw.env] at this
  simpa using this

/-- A bracket whose body fails, in an environment that answers at once. -/
theorem bracketed_fails {clean : Op Unit} {body : Op α} {c : Cause} (hc : s.cartType = some f) (hb : s.busOwner = .native)
    (hq : Quiet s f) (hF : F.bus = false) (hbF : Foot.bracket.le G = true) (hFG : F.le G = true)
    (hbody : ∀ t, Acquired f s t → Went f .bracket s.env.core [] s t → ∃ u w, body t = .error (.cause c) u ∧
      Went f F e out t u ∧ clean u = .ok () w ∧ Went f F e [] u w) :
    ∃ t u w v, Acquired f s t ∧ body t = .error (.cause c) u ∧ clean u = .ok () w ∧ Released f w v ∧ Restored s v ∧
      bracketed clean body s = .error (.cause c) v ∧ Went f G e out s v := by
  obtain ⟨t, u, w, v, ht, hrun, hclean, hv, hres, hall⟩ := bracketed_cause (F := F) (clean := clean) (c := c) hc hb
    (fun t ht => by
      obtain ⟨u, w, hrun, hu, hclean, hw⟩ := hbody t ht (ht.quiet hq)
      exact ⟨u, w, hrun, hu.same, hclean, hw.same⟩) hF
  obtain ⟨u', w', hrun', hu, hclean', hw⟩ := hbody t ht (ht.quiet hq)
  rw [hrun] at hrun'
  cases hrun'
  rw [hclean] at hclean'
  cases hclean'
  refine ⟨t, u, w, v, ht, hrun, hclean, hv, hres, hall, ?_⟩
  have := ((ht.quiet hq).mono hbF).trans ((hu.mono hFG).trans ((hw.mono hFG).trans ((hv.quiet hw.quiet).mono hbF)))
  rw [hw.env] at this
  simpa using this

end Sys2Proof.Machine
end

