-- ==== Sys2Proof/Laws/Engine.lean ====
section
/-! SUPPORT. The command engine in an environment that answers at once: each operation once, up to what one command does
when the card answers it and when the card stays silent (41_command_engine.md R115 to R123). -/

namespace Sys2Proof.Machine

variable {α β : Type} {f : Family} {F G : Foot} {s t u : State} {e : Env} {out : List Sent}

theorem OnPort.went (h : OnPort s f) (w : Went f F e out s t) (hF : F.bus = false) : OnPort t f :=
  ⟨(w.same.owner hF).trans h.owner, by rw [w.cfg]; exact h.bitLevel, w.quiet⟩

theorem sdPort_run (h : OnPort s f) : sdPort s = .ok (s.cfg.fam f) s := by
  simp [sdPort, bind_ok (famParams_run h.owner), h.bitLevel]

theorem onlyIf_true {c : Bool} (hc : c = true) (x : Op Unit) : onlyIf c x s = x s := by simp [onlyIf, hc]
theorem onlyIf_false {c : Bool} (hc : c = false) (x : Op Unit) : onlyIf c x s = .ok () s := by simp [onlyIf, hc]

/-- Something done under a condition, by cases. -/
theorem onlyIf_quiet {c : Bool} {x : Op Unit} (hq : Quiet s f)
    (h : c = true → ∃ t, x s = .ok () t ∧ Went f F s.env.core [] s t) :
    ∃ t, onlyIf c x s = .ok () t ∧ Went f F s.env.core [] s t := by
  cases c with
  | true => exact h rfl
  | false => exact ⟨s, onlyIf_false rfl x, .refl F hq⟩

theorem portConfig_wrote (h : OnPort s f) : ∃ t, portConfig s = .ok () t ∧ Went f .access s.env.core [] s t ∧
    t.hist = .regWrite (regAddr s.cfg f .sdCfg) (sdCfgWord (s.cfg.fam f) s.sess.busWidth s.sess.speed s.sess.bitlen ||| 0) ::
      s.hist := by
  obtain ⟨t, hrun, hw⟩ := regWrite_quiet h.owner h.quiet .sdCfg
    (sdCfgWord (s.cfg.fam f) s.sess.busWidth s.sess.speed s.sess.bitlen ||| 0)
  exact ⟨t, by simp only [portConfig, writeSdCfg, bind_ok (sdPort_run h), get'_bind, hrun], hw⟩

theorem portConfig_quiet (h : OnPort s f) : ∃ t, portConfig s = .ok () t ∧ Went f .access s.env.core [] s t := by
  obtain ⟨t, hrun, hw, -⟩ := portConfig_wrote h
  exact ⟨t, hrun, hw⟩

/-- `port_config` with changed settings, and the session takes them (R193). -/
theorem reconfigure_quiet (h : OnPort s f) (g : Session → Session) : ∃ t, reconfigure g s = .ok () { t with sess := g s.sess } ∧
    Went f .access s.env.core [] s t ∧ t.sess = s.sess ∧
    t.hist = .regWrite (regAddr s.cfg f .sdCfg)
      (sdCfgWord (s.cfg.fam f) (g s.sess).busWidth (g s.sess).speed (g s.sess).bitlen) :: s.hist := by
  obtain ⟨t, hrun, hw, hh⟩ := regWrite_quiet h.owner h.quiet .sdCfg
    (sdCfgWord (s.cfg.fam f) (g s.sess).busWidth (g s.sess).speed (g s.sess).bitlen)
  have hs : t.sess = s.sess := hw.same.session_eq rfl rfl
  exact ⟨t, by simp only [reconfigure, bind_ok (sdPort_run h), get'_bind, bind_ok hrun, setSession, upd_run, hs], hw, hs, hh⟩

theorem setBitLen_quiet (h : OnPort s f) (len : BitLen) : ∃ t, setBitLen len s = .ok () t ∧
    Went f .clocked s.env.core [] s t ∧ t.sess.bitlen = len := by
  have hs : Went f .clocked s.env.core [] s { s with sess := { s.sess with bitlen := len } } :=
    .of_same h.quiet (by constructor <;> simp [Foot.clocked]) rfl rfl
  obtain ⟨t, hrun, hw⟩ := onlyIf_quiet (c := (s.cfg.fam f).portLevel && s.sess.bitlen != len) hs.quiet
    fun _ => portConfig_quiet (h.went hs rfl)
  refine ⟨t, ?_, hs.trans (hw.mono rfl), hw.same.line rfl⟩
  simp only [setBitLen, bind_ok (sdPort_run h), get'_bind, setSession, upd_bind]
  exact hrun

theorem portWrite_quiet (h : OnPort s f) (r : Reg) (v : Word) :
    ∃ t, portWrite r v s = .ok () t ∧ Went f .access s.env.core [] s t := by
  obtain ⟨t, hrun, hw⟩ := onlyIf_quiet (c := (s.cfg.fam f).portLevel) (F := .access)
      (x := do regWrite r v; let _ ← spinOn pollStatus (s.cfg.fam f).waits.port) h.quiet fun _ => by
    obtain ⟨t, hrun, hw, -⟩ := regWrite_quiet h.owner h.quiet r v
    have ht := h.went hw rfl
    obtain ⟨w, u, hwait, -, hu, -⟩ := waitStatus_quiet ht.owner ht.quiet (n := (s.cfg.fam f).waits.port) h.quiet.caps.1
    refine ⟨u, by simp only [bind_ok hrun, bind_ok hwait, pure_run], ?_⟩
    have := hw.trans hu
    rwa [hw.env] at this
  exact ⟨t, by simpa only [portWrite, bind_ok (sdPort_run h)] using hrun, hw⟩

theorem portRead_quiet (h : OnPort s f) (r : Reg) (mask v : Word) :
    ∃ t, portRead r mask v s = .ok () t ∧ Went f .access s.env.core [] s t := by
  obtain ⟨t, hrun, hw⟩ := onlyIf_quiet (c := (s.cfg.fam f).portLevel) (F := .access)
      (x := do
        let a ← regAt r
        let w ← freshWord
        emit (.regRead a ((w &&& ~~~mask) ||| (v &&& mask)))) h.quiet fun _ => by
    simp only [bind_ok (regAt_run h.owner h.quiet.regs r), freshWord_bind, emit_run]
    exact ⟨_, rfl, by constructor <;> simp [Foot.access], rfl, by rw [sent_cons_other _ rfl, List.append_nil], h.quiet⟩
  exact ⟨t, by simpa only [portRead, bind_ok (sdPort_run h)] using hrun, hw⟩

/-- One byte sent (R116). -/
theorem cmdTx_quiet (h : OnPort s f) (b : Byte) :
    ∃ t, cmdTx b s = .ok () t ∧ Went f .access s.env.core [.cmd b] s t := by
  have he : Went f .access s.env.core [.cmd b] s { s with hist := .cmdTx b :: s.hist } :=
    ⟨by constructor <;> simp [Foot.access], rfl, by simp, h.quiet⟩
  obtain ⟨t, hrun, hw⟩ := portWrite_quiet (h.went he rfl) .sdCmd (b.zeroExtend 32)
  exact ⟨t, by simp only [cmdTx, bind_ok (sdPort_run h), emit_bind, hrun], he.trans hw⟩

/-- Bytes sent, in order. -/
theorem cmdTx_all_quiet (h : OnPort s f) (l : List Byte) :
    ∃ t, forEach cmdTx l s = .ok () t ∧ Went f .access s.env.core (l.map .cmd) s t := by
  induction l generalizing s with
  | nil => exact ⟨s, rfl, .refl _ h.quiet⟩
  | cons b l ih =>
    obtain ⟨t, hrun, hw⟩ := cmdTx_quiet h b
    obtain ⟨u, hall, hu⟩ := ih (h.went hw rfl)
    refine ⟨u, by rw [forEach_cons_ok hrun, hall], ?_⟩
    have := hw.trans hu
    rwa [hw.env] at this

/-- A line that shows `b` and then at least one bit more. -/
theorem cmdRxBit_quiet (h : OnPort s f) {b : Bool} {l : List Bool} (hl : s.env.core.cmdLine = b :: l) (hne : l ≠ []) :
    ∃ t, cmdRxBit s = .ok b t ∧ Went f .access { s.env.core with cmdLine := l } [] s t := by
  obtain ⟨t, hw1, ht⟩ := portWrite_quiet h .sdCmd 0xFF
  have hline : t.env.cmdLine = b :: l := by
    have : t.env.core.cmdLine = b :: l := by rw [ht.env]; exact hl
    exact this
  have hbit := nextCmdBit_head hline hne
  have hu : Went f .access { s.env.core with cmdLine := l } [] t { t with env := { t.env with cmdLine := l } } :=
    ⟨touches_nextCmdBit.of_ok hbit, by rw [← ht.env]; rfl, (List.append_nil _).symm, ht.quiet⟩
  obtain ⟨v, hr, hv⟩ := portRead_quiet ((h.went ht rfl).went hu rfl) .sdCmd 1 (if b then 1 else 0)
  refine ⟨{ v with hist := .cmdRxBit b :: v.hist }, ?_, ?_⟩
  · simp only [cmdRxBit, bind_ok (sdPort_run h), bind_ok hw1, bind_ok hbit, bind_ok hr, emit_bind, pure_run]
  · have he := hv.trans (Went.emit hv.quiet (.cmdRxBit b) rfl)
    have := ht.trans (hu.trans he)
    rw [hv.env] at this
    rw [← hu.env]
    exact this

/-- The bits a line shows before at least one more, one operation a bit. -/
theorem many_cmdRxBit_quiet (h : OnPort s f) (bits : List Bool) {l : List Bool}
    (hl : s.env.core.cmdLine = bits ++ l) (hne : l ≠ []) :
    ∃ t, many cmdRxBit bits.length s = .ok bits t ∧ Went f .access { s.env.core with cmdLine := l } [] s t := by
  induction bits generalizing s with
  | nil =>
    refine ⟨s, rfl, ?_⟩
    have : ({ s.env.core with cmdLine := l } : Env) = s.env.core := by rw [← show s.env.core.cmdLine = l from hl]
    rw [this]
    exact .refl _ h.quiet
  | cons b bits ih =>
    obtain ⟨t, hb, ht⟩ := cmdRxBit_quiet h (l := bits ++ l) (by simpa using hl) (by simp [hne])
    obtain ⟨u, hall, hu⟩ := ih (h.went ht rfl) (by rw [ht.env])
    refine ⟨u, many_succ_ok hb hall, ?_⟩
    have := ht.trans hu
    rwa [ht.env] at this

/-- The plain form: the answers of the line alone. -/
theorem many_nextCmdBit_head (bits : List Bool) {l : List Bool} (hl : s.env.cmdLine = bits ++ l) (hne : l ≠ []) :
    many nextCmdBit bits.length s = .ok bits { s with env := { s.env with cmdLine := l } } := by
  induction bits generalizing s with
  | nil =>
    have : s = { s with env := { s.env with cmdLine := l } } := by rw [← show s.env.cmdLine = l from hl]
    exact congrArg _ this
  | cons b bits ih =>
    have h1 := nextCmdBit_head (l := bits ++ l) hl (by simp [hne])
    exact many_succ_ok h1 (ih (s := { s with env := { s.env with cmdLine := bits ++ l } }) rfl)

/-- The bits of a byte, put together again, are the byte. -/
theorem byteOfBits_byteBits (b : Byte) : byteOfBits (byteBits b) = b := by
  revert b; decide +kernel

theorem byteBits_length (b : Byte) : (byteBits b).length = 8 := rfl

/-- One byte of the line (R119). -/
theorem cmdRx_quiet (h : OnPort s f) {b : Byte} {l : List Bool} (hl : s.env.core.cmdLine = byteBits b ++ l)
    (hne : l ≠ []) : ∃ t, cmdRx s = .ok b t ∧ Went f .access { s.env.core with cmdLine := l } [] s t := by
  obtain ⟨t, hw1, ht⟩ := portWrite_quiet h .sdCmd 0xFF
  have hline : t.env.cmdLine = byteBits b ++ l := by
    have : t.env.core.cmdLine = byteBits b ++ l := by rw [ht.env]; exact hl
    exact this
  have hbits : many nextCmdBit 8 t = .ok (byteBits b) { t with env := { t.env with cmdLine := l } } :=
    many_nextCmdBit_head (byteBits b) hline hne
  have hu : Went f .access { s.env.core with cmdLine := l } [] t { t with env := { t.env with cmdLine := l } } :=
    ⟨(touches_nextCmdBit.many 8).of_ok hbits, by rw [← ht.env]; rfl, (List.append_nil _).symm, ht.quiet⟩
  obtain ⟨v, hr, hv⟩ := portRead_quiet ((h.went ht rfl).went hu rfl) .sdCmd 0xFF (b.zeroExtend 32)
  refine ⟨{ v with hist := .cmdRx b :: v.hist }, ?_, ?_⟩
  · simp only [cmdRx, bind_ok (sdPort_run h), bind_ok hw1, bind_ok hbits, byteOfBits_byteBits, bind_ok hr, emit_bind,
      pure_run]
  · have he := hv.trans (Went.emit hv.quiet (.cmdRx b) rfl)
    have := ht.trans (hu.trans he)
    rw [hv.env] at this
    rw [← hu.env]
    exact this

/-- Bytes of the line. -/
theorem many_cmdRx_quiet (h : OnPort s f) (bytes : List Byte) {l : List Bool}
    (hl : s.env.core.cmdLine = bytes.flatMap byteBits ++ l) (hne : l ≠ []) :
    ∃ t, many cmdRx bytes.length s = .ok bytes t ∧ Went f .access { s.env.core with cmdLine := l } [] s t := by
  induction bytes generalizing s with
  | nil =>
    refine ⟨s, rfl, ?_⟩
    have : ({ s.env.core with cmdLine := l } : Env) = s.env.core := by rw [← show s.env.core.cmdLine = l from hl]
    rw [this]
    exact .refl _ h.quiet
  | cons b bytes ih =>
    obtain ⟨t, hb, ht⟩ := cmdRx_quiet h (l := bytes.flatMap byteBits ++ l) (by simpa using hl) (by simp [hne])
    obtain ⟨u, hall, hu⟩ := ih (h.went ht rfl) (by rw [ht.env])
    refine ⟨u, many_succ_ok hb hall, ?_⟩
    have := ht.trans hu
    rwa [ht.env] at this

/-! ### The start-bit hunt -/

/-- The hunt passes over the idle bits and ends at the first 0, if that comes in time (R118). -/
theorem hunt_found (h : OnPort s f) (idle : Nat) {n : Nat} (hn : idle < n) {l : List Bool}
    (hl : s.env.core.cmdLine = List.replicate idle true ++ false :: l) (hne : l ≠ []) :
    ∃ t, spinOn pollStartBit n s = .ok () t ∧ Went f .access { s.env.core with cmdLine := l } [] s t := by
  induction idle generalizing s n with
  | zero =>
    obtain ⟨n, rfl⟩ := Nat.exists_eq_succ_of_ne_zero (Nat.pos_iff_ne_zero.mp hn)
    have hc := Went.count h.quiet (n + 1)
    obtain ⟨t, hb, ht⟩ := cmdRxBit_quiet (h.went hc rfl) (b := false) (l := l) (by simpa using hl) hne
    refine ⟨t, spinOn_now ?_, hc.trans ht⟩
    simp only [pollStartBit, bind_ok hb]
    rfl
  | succ idle ih =>
    obtain ⟨n, rfl⟩ := Nat.exists_eq_succ_of_ne_zero (Nat.pos_iff_ne_zero.mp (Nat.zero_lt_of_lt hn))
    have hc := Went.count h.quiet (n + 1)
    obtain ⟨t, hb, ht⟩ := cmdRxBit_quiet (h.went hc rfl) (b := true)
      (l := List.replicate idle true ++ false :: l) (by simpa [List.replicate_succ] using hl) (by simp)
    have hd := Went.count ht.quiet n
    have htd := ht.trans hd
    rw [ht.env] at htd
    obtain ⟨u, hrun, hu⟩ := ih (s := { t with spinCount := n }) ((h.went hc rfl).went htd rfl)
      (Nat.lt_of_succ_lt_succ hn) (by rw [htd.env])
    refine ⟨u, ?_, ?_⟩
    · rw [spinOn_later (t := t), hrun]
      simp only [pollStartBit, bind_ok hb]
      rfl
    · have := hc.trans (htd.trans hu)
      rwa [htd.env] at this

/-- A line that stays high for every poll times the hunt out, after that many bits (R118, R124). -/
theorem hunt_silent (h : OnPort s f) (n : Nat) {l : List Bool}
    (hl : s.env.core.cmdLine = List.replicate n true ++ l) (hne : l ≠ []) :
    ∃ t, spinOn pollStartBit n s = .error (.cause .timeout) t ∧
      Went f .access { s.env.core with cmdLine := l } [] s t := by
  induction n generalizing s with
  | zero =>
    refine ⟨s, rfl, ?_⟩
    have : ({ s.env.core with cmdLine := l } : Env) = s.env.core := by rw [← show s.env.core.cmdLine = l from hl]
    rw [this]
    exact .refl _ h.quiet
  | succ n ih =>
    have hc := Went.count h.quiet (n + 1)
    obtain ⟨t, hb, ht⟩ := cmdRxBit_quiet (h.went hc rfl) (b := true)
      (l := List.replicate n true ++ l) (by simpa [List.replicate_succ] using hl) (by simp [hne])
    have hd := Went.count ht.quiet n
    have htd := ht.trans hd
    rw [ht.env] at htd
    obtain ⟨u, hrun, hu⟩ := ih (s := { t with spinCount := n }) ((h.went hc rfl).went htd rfl) (by rw [htd.env])
    refine ⟨u, ?_, ?_⟩
    · rw [spinOn_later (t := t), hrun]
      simp only [pollStartBit, bind_ok hb]
      rfl
    · have := hc.trans (htd.trans hu)
      rwa [htd.env] at this

/-- A body at the single-bit length: its result, at whole bytes again (R118). -/
theorem atSingleBit_ok (h : OnPort s f) {body : Op α} {a : α} {e' : Env} {out : List Sent}
    (hbody : ∀ t, Went f .clocked s.env.core [] s t → OnPort t f →
      ∃ u, body t = .ok a u ∧ Went f .clocked e' out t u) :
    ∃ t, atSingleBit body s = .ok a t ∧ Went f .clocked e' out s t ∧ t.sess.bitlen = .b8 := by
  obtain ⟨t, hset, ht, -⟩ := setBitLen_quiet h .b1
  obtain ⟨u, hrun, hu⟩ := hbody t ht (h.went ht rfl)
  obtain ⟨v, hback, hv, hlen⟩ := setBitLen_quiet ((h.went ht rfl).went hu rfl) .b8
  refine ⟨v, ?_, ?_, hlen⟩
  · have htry : attempt (setBitLen .b1 >>= fun _ => body) s = .ok (.ok a) u :=
      attempt_ok (by rw [bind_ok hset, hrun])
    simp only [atSingleBit, bind_ok htry, bind_ok hback, pure_run]
  · have := ht.trans (hu.trans hv)
    rw [hu.env] at this
    simpa using this

/-- A body that ends in a cause at the single-bit length hands it on, at whole bytes again. -/
theorem atSingleBit_cause (h : OnPort s f) {body : Op α} {c : Cause} {e' : Env}
    (hbody : ∀ t, Went f .clocked s.env.core [] s t → OnPort t f →
      ∃ u, body t = .error (.cause c) u ∧ Went f .clocked e' [] t u) :
    ∃ t, atSingleBit body s = .error (.cause c) t ∧ Went f .clocked e' [] s t ∧ t.sess.bitlen = .b8 := by
  obtain ⟨t, hset, ht, -⟩ := setBitLen_quiet h .b1
  obtain ⟨u, hrun, hu⟩ := hbody t ht (h.went ht rfl)
  obtain ⟨v, hback, hv, hlen⟩ := setBitLen_quiet ((h.went ht rfl).went hu rfl) .b8
  refine ⟨v, ?_, ?_, hlen⟩
  · have htry : attempt (setBitLen .b1 >>= fun _ => body) s = .ok (.error c) u :=
      attempt_cause (by rw [bind_ok hset, hrun])
    simp only [atSingleBit, bind_ok htry, bind_ok (bestEffort_ok hback), raise_run]
  · have := ht.trans (hu.trans hv)
    rw [hu.env] at this
    simpa using this

/-! ### One command -/

/-- The bits of an answer that begins with a 0 bit. -/
theorem byteBits_start {b : Byte} (h : b.getLsbD 7 = false) : byteBits b = false :: (byteBits b).tail := by
  unfold byteBits; rw [h]; rfl

/-- Phases 3 and 4 collect the bytes the line shows after its idle bits (R118, R119). -/
theorem collectResponse_found (h : OnPort s f) {a : Answer} {n : Nat} (hn : a.idle < n) {b : Byte} {bs : List Byte}
    (ha : a.bytes = b :: bs) (hb : b.getLsbD 7 = false) {l : List Bool}
    (hl : s.env.core.cmdLine = a.wire ++ l) (hne : l ≠ []) :
    ∃ t, collectResponse n a.bytes.length s = .ok a.bytes t ∧
      Went f .clocked { s.env.core with cmdLine := l } [] s t ∧ t.sess.bitlen = .b8 := by
  have hrest : bs.flatMap byteBits ++ l ≠ [] := by simp [hne]
  obtain ⟨t, hfirst, ht, hlen⟩ := atSingleBit_ok (a := b) (e' := { s.env.core with cmdLine := bs.flatMap byteBits ++ l })
      (out := []) h (body := do
        spinOn pollStartBit n
        let bits ← many cmdRxBit 7
        pure (byteOfBits (false :: bits))) fun t ht hp => by
    obtain ⟨u, hhunt, hu⟩ := hunt_found hp a.idle hn (l := (byteBits b).tail ++ (bs.flatMap byteBits ++ l))
      (by rw [ht.env, hl, Answer.wire, ha, List.flatMap_cons, byteBits_start hb]; simp) (by simp [byteBits])
    obtain ⟨v, hbits, hv⟩ := many_cmdRxBit_quiet (hp.went hu rfl) (byteBits b).tail
      (l := bs.flatMap byteBits ++ l) (by rw [hu.env]) hrest
    refine ⟨v, ?_, ?_⟩
    · have h7 : many cmdRxBit 7 u = .ok (byteBits b).tail v := hbits
      simp only [bind_ok hhunt, bind_ok h7, ← byteBits_start hb, byteOfBits_byteBits, pure_run]
    · have := hu.trans hv
      rw [hu.env, ht.env] at this
      exact this.mono rfl
  obtain ⟨u, hall, hu⟩ := many_cmdRx_quiet (h.went ht rfl) bs (by rw [ht.env]) hne
  have hsame := hu.same.line rfl
  refine ⟨u, ?_, ?_, hsame.trans hlen⟩
  · have hcount : a.bytes.length - 1 = bs.length := by rw [ha]; rfl
    unfold collectResponse
    rw [bind_ok hfirst, hcount, bind_ok hall, ha, pure_run]
  · have := ht.trans (hu.mono (G := .clocked) rfl)
    rw [ht.env] at this
    exact this

/-- A silent card ends phase 3 in a timeout (R118). -/
theorem collectResponse_silent (h : OnPort s f) {n len : Nat} {l : List Bool}
    (hl : s.env.core.cmdLine = List.replicate n true ++ l) (hne : l ≠ []) :
    ∃ t, collectResponse n len s = .error (.cause .timeout) t ∧
      Went f .clocked { s.env.core with cmdLine := l } [] s t ∧ t.sess.bitlen = .b8 := by
  obtain ⟨t, hfirst, ht, hlen⟩ := atSingleBit_cause (c := .timeout) (e' := { s.env.core with cmdLine := l }) h (body := do
        spinOn pollStartBit n
        let bits ← many cmdRxBit 7
        pure (byteOfBits (false :: bits))) fun t ht hp => by
    obtain ⟨u, hhunt, hu⟩ := hunt_silent hp n (l := l) (by rw [ht.env, hl]) hne
    refine ⟨u, by rw [bind_error hhunt], ?_⟩
    rw [ht.env] at hu
    exact hu.mono rfl
  exact ⟨t, by unfold collectResponse; rw [bind_error hfirst], ht, hlen⟩

/-- Phase 1 sends the lead-in and the frame (R116). -/
theorem transmitFrame_quiet (h : OnPort s f) (leadin : Nat) (idx : BitVec 6) (arg : Word) :
    ∃ t, transmitFrame leadin idx arg s = .ok () t ∧
      Went f .exchange s.env.core ((List.replicate leadin 0xFF ++ frameBytes idx arg).map .cmd) s t ∧
      t.frame = frameBytes idx arg ∧ t.crc7Acc = frameCrc idx arg ∧ t.app = (idx == 55) ∧ t.sess.bitlen = .b8 := by
  have hs : Went f .exchange s.env.core [] s { s with frame := frameBytes idx arg, crc7Acc := frameCrc idx arg } :=
    .of_same h.quiet (by constructor <;> simp [Foot.exchange]) rfl rfl
  obtain ⟨t, hset, ht, hlen⟩ := setBitLen_quiet (h.went hs rfl) .b8
  have htp := (h.went hs rfl).went ht rfl
  obtain ⟨u, hlead, hu⟩ := cmdTx_all_quiet htp (List.replicate leadin 0xFF)
  obtain ⟨v, hsend, hv⟩ := cmdTx_all_quiet (htp.went hu rfl) (frameBytes idx arg)
  have hw : Went f .exchange v.env.core [] v { v with app := idx == 55 } :=
    .of_same hv.quiet (by constructor <;> simp [Foot.exchange]) rfl rfl
  have huv := hu.trans hv
  have htv := ht.trans (huv.mono (G := .clocked) rfl)
  refine ⟨{ v with app := idx == 55 }, ?_, ?_, ?_, ?_, rfl, ?_⟩
  · simp only [transmitFrame, upd_bind, bind_ok hset, bind_ok hlead, bind_ok hsend, upd_run]
  · have := hs.trans ((htv.mono (G := .exchange) rfl).trans hw)
    rw [hv.env, hu.env, ht.env] at this
    simpa using this
  · exact (htv.same.engine rfl).1
  · exact (htv.same.engine rfl).2.2.2
  · exact (huv.same.line rfl).trans hlen

/-- What a command leaves behind when it has run to its answer or its timeout: the frame it sent, the answer, the prefix
input for the next command, and whole bytes on the port. -/
structure Exchanged (f : Family) (e : Env) (out : List Sent) (idx : BitVec 6) (arg : Word) (resp : List Byte)
    (s t : State) : Prop where
  went : Went f .exchange e out s t
  frame : t.frame = frameBytes idx arg
  crc : t.crc7Acc = frameCrc idx arg
  app : t.app = (idx == 55)
  resp : t.resp = resp
  bytes : t.sess.bitlen = .b8

theorem nativeLength_pos {kind : SdKind} (h : kind.nativeLength ≠ 0) : kind ≠ .none := by
  rintro rfl; exact h rfl

/-- A command that is answered: what it sends and collects, and how it ends (R115 to R119, R122). -/
theorem executeCommand_answered (h : OnPort s f) {app : Bool} {idx : BitVec 6} {arg : Word} {kind : SdKind} {a : Answer}
    (hk : respKind idx app = some kind) (ha : a.fits s.cfg (s.cfg.fam f).wire idx kind) {l : List Bool}
    (hl : s.env.core.cmdLine = a.wire ++ l) (hne : l ≠ []) :
    ∃ t, Exchanged f { s.env.core with cmdLine := l } (commandSent s.cfg idx arg) idx arg a.bytes s t ∧
      executeCommand app idx arg s =
        if respLength (s.cfg.fam f).wire idx kind = 0 then .ok () t
        else match responseFault s.cfg (s.cfg.fam f).wire kind idx a.bytes with
          | some c => .error (.cause c) t
          | none => .ok () t := by
  obtain ⟨t, htx, ht, hframe, hcrc, happ, hlen⟩ := transmitFrame_quiet h s.cfg.nLeadin idx arg
  have htp := h.went ht rfl
  obtain ⟨hlen0, hfit⟩ := ha
  by_cases h0 : respLength (s.cfg.fam f).wire idx kind = 0
  · rw [if_pos h0] at hfit
    have hbytes : a.bytes = [] := List.eq_nil_of_length_eq_zero (hlen0.trans h0)
    have hline : s.env.core.cmdLine = l := by simpa [Answer.wire, hfit, hbytes] using hl
    have hr : Went f .exchange t.env.core [] t { t with resp := [] } :=
      .of_same ht.quiet (by constructor <;> simp [Foot.exchange]) rfl rfl
    obtain ⟨v, htrail, hv⟩ := cmdTx_all_quiet (htp.went hr rfl) (List.replicate s.cfg.nTrail 0xFF)
    have hve := hv.same.engine rfl
    refine ⟨v, ⟨?_, hve.1.trans hframe, hve.2.2.2.trans hcrc, hve.2.2.1.trans happ, ?_,
      (hv.same.line rfl).trans hlen⟩, ?_⟩
    · have := ht.trans (hr.trans (hv.mono (G := .exchange) rfl))
      rw [hr.env, ht.env] at this
      have hcore : ({ s.env.core with cmdLine := l } : Env) = s.env.core := by rw [← hline]
      rw [hcore]
      simpa [commandSent, frameSent] using this
    · rw [hve.2.1, hbytes]
    · rw [if_pos h0]
      simp only [executeCommand, bind_ok (sdPort_run h), get'_bind, hk, bind_ok htx, receiveResponse, if_pos h0, upd_bind,
        trailClocks, htrail]
  · rw [if_neg h0] at hfit
    obtain ⟨b, bs, hbytes⟩ := List.exists_cons_of_ne_nil (l := a.bytes) (by
      intro hnil; rw [hnil] at hlen0; exact h0 hlen0.symm)
    have hb : b.getLsbD 7 = false := by simpa [hbytes] using hfit.2
    obtain ⟨u, hcol, hu, hulen⟩ := collectResponse_found htp hfit.1 hbytes hb (by rw [ht.env]; exact hl) hne
    have hr : Went f .exchange u.env.core [] u { u with resp := a.bytes } :=
      .of_same hu.quiet (by constructor <;> simp [Foot.exchange]) rfl rfl
    obtain ⟨v, htrail, hv⟩ := cmdTx_all_quiet ((htp.went hu rfl).went hr rfl) (List.replicate s.cfg.nTrail 0xFF)
    have hve := hv.same.engine rfl
    have hue := hu.same.engine rfl
    refine ⟨v, ⟨?_, (hve.1.trans hue.1).trans hframe, (hve.2.2.2.trans hue.2.2.2).trans hcrc,
      (hve.2.2.1.trans hue.2.2.1).trans happ, hve.2.1, (hv.same.line rfl).trans hulen⟩, ?_⟩
    · have := ht.trans ((hu.mono (G := .exchange) rfl).trans (hr.trans (hv.mono (G := .exchange) rfl)))
      rw [hr.env, hu.env, ht.env] at this
      simpa [commandSent, frameSent] using this
    · rw [if_neg h0]
      have hcol' := attempt_ok hcol
      rw [hlen0] at hcol'
      simp only [executeCommand, bind_ok (sdPort_run h), get'_bind, hk, bind_ok htx, receiveResponse, if_neg h0,
        bind_ok hcol', upd_bind, trailClocks, bind_ok htrail]
      cases responseFault s.cfg (s.cfg.fam f).wire kind idx a.bytes <;> rfl

/-- A command whose answer is good completes (R115). -/
theorem executeCommand_good (h : OnPort s f) {app : Bool} {idx : BitVec 6} {arg : Word} {a : Answer}
    (ha : a.good s.cfg (s.cfg.fam f).wire app idx) {l : List Bool}
    (hl : s.env.core.cmdLine = a.wire ++ l) (hne : l ≠ []) :
    ∃ t, executeCommand app idx arg s = .ok () t ∧
      Exchanged f { s.env.core with cmdLine := l } (commandSent s.cfg idx arg) idx arg a.bytes s t := by
  obtain ⟨kind, hk, hfit, hok⟩ := ha
  obtain ⟨t, ht, hrun⟩ := executeCommand_answered h (arg := arg) hk hfit hl hne
  refine ⟨t, ?_, ht⟩
  rw [hrun, hok]
  split <;> rfl

/-- A command that awaits an answer times out when the card stays silent (R118). -/
theorem executeCommand_silent (h : OnPort s f) {app : Bool} {idx : BitVec 6} {arg : Word} {kind : SdKind}
    (hk : respKind idx app = some kind) (h0 : respLength (s.cfg.fam f).wire idx kind ≠ 0) {l : List Bool}
    (hl : s.env.core.cmdLine = List.replicate s.cfg.respSpinMax true ++ l) (hne : l ≠ []) :
    ∃ t, executeCommand app idx arg s = .error (.cause .timeout) t ∧
      Exchanged f { s.env.core with cmdLine := l } (frameSent s.cfg idx arg) idx arg []
        s t := by
  obtain ⟨t, htx, ht, hframe, hcrc, happ, hlen⟩ := transmitFrame_quiet h s.cfg.nLeadin idx arg
  obtain ⟨u, hcol, hu, hulen⟩ := collectResponse_silent (h.went ht rfl) (n := s.cfg.respSpinMax)
    (len := respLength (s.cfg.fam f).wire idx kind) (by rw [ht.env]; exact hl) hne
  have hr : Went f .exchange u.env.core [] u { u with resp := [] } :=
    .of_same hu.quiet (by constructor <;> simp [Foot.exchange]) rfl rfl
  have hue := hu.same.engine rfl
  refine ⟨{ u with resp := [] }, ?_, ⟨?_, hue.1.trans hframe, hue.2.2.2.trans hcrc, hue.2.2.1.trans happ, rfl, hulen⟩⟩
  · simp only [executeCommand, bind_ok (sdPort_run h), get'_bind, hk, bind_ok htx, receiveResponse, if_neg h0,
      bind_ok (attempt_cause hcol), upd_bind, raise_run]
  · have := ht.trans ((hu.mono (G := .exchange) rfl).trans hr)
    rw [hu.env, ht.env] at this
    simpa [frameSent] using this

end Sys2Proof.Machine
end

