-- ==== Sys2Proof/Laws/Every.lean ====
section
/-! SUPPORT. What every run of an operation keeps. `Every R x` says that the state a run of `x` ends in, by a value or by
a cause, stands in the relation `R` to the state it began in; a refused run has no next state and is not spoken of. One
lemma for each way operations are put together, for any relation that is reflexive and transitive. -/

namespace Sys2Proof.Machine

variable {α β : Type} {R S : State → State → Prop}

/-- Reflexive and transitive. -/
structure Order (R : State → State → Prop) : Prop where
  refl : ∀ s, R s s
  trans : ∀ {s t u}, R s t → R t u → R s u

/-- Keeping an invariant is such a relation. -/
theorem Order.keeps (I : State → Prop) : Order fun s t => I s → I t :=
  ⟨fun _ h => h, fun h k hs => k (h hs)⟩

/-- Keeping a part of the state as it is is such a relation. -/
theorem Order.same {γ : Type} (p : State → γ) : Order fun s t => p t = p s :=
  ⟨fun _ => rfl, fun h k => k.trans h⟩

def Every (R : State → State → Prop) (x : Op α) : Prop :=
  ∀ s, wp x (fun _ t => R s t) (fun e t => match e with | .cause _ => R s t | .refuse _ | .fault _ => True) s

namespace Every

theorem of_ok {x : Op α} (h : Every R x) {s t : State} {a : α} (hx : x s = .ok a t) : R s t :=
  wp_ok (Q := fun _ t => R s t) (h s) hx

theorem of_cause {x : Op α} (h : Every R x) {s t : State} {c : Cause} (hx : x s = .error (.cause c) t) : R s t :=
  wp_error (E := fun e t => match e with | .cause _ => R s t | .refuse _ | .fault _ => True) (h s) hx

theorem intro {x : Op α} (hok : ∀ s a t, x s = .ok a t → R s t) (herr : ∀ s c t, x s = .error (.cause c) t → R s t) :
    Every R x := fun s => wp_intro (fun a t h => hok s a t h) fun e t h => by
  cases e with
  | cause c => exact herr s c t h
  | refuse _ => trivial
  | fault _ => trivial

theorem mono {x : Op α} (h : Every R x) (hRS : ∀ s t, R s t → S s t) : Every S x :=
  intro (fun _ _ _ hx => hRS _ _ (h.of_ok hx)) fun _ _ _ hx => hRS _ _ (h.of_cause hx)

theorem refuse (r : Refusal) : Every R (Machine.refuse r : Op α) := fun _ => trivial
theorem faultWith (f : Fault) : Every R (Machine.faultWith f : Op α) := fun _ => trivial
theorem upd {f : State → State} (h : ∀ s, R s (f s)) : Every R (Machine.upd f) := fun s => h s

theorem pure (o : Order R) (a : α) : Every R (Pure.pure a : Op α) := fun s => o.refl s
theorem get' (o : Order R) (f : State → α) : Every R (Machine.get' f) := fun s => o.refl s
theorem raise (o : Order R) (c : Cause) : Every R (Machine.raise c : Op α) := fun s => o.refl s

theorem bind (o : Order R) {x : Op α} {k : α → Op β} (hx : Every R x) (hk : ∀ a, Every R (k a)) : Every R (x >>= k) := by
  refine intro (fun s b u h => ?_) fun s c u h => ?_
  · obtain ⟨a, t, h1, h2⟩ := bind_eq_ok.mp h
    exact o.trans (hx.of_ok h1) ((hk a).of_ok h2)
  · rcases bind_eq_error.mp h with h1 | ⟨a, t, h1, h2⟩
    · exact hx.of_cause h1
    · exact o.trans (hx.of_ok h1) ((hk a).of_cause h2)

theorem attempt {x : Op α} (hx : Every R x) : Every R (Machine.attempt x) := by
  refine intro (fun s r t h => ?_) fun s c t h => ?_
  · unfold Machine.attempt at h
    split at h <;> cases h
    · exact hx.of_ok (by assumption)
    · exact hx.of_cause (by assumption)
  · unfold Machine.attempt at h
    split at h <;> cases h

theorem bestEffort (o : Order R) {x : Op α} (hx : Every R x) : Every R (Machine.bestEffort x) :=
  bind o hx.attempt fun _ => pure o ()

theorem rethrow (o : Order R) (r : Except Cause α) : Every R (Machine.rethrow r) := by
  cases r
  · exact raise o _
  · exact pure o _

theorem ite {c : Prop} [Decidable c] {x y : Op α} (hx : Every R x) (hy : Every R y) : Every R (if c then x else y) := by
  split <;> assumption

theorem onlyIf (o : Order R) {c : Bool} {x : Op Unit} (h : Every R x) : Every R (Machine.onlyIf c x) := ite h (pure o _)

theorem many (o : Order R) {one : Op α} (h : Every R one) (n : Nat) : Every R (Machine.many one n) := by
  induction n with
  | zero => exact pure o _
  | succ n ih => exact bind o h fun _ => bind o ih fun _ => pure o _

theorem forEach (o : Order R) {act : α → Op Unit} (h : ∀ a, Every R (act a)) (l : List α) :
    Every R (Machine.forEach act l) := by
  induction l with
  | nil => exact pure o _
  | cons a l ih => exact bind o (h a) fun _ => ih

theorem spinOn (o : Order R) {poll : Op (Option α)} (hc : ∀ s n, R s { s with spinCount := n }) (h : Every R poll)
    (n : Nat) : Every R (Machine.spinOn poll n) := by
  induction n with
  | zero => exact raise o _
  | succ n ih =>
    refine bind o (upd fun s => hc s _) fun _ => bind o h fun r => ?_
    cases r with
    | some a => exact pure o _
    | none => exact bind o (upd fun s => hc s _) fun _ => ih

end Every

/-- A step keeps what its operation keeps, up to the result. -/
theorem runHost_every {x : Op HostResult} (h : Every R x) {s t : State} (hx : runHost x s = .next t) :
    ∃ u, R s u ∧ t = { u with result := t.result } := by
  unfold runHost at hx
  split at hx
  · rename_i r u hr; cases hx; exact ⟨u, h.of_ok hr, rfl⟩
  · rename_i c u hr; cases hx; exact ⟨u, h.of_cause hr, rfl⟩
  · cases hx
  · cases hx

/-! ### The cartridge's answers are taken only by reads of its status -/

/-- The cartridge's status answers are as they were. -/
def SameStatus (s t : State) : Prop := t.env.status = s.env.status

theorem piWaitIdle_status (f : Family) : Every SameStatus (piWaitIdle f) := by
  have o : Order SameStatus := .same fun s => s.env.status
  have pi : Every SameStatus nextPi := .intro
    (fun s a t h => by unfold nextPi draw at h; split at h <;> cases h <;> rfl)
    fun s c t h => by unfold nextPi draw at h; split at h <;> cases h
  exact .bind o (.get' o _) fun _ => .spinOn o (fun _ _ => rfl) (.bind o pi fun _ => .pure o _) _

theorem releaseBus_status : Every SameStatus releaseBus := by
  have o : Order SameStatus := .same fun s => s.env.status
  refine .bind o (.get' o _) fun w => ?_
  cases w with
  | native => exact .refuse _
  | cart g =>
    exact .bind o (.get' o _) fun b => .ite (.bind o ((piWaitIdle_status g).bestEffort o) fun _ => .bind o (.get' o _) fun _ =>
      .bind o (.upd fun _ => rfl) fun _ => .upd fun _ => rfl) (.faultWith _)

theorem acquireFor_status (f : Family) : Every SameStatus (acquireFor f) := by
  have o : Order SameStatus := .same fun s => s.env.status
  refine .bind o (.get' o _) fun w => ?_
  cases w with
  | native =>
    exact .bind o ((piWaitIdle_status f).bestEffort o) fun _ => .bind o (.upd fun s => by split <;> rfl) fun _ =>
      .bind o (.get' o _) fun _ => .bind o (.upd fun _ => rfl) fun _ => .upd fun _ => rfl
  | cart _ => exact .refuse _

theorem matchFamily_status (f : Family) : Every SameStatus (matchFamily f) := by
  have o : Order SameStatus := .same fun s => s.env.status
  have pi : Every SameStatus nextPi := .intro
    (fun s a t h => by unfold nextPi draw at h; split at h <;> cases h <;> rfl)
    fun s c t h => by unfold nextPi draw at h; split at h <;> cases h
  have id : Every SameStatus nextIdent := .intro
    (fun s a t h => by unfold nextIdent draw at h; split at h <;> cases h <;> rfl)
    fun s c t h => by unfold nextIdent draw at h; split at h <;> cases h
  have fam : Every SameStatus busFamily := .bind o (.get' o _) fun w => by
    cases w
    · exact .refuse _
    · exact .pure o _
  have at' : ∀ r, Every SameStatus (regAt r) := fun r => .bind o fam fun _ => .bind o (.get' o _) fun _ =>
    .ite (.pure o _) (.refuse _)
  have write : ∀ r v, Every SameStatus (regWrite r v) := fun r v => .bind o (at' r) fun _ =>
    .bind o (.upd fun _ => rfl) fun _ => .bind o (.bind o fam fun _ => .get' o _) fun _ => .spinOn o (fun _ _ => rfl) (.bind o pi fun _ => .pure o _) _
  exact .bind o (.get' o _) fun _ => .bind o (.forEach o (fun k => write .key k) _) fun _ =>
    .bind o (.bind o (at' _) fun _ => .bind o id fun _ => .bind o (.upd fun _ => rfl) fun _ => .pure o _) fun _ => .pure o _

theorem probeOne_status (f : Family) : Every SameStatus (probeOne f) := by
  have o : Order SameStatus := .same fun s => s.env.status
  refine .bind o (acquireFor_status f) fun _ => .bind o (matchFamily_status f).attempt fun r =>
    .bind o releaseBus_status fun _ => ?_
  cases r <;> exact .pure o _

end Sys2Proof.Machine
end

