-- ==== Sys2Proof/Laws/Cart.lean ====
section
/-! SUPPORT. The cartridge command channel and the byte swap in an environment that answers at once
(44_transport_handlers.md R195 to R200). -/

namespace Sys2Proof.Machine

variable {α β : Type} {f : Family} {F G : Foot} {s t u : State} {e e' : Env} {W W' : List (Word × Word)}
  {C C' : List (Byte × Word × Word)}

@[simp] theorem writes_cons (ev : Event) (h : List Event) :
    writes (ev :: h) = writes h ++ ev.written.toList := by
  cases hw : ev.written <;> simp [writes, hw]

@[simp] theorem commands_cons (ev : Event) (h : List Event) :
    commands (ev :: h) = commands h ++ ev.cartCommand.toList := by
  cases hw : ev.cartCommand <;> simp [commands, hw]

@[simp] theorem traffic_cons (ev : Event) (h : List Event) :
    traffic (ev :: h) = traffic h ++ ev.traffic.toList := by
  cases hw : ev.traffic <;> simp [traffic, hw]

theorem traffic_cfgEvents (c : BusConfig) (h : List Event) : traffic ((cfgEvents c).reverse ++ h) = traffic h := by
  have : (cfgEvents c).reverse.filterMap Event.traffic = [] := rfl
  simp only [traffic, List.filterMap_append, this, List.nil_append]

theorem commands_cfgEvents (c : BusConfig) (h : List Event) : commands ((cfgEvents c).reverse ++ h) = commands h := by
  have : (cfgEvents c).reverse.filterMap Event.cartCommand = [] := rfl
  simp only [commands, List.filterMap_append, this, List.nil_append]

theorem writes_cfgEvents (c : BusConfig) (h : List Event) : writes ((cfgEvents c).reverse ++ h) = writes h := by
  have : (cfgEvents c).reverse.filterMap Event.written = [] := rfl
  simp only [writes, List.filterMap_append, this, List.nil_append]

/-- A run that sent nothing on the command line and moved no sector, with the register writes and the cartridge commands it
made. -/
structure Drove (f : Family) (F : Foot) (e : Env) (W : List (Word × Word)) (C : List (Byte × Word × Word))
    (s t : State) : Prop where
  went : Went f F e [] s t
  wrote : writes t.hist = writes s.hist ++ W
  issued : commands t.hist = commands s.hist ++ C
  moved : traffic t.hist = traffic s.hist ++ C.map .command

theorem Drove.refl (F : Foot) (hq : Quiet s f) : Drove f F s.env.core [] [] s s :=
  ⟨.refl F hq, by simp, by simp, by simp⟩

theorem Drove.trans (h : Drove f F e W C s t) (k : Drove f F e' W' C' t u) :
    Drove f F e' (W ++ W') (C ++ C') s u :=
  ⟨h.went.trans k.went, by rw [k.wrote, h.wrote, List.append_assoc], by rw [k.issued, h.issued, List.append_assoc],
    by rw [k.moved, h.moved, List.map_append, List.append_assoc]⟩

theorem Drove.mono (h : Drove f F e W C s t) (hle : F.le G = true) : Drove f G e W C s t :=
  ⟨h.went.mono hle, h.wrote, h.issued, h.moved⟩

theorem Drove.owner (h : Drove f F e W C s t) (hF : F.bus = false) (hb : s.busOwner = .cart f) : t.busOwner = .cart f :=
  (h.went.same.owner hF).trans hb

theorem Drove.cfg (h : Drove f F e W C s t) : t.cfg = s.cfg := h.went.cfg

/-- A run that records nothing. -/
theorem Drove.silent (h : Went f F e [] s t) (hh : t.hist = s.hist) : Drove f F e [] [] s t :=
  ⟨h, by simp [hh], by simp [hh], by simp [hh]⟩

theorem regWrite_drove (hb : s.busOwner = .cart f) (hq : Quiet s f) (r : Reg) (v : Word) :
    ∃ t, regWrite r v s = .ok () t ∧ Drove f .access s.env.core [(regAddr s.cfg f r, v)] [] s t := by
  obtain ⟨t, hrun, hw, hh⟩ := regWrite_quiet hb hq r v
  exact ⟨t, hrun, hw, by simp [hh, Event.written], by simp [hh, Event.cartCommand], by simp [hh, Event.traffic]⟩

theorem waitStatus_drove (hb : s.busOwner = .cart f) (hq : Quiet s f) {n : Nat} (hn : 0 < n) :
    ∃ w t, spinOn pollStatus n s = .ok w t ∧ statusError (s.cfg.fam f) w = false ∧
      Drove f .access s.env.core [] [] s t := by
  obtain ⟨w, t, hrun, herr, hw, hh⟩ := waitStatus_quiet hb hq hn
  exact ⟨w, t, hrun, herr, hw, by simp [hh, Event.written], by simp [hh, Event.cartCommand],
    by simp [hh, Event.traffic]⟩

/-- A read of a result word takes the next word. -/
theorem readWord_drove (hb : s.busOwner = .cart f) (hq : Quiet s f) {r : Reg} (hr : nextRegValue r = nextWord)
    {v : Word} {l : List Word} (hl : s.env.core.words = v :: l) (hne : l ≠ []) :
    ∃ t, regRead r s = .ok v t ∧ Drove f .access { s.env.core with words := l } [] [] s t := by
  have hn : nextRegValue r s = .ok v { s with env := { s.env with words := l } } := by
    rw [hr]; exact nextWord_head hl hne
  have hrun := regRead_run hb hq.regs hn
  refine ⟨_, hrun, ⟨(touches_regRead r).of_ok hrun, rfl, ?_, ?_⟩, ?_, ?_, ?_⟩
  · exact (sent_cons_other _ rfl).trans (List.append_nil _).symm
  · exact hq
  · exact writes_cons _ _
  · exact commands_cons _ _
  · exact traffic_cons _ _

/-- Bytes of an offloaded read. -/
theorem many_nextSectorByte_head (bs : List Byte) {l : List Byte} (hl : s.env.sector = bs ++ l) (hne : bs = [] ∨ l ≠ []) :
    many nextSectorByte bs.length s = .ok bs { s with env := { s.env with sector := l } } := by
  induction bs generalizing s with
  | nil =>
    have : s = { s with env := { s.env with sector := l } } := by rw [← show s.env.sector = l from hl]
    exact congrArg _ this
  | cons b bs ih =>
    have hne' : l ≠ [] := by simpa using hne
    have h1 : nextSectorByte s = .ok b { s with env := { s.env with sector := bs ++ l } } :=
      draw_head hl (by simp [hne'])
    exact many_succ_ok h1 (ih (s := { s with env := { s.env with sector := bs ++ l } }) rfl (.inr hne'))

/-- What an 's' brings lands in the buffer (R178). -/
theorem cartSideEffect_quiet (hb : s.busOwner = .cart f) (hq : Quiet s f) (code : Byte) (a0 a1 : Word)
    {bs sec : List Byte} (hs : s.env.core.sector = bs ++ sec) (hsec : bs = [] ∨ sec ≠ [])
    (hlen : bs.length = broughtBytes (s.cfg.fam f) code a0 a1) :
    ∃ t, cartSideEffect code a0 a1 s = .ok () t ∧
      Drove f { Foot.access with buffer := true } { s.env.core with sector := sec } [] [] s t ∧
      t.cb = bufferAfter (s.cfg.fam f) s.byteswap code a0 bs s.cb := by
  by_cases hc : (code == 0x73) = true
  · have hlen' : bs.length = readCount (s.cfg.fam f) a0 a1 := by simpa only [broughtBytes, hc, if_true] using hlen
    have hmany := many_nextSectorByte_head bs (s := s) hs hsec
    rw [hlen'] at hmany
    have hrun : cartSideEffect code a0 a1 s = .ok () { s with
        env := { s.env with sector := sec },
        cb := s.cb.writeBytes (readOffset (s.cfg.fam f) a0) (if s.byteswap then swapPairs bs else bs) } := by
      simp only [cartSideEffect, bind_ok (famParams_run hb), onlyIf_true hc, bind_ok hmany, placeInBuffer, upd_run]
    refine ⟨_, hrun, .silent ⟨(touches_cartSideEffect _ _ _).of_ok hrun, rfl, (List.append_nil _).symm, hq⟩ rfl, ?_⟩
    simp only [bufferAfter, hc, if_true]
  · have hc' : (code == 0x73) = false := by simpa using hc
    have hbs : bs = [] := by
      have : bs.length = 0 := by simpa only [broughtBytes, hc', Bool.false_eq_true, if_false] using hlen
      exact List.eq_nil_of_length_eq_zero this
    subst hbs
    have hcore : ({ s.env.core with sector := sec } : Env) = s.env.core := by rw [← show s.env.core.sector = sec from hs]
    refine ⟨s, ?_, ?_, ?_⟩
    · simp only [cartSideEffect, bind_ok (famParams_run hb), onlyIf_false hc']
    · rw [hcore]; exact .refl _ hq
    · simp only [bufferAfter, hc', Bool.false_eq_true, if_false]

/-- What follows once a command is issued: its answer, and the bytes 's' brings (R195). -/
theorem cartAnswer_quiet (hb : s.busOwner = .cart f) (hq : Quiet s f) (code : Byte) (a0 a1 : Word) {r0 r1 : Word}
    {ws : List Word} (hw : s.env.core.words = r0 :: r1 :: ws) (hne : ws ≠ []) {bs sec : List Byte}
    (hs : s.env.core.sector = bs ++ sec) (hsec : bs = [] ∨ sec ≠ [])
    (hlen : bs.length = broughtBytes (s.cfg.fam f) code a0 a1) :
    ∃ t, cartAnswer code a0 a1 s = .ok (r0, r1) t ∧
      Drove f { Foot.access with buffer := true } { s.env.core with words := ws, sector := sec } [] [] s t ∧
      t.cb = bufferAfter (s.cfg.fam f) s.byteswap code a0 bs s.cb := by
  obtain ⟨s6, hr6, hd6, hcb6⟩ := cartSideEffect_quiet hb hq code a0 a1 hs hsec hlen
  have hb6 := hd6.owner rfl hb
  obtain ⟨w, s7, hr7, herr, hd7⟩ := waitStatus_drove hb6 hd6.went.quiet hd6.went.quiet.caps.2.1
  obtain ⟨s8, hr8, hd8⟩ := readWord_drove (hd7.owner rfl hb6) hd7.went.quiet (r := .arg0) rfl (v := r0) (l := r1 :: ws)
    (by rw [hd7.went.env, hd6.went.env]; exact hw) (by simp)
  have hd78 := hd7.trans hd8
  obtain ⟨s9, hr9, hd9⟩ := readWord_drove (hd78.owner rfl hb6) hd8.went.quiet (r := .arg1) rfl (v := r1) (l := ws)
    (by rw [hd8.went.env]) hne
  have hd79 := hd78.trans hd9
  have hfin : cartFinish s6 = .ok (r0, r1) s9 := by
    simp only [cartFinish, bind_ok (famParams_run hb6), bind_ok hr7, herr, Bool.false_eq_true, if_false, bind_ok hr8,
      bind_ok hr9, pure_run]
  refine ⟨s9, by simp only [cartAnswer, bind_ok hr6, hfin], ?_, (hd79.went.same.buffer rfl).trans hcb6⟩
  have := hd6.trans (hd79.mono (G := { Foot.access with buffer := true }) rfl)
  rw [hd8.went.env, hd7.went.env, hd6.went.env] at this
  simpa using this

/-- What follows once a command is issued loses no event of the history. -/
theorem cartAnswer_records {code : Byte} {a0 a1 : Word} :
    Every (fun s t : State => ∀ ev ∈ s.hist, ev ∈ t.hist) (cartAnswer code a0 a1) := by
  have o : Order fun s t : State => ∀ ev ∈ s.hist, ev ∈ t.hist := ⟨fun _ _ h => h, fun h k ev hs => k ev (h ev hs)⟩
  have same : ∀ {γ : Type} {get : Env → List γ} {put : List γ → Env → Env} {free : Nat → γ},
      Every (fun s t : State => ∀ ev ∈ s.hist, ev ∈ t.hist) (draw get put free) := by
    intro γ get put free
    refine .intro (fun s a t h => ?_) fun s c t h => ?_ <;> unfold draw at h <;> split at h <;> cases h <;>
      exact fun _ h => h
  have fam : Every (fun s t : State => ∀ ev ∈ s.hist, ev ∈ t.hist) busFamily := .bind o (.get' o _) fun w => by
    cases w
    · exact .refuse _
    · exact .pure o _
  have read : ∀ r, Every (fun s t : State => ∀ ev ∈ s.hist, ev ∈ t.hist) (regRead r) := fun r =>
    .bind o (.bind o fam fun _ => .bind o (.get' o _) fun _ => .ite (.pure o _) (.refuse _)) fun _ =>
      .bind o (by cases r <;> unfold nextRegValue <;> exact same (γ := Word)) fun _ =>
      .bind o (.upd fun _ _ h => List.mem_cons_of_mem _ h) fun _ => .pure o _
  have params : Every (fun s t : State => ∀ ev ∈ s.hist, ev ∈ t.hist) famParams := .bind o fam fun _ => .get' o _
  exact .bind o (.bind o params fun _ => .onlyIf o (.bind o (.many o same _) fun _ => .upd fun _ _ h => h)) fun _ =>
    .bind o params fun _ => .bind o (.spinOn o (fun _ _ _ h => h) (.bind o params fun _ => .bind o (read _) fun _ =>
      .pure o _) _) fun _ => .ite (.raise o _) (.bind o (read _) fun _ => .bind o (read _) fun _ => .pure o _)

/-- The handshake in an environment that answers at once: its writes, its answer, the event that holds both, and the
bytes 's' brings (R10, R195). -/
theorem cartHandshake_quiet (hb : s.busOwner = .cart f) (hq : Quiet s f) (code : Byte) (a0 a1 : Word) {r0 r1 : Word}
    {ws : List Word} (hw : s.env.core.words = r0 :: r1 :: ws) (hne : ws ≠ []) {bs sec : List Byte}
    (hs : s.env.core.sector = bs ++ sec) (hsec : bs = [] ∨ sec ≠ [])
    (hlen : bs.length = broughtBytes (s.cfg.fam f) code a0 a1) :
    ∃ t, cartHandshake code a0 a1 s = .ok (r0, r1) t ∧
      Drove f { Foot.access with buffer := true } { s.env.core with words := ws, sector := sec }
        (handshakeWrites s.cfg f code a0 a1) [(code, a0, a1)] s t ∧
      t.cb = bufferAfter (s.cfg.fam f) s.byteswap code a0 bs s.cb ∧
      Event.cartCmd code a0 a1 (some (r0, r1)) ∈ t.hist := by
  obtain ⟨w0, s1, hr1, -, hd1⟩ := waitStatus_drove hb hq hq.caps.2.1
  obtain ⟨s2, hr2, hd2⟩ := regWrite_drove (hd1.owner rfl hb) hd1.went.quiet .arg0 a0
  have hd12 := hd1.trans hd2
  obtain ⟨s3, hr3, hd3⟩ := regWrite_drove (hd12.owner rfl hb) hd2.went.quiet .arg1 a1
  have hd13 := hd12.trans hd3
  obtain ⟨s4, hr4, hd4⟩ := regWrite_drove (hd13.owner rfl hb) hd3.went.quiet .command (code.zeroExtend 32)
  have hd14 := hd13.trans hd4
  have hb4 := hd14.owner rfl hb
  rw [hd3.went.env, hd2.went.env, hd1.went.env, hd13.cfg, hd12.cfg, hd1.cfg] at hd14
  have hissue : cartIssue code a0 a1 s = .ok () s4 := by
    simp only [cartIssue, bind_ok (famParams_run hb), bind_ok hr1, bind_ok hr2, bind_ok hr3, hr4]
  obtain ⟨u, hu, -⟩ := cartAnswer_quiet hb4 hd4.went.quiet code a0 a1 (by rw [hd14.went.env]; exact hw) hne
    (by rw [hd14.went.env]; exact hs) hsec (by rw [hd14.cfg]; exact hlen)
  have hev : Drove f .access s4.env.core [] [(code, a0, a1)] s4
      { s4 with hist := .cartCmd code a0 a1 (some (r0, r1)) :: s4.hist } :=
    ⟨.emit hd4.went.quiet _ rfl, by simp [Event.written], by simp [Event.cartCommand], by simp [Event.traffic]⟩
  have hrecord : recordCommand code a0 a1 s4 =
      .ok () { s4 with hist := .cartCmd code a0 a1 (some (r0, r1)) :: s4.hist } := by
    simp only [recordCommand, hu, answerOf, emit_run]
  have hd5 := hd14.trans hev
  obtain ⟨t, hfin, hd6, hcb⟩ := cartAnswer_quiet
    (s := { s4 with hist := .cartCmd code a0 a1 (some (r0, r1)) :: s4.hist }) hb4 hev.went.quiet code a0 a1
    (by rw [hev.went.env, hd14.went.env]; exact hw) hne (by rw [hev.went.env, hd14.went.env]; exact hs) hsec
    (by rw [hd5.cfg]; exact hlen)
  refine ⟨t, by simp only [cartHandshake, bind_ok hissue, bind_ok hrecord, hfin], ?_, ?_,
    cartAnswer_records.of_ok hfin _ (List.mem_cons_self ..)⟩
  · have := (hd5.mono (G := { Foot.access with buffer := true }) rfl).trans hd6
    rw [hev.went.env, hd14.went.env] at this
    simpa [handshakeWrites] using this
  · rw [hcb, show s4.byteswap = s.byteswap from hd14.went.same.swap rfl, show s4.cb = s.cb from hd14.went.same.buffer rfl,
      hd5.cfg]

/-! ### Byte swap -/

/-- The words setting the swap takes, before the others. -/
theorem swapDrive_quiet (hb : s.busOwner = .cart f) (hq : Quiet s f) (on : Bool) {xs ws : List Word}
    (hx : xs.length = swapWords (s.cfg.fam f)) (hw : s.env.core.words = xs ++ ws)
    (hne : (s.cfg.fam f).swapViaCfg = true → ws ≠ []) :
    ∃ t, swapDrive on s = .ok () t ∧
      Drove f .cart { s.env.core with words := ws } (swapWrites s.cfg f on) (swapCommands (s.cfg.fam f) on) s t ∧
      t.byteswap = on ∧ t.cb = s.cb := by
  have mirror : ∀ {v : State}, Quiet v f → Drove f .cart v.env.core [] [] v { v with byteswap := on } := fun hq =>
    .silent (.of_same hq (by constructor <;> simp [Foot.cart]) rfl rfl) rfl
  by_cases hv : (s.cfg.fam f).swapViaCfg = true
  · simp only [swapWords, hv, if_true] at hx
    match xs, hx with
    | [x, y], _ =>
      obtain ⟨t, hrun, hd, hcb, -⟩ := cartHandshake_quiet hb hq 0x43 (s.cfg.fam f).swapId (if on then 1 else 0) (r0 := x)
        (r1 := y) (ws := ws) hw (hne hv) (bs := []) (sec := s.env.core.sector) rfl (.inl rfl) (by simp [broughtBytes])
      refine ⟨{ t with byteswap := on }, ?_, ?_, rfl, by simpa [bufferAfter] using hcb⟩
      · simp only [swapDrive, bind_ok (famParams_run hb), hv, if_true, bind_ok hrun, upd_run]
      · have := (hd.mono (G := .cart) rfl).trans (mirror hd.went.quiet)
        rw [hd.went.env] at this
        simpa [swapWrites, swapCommands, hv] using this
  · have hv' : (s.cfg.fam f).swapViaCfg = false := by simpa using hv
    simp only [swapWords, hv', Bool.false_eq_true, if_false] at hx
    have hxs : xs = [] := List.eq_nil_of_length_eq_zero hx
    subst hxs
    obtain ⟨t, hrun, hd⟩ := regWrite_drove hb hq .swap (if on then 1 else 0)
    refine ⟨{ t with byteswap := on }, ?_, ?_, rfl, hd.went.same.buffer rfl⟩
    · simp only [swapDrive, bind_ok (famParams_run hb), hv', Bool.false_eq_true, if_false, bind_ok hrun, upd_run]
    · have := (hd.mono (G := .cart) rfl).trans (mirror hd.went.quiet)
      rw [hd.went.env] at this
      have hcore : ({ s.env.core with words := ws } : Env) = s.env.core := by
        rw [← show s.env.core.words = ws from hw]
      rw [hcore]
      simpa [swapWrites, swapCommands, hv'] using this

/-- A body run with the swap on around it; the swap is as before afterwards (R198). -/
theorem swapAround_wrapped (hb : s.busOwner = .cart f) (hq : Quiet s f) {body : Op α} {a : α} {xs ys ws : List Word}
    (hx : xs.length = swapWords (s.cfg.fam f)) (hy : ys.length = swapWords (s.cfg.fam f))
    (hw : s.env.core.words = xs ++ ws) (hne : (s.cfg.fam f).swapViaCfg = true → ws ≠ []) (hne' : F.bus = false)
    (hF : F.le G = true) (hcart : Foot.cart.le G = true) {rest : List Word}
    (hr : (s.cfg.fam f).swapViaCfg = true → rest ≠ [])
    (hbody : ∀ t, Drove f .cart { s.env.core with words := ws } (swapWrites s.cfg f true)
        (swapCommands (s.cfg.fam f) true) s t → t.byteswap = true → t.cb = s.cb →
      ∃ u, body t = .ok a u ∧ Drove f F e W C t u ∧ u.env.core.words = ys ++ rest) :
    ∃ t u v, Drove f .cart { s.env.core with words := ws } (swapWrites s.cfg f true)
        (swapCommands (s.cfg.fam f) true) s t ∧ t.byteswap = true ∧ t.cb = s.cb ∧ body t = .ok a u ∧
      Drove f F e W C t u ∧ Drove f .cart { u.env.core with words := rest } (swapWrites s.cfg f s.byteswap)
        (swapCommands (s.cfg.fam f) s.byteswap) u v ∧ v.cb = u.cb ∧
      swapAround true body s = .ok a v ∧ v.byteswap = s.byteswap ∧
      Drove f G { e with words := rest } (swapWrites s.cfg f true ++ W ++ swapWrites s.cfg f s.byteswap)
        (swapCommands (s.cfg.fam f) true ++ C ++ swapCommands (s.cfg.fam f) s.byteswap) s v := by
  obtain ⟨t, hon, hd, hsw, hcb⟩ := swapDrive_quiet hb hq true hx hw hne
  obtain ⟨u, hrun, hu, huw⟩ := hbody t hd hsw hcb
  have hbt := hd.owner rfl hb
  have hbu := hu.owner hne' hbt
  have hcfg : u.cfg = s.cfg := hu.cfg.trans hd.cfg
  obtain ⟨v, hoff, hv, hswv, hcbv⟩ := swapDrive_quiet hbu hu.went.quiet s.byteswap (by rw [hcfg]; exact hy) huw
    (by rw [hcfg]; exact hr)
  rw [hcfg] at hv
  refine ⟨t, u, v, hd, hsw, hcb, hrun, hu, hv, hcbv, ?_, hswv, ?_⟩
  · simp only [swapAround, if_true, get'_bind, bind_ok hon, bind_ok (attempt_ok hrun), bind_ok hoff, pure_run]
  · have := (hd.mono hcart).trans ((hu.mono hF).trans (hv.mono hcart))
    rw [hu.went.env] at this
    simpa using this

/-- A body with the swap around it where `wrap` says so: what it writes, issues and takes (R198). -/
theorem swapAround_quiet (wrap : Bool) (hb : s.busOwner = .cart f) (hq : Quiet s f) {body : Op α} {a : α}
    {xs ys ws rest : List Word} (hx : xs.length = aroundWords (s.cfg.fam f) wrap)
    (hy : ys.length = aroundWords (s.cfg.fam f) wrap) (hw : s.env.core.words = xs ++ ws)
    (hne : wrap = true → (s.cfg.fam f).swapViaCfg = true → ws ≠ []) (hFb : F.bus = false) (hF : F.le G = true)
    (hcart : Foot.cart.le G = true) (hr : wrap = true → (s.cfg.fam f).swapViaCfg = true → rest ≠ [])
    {P : State → State → Prop} (hP : ∀ t u v, P t u → v.byteswap = s.byteswap → SameOn .cart u v → v.cb = u.cb → P t v)
    (hbody : ∀ t, SameOn .cart s t → t.env.core = { s.env.core with words := ws } → Quiet t f →
        t.byteswap = (wrap || s.byteswap) → t.cb = s.cb →
      ∃ u, body t = .ok a u ∧ Drove f F e W C t u ∧ u.env.core.words = ys ++ rest ∧ u.byteswap = t.byteswap ∧ P t u) :
    ∃ t v, SameOn .cart s t ∧ t.cb = s.cb ∧ P t v ∧ swapAround wrap body s = .ok a v ∧ v.byteswap = s.byteswap ∧
      Drove f G { e with words := rest } (aroundWrites s.cfg f wrap s.byteswap W)
        (aroundCommands (s.cfg.fam f) wrap s.byteswap C) s v := by
  cases wrap with
  | true =>
    obtain ⟨t, u, v, hd, hsw, hcb, hrun, hu, hv, hcbv, hall, hswv, hdv⟩ := swapAround_wrapped (body := body) (a := a)
      (ys := ys) (e := e) (W := W) (C := C) hb hq hx hy hw (hne rfl) hFb hF hcart (hr rfl) fun t hd hsw hcb => by
        obtain ⟨u, hrun, hu, huw, -, -⟩ := hbody t hd.went.same hd.went.env hd.went.quiet hsw hcb
        exact ⟨u, hrun, hu, huw⟩
    obtain ⟨u', hrun', hu', huw', hsw', hPu⟩ := hbody t hd.went.same hd.went.env hd.went.quiet hsw hcb
    rw [hrun] at hrun'
    cases hrun'
    exact ⟨t, v, hd.went.same, hcb, hP t u v hPu hswv hv.went.same hcbv, hall, hswv, hdv⟩
  | false =>
    have hxs : xs = [] := List.eq_nil_of_length_eq_zero hx
    have hys : ys = [] := List.eq_nil_of_length_eq_zero hy
    subst hxs hys
    have hcore : s.env.core = { s.env.core with words := ws } := by rw [← show s.env.core.words = ws from hw]
    obtain ⟨u, hrun, hu, huw, hsw, hPu⟩ := hbody s (.refl _ s) hcore hq (by simp) rfl
    refine ⟨s, u, .refl _ s, rfl, hPu, hrun, hsw, ?_⟩
    have he : ({ e with words := rest } : Env) = e := by
      rw [← hu.went.env, ← show u.env.core.words = rest from huw]
    rw [he]
    exact hu.mono hF

/-- `cart_command` in an environment that answers at once (R195, R198). -/
theorem cartCommand_quiet (hb : s.busOwner = .cart f) (hq : Quiet s f) (code : Byte) (a0 a1 : Word) {r0 r1 : Word}
    {xs ys ws : List Word} (hx : xs.length = aroundWords (s.cfg.fam f) (wraps (s.cfg.fam f) code))
    (hy : ys.length = aroundWords (s.cfg.fam f) (wraps (s.cfg.fam f) code))
    (hw : s.env.core.words = xs ++ r0 :: r1 :: (ys ++ ws)) (hne : ws ≠ []) {bs sec : List Byte}
    (hs : s.env.core.sector = bs ++ sec) (hsec : bs = [] ∨ sec ≠ [])
    (hlen : bs.length = broughtBytes (s.cfg.fam f) code a0 a1) :
    ∃ t, cartCommand code a0 a1 s = .ok (r0, r1) t ∧
      Drove f .cart { s.env.core with words := ws, sector := sec }
        (aroundWrites s.cfg f (wraps (s.cfg.fam f) code) s.byteswap (handshakeWrites s.cfg f code a0 a1))
        (aroundCommands (s.cfg.fam f) (wraps (s.cfg.fam f) code) s.byteswap [(code, a0, a1)]) s t ∧
      t.byteswap = s.byteswap ∧
      t.cb = bufferAfter (s.cfg.fam f) (wraps (s.cfg.fam f) code || s.byteswap) code a0 bs s.cb := by
  obtain ⟨t, v, hst, hcb, hP, hrun, hsw, hd⟩ := swapAround_quiet (wraps (s.cfg.fam f) code) (ws := r0 :: r1 :: (ys ++ ws))
    (a := (r0, r1)) (body := cartHandshake code a0 a1) (F := { Foot.access with buffer := true }) (G := .cart)
    (e := { s.env.core with words := ys ++ ws, sector := sec }) (W := handshakeWrites s.cfg f code a0 a1)
    (C := [(code, a0, a1)]) (rest := ws)
    (P := fun _ u => u.cb = bufferAfter (s.cfg.fam f) (wraps (s.cfg.fam f) code || s.byteswap) code a0 bs s.cb)
    hb hq hx hy hw (fun _ _ => by simp) rfl rfl rfl (fun _ _ => hne) (fun _ _ _ h _ _ hc => hc.trans h)
    fun t hst he hqt hsw hcb => by
      have hcfg := hst.cfg
      obtain ⟨u, hrun, hu, hcbu, -⟩ := cartHandshake_quiet ((hst.owner rfl).trans hb) hqt code a0 a1 (r0 := r0) (r1 := r1)
        (ws := ys ++ ws) (by rw [he]) (by simp [hne]) (bs := bs) (sec := sec) (by rw [he]; exact hs) hsec
        (by rw [hcfg]; exact hlen)
      rw [hcfg] at hu hcbu
      rw [he] at hu
      refine ⟨u, hrun, hu, by rw [hu.went.env], hu.went.same.swap rfl, ?_⟩
      rw [hcbu, hsw, hcb]
  refine ⟨v, ?_, hd, hsw, hP⟩
  simpa only [cartCommand, bind_ok (famParams_run hb), wraps] using hrun

end Sys2Proof.Machine
end

