-- ==== Sys2Proof/Laws/BitLevel.lean ====
section
/-! SUPPORT. A family whose port is not modelled by its registers writes none of them: what commands, blocks and sector moves
put on the register side of the wire is nothing (44_transport_handlers.md R192). -/

namespace Sys2Proof.Machine

variable {α : Type} {f : Family} {s t : State}

/-- Inside a bracket of a family whose port is not modelled by its registers, no register was written. -/
def NoWrites (f : Family) (s t : State) : Prop :=
  s.busOwner = .cart f → (s.cfg.fam f).portLevel = false →
    t.busOwner = .cart f ∧ t.cfg = s.cfg ∧ writes t.hist = writes s.hist

theorem NoWrites.order (f : Family) : Order (NoWrites f) :=
  ⟨fun _ hb _ => ⟨hb, rfl, rfl⟩, fun h k hb hp =>
    have ⟨b, c, w⟩ := h hb hp
    have ⟨b', c', w'⟩ := k b (by rw [c]; exact hp)
    ⟨b', c'.trans c, w'.trans w⟩⟩

/-- What changes neither the bracket nor the history writes nothing. -/
theorem noWrites_upd {g : State → State} (hb : ∀ s, (g s).busOwner = s.busOwner) (hc : ∀ s, (g s).cfg = s.cfg)
    (hw : ∀ s, writes (g s).hist = writes s.hist) : Every (NoWrites f) (upd g) :=
  .upd fun s h _ => ⟨(hb s).trans h, hc s, hw s⟩

theorem noWrites_set {g : State → State}
    (h : ∀ s, (g s).busOwner = s.busOwner ∧ (g s).cfg = s.cfg ∧ (g s).hist = s.hist) : Every (NoWrites f) (upd g) :=
  noWrites_upd (fun s => (h s).1) (fun s => (h s).2.1) fun s => by rw [(h s).2.2]

/-- What touches neither the history nor the bus writes nothing. -/
theorem noWrites_silent {F : Foot} {x : Op α} (h : Touches F x) (hl : F.log = false) (hb : F.bus = false) :
    Every (NoWrites f) x := by
  have same : ∀ {s t : State}, SameOn F s t → NoWrites f s t := fun k ow _ =>
    ⟨(k.owner hb).trans ow, k.cfg, congrArg writes (k.log hl).2.2.1⟩
  exact .intro (fun _ _ _ hx => same (h.of_ok hx)) fun _ _ _ hx => same (h.of_error hx)

theorem noWrites_emit {e : Event} (he : e.written = none) : Every (NoWrites f) (emit e) :=
  noWrites_upd (fun _ => rfl) (fun _ => rfl) fun s => by simp [he]

theorem noWrites_session (g : Session → Session) : Every (NoWrites f) (setSession g) :=
  noWrites_upd (fun _ => rfl) (fun _ => rfl) fun _ => rfl

theorem noWrites_draw {get : Env → List α} {put : List α → Env → Env} {free : Nat → α} :
    Every (NoWrites f) (draw get put free) :=
  .intro (fun s a t h => by unfold draw at h; split at h <;> cases h <;> exact (NoWrites.order f).refl _)
    fun s c t h => by unfold draw at h; split at h <;> cases h

/-- The port's parameters are those of the family that has the bus. -/
theorem sdPort_value {q : FamilyParams} (h : sdPort s = .ok q t) (hb : s.busOwner = .cart f) : t = s ∧ q = s.cfg.fam f := by
  simp only [sdPort, bind_ok (famParams_run hb)] at h
  cases ho : (s.cfg.fam f).offload <;> simp only [ho, if_true, Bool.false_eq_true, if_false] at h <;> cases h
  exact ⟨rfl, rfl⟩

theorem sdPort_noCause {c : Cause} : sdPort s ≠ .error (.cause c) t := by
  intro h
  cases hb : s.busOwner with
  | native => simp [sdPort, famParams, busFamily, bind, EStateM.bind, get', hb, refuse] at h
  | cart g =>
    simp only [sdPort, bind_ok (famParams_run hb)] at h
    cases ho : (s.cfg.fam g).offload <;> simp only [ho, if_true, Bool.false_eq_true, if_false] at h <;> cases h

/-- An operation on the port need only be looked at on a family whose port is not modelled by its registers. -/
theorem noWrites_port {k : FamilyParams → Op α} (hk : ∀ q, q.portLevel = false → Every (NoWrites f) (k q)) :
    Every (NoWrites f) (sdPort >>= k) := by
  refine .intro (fun s a u h hb hp => ?_) fun s c u h hb hp => ?_
  · obtain ⟨q, t, h1, h2⟩ := bind_eq_ok.mp h
    obtain ⟨rfl, rfl⟩ := sdPort_value h1 hb
    exact (hk _ hp).of_ok h2 hb hp
  · rcases bind_eq_error.mp h with h1 | ⟨q, t, h1, h2⟩
    · exact (sdPort_noCause h1).elim
    · obtain ⟨rfl, rfl⟩ := sdPort_value h1 hb
      exact (hk _ hp).of_cause h2 hb hp

theorem noWrites_datPort {k : FamilyParams → Op α} (hk : ∀ q, q.portLevel = false → Every (NoWrites f) (k q)) :
    Every (NoWrites f) (datPort >>= k) := by
  unfold datPort
  rw [bind_assoc]
  refine noWrites_port fun q hq => ?_
  split
  · exact (Every.refuse _ : Every (NoWrites f) (refuse .spiDataPath : Op α))
  · rw [pure_bind]; exact hk q hq

theorem noWrites_portWrite (r : Reg) (v : Word) : Every (NoWrites f) (portWrite r v) :=
  noWrites_port fun q hq => by rw [hq]; exact .pure (NoWrites.order f) _

theorem noWrites_portRead (r : Reg) (mask v : Word) : Every (NoWrites f) (portRead r mask v) :=
  noWrites_port fun q hq => by rw [hq]; exact .pure (NoWrites.order f) _

theorem noWrites_setBitLen (len : BitLen) : Every (NoWrites f) (setBitLen len) :=
  noWrites_port fun q hq => .bind (NoWrites.order f) (.get' (NoWrites.order f) _) fun _ =>
    .bind (NoWrites.order f) (noWrites_session _) fun _ => by rw [hq]; exact .pure (NoWrites.order f) _

theorem noWrites_atSingleBit {body : Op α} (h : Every (NoWrites f) body) : Every (NoWrites f) (atSingleBit body) := by
  have o := NoWrites.order f
  refine .bind o (Every.bind o (noWrites_setBitLen _) fun _ => h).attempt fun r => ?_
  cases r
  · exact .bind o ((noWrites_setBitLen _).bestEffort o) fun _ => .raise o _
  · exact .bind o (noWrites_setBitLen _) fun _ => .pure o _

theorem noWrites_cmdTx (b : Byte) : Every (NoWrites f) (cmdTx b) :=
  noWrites_port fun _ _ => .bind (NoWrites.order f) (noWrites_emit rfl) fun _ => noWrites_portWrite _ _

theorem noWrites_cmdRxBit : Every (NoWrites f) cmdRxBit := by
  have o := NoWrites.order f
  exact noWrites_port fun _ _ => .bind o (noWrites_portWrite _ _) fun _ => .bind o noWrites_draw fun _ =>
    .bind o (noWrites_portRead _ _ _) fun _ => .bind o (noWrites_emit rfl) fun _ => .pure o _

theorem noWrites_cmdRx : Every (NoWrites f) cmdRx := by
  have o := NoWrites.order f
  exact noWrites_port fun _ _ => .bind o (noWrites_portWrite _ _) fun _ => .bind o (.many o noWrites_draw _) fun _ =>
    .bind o (noWrites_portRead _ _ _) fun _ => .bind o (noWrites_emit rfl) fun _ => .pure o _

theorem noWrites_datRxBit : Every (NoWrites f) datRxBit := by
  have o := NoWrites.order f
  have clock : Every (NoWrites f) laneClock := .bind o (noWrites_portWrite _ _) fun _ => .bind o noWrites_draw fun _ =>
    .bind o (noWrites_portRead _ _ _) fun _ => .pure o _
  exact noWrites_datPort fun _ _ => .bind o (.ite (noWrites_atSingleBit clock) clock) fun _ =>
    .bind o (noWrites_emit rfl) fun _ => .pure o _

theorem noWrites_waitNotBusy : Every (NoWrites f) waitNotBusy := by
  have o := NoWrites.order f
  exact noWrites_datPort fun _ _ => .spinOn o (fun _ _ hb _ => ⟨hb, rfl, rfl⟩)
    (.bind o noWrites_datRxBit fun _ => .pure o _) _

theorem noWrites_executeCommand (app : Bool) (idx : BitVec 6) (arg : Word) :
    Every (NoWrites f) (executeCommand app idx arg) := by
  have o := NoWrites.order f
  have send : ∀ l, Every (NoWrites f) (forEach cmdTx l) := .forEach o noWrites_cmdTx
  have collect : ∀ n len, Every (NoWrites f) (collectResponse n len) := fun n len =>
    .bind o (noWrites_atSingleBit (.bind o (.spinOn o (fun _ _ hb _ => ⟨hb, rfl, rfl⟩)
      (.bind o noWrites_cmdRxBit fun _ => .pure o _) _) fun _ => .bind o (.many o noWrites_cmdRxBit _) fun _ => .pure o _))
      fun _ => .bind o (.many o noWrites_cmdRx _) fun _ => .pure o _
  have receive : ∀ p q kind, Every (NoWrites f) (receiveResponse p q kind idx) := fun p q kind => by
    refine .ite (.bind o (noWrites_set fun _ => ⟨rfl, rfl, rfl⟩) fun _ => send _) (.bind o (collect _ _).attempt fun r => ?_)
    cases r with
    | error c => exact .bind o (noWrites_set fun _ => ⟨rfl, rfl, rfl⟩) fun _ => .raise o _
    | ok bytes =>
      refine .bind o (noWrites_set fun _ => ⟨rfl, rfl, rfl⟩) fun _ => .bind o (send _) fun _ => ?_
      split
      · exact .raise o _
      · exact .pure o _
  refine noWrites_port fun q _ => .bind o (.get' o _) fun p => ?_
  split
  · exact .refuse _
  · exact .bind o (.bind o (noWrites_set fun _ => ⟨rfl, rfl, rfl⟩) fun _ => .bind o (noWrites_setBitLen _) fun _ =>
      .bind o (send _) fun _ => .bind o (send _) fun _ => noWrites_set fun _ => ⟨rfl, rfl, rfl⟩) fun _ => receive _ _ _

/-- Stopping a stream writes no register where the port is not modelled by its registers (R146, R192). -/
theorem noWrites_stopStream : Every (NoWrites f) stopStream := by
  have o := NoWrites.order f
  exact noWrites_datPort fun _ _ => .bind o (noWrites_executeCommand _ _ _).attempt fun r =>
    .bind o (noWrites_session _) fun _ => .bind o (.rethrow o r) fun _ => noWrites_waitNotBusy

/-! ### The commands of a bring-up -/

theorem noWrites_setBringUpSeq (x : BringUpSeq) : Every (NoWrites f) (setBringUpSeq x) :=
  noWrites_upd (fun _ => rfl) (fun _ => rfl) fun _ => rfl

theorem noWrites_sdPort : Every (NoWrites f) sdPort := by
  have h := noWrites_port (f := f) (k := fun q => (pure q : Op FamilyParams)) fun _ _ => .pure (NoWrites.order f) _
  rwa [bind_pure] at h

theorem noWrites_datPort' : Every (NoWrites f) datPort := by
  have h := noWrites_datPort (f := f) (k := fun q => (pure q : Op FamilyParams)) fun _ _ => .pure (NoWrites.order f) _
  rwa [bind_pure] at h

theorem noWrites_respByte (i : Nat) : Every (NoWrites f) (respByte i) := by
  refine .intro (fun s a t h => ?_) fun s c t h => ?_ <;> unfold respByte at h <;> split at h <;> cases h
  exact (NoWrites.order f).refl _

theorem noWrites_sendAppCommand (idx : BitVec 6) (rca : Half) (arg : Word) :
    Every (NoWrites f) (sendAppCommand idx rca arg) := by
  have o := NoWrites.order f
  exact .bind o noWrites_sdPort fun _ => .bind o (.onlyIf o (.refuse _)) fun _ =>
    .bind o (noWrites_executeCommand _ _ _) fun _ => noWrites_executeCommand _ _ _

theorem noWrites_voltageCheck : Every (NoWrites f) voltageCheck := by
  have o := NoWrites.order f
  have echo : Every (NoWrites f) checkEcho := .bind o (noWrites_respByte _) fun _ => .bind o (noWrites_respByte _) fun _ =>
    .ite (.pure o _) (.raise o _)
  refine .bind o noWrites_sdPort fun q => .bind o (noWrites_executeCommand _ _ _).attempt fun r => ?_
  split
  · exact .pure o _
  · exact .pure o _
  · exact .raise o _
  · split
    · exact echo
    · exact .bind o (noWrites_respByte _) fun _ => .ite (.pure o _) echo

theorem noWrites_pollReady {mark : Nat → Op Unit} (hm : ∀ k, Every (NoWrites f) (mark k)) (arg : Word) :
    Every (NoWrites f) (pollReady mark arg) := by
  have o := NoWrites.order f
  have test : ∀ w, Every (NoWrites f) (testReady w) := fun w => by
    cases w
    · exact .bind o (noWrites_respByte _) fun _ => .ite (.bind o (noWrites_session _) fun _ => .pure o _) (.pure o _)
    · exact .bind o (noWrites_respByte _) fun _ => .pure o _
  have loop : ∀ w fuel k, Every (NoWrites f) (pollLoop mark arg w fuel k) := fun w fuel => by
    induction fuel with
    | zero => exact fun _ => .raise o _
    | succ n ih =>
      exact fun k => .bind o (hm k) fun _ => .bind o (noWrites_sendAppCommand _ _ _) fun _ => .bind o (test w) fun _ =>
        .ite (.pure o _) (ih _)
  exact .bind o noWrites_sdPort fun _ => .bind o (.get' o _) fun _ => loop _ _ _

theorem noWrites_publishRca : Every (NoWrites f) publishRca := by
  have o := NoWrites.order f
  exact .bind o noWrites_sdPort fun _ => .bind o (.onlyIf o (.faultWith _)) fun _ =>
    .bind o (noWrites_executeCommand _ _ _) fun _ => .bind o (noWrites_respByte _) fun _ =>
    .bind o (noWrites_respByte _) fun _ => noWrites_session _

theorem noWrites_selectCard (rca : Half) : Every (NoWrites f) (selectCard rca) := by
  have o := NoWrites.order f
  exact .bind o noWrites_datPort' fun _ => .bind o (noWrites_executeCommand _ _ _) fun _ => noWrites_waitNotBusy

theorem noWrites_readOcr : Every (NoWrites f) readOcr := by
  have o := NoWrites.order f
  exact .bind o (noWrites_executeCommand _ _ _) fun _ => .bind o (noWrites_respByte _) fun _ => noWrites_session _

/-! ### Blocks and transfers -/

theorem noWrites_waitDataStart : Every (NoWrites f) waitDataStart := by
  have o := NoWrites.order f
  exact noWrites_datPort fun _ _ => .spinOn o (fun _ _ hb _ => ⟨hb, rfl, rfl⟩)
    (.bind o noWrites_datRxBit fun _ => .pure o _) _

theorem noWrites_datRx (n : Nat) : Every (NoWrites f) (datRx n) := by
  have o := NoWrites.order f
  have clock : ∀ w, Every (NoWrites f) (clockByte w) := fun w => by
    cases w
    · exact .bind o (.many o noWrites_draw _) fun _ => .pure o _
    · exact .bind o noWrites_draw fun _ => .bind o noWrites_draw fun _ => .pure o _
  have byte : ∀ w, Every (NoWrites f) (datByte w) := fun w => .bind o (noWrites_portWrite _ _) fun _ =>
    .bind o (clock w) fun _ => .bind o (noWrites_portRead _ _ _) fun _ => .pure o _
  refine noWrites_datPort fun q hq => .bind o (.get' o _) fun w => .bind o ?_ fun _ =>
    .bind o (noWrites_emit rfl) fun _ => .pure o _
  unfold datBytes
  rw [hq]
  exact .many o (byte w) _

theorem noWrites_receiveBlock (n : Nat) : Every (NoWrites f) (receiveBlock n) := by
  have o := NoWrites.order f
  exact .bind o noWrites_waitDataStart fun _ => .bind o (noWrites_datRx _) fun _ => .bind o (.get' o _) fun _ =>
    .bind o (noWrites_datRx _) fun _ => .bind o noWrites_datRxBit fun _ => .bind o (.get' o _) fun _ =>
    .bind o (.onlyIf o (.bind o (noWrites_set fun _ => ⟨rfl, rfl, rfl⟩) fun _ => .ite (.pure o _) (.raise o _))) fun _ =>
    .onlyIf o (noWrites_set fun _ => ⟨rfl, rfl, rfl⟩)

theorem noWrites_sendBlock (d : List Byte) : Every (NoWrites f) (sendBlock d) := by
  have o := NoWrites.order f
  have tx : ∀ d, Every (NoWrites f) (datTx d) := fun d => noWrites_datPort fun q hq => .bind o (noWrites_emit rfl) fun _ => by
    rw [hq]; exact .pure o _
  refine .bind o (.get' o _) fun _ => .bind o (noWrites_upd (fun _ => rfl) (fun _ => rfl) fun _ => rfl) fun _ =>
    .bind o (tx _) fun _ => .bind o (tx _) fun _ => .bind o (tx _) fun _ => .bind o (tx _) fun _ =>
    .bind o (.bind o noWrites_datRxBit fun _ => .bind o noWrites_datRxBit fun _ => .bind o noWrites_datRxBit fun _ =>
      .bind o noWrites_datRxBit fun _ => .bind o noWrites_datRxBit fun _ => .pure o _) fun _ => ?_
  split
  · exact .raise o _
  · exact noWrites_waitNotBusy

theorem noWrites_ensureMode (m : AccessMode) (lba : Word) : Every (NoWrites f) (ensureMode m lba) := by
  have o := NoWrites.order f
  refine .bind o (.get' o _) fun _ => .onlyIf o (.bind o (.onlyIf o noWrites_stopStream) fun _ => ?_)
  refine .bind o (.get' o _) fun hc => ?_
  split
  · exact .refuse _
  · exact .bind o (noWrites_executeCommand _ _ _) fun _ => noWrites_session _

theorem noWrites_cacheMayAct : Every (NoWrites f) cacheMayAct := by
  have o := NoWrites.order f
  have acts : ∀ (l : List CacheAct) (s : State), (l.foldl State.cacheAct s).busOwner = s.busOwner ∧
      (l.foldl State.cacheAct s).cfg = s.cfg ∧ (l.foldl State.cacheAct s).hist = s.hist := fun l => by
    induction l with
    | nil => exact fun _ => ⟨rfl, rfl, rfl⟩
    | cons x l ih => intro s; obtain ⟨a, b, c⟩ := ih (s.cacheAct x); cases x <;> exact ⟨a, b, c⟩
  exact .bind o noWrites_draw fun l => noWrites_upd (fun s => (acts l s).1) (fun s => (acts l s).2.1) fun s => by
    rw [(acts l s).2.2]

theorem noWrites_piWaitIdle (g : Family) : Every (NoWrites f) (piWaitIdle g) := by
  have o := NoWrites.order f
  exact .bind o (.get' o _) fun _ => .spinOn o (fun _ _ hb _ => ⟨hb, rfl, rfl⟩) (.bind o noWrites_draw fun _ => .pure o _) _

theorem noWrites_busFamily : Every (NoWrites f) busFamily := .bind (NoWrites.order f) (.get' (NoWrites.order f) _) fun w => by
  cases w
  · exact .refuse _
  · exact .pure (NoWrites.order f) _

theorem noWrites_famParams : Every (NoWrites f) famParams :=
  .bind (NoWrites.order f) noWrites_busFamily fun _ => .get' (NoWrites.order f) _

theorem noWrites_copyMoves (k src dst : Nat) : Every (NoWrites f) (copyMoves k src dst) := by
  have o := NoWrites.order f
  induction k generalizing src dst with
  | zero => exact .pure o _
  | succ k ih =>
    exact .bind o noWrites_cacheMayAct fun _ => .bind o (noWrites_silent (.upd fun s => sameOn_move8 s src dst) rfl rfl)
      fun _ => ih _ _

/-- A sector move writes no register of the cartridge (R242, R243). -/
theorem noWrites_moveToRam (dest : Nat) : Every (NoWrites f) (moveToRam dest) := by
  have o := NoWrites.order f
  have dma : ∀ a, Every (NoWrites f) (dmaFromCart a) := fun a => by
    refine .bind o noWrites_busFamily fun _ => .bind o noWrites_famParams fun _ => .bind o (noWrites_piWaitIdle _) fun _ =>
      .bind o (noWrites_set fun _ => ⟨rfl, rfl, rfl⟩) fun _ => .bind o (noWrites_emit rfl) fun _ => .bind o noWrites_cacheMayAct fun _ =>
      .bind o (noWrites_piWaitIdle _).attempt fun r => ?_
    cases r
    · exact .bind o (.many o noWrites_draw _) fun _ => .bind o (noWrites_set fun _ => ⟨rfl, rfl, rfl⟩) fun _ => .raise o _
    · exact noWrites_set fun _ => ⟨rfl, rfl, rfl⟩
  have wb : ∀ a n, Every (NoWrites f) (opCacheWbInv a n) := fun a n => .bind o noWrites_cacheMayAct fun _ =>
    .bind o (noWrites_emit rfl) fun _ => noWrites_set fun _ => ⟨rfl, rfl, rfl⟩
  exact .bind o (.bind o (.get' o _) fun _ => .ite (.bind o (wb _ _) fun _ => dma _)
    (.bind o (wb _ _) fun _ => .bind o (dma _) fun _ => noWrites_copyMoves _ _ _)) fun _ => noWrites_cacheMayAct

theorem noWrites_moveFromRam (src : Nat) : Every (NoWrites f) (moveFromRam src) := by
  have o := NoWrites.order f
  have dma : ∀ a, Every (NoWrites f) (dmaToCart a) := fun a => by
    refine .bind o noWrites_busFamily fun _ => .bind o noWrites_famParams fun _ => .bind o (noWrites_piWaitIdle _) fun _ =>
      .bind o (noWrites_set fun _ => ⟨rfl, rfl, rfl⟩) fun _ => .bind o (noWrites_emit rfl) fun _ => .bind o noWrites_cacheMayAct fun _ =>
      .bind o (noWrites_piWaitIdle _).attempt fun r => ?_
    cases r
    · exact .bind o (.many o noWrites_draw _) fun _ => .bind o (noWrites_set fun _ => ⟨rfl, rfl, rfl⟩) fun _ => .raise o _
    · exact noWrites_set fun _ => ⟨rfl, rfl, rfl⟩
  have wb : ∀ a n, Every (NoWrites f) (opCacheWb a n) := fun a n => .bind o noWrites_cacheMayAct fun _ =>
    .bind o (noWrites_emit rfl) fun _ => noWrites_set fun _ => ⟨rfl, rfl, rfl⟩
  exact .bind o (.bind o (.get' o _) fun _ => .ite (.bind o (wb _ _) fun _ => dma _)
    (.bind o (noWrites_copyMoves _ _ _) fun _ => .bind o (wb _ _) fun _ => dma _)) fun _ => noWrites_cacheMayAct

theorem noWrites_readLoop (n dest : Nat) : Every (NoWrites f) (readLoop n dest) := by
  have o := NoWrites.order f
  induction n generalizing dest with
  | zero => exact .pure o _
  | succ n ih =>
    exact .bind o (noWrites_receiveBlock _) fun _ => .bind o (noWrites_moveToRam _) fun _ =>
      .bind o (noWrites_session _) fun _ => ih _

theorem noWrites_writeLoop (n src : Nat) : Every (NoWrites f) (writeLoop n src) := by
  have o := NoWrites.order f
  induction n generalizing src with
  | zero => exact .pure o _
  | succ n ih =>
    exact .bind o (noWrites_moveFromRam _) fun _ => .bind o (.get' o _) fun _ => .bind o (noWrites_sendBlock _) fun _ =>
      .bind o (noWrites_session _) fun _ => ih _

/-- `card_stop` writes no register there, and the configuration events of its bracket are no writes. -/
theorem cardStop_writes (hc : s.cartType = some f) (hb : s.busOwner = .native) (hp : (s.cfg.fam f).portLevel = false)
    {u : Unit} (hrun : cardStop s = .ok u t) : writes t.hist = writes s.hist := by
  simp only [cardStop, get'_bind] at hrun
  cases hm : s.sess.mode != .none with
  | false => rw [onlyIf_false hm] at hrun; cases hrun; rfl
  | true =>
    rw [onlyIf_true hm] at hrun
    obtain ⟨a, hacq, ha⟩ := acquireFor_run f hb
    have hacq' : acquireBus s = .ok () a := by simp only [acquireBus, get'_bind, hc, hacq]
    have hwa : writes a.hist = writes s.hist := by rw [ha.hist, writes_cfgEvents]
    simp only [bracketed, bind_ok hacq'] at hrun
    cases hbody : stopStream a with
    | ok x b =>
      have hsame := touches_stopStream.of_ok hbody
      obtain ⟨ow, -, hwb⟩ := noWrites_stopStream.of_ok hbody ha.owner (by rw [ha.same.cfg]; exact hp)
      obtain ⟨r, hrel, hr⟩ := releaseBus_run ow ((hsame.bus rfl).2.2.1.trans ha.saved)
      simp only [bind_ok (attempt_ok hbody), bind_ok hrel] at hrun
      cases hrun
      rw [hr.hist, writes_cfgEvents, hwb, hwa]
    | error e b =>
      cases e with
      | cause c =>
        simp only [bind_ok (attempt_cause hbody), errorExit] at hrun
        obtain ⟨_, _, _, h2⟩ := bind_eq_ok.mp hrun
        obtain ⟨_, _, _, h4⟩ := bind_eq_ok.mp h2
        cases h4
      | refuse r => rw [bind_error (by unfold attempt; rw [hbody])] at hrun; cases hrun
      | fault r => rw [bind_error (by unfold attempt; rw [hbody])] at hrun; cases hrun

end Sys2Proof.Machine
end

