-- ==== Sys2Proof/Laws/Calm.lean ====
section
/-! SUPPORT. Operations that never end in a refusal or a fault inside the bracket of a native card's family, whatever the
environment answers: one lemma for each operation a clean-up is made of. -/

namespace Sys2Proof.Machine

variable {α β : Type} {f : Family} {F : Foot} {s t : State}

/-- Inside a bracket of a family that drives a native card itself, each of its registers with an address. -/
structure OnWire (f : Family) (s : State) : Prop where
  owner : s.busOwner = .cart f
  bitLevel : (s.cfg.fam f).offload = false
  native : (s.cfg.fam f).wire = .sdNative
  regs : regsFit f (s.cfg.fam f) = true

theorem OnWire.of_same (h : OnWire f s) (k : SameOn F s t) (hF : F.bus = false) : OnWire f t := by
  obtain ⟨hc, -, -⟩ := k.fixed
  exact ⟨(k.bus hF).2.2.2.trans h.owner, by rw [hc]; exact h.bitLevel, by rw [hc]; exact h.native,
    by rw [hc]; exact h.regs⟩

/-- An operation of a footprint without the bus that ends in a value or a cause. -/
structure Calm (f : Family) (F : Foot) (x : Op α) : Prop where
  ends : ∀ s, OnWire f s → ∀ e t, x s = .error e t → ∃ c, e = .cause c
  touches : Touches F x
  bus : F.bus = false

namespace Calm

theorem pure (hF : F.bus = false) (a : α) : Calm f F (Pure.pure a : Op α) :=
  ⟨fun _ _ _ _ h => (by cases h), .pure a, hF⟩

theorem get' (hF : F.bus = false) (g : State → α) : Calm f F (Machine.get' g) :=
  ⟨fun _ _ _ _ h => (by cases h), .get' g, hF⟩

theorem raise (hF : F.bus = false) (c : Cause) : Calm f F (Machine.raise c : Op α) :=
  ⟨fun _ _ _ _ h => (by cases h; exact ⟨c, rfl⟩), .raise c, hF⟩

theorem upd (hF : F.bus = false) {g : State → State} (h : Touches F (Machine.upd g)) : Calm f F (Machine.upd g) :=
  ⟨fun _ _ _ _ h => (by cases h), h, hF⟩

theorem bind {x : Op α} {k : α → Op β} (hx : Calm f F x) (hk : ∀ a, Calm f F (k a)) : Calm f F (x >>= k) := by
  refine ⟨fun s hs e t h => ?_, hx.touches.bind fun a => (hk a).touches, hx.bus⟩
  rcases bind_eq_error.mp h with h1 | ⟨a, u, h1, h2⟩
  · exact hx.ends s hs e t h1
  · exact (hk a).ends u (hs.of_same (hx.touches.of_ok h1) hx.bus) e t h2

theorem mono {G : Foot} {x : Op α} (h : Calm f F x) (hle : F.le G = true) (hG : G.bus = false) : Calm f G x :=
  ⟨h.ends, h.touches.mono hle, hG⟩

theorem attempt {x : Op α} (h : Calm f F x) : Calm f F (Machine.attempt x) := by
  refine ⟨fun s hs e t hx => ?_, h.touches.attempt, h.bus⟩
  unfold Machine.attempt at hx
  split at hx
  · cases hx
  · cases hx
  · rename_i r u hr
    obtain ⟨c, hc⟩ := h.ends s hs _ _ hr
    cases hc
  · rename_i r u hr
    obtain ⟨c, hc⟩ := h.ends s hs _ _ hr
    cases hc

theorem rethrow (hF : F.bus = false) (r : Except Cause α) : Calm f F (Machine.rethrow r) := by
  cases r
  · exact raise hF _
  · exact pure hF _

theorem ite {c : Prop} [Decidable c] {x y : Op α} (hx : Calm f F x) (hy : Calm f F y) : Calm f F (if c then x else y) := by
  split <;> assumption

theorem onlyIf {c : Bool} {x : Op Unit} (h : Calm f F x) : Calm f F (Machine.onlyIf c x) := ite h (pure h.bus _)

theorem many {one : Op α} (h : Calm f F one) (n : Nat) : Calm f F (Machine.many one n) := by
  induction n with
  | zero => exact pure h.bus _
  | succ n ih => exact h.bind fun _ => ih.bind fun _ => pure h.bus _

theorem forEach (hF : F.bus = false) {act : α → Op Unit} (h : ∀ a, Calm f F (act a)) (l : List α) :
    Calm f F (Machine.forEach act l) := by
  induction l with
  | nil => exact pure hF _
  | cons a l ih => exact (h a).bind fun _ => ih

theorem spinOn {poll : Op (Option α)} (hle : Foot.access.le F = true) (h : Calm f F poll) (n : Nat) :
    Calm f F (Machine.spinOn poll n) := by
  have count : ∀ m, Calm f F (Machine.upd fun s => { s with spinCount := m }) := fun m => upd h.bus
    ((Touches.upd (F := .access) fun s => by constructor <;> simp [Foot.access]).mono hle)
  induction n with
  | zero => exact raise h.bus _
  | succ n ih =>
    refine (count _).bind fun _ => h.bind fun r => ?_
    cases r with
    | some a => exact pure h.bus _
    | none => exact (count _).bind fun _ => ih

/-- Caught, such an operation ends in a value. -/
theorem ends_ok {x : Op α} (h : Calm f F x) (hs : OnWire f s) : ∃ t, bestEffort x s = .ok () t ∧ SameOn F s t := by
  cases hx : x s with
  | ok a t => exact ⟨t, bestEffort_ok hx, h.touches.of_ok hx⟩
  | error e t =>
    obtain ⟨c, rfl⟩ := h.ends s hs e t hx
    exact ⟨t, bestEffort_cause hx, h.touches.of_error hx⟩

end Calm

/-! ### Registers and the port -/

theorem calm_emit (e : Event) : Calm f .access (emit e) := .upd rfl (touches_emit e)

theorem calm_draw (get : Env → List α) (put : List α → Env → Env) (free : Nat → α) :
    Calm f .access (draw get put free) :=
  ⟨fun _ _ _ _ h => (by unfold draw at h; split at h <;> cases h), touches_draw _ _ _, rfl⟩

theorem calm_nextRegValue (r : Reg) : Calm f .access (nextRegValue r) := by
  cases r <;> unfold nextRegValue <;> exact calm_draw (α := Word) _ _ _

theorem calm_freshWord : Calm f .access freshWord := ⟨fun _ _ _ _ h => (by cases h), touches_freshWord, rfl⟩

theorem calm_famParams : Calm f .access famParams :=
  ⟨fun s hs e t h => (by simp [famParams, busFamily, bind, EStateM.bind, hs.owner] at h), touches_famParams, rfl⟩

theorem calm_regAt (r : Reg) : Calm f .access (regAt r) := by
  refine ⟨fun s hs e t h => ?_, touches_regAt r, rfl⟩
  have hr : regFits f ((s.cfg.fam f).off.of r) = true :=
    List.all_eq_true.mp hs.regs r (by cases r <;> simp [allRegs])
  simp [regAt, busFamily, bind, EStateM.bind, hs.owner, hr] at h

theorem calm_regRead (r : Reg) : Calm f .access (regRead r) :=
  (calm_regAt r).bind fun _ => (calm_nextRegValue r).bind fun _ => (calm_emit _).bind fun _ => .pure rfl _

theorem calm_pollPi {y : PiStatus → Option Unit} : Calm f .access (do let p ← nextPi; pure (y p)) :=
  (calm_draw Env.pi _ _).bind fun _ => .pure rfl _

theorem calm_regWrite (r : Reg) (v : Word) : Calm f .access (regWrite r v) :=
  (calm_regAt r).bind fun _ => (calm_emit _).bind fun _ => calm_famParams.bind fun _ => .spinOn rfl calm_pollPi _

theorem calm_pollStatus : Calm f .access pollStatus :=
  calm_famParams.bind fun _ => (calm_regRead _).bind fun _ => .pure rfl _

theorem calm_sdPort : Calm f .access sdPort := by
  refine ⟨fun s hs e t h => ?_, touches_sdPort, rfl⟩
  simp [sdPort, famParams, busFamily, bind, EStateM.bind, hs.owner, hs.bitLevel] at h

theorem calm_datPort : Calm f .access datPort := by
  refine ⟨fun s hs e t h => ?_, touches_datPort, rfl⟩
  simp [datPort, sdPort, famParams, busFamily, bind, EStateM.bind, hs.owner, hs.bitLevel, hs.native] at h

theorem calm_portConfig : Calm f .access portConfig :=
  calm_sdPort.bind fun _ => (Calm.get' rfl _).bind fun _ => calm_regWrite _ _

theorem calm_setBitLen (len : BitLen) : Calm f .clocked (setBitLen len) :=
  (calm_sdPort.mono rfl rfl).bind fun _ => (Calm.get' rfl _).bind fun _ =>
    (Calm.upd rfl (.upd fun s => by constructor <;> simp [Foot.clocked])).bind fun _ => .onlyIf (calm_portConfig.mono rfl rfl)

theorem calm_atSingleBit {body : Op α} (h : Calm f .clocked body) : Calm f .clocked (atSingleBit body) := by
  refine ((calm_setBitLen _).bind fun _ => h).attempt.bind fun r => ?_
  cases r with
  | ok a => exact (calm_setBitLen _).bind fun _ => .pure rfl _
  | error c =>
    have back : Calm f .clocked (bestEffort (setBitLen .b8)) := (calm_setBitLen _).attempt.bind fun _ => .pure rfl _
    exact back.bind fun _ => .raise rfl _

theorem calm_portWrite (r : Reg) (v : Word) : Calm f .access (portWrite r v) :=
  calm_sdPort.bind fun _ => .onlyIf
    ((calm_regWrite _ _).bind fun _ => (Calm.spinOn rfl calm_pollStatus _).bind fun _ => .pure rfl _)

theorem calm_portRead (r : Reg) (mask v : Word) : Calm f .access (portRead r mask v) :=
  calm_sdPort.bind fun _ => .onlyIf ((calm_regAt r).bind fun _ => calm_freshWord.bind fun _ => calm_emit _)

theorem calm_cmdTx (b : Byte) : Calm f .access (cmdTx b) :=
  calm_sdPort.bind fun _ => (calm_emit _).bind fun _ => calm_portWrite _ _

theorem calm_cmdRxBit : Calm f .access cmdRxBit :=
  calm_sdPort.bind fun _ => (calm_portWrite _ _).bind fun _ => (calm_draw Env.cmdLine _ _).bind fun _ =>
    (calm_portRead _ _ _).bind fun _ => (calm_emit _).bind fun _ => .pure rfl _

theorem calm_cmdRx : Calm f .access cmdRx :=
  calm_sdPort.bind fun _ => (calm_portWrite _ _).bind fun _ => ((calm_draw Env.cmdLine _ _).many 8).bind fun _ =>
    (calm_portRead _ _ _).bind fun _ => (calm_emit _).bind fun _ => .pure rfl _

theorem calm_laneClock : Calm f .access laneClock :=
  (calm_portWrite _ _).bind fun _ => (calm_draw Env.datLine _ _).bind fun _ =>
    (calm_portRead _ _ _).bind fun _ => .pure rfl _

theorem calm_datRxBit : Calm f .clocked datRxBit :=
  (calm_datPort.mono rfl rfl).bind fun _ => (Calm.ite (calm_atSingleBit (calm_laneClock.mono rfl rfl))
    (calm_laneClock.mono rfl rfl) : Calm f .clocked (singleLaneClock _)).bind fun _ =>
    ((calm_emit _).mono rfl rfl).bind fun _ => .pure rfl _

/-! ### A command, the clean-ups -/

theorem calm_collectResponse (spinMax len : Nat) : Calm f .clocked (collectResponse spinMax len) := by
  refine (calm_atSingleBit (Calm.mono (F := .access) ?_ rfl rfl)).bind fun _ =>
    ((calm_cmdRx.many _).mono rfl rfl).bind fun _ => .pure rfl _
  exact (Calm.spinOn rfl (calm_cmdRxBit.bind fun _ => .pure rfl _) _).bind fun _ =>
    (calm_cmdRxBit.many 7).bind fun _ => .pure rfl _

theorem calm_receiveResponse (p : Params) (q : FamilyParams) (kind : SdKind) (idx : BitVec 6) :
    Calm f .exchange (receiveResponse p q kind idx) := by
  have store : ∀ l, Calm f .exchange (upd fun s => { s with resp := l }) := fun l =>
    .upd rfl (.upd fun s => by constructor <;> simp [Foot.exchange])
  have trail : Calm f .exchange (trailClocks p.nTrail) := (Calm.forEach rfl calm_cmdTx _).mono rfl rfl
  unfold receiveResponse
  refine .ite ((store _).bind fun _ => trail) (((calm_collectResponse _ _).attempt.mono rfl rfl).bind fun r => ?_)
  cases r with
  | error c => exact (store _).bind fun _ => .raise rfl _
  | ok bytes =>
    refine (store _).bind fun _ => trail.bind fun _ => ?_
    split
    · exact .raise rfl _
    · exact .pure rfl _

/-- A command of the response-kind table. -/
theorem calm_executeCommand {app : Bool} {idx : BitVec 6} {kind : SdKind} (hk : respKind idx app = some kind)
    (arg : Word) : Calm f .exchange (executeCommand app idx arg) := by
  have send : ∀ l, Calm f .exchange (forEach cmdTx l) := fun l => (Calm.forEach rfl calm_cmdTx l).mono rfl rfl
  unfold executeCommand
  rw [hk]
  exact (calm_sdPort.mono rfl rfl).bind fun _ => (Calm.get' rfl _).bind fun _ =>
    (((Calm.upd rfl (.upd fun s => by constructor <;> simp [Foot.exchange])).bind fun _ =>
      ((calm_setBitLen _).mono rfl rfl).bind fun _ => (send _).bind fun _ => (send _).bind fun _ =>
      .upd rfl (.upd fun s => by constructor <;> simp [Foot.exchange]) : Calm f .exchange (transmitFrame _ _ _))).bind fun _ =>
    calm_receiveResponse _ _ _ _

theorem calm_waitNotBusy : Calm f .clocked waitNotBusy :=
  (calm_datPort.mono rfl rfl).bind fun _ => .spinOn rfl (calm_datRxBit.bind fun _ => .pure rfl _) _

theorem calm_stopStream : Calm f .command stopStream :=
  (calm_datPort.mono rfl rfl).bind fun _ => ((calm_executeCommand rfl _).attempt.mono rfl rfl).bind fun _ =>
    (Calm.upd rfl ((touches_setting fun ss => { ss with mode := .none }).mono rfl) :
      Calm f .command (setSession fun ss => { ss with mode := .none })).bind fun _ =>
      (Calm.rethrow rfl _).bind fun _ => calm_waitNotBusy.mono rfl rfl

/-- The clean-up of a failed transfer of a native card runs to its end and leaves the bracket open (R168, R271). -/
theorem abortTransfer_ends (h : OnWire f s) :
    ∃ t, abortTransfer s = .ok () t ∧ SameOn { Foot.transfer with seq := true } s t ∧ t.sess.mode = .none := by
  have hfam : famParams s = .ok (s.cfg.fam f) s := by simp [famParams, busFamily, bind, EStateM.bind, h.owner]
  have stop : ∃ t, onlyIf (s.sess.mode != .none && !(s.cfg.fam f).offload) (bestEffort stopStream) s = .ok () t ∧
      SameOn .command s t := by
    cases s.sess.mode != .none && !(s.cfg.fam f).offload with
    | true => exact calm_stopStream.ends_ok h
    | false => exact ⟨s, rfl, .refl _ _⟩
  obtain ⟨t, hrt, ht⟩ := stop
  have hset := (touches_session fun ss => { ss with mode := .none }).of_ok
    (s := t) (t := { t with sess := { t.sess with mode := .none } }) rfl
  have h1 := (h.of_same ht rfl).of_same hset rfl
  generalize hu : ({ t with sess := { t.sess with mode := .none } } : State) = u at hset h1
  have hfamu : famParams u = .ok (u.cfg.fam f) u := by simp [famParams, busFamily, bind, EStateM.bind, h1.owner]
  obtain ⟨v, hrv, hv⟩ := (calm_regWrite (f := f) .sdCfg
    (sdCfgWord (u.cfg.fam f) u.sess.busWidth u.sess.speed .b8 ||| (u.cfg.fam f).resetBits)).ends_ok h1
  obtain ⟨w, hrw, hw⟩ := (calm_regWrite (f := f) .sdCfg
    (sdCfgWord (u.cfg.fam f) u.sess.busWidth u.sess.speed .b8)).ends_ok (h1.of_same hv rfl)
  have hreset : resetPort u = .ok () w := by
    simp only [resetPort, bind_ok hfamu, get'_bind, h1.bitLevel, Bool.false_eq_true, if_false, bind_ok hrv, hrw]
  refine ⟨w, ?_, ((ht.mono rfl).trans (hset.mono rfl)).trans ((hv.mono rfl).trans (hw.mono rfl)), ?_⟩
  · simp only [abortTransfer, bind_ok hfam, get'_bind, bind_ok hrt, setSession, upd_bind, hu, hreset]
  · have hsess : w.sess = u.sess := by
      have := (hv.trans hw)
      have h2 := this.sess rfl
      have h3 := this.line rfl
      cases hw' : w.sess
      cases hu' : u.sess
      rw [hw', hu'] at h2 h3
      simp only [Session.mk.injEq] at h2 ⊢
      simp_all
    rw [hsess, ← hu]

end Sys2Proof.Machine
end

