-- ==== Sys2Proof/Laws/Memory.lean ====
section
/-! SUPPORT. Byte memory and the cache: the canonical form is kept, reads after writes, and what each cache operation
does to the two views of RAM (20_memory.md R72 to R74). -/

namespace Sys2Proof.Machine

/-! ### One byte memory -/

namespace Memory

variable {m : Memory} {a b lo : Nat} {v : Byte}

theorem wfFrom_mono {lo lo' : Nat} (h : lo' ≤ lo) : ∀ {m : Memory}, Memory.wfFrom lo m = true → Memory.wfFrom lo' m = true
  | [], _ => rfl
  | (k, w) :: rest, hm => by
    simp only [Memory.wfFrom, Bool.and_eq_true, decide_eq_true_eq] at hm ⊢
    exact ⟨⟨h.trans hm.1.1, hm.1.2⟩, hm.2⟩

theorem wfFrom_write (a : Nat) (v : Byte) : ∀ {lo : Nat} {m : Memory}, Memory.wfFrom lo m = true → lo ≤ a →
    Memory.wfFrom lo (Memory.write m a v) = true
  | lo, [], _, hlo => by
    unfold Memory.write
    split <;> simp_all [Memory.wfFrom]
  | lo, (k, w) :: rest, hm, hlo => by
    simp only [Memory.wfFrom, Bool.and_eq_true, decide_eq_true_eq] at hm
    obtain ⟨⟨hk, hw⟩, hrest⟩ := hm
    unfold Memory.write
    split
    · split
      · simp_all [Memory.wfFrom]
      · simp_all [Memory.wfFrom]
    · split
      · rename_i hak
        subst hak
        split
        · exact wfFrom_mono (by omega) hrest
        · simp_all [Memory.wfFrom]
      · have := wfFrom_write a v hrest (by omega)
        simp_all [Memory.wfFrom]

/-- Every write keeps the canonical form. -/
theorem wf_write (h : m.wf = true) (a : Nat) (v : Byte) : (m.write a v).wf = true := wfFrom_write a v h (Nat.zero_le _)

theorem wf_writeBytes (bs : List Byte) : ∀ {m : Memory} (_ : m.wf = true) (a : Nat), (m.writeBytes a bs).wf = true := by
  induction bs with
  | nil => exact fun h _ => h
  | cons b bs ih => exact fun h a => ih (wf_write h a b) (a + 1)

theorem read_below : ∀ {lo : Nat} {m : Memory}, Memory.wfFrom lo m = true → a < lo → m.read a = blankByte
  | _, [], _, _ => rfl
  | lo, (k, w) :: rest, hm, ha => by
    simp only [Memory.wfFrom, Bool.and_eq_true, decide_eq_true_eq] at hm
    rw [Memory.read, if_neg (by omega)]
    exact read_below hm.2 (by omega)

theorem read_write_self : ∀ {lo : Nat} {m : Memory}, Memory.wfFrom lo m = true → (m.write a v).read a = v
  | lo, [], _ => by
    unfold Memory.write
    split <;> simp_all [Memory.read]
  | lo, (k, w) :: rest, hm => by
    simp only [Memory.wfFrom, Bool.and_eq_true, decide_eq_true_eq] at hm
    unfold Memory.write
    split
    · split
      · rename_i hak hv
        rw [Memory.read, if_neg (by omega), hv]
        exact read_below hm.2 (by omega)
      · simp [Memory.read]
    · split
      · rename_i hak
        subst hak
        split
        · rename_i hv
          rw [hv]
          exact read_below hm.2 (by omega)
        · simp [Memory.read]
      · rw [Memory.read, if_neg (by omega)]
        exact read_write_self hm.2

/-- Reading what was just written. -/
theorem read_write (h : m.wf = true) : (m.write a v).read a = v := read_write_self h

/-- A write leaves every other byte alone. -/
theorem read_write_other (hb : b ≠ a) : ∀ m : Memory, (Memory.write m a v).read b = m.read b
  | [] => by
    unfold Memory.write
    split <;> simp [Memory.read, hb.symm]
  | (k, w) :: rest => by
    unfold Memory.write
    split
    · split
      · rfl
      · simp [Memory.read, hb.symm]
    · split
      · rename_i hak
        subst hak
        split <;> simp [Memory.read, hb.symm]
      · simp only [Memory.read, read_write_other hb rest]

/-- Bytes outside a written range are unchanged. -/
theorem read_writeBytes_outside (bs : List Byte) : ∀ (m : Memory) (a : Nat), (b < a ∨ a + bs.length ≤ b) →
    (m.writeBytes a bs).read b = m.read b := by
  induction bs with
  | nil => exact fun _ _ _ => rfl
  | cons x bs ih =>
    intro m a h
    simp only [List.length_cons] at h
    rw [Memory.writeBytes, ih _ _ (by omega), read_write_other (by omega)]

/-- Bytes inside a written range are those written. -/
theorem read_writeBytes_inside (bs : List Byte) : ∀ {m : Memory} (_ : m.wf = true) (a : Nat) {j : Nat}, j < bs.length →
    (m.writeBytes a bs).read (a + j) = bs.getD j blankByte := by
  induction bs with
  | nil => intro _ _ _ j hj; simp at hj
  | cons x bs ih =>
    intro m h a j hj
    rw [Memory.writeBytes]
    cases j with
    | zero =>
      have := read_writeBytes_outside (b := a) bs (m.write a x) (a + 1) (.inl (Nat.lt_succ_self a))
      exact this.trans (read_write h)
    | succ j =>
      have := ih (wf_write h a x) (a + 1) (j := j) (by simpa using hj)
      rw [show a + (j + 1) = a + 1 + j by omega, this]
      simp

theorem length_readBytes (a n : Nat) : (m.readBytes a n).length = n := by simp [Memory.readBytes]

theorem getD_readBytes (a : Nat) {n j : Nat} (hj : j < n) : (m.readBytes a n).getD j blankByte = m.read (a + j) := by
  simp [Memory.readBytes, List.getD, hj]

/-- Reading back what was written. -/
theorem readBytes_writeBytes (h : m.wf = true) (a : Nat) (bs : List Byte) :
    (m.writeBytes a bs).readBytes a bs.length = bs := by
  apply List.ext_getElem (length_readBytes _ _)
  intro j h1 h2
  have := read_writeBytes_inside bs h a h2
  simp only [Memory.readBytes, List.getElem_map, List.getElem_range, this]
  simp [List.getD, h2]

/-- Two canonical memories that read alike are equal data. -/
theorem ext : ∀ {lo : Nat} {m n : Memory}, Memory.wfFrom lo m = true → Memory.wfFrom lo n = true →
    (∀ a, m.read a = n.read a) → m = n
  | _, [], [], _, _, _ => rfl
  | lo, [], (k, w) :: rest, _, hn, h => by
    simp only [Memory.wfFrom, Bool.and_eq_true, decide_eq_true_eq] at hn
    have := h k
    simp [Memory.read] at this
    simp [← this] at hn
  | lo, (k, w) :: rest, [], hm, _, h => by
    simp only [Memory.wfFrom, Bool.and_eq_true, decide_eq_true_eq] at hm
    have := h k
    simp [Memory.read] at this
    simp [this] at hm
  | lo, (k, w) :: rest, (k', w') :: rest', hm, hn, h => by
    simp only [Memory.wfFrom, Bool.and_eq_true, decide_eq_true_eq] at hm hn
    obtain ⟨⟨hk, hw⟩, hr⟩ := hm
    obtain ⟨⟨hk', hw'⟩, hr'⟩ := hn
    have hkk : k = k' := by
      by_contra hne
      rcases Nat.lt_or_gt_of_ne hne with hlt | hlt
      · have := h k
        simp only [Memory.read, if_true, if_neg (Ne.symm hne)] at this
        rw [read_below hr' (by omega)] at this
        simp [this] at hw
      · have := h k'
        simp only [Memory.read, if_true, if_neg hne] at this
        rw [read_below hr (by omega)] at this
        simp [← this] at hw'
    subst hkk
    have hww : w = w' := by simpa [Memory.read] using h k
    subst hww
    congr 1
    refine ext hr hr' fun a => ?_
    by_cases ha : a = k
    · subst ha; rw [read_below hr (Nat.lt_succ_self _), read_below hr' (Nat.lt_succ_self _)]
    · have := h a
      simpa [Memory.read, Ne.symm ha] using this

end Memory

/-! ### Lines -/

variable {c a b n : Nat} {s t : State}

theorem lineBase_mod (a : Nat) : lineBase c a % c = 0 := by
  unfold lineBase
  rw [Nat.sub_mod_eq_zero_of_mod_eq (by rw [Nat.mod_mod])]

theorem lineBase_le (a : Nat) : lineBase c a ≤ a := Nat.sub_le _ _

theorem lt_lineBase (hc : 0 < c) (a : Nat) : a < lineBase c a + c := by
  have := Nat.mod_lt a hc
  have := Nat.mod_le a c
  unfold lineBase
  omega

/-- The line an address lies in, told from its bounds. -/
theorem lineBase_of_mem {base : Nat} (hb : base % c = 0) (h1 : base ≤ a) (h2 : a < base + c) :
    lineBase c a = base := by
  obtain ⟨k, rfl⟩ := Nat.dvd_of_mod_eq_zero hb
  obtain ⟨j, rfl⟩ := Nat.exists_eq_add_of_le h1
  have hj : j < c := by omega
  have : (c * k + j) % c = j := by rw [Nat.mul_add_mod, Nat.mod_eq_of_lt hj]
  unfold lineBase
  omega

/-- Lines that a state may hold: distinct, aligned and full. -/
structure Lines (c : Nat) (cache : List CacheLine) : Prop where
  distinct : cache.Pairwise fun l m => l.base ≠ m.base
  aligned : ∀ l ∈ cache, l.base % c = 0
  full : ∀ l ∈ cache, l.data.length = c

theorem CacheInv.lines (h : CacheInv s) : Lines s.cfg.cacheLine s.cache := ⟨h.distinct, h.aligned, h.full⟩

theorem Lines.tail {l : CacheLine} {cache : List CacheLine} (h : Lines c (l :: cache)) : Lines c cache :=
  ⟨h.distinct.of_cons, fun m hm => h.aligned m (.tail _ hm), fun m hm => h.full m (.tail _ hm)⟩

theorem findLine_some {cache : List CacheLine} {l : CacheLine} (h : findLine cache b = some l) : l ∈ cache ∧ l.base = b := by
  refine ⟨List.mem_of_find?_eq_some h, ?_⟩
  have := List.find?_some h
  simpa using this

theorem findLine_cons_eq {l : CacheLine} (cache : List CacheLine) (h : l.base = b) : findLine (l :: cache) b = some l := by
  have : (l.base == b) = true := by simpa using h
  simp only [findLine, List.find?_cons, this]

theorem findLine_cons_ne {l : CacheLine} (cache : List CacheLine) (h : l.base ≠ b) :
    findLine (l :: cache) b = findLine cache b := by
  have : (l.base == b) = false := by simpa using h
  simp only [findLine, List.find?_cons, this]

theorem findLine_of_mem {cache : List CacheLine} (hd : cache.Pairwise fun l m => l.base ≠ m.base) {l : CacheLine}
    (hl : l ∈ cache) : findLine cache l.base = some l := by
  induction cache with
  | nil => cases hl
  | cons m cache ih =>
    rcases List.mem_cons.mp hl with rfl | hl
    · exact findLine_cons_eq _ rfl
    · rw [findLine_cons_ne _ (List.rel_of_pairwise_cons hd hl)]
      exact ih hd.of_cons hl

/-- Changing the lines but not their bases. -/
theorem findLine_map (g : CacheLine → CacheLine) (hg : ∀ l, (g l).base = l.base) (cache : List CacheLine) (b : Nat) :
    findLine (cache.map g) b = (findLine cache b).map g := by
  induction cache with
  | nil => rfl
  | cons l cache ih =>
    by_cases h : l.base = b
    · rw [List.map_cons, findLine_cons_eq _ h, findLine_cons_eq _ ((hg l).trans h)]; rfl
    · rw [List.map_cons, findLine_cons_ne _ h, findLine_cons_ne _ (by rwa [hg l]), ih]

theorem findLine_none {cache : List CacheLine} (h : ∀ l ∈ cache, l.base ≠ b) : findLine cache b = none := by
  simpa [findLine, List.find?_eq_none] using h

theorem findLine_eq_none {cache : List CacheLine} (h : findLine cache b = none) : ∀ l ∈ cache, l.base ≠ b := by
  simpa [findLine, List.find?_eq_none] using h

/-! ### Writing lines back -/

theorem wf_writeBackLines (pick : CacheLine → Bool) : ∀ (cache : List CacheLine) {m : Memory} (_ : m.wf = true),
    (writeBackLines pick cache m).wf = true := by
  intro cache
  induction cache with
  | nil => exact fun h => h
  | cons l cache ih =>
    intro m h
    refine ih (m := if l.dirty && pick l then m.writeBytes l.base l.data else m) ?_
    split
    · exact Memory.wf_writeBytes _ h _
    · exact h

/-- A byte of RAM after write-backs: of the line that held it if that line was dirty and chosen, else as before. -/
theorem read_writeBackLines (hc : 0 < c) (pick : CacheLine → Bool) : ∀ (cache : List CacheLine) {m : Memory}
    (_ : m.wf = true) (_ : Lines c cache) (a : Nat),
    (writeBackLines pick cache m).read a =
      match findLine cache (lineBase c a) with
      | some l => if l.dirty && pick l then l.data.getD (a - l.base) blankByte else m.read a
      | none => m.read a := by
  intro cache
  induction cache with
  | nil => intro m _ _ a; rfl
  | cons l cache ih =>
    intro m hm hl a
    have hm' : (if l.dirty && pick l then m.writeBytes l.base l.data else m).wf = true := by
      split
      · exact Memory.wf_writeBytes _ hm _
      · exact hm
    have := ih hm' hl.tail a
    rw [show writeBackLines pick (l :: cache) m =
      writeBackLines pick cache (if l.dirty && pick l then m.writeBytes l.base l.data else m) from rfl, this]
    by_cases hb : l.base = lineBase c a
    · have hnone : findLine cache (lineBase c a) = none :=
        findLine_none fun k hk => hb ▸ (List.rel_of_pairwise_cons hl.distinct hk).symm
      have hsome : findLine (l :: cache) (lineBase c a) = some l := findLine_cons_eq _ hb
      rw [hnone, hsome]
      dsimp only
      split
      · have hlen := hl.full l (.head _)
        have h1 := lineBase_le (c := c) a
        have h2 := lt_lineBase hc a
        have := Memory.read_writeBytes_inside l.data hm l.base (j := a - l.base) (by omega)
        rwa [show l.base + (a - l.base) = a by omega] at this
      · rfl
    · have hsome : findLine (l :: cache) (lineBase c a) = findLine cache (lineBase c a) :=
        findLine_cons_ne _ hb
      have hread : (if l.dirty && pick l then m.writeBytes l.base l.data else m).read a = m.read a := by
        split
        · apply Memory.read_writeBytes_outside
          rw [hl.full l (.head _)]
          by_contra hcon
          exact hb (lineBase_of_mem (hl.aligned l (.head _)) (by omega) (by omega)).symm
        · rfl
      rw [hsome, hread]

/-! ### The host view -/

theorem hostByte_present (h : CacheInv s) {l : CacheLine} (hl : l ∈ s.cache) (ha : l.base = lineBase s.cfg.cacheLine a) :
    s.hostByte a = l.data.getD (a - l.base) blankByte := by
  unfold State.hostByte
  rw [← ha, findLine_of_mem h.distinct hl]

theorem hostByte_absent (h : ∀ l ∈ s.cache, l.base ≠ lineBase s.cfg.cacheLine a) : s.hostByte a = s.phys.read a := by
  unfold State.hostByte
  rw [findLine_none h]

/-- Where the line of an address is not dirty, the two views agree (R72). -/
theorem hostByte_clean (hc : 0 < s.cfg.cacheLine) (h : CacheInv s)
    (hd : ∀ l ∈ s.cache, l.base = lineBase s.cfg.cacheLine a → l.dirty = false) : s.hostByte a = s.phys.read a := by
  cases hf : findLine s.cache (lineBase s.cfg.cacheLine a) with
  | none => exact hostByte_absent (findLine_eq_none hf)
  | some l =>
    obtain ⟨hl, hb⟩ := findLine_some hf
    have h1 := lineBase_le (c := s.cfg.cacheLine) a
    have h2 := lt_lineBase hc a
    rw [hostByte_present h hl hb, h.clean l hl (hd l hl hb) (a - l.base) (by omega)]
    congr 1
    omega

/-- Writing lines back and then dropping or cleaning lines none of which is still dirty: the host view is unchanged. -/
theorem hostByte_writeBack (hc : 0 < s.cfg.cacheLine) (h : CacheInv s) (hm : s.phys.wf = true) (pick : CacheLine → Bool)
    {cache' : List CacheLine}
    (hlines : ∀ b, findLine cache' b = none ∧ (∀ l, findLine s.cache b = some l → l.dirty = false ∨ pick l = true) ∨
      ∃ l l', findLine s.cache b = some l ∧ findLine cache' b = some l' ∧ l'.data = l.data ∧ l'.base = l.base) (a : Nat) :
    State.hostByte { s with phys := writeBackLines pick s.cache s.phys, cache := cache' } a = s.hostByte a := by
  unfold State.hostByte
  dsimp only
  rcases hlines (lineBase s.cfg.cacheLine a) with ⟨hnone, hdirty⟩ | ⟨l, l', hl, hl', hdata, hbase⟩
  · rw [hnone]
    dsimp only
    rw [read_writeBackLines hc pick s.cache hm h.lines a]
    cases hf : findLine s.cache (lineBase s.cfg.cacheLine a) with
    | none => rfl
    | some l =>
      dsimp only
      split
      · rfl
      · rename_i hno
        have hclean : l.dirty = false := by
          rcases hdirty l hf with hd | hp
          · exact hd
          · simpa [hp] using hno
        obtain ⟨hmem, hb⟩ := findLine_some hf
        have h1 := lineBase_le (c := s.cfg.cacheLine) a
        have h2 := lt_lineBase hc a
        rw [h.clean l hmem hclean (a - l.base) (by omega)]
        congr 1
        omega
  · simp only [hl', hl, hdata, hbase]

theorem findLine_clean (pick : CacheLine → Bool) (cache : List CacheLine) (b : Nat) :
    findLine (cleanLines pick cache) b =
      (findLine cache b).map fun l => if pick l then { l with dirty := false } else l :=
  findLine_map _ (fun l => by split <;> rfl) cache b

theorem findLine_filter (keep : CacheLine → Bool) {cache : List CacheLine}
    (hd : cache.Pairwise fun l m => l.base ≠ m.base) (b : Nat) :
    findLine (cache.filter keep) b = (findLine cache b).filter keep := by
  induction cache with
  | nil => rfl
  | cons l cache ih =>
    have hne : ∀ m ∈ cache, l.base ≠ m.base := fun m hm => List.rel_of_pairwise_cons hd hm
    by_cases h : l.base = b
    · rw [findLine_cons_eq _ h]
      by_cases hk : keep l = true
      · rw [List.filter_cons_of_pos hk, findLine_cons_eq _ h]; simp [Option.filter, hk]
      · rw [List.filter_cons_of_neg hk, findLine_none fun m hm => (h ▸ hne m (List.mem_of_mem_filter hm)).symm]
        simp [Option.filter, hk]
    · rw [findLine_cons_ne _ h, ← ih hd.of_cons]
      by_cases hk : keep l = true
      · rw [List.filter_cons_of_pos hk, findLine_cons_ne _ h]
      · rw [List.filter_cons_of_neg hk]

/-! ### `CacheWb`, `CacheWbInv`, and the cache on its own -/

theorem Lines.clean (pick : CacheLine → Bool) {cache : List CacheLine} (h : Lines c cache) :
    Lines c (cleanLines pick cache) := by
  have hb : ∀ l : CacheLine, (if pick l then { l with dirty := false } else l).base = l.base ∧
      (if pick l then { l with dirty := false } else l).data = l.data := fun l => by split <;> exact ⟨rfl, rfl⟩
  refine ⟨?_, ?_, ?_⟩
  · refine List.pairwise_map.mpr (h.distinct.imp ?_)
    intro l m hlm
    rwa [(hb l).1, (hb m).1]
  · intro l hl
    obtain ⟨m, hm, rfl⟩ := List.mem_map.mp hl
    rw [(hb m).1]; exact h.aligned m hm
  · intro l hl
    obtain ⟨m, hm, rfl⟩ := List.mem_map.mp hl
    rw [(hb m).2]; exact h.full m hm

theorem Lines.filter (keep : CacheLine → Bool) {cache : List CacheLine} (h : Lines c cache) :
    Lines c (cache.filter keep) :=
  ⟨h.distinct.filter _, fun l hl => h.aligned l (List.mem_of_mem_filter hl), fun l hl => h.full l (List.mem_of_mem_filter hl)⟩

/-- A line of the cache reads back from RAM after write-backs if it was clean or was one of those written. -/
theorem read_line_written (hc : 0 < s.cfg.cacheLine) (h : CacheInv s) (hm : s.phys.wf = true) (pick : CacheLine → Bool)
    {l : CacheLine} (hl : l ∈ s.cache) (hd : l.dirty = false ∨ pick l = true) {j : Nat} (hj : j < s.cfg.cacheLine) :
    (writeBackLines pick s.cache s.phys).read (l.base + j) = l.data.getD j blankByte := by
  have hb : lineBase s.cfg.cacheLine (l.base + j) = l.base :=
    lineBase_of_mem (h.aligned l hl) (by omega) (by omega)
  rw [read_writeBackLines hc pick s.cache hm h.lines, hb, findLine_of_mem h.distinct hl]
  dsimp only
  split
  · congr 1; omega
  · rename_i hno
    have hclean : l.dirty = false := by
      rcases hd with hd | hp
      · exact hd
      · simpa [hp] using hno
    exact (h.clean l hl hclean j hj).symm

/-- Keeping the cache's invariant through write-backs that clean the lines they write. -/
theorem CacheInv.cleaned (hc : 0 < s.cfg.cacheLine) (h : CacheInv s) (hm : s.phys.wf = true) (pick : CacheLine → Bool) :
    CacheInv { s with phys := writeBackLines pick s.cache s.phys, cache := cleanLines pick s.cache } := by
  have hl := h.lines.clean pick
  refine ⟨hl.distinct, hl.aligned, hl.full, ?_⟩
  intro l hl hd j hj
  obtain ⟨m, hmem, rfl⟩ := List.mem_map.mp hl
  have hor : m.dirty = false ∨ pick m = true := by
    by_cases hp : pick m = true
    · exact .inr hp
    · simp only [hp, if_false, Bool.false_eq_true] at hd
      exact .inl hd
  have := read_line_written hc h hm pick hmem hor hj
  have hb : (if pick m then { m with dirty := false } else m).base = m.base ∧
      (if pick m then { m with dirty := false } else m).data = m.data := by split <;> exact ⟨rfl, rfl⟩
  rw [hb.1, hb.2]
  exact this.symm

/-- Keeping it through write-backs that drop the lines they write. -/
theorem CacheInv.dropped (hc : 0 < s.cfg.cacheLine) (h : CacheInv s) (hm : s.phys.wf = true) (pick keep : CacheLine → Bool) :
    CacheInv { s with phys := writeBackLines pick s.cache s.phys, cache := s.cache.filter keep } := by
  have hl := h.lines.filter keep
  refine ⟨hl.distinct, hl.aligned, hl.full, ?_⟩
  intro l hl hd j hj
  exact (read_line_written hc h hm pick (List.mem_of_mem_filter hl) (.inl hd) hj).symm

theorem CacheInv.cacheWb (hc : 0 < s.cfg.cacheLine) (h : CacheInv s) (hm : s.phys.wf = true) (a n : Nat) :
    CacheInv (s.cacheWb a n) := h.cleaned hc hm _

theorem CacheInv.cacheWbInv (hc : 0 < s.cfg.cacheLine) (h : CacheInv s) (hm : s.phys.wf = true) (a n : Nat) :
    CacheInv (s.cacheWbInv a n) := h.dropped hc hm _ _

theorem writeBack_none (cache : List CacheLine) (m : Memory) : writeBackLines (fun _ => false) cache m = m := by
  induction cache with
  | nil => rfl
  | cons l cache ih => simp [writeBackLines]

theorem CacheInv.cacheAct (hc : 0 < s.cfg.cacheLine) (h : CacheInv s) (hm : s.phys.wf = true) (x : CacheAct) :
    CacheInv (s.cacheAct x) := by
  cases x with
  | writeBack b => exact h.cleaned hc hm _
  | drop b =>
    have := h.dropped hc hm (fun _ => false) (fun l => !(l.base == b && !l.dirty))
    rwa [writeBack_none] at this

/-- Neither cache operation changes the host view (R73, R74). -/
theorem hostByte_cacheWb (hc : 0 < s.cfg.cacheLine) (h : CacheInv s) (hm : s.phys.wf = true) (a n b : Nat) :
    (s.cacheWb a n).hostByte b = s.hostByte b := by
  refine hostByte_writeBack hc h hm _ (fun k => ?_) b
  rw [findLine_clean]
  cases hf : findLine s.cache k with
  | none => exact .inl ⟨rfl, by simp⟩
  | some l => exact .inr ⟨l, _, rfl, rfl, by dsimp only; split <;> rfl, by dsimp only; split <;> rfl⟩

theorem hostByte_cacheWbInv (hc : 0 < s.cfg.cacheLine) (h : CacheInv s) (hm : s.phys.wf = true) (a n b : Nat) :
    (s.cacheWbInv a n).hostByte b = s.hostByte b := by
  refine hostByte_writeBack hc h hm _ (fun k => ?_) b
  rw [findLine_filter _ h.distinct]
  cases hf : findLine s.cache k with
  | none => exact .inl ⟨rfl, by simp⟩
  | some l =>
    by_cases hp : CacheLine.covers s.cfg.cacheLine a n l = true
    · exact .inl ⟨by simp [Option.filter, hp], fun m hm => by cases hm; exact .inr hp⟩
    · exact .inr ⟨l, l, rfl, by simp [Option.filter, hp], rfl, rfl⟩

/-- What the cache does on its own is not seen by the host (R72). -/
theorem hostByte_cacheAct (hc : 0 < s.cfg.cacheLine) (h : CacheInv s) (hm : s.phys.wf = true) (x : CacheAct) (b : Nat) :
    (s.cacheAct x).hostByte b = s.hostByte b := by
  cases x with
  | writeBack base =>
    refine hostByte_writeBack hc h hm _ (fun k => ?_) b
    rw [findLine_clean]
    cases hf : findLine s.cache k with
    | none => exact .inl ⟨rfl, by simp⟩
    | some l => exact .inr ⟨l, _, rfl, rfl, by dsimp only; split <;> rfl, by dsimp only; split <;> rfl⟩
  | drop base =>
    have := hostByte_writeBack hc h hm (fun _ => false)
      (cache' := s.cache.filter fun l => !(l.base == base && !l.dirty)) (fun k => ?_) b
    · rwa [writeBack_none] at this
    · rw [findLine_filter _ h.distinct]
      cases hf : findLine s.cache k with
      | none => exact .inl ⟨rfl, by simp⟩
      | some l =>
        by_cases hp : (l.base == base && !l.dirty) = true
        · refine .inl ⟨by simp [Option.filter, hp], fun m hm => ?_⟩
          cases hm
          exact .inl (by simp at hp; exact hp.2)
        · exact .inr ⟨l, l, rfl, by simp [Option.filter]; simpa using hp, rfl, rfl⟩

/-! ### Host accesses -/

theorem fillLine_present {l : CacheLine} (h : findLine s.cache (lineBase s.cfg.cacheLine a) = some l) : s.fillLine a = s := by
  simp [State.fillLine, h]

theorem CacheInv.fillLine (h : CacheInv s) (a : Nat) : CacheInv (s.fillLine a) := by
  unfold State.fillLine
  split
  · exact h
  · rename_i hf
    refine ⟨List.pairwise_cons.mpr ⟨fun l hl => (findLine_eq_none hf l hl).symm, h.distinct⟩, ?_, ?_, ?_⟩
    · rintro l (_ | ⟨_, hl⟩)
      · exact lineBase_mod a
      · exact h.aligned l hl
    · rintro l (_ | ⟨_, hl⟩)
      · exact Memory.length_readBytes _ _
      · exact h.full l hl
    · rintro l (_ | ⟨_, hl⟩) hd j hj
      · exact Memory.getD_readBytes _ hj
      · exact h.clean l hl hd j hj

theorem hostByte_fillLine (hc : 0 < s.cfg.cacheLine) (a b : Nat) : (s.fillLine a).hostByte b = s.hostByte b := by
  unfold State.fillLine
  split
  · rfl
  · rename_i hf
    unfold State.hostByte
    dsimp only
    by_cases hb : lineBase s.cfg.cacheLine a = lineBase s.cfg.cacheLine b
    · rw [hb] at hf
      have h1 := lineBase_le (c := s.cfg.cacheLine) b
      have h2 := lt_lineBase hc b
      rw [hf]
      simp only [findLine, hb, List.find?_cons, BEq.rfl]
      rw [Memory.getD_readBytes _ (by omega)]
      congr 1
      omega
    · have : findLine (⟨lineBase s.cfg.cacheLine a, false,
          s.phys.readBytes (lineBase s.cfg.cacheLine a) s.cfg.cacheLine⟩ :: s.cache) (lineBase s.cfg.cacheLine b) =
          findLine s.cache (lineBase s.cfg.cacheLine b) := findLine_cons_ne _ hb
      rw [this]

theorem fillLine_cfg (a : Nat) : (s.fillLine a).cfg = s.cfg := by
  unfold State.fillLine; split <;> rfl

theorem fillLine_phys (a : Nat) : (s.fillLine a).phys = s.phys := by
  unfold State.fillLine; split <;> rfl

theorem fillLine_found (a : Nat) : ∃ l, findLine (s.fillLine a).cache (lineBase s.cfg.cacheLine a) = some l := by
  unfold State.fillLine
  split
  · rename_i l hf; exact ⟨l, hf⟩
  · exact ⟨_, by simp [findLine]; rfl⟩

theorem findLine_store (base a : Nat) (v : Byte) (cache : List CacheLine) (b : Nat) :
    findLine (storeInLines base a v cache) b = (findLine cache b).map fun l =>
      if l.base = base then { l with dirty := true, data := l.data.set (a - l.base) v } else l :=
  findLine_map _ (fun l => by split <;> rfl) cache b

theorem CacheInv.hostStore (h : CacheInv s) (a : Nat) (v : Byte) : CacheInv (s.hostStore a v) := by
  have hf := h.fillLine a
  unfold State.hostStore
  dsimp only
  generalize s.fillLine a = t at hf
  have hb : ∀ base (l : CacheLine),
      (if l.base = base then { l with dirty := true, data := l.data.set (a - l.base) v } else l).base = l.base ∧
      (if l.base = base then { l with dirty := true, data := l.data.set (a - l.base) v } else l).data.length =
        l.data.length := fun base l => by split <;> simp
  refine ⟨?_, ?_, ?_, ?_⟩
  · refine List.pairwise_map.mpr (hf.distinct.imp ?_)
    intro l m hlm
    rwa [(hb _ l).1, (hb _ m).1]
  · intro l hl
    obtain ⟨m, hm, rfl⟩ := List.mem_map.mp hl
    rw [(hb _ m).1]; exact hf.aligned m hm
  · intro l hl
    obtain ⟨m, hm, rfl⟩ := List.mem_map.mp hl
    rw [(hb _ m).2]; exact hf.full m hm
  · intro l hl hd
    obtain ⟨m, hm, rfl⟩ := List.mem_map.mp hl
    split at hd
    · cases hd
    · rename_i hne
      rw [if_neg hne]
      exact hf.clean m hm hd

/-- A host store changes one byte of the host view (R72). -/
theorem hostByte_hostStore (hc : 0 < s.cfg.cacheLine) (h : CacheInv s) (a : Nat) (v : Byte) (b : Nat) :
    (s.hostStore a v).hostByte b = if b = a then v else s.hostByte b := by
  have hf := h.fillLine a
  have hcfg := fillLine_cfg (s := s) a
  obtain ⟨l, hl⟩ := fillLine_found (s := s) a
  rw [← hostByte_fillLine hc a b]
  unfold State.hostStore
  dsimp only
  generalize s.fillLine a = t at hf hl hcfg
  rw [← hcfg] at hl hc
  obtain ⟨hmem, hbase⟩ := findLine_some hl
  unfold State.hostByte
  dsimp only
  rw [findLine_store]
  have ha1 := lineBase_le (c := t.cfg.cacheLine) a
  have ha2 := lt_lineBase hc a
  have hb1 := lineBase_le (c := t.cfg.cacheLine) b
  have hb2 := lt_lineBase hc b
  have hlen := hf.full l hmem
  by_cases hsame : lineBase t.cfg.cacheLine b = lineBase t.cfg.cacheLine a
  · rw [hsame, hl]
    simp only [Option.map_some, hbase, if_true]
    by_cases hba : b = a
    · subst hba
      have : b - lineBase t.cfg.cacheLine b < l.data.length := by omega
      simp [List.getD, this]
    · have : a - lineBase t.cfg.cacheLine a ≠ b - lineBase t.cfg.cacheLine a := by omega
      simp [List.getD, this, hba]
  · have hba : b ≠ a := fun h => hsame (by rw [h])
    rw [if_neg hba]
    cases hfb : findLine t.cache (lineBase t.cfg.cacheLine b) with
    | none => rfl
    | some k =>
      have hk := (findLine_some hfb).2
      simp only [Option.map_some, hk, if_neg hsame]

theorem hostStore_cfg (a : Nat) (v : Byte) : (s.hostStore a v).cfg = s.cfg := fillLine_cfg a
theorem hostStore_phys (a : Nat) (v : Byte) : (s.hostStore a v).phys = s.phys := fillLine_phys a

theorem hostStoreBytes_spec (bs : List Byte) : ∀ {s : State} (_ : 0 < s.cfg.cacheLine) (_ : CacheInv s) (a : Nat),
    CacheInv (s.hostStoreBytes a bs) ∧ (s.hostStoreBytes a bs).cfg = s.cfg ∧ (s.hostStoreBytes a bs).phys = s.phys ∧
    ∀ b, (s.hostStoreBytes a bs).hostByte b = if a ≤ b ∧ b < a + bs.length then bs.getD (b - a) blankByte else s.hostByte b := by
  induction bs with
  | nil => intro s _ h a; exact ⟨h, rfl, rfl, fun b => by simp [State.hostStoreBytes]⟩
  | cons x bs ih =>
    intro s hc h a
    have hcfg := hostStore_cfg (s := s) a x
    obtain ⟨h1, h2, h3, h4⟩ := ih (s := s.hostStore a x) (by rwa [hcfg]) (h.hostStore a x) (a + 1)
    refine ⟨h1, h2.trans hcfg, h3.trans (hostStore_phys a x), fun b => ?_⟩
    rw [State.hostStoreBytes, h4 b, hostByte_hostStore hc h a x b]
    simp only [List.length_cons]
    by_cases hba : b = a
    · subst hba; simp
    · by_cases hin : a + 1 ≤ b ∧ b < a + 1 + bs.length
      · rw [if_pos hin, if_pos (by omega), show b - a = (b - (a + 1)) + 1 by omega]
        simp
      · rw [if_neg hin, if_neg hba, if_neg (by omega)]

theorem touchBytes_spec (n : Nat) : ∀ {s : State} (_ : 0 < s.cfg.cacheLine) (_ : CacheInv s) (a : Nat),
    CacheInv (s.touchBytes a n) ∧ (s.touchBytes a n).cfg = s.cfg ∧ (s.touchBytes a n).phys = s.phys ∧
    ∀ b, (s.touchBytes a n).hostByte b = s.hostByte b := by
  induction n with
  | zero => intro s _ h a; exact ⟨h, rfl, rfl, fun _ => rfl⟩
  | succ n ih =>
    intro s hc h a
    have hcfg := fillLine_cfg (s := s) a
    obtain ⟨h1, h2, h3, h4⟩ := ih (s := s.fillLine a) (by rwa [hcfg]) (h.fillLine a) (a + 1)
    exact ⟨h1, h2.trans hcfg, h3.trans (fillLine_phys a), fun b => (h4 b).trans (hostByte_fillLine hc a b)⟩

/-- One 64-bit move: eight bytes of the host view copied, every other one unchanged (R60). -/
theorem move8_spec (hc : 0 < s.cfg.cacheLine) (h : CacheInv s) (src dst : Nat) :
    CacheInv (s.move8 src dst) ∧ (s.move8 src dst).cfg = s.cfg ∧ (s.move8 src dst).phys = s.phys ∧
    ∀ b, (s.move8 src dst).hostByte b = if dst ≤ b ∧ b < dst + 8 then s.hostByte (src + (b - dst)) else s.hostByte b := by
  obtain ⟨t1, t2, t3, t4⟩ := touchBytes_spec 8 hc h src
  obtain ⟨h1, h2, h3, h4⟩ := hostStoreBytes_spec (s.hostBytes src 8) (by rwa [t2]) t1 dst
  refine ⟨h1, h2.trans t2, h3.trans t3, fun b => (h4 b).trans ?_⟩
  have hlen : (s.hostBytes src 8).length = 8 := by simp [State.hostBytes]
  rw [hlen]
  split
  · simp only [State.hostBytes, List.getD]
    rw [List.getElem?_map, List.getElem?_range (by omega)]
    rfl
  · exact t4 b

/-! ### The engine side: writes of RAM behind the cache's back (R68, R75) -/

/-- No line of the cache lies over a range. -/
def NoLine (s : State) (a n : Nat) : Prop := ∀ l ∈ s.cache, CacheLine.covers s.cfg.cacheLine a n l = false

/-- No dirty line of the cache lies over a range. -/
def NoDirty (s : State) (a n : Nat) : Prop := ∀ l ∈ s.cache, CacheLine.covers s.cfg.cacheLine a n l = true → l.dirty = false

theorem covers_of_mem (hc : 0 < c) {l : CacheLine} (hb : l.base = lineBase c b) (h1 : a ≤ b) (h2 : b < a + n) :
    CacheLine.covers c a n l = true := by
  have := lineBase_le (c := c) b
  have := lt_lineBase hc b
  simp [CacheLine.covers]
  omega

theorem noLine_cacheWbInv (a n : Nat) : NoLine (s.cacheWbInv a n) a n := by
  intro l hl
  have := (List.mem_filter.mp hl).2
  simpa [State.cacheWbInv] using this

theorem noDirty_cacheWb (a n : Nat) : NoDirty (s.cacheWb a n) a n := by
  intro l hl hcov
  obtain ⟨m, hm, rfl⟩ := List.mem_map.mp hl
  by_cases hp : CacheLine.covers s.cfg.cacheLine a n m = true
  · simp [hp]
  · simp only [hp, if_false, Bool.false_eq_true] at hcov
    exact absurd hcov hp

theorem mem_cacheAct {x : CacheAct} {l : CacheLine} (hl : l ∈ (s.cacheAct x).cache) :
    ∃ m ∈ s.cache, m.base = l.base ∧ (m.dirty = false → l.dirty = false) := by
  cases x with
  | writeBack b =>
    obtain ⟨m, hm, rfl⟩ := List.mem_map.mp hl
    exact ⟨m, hm, by split <;> rfl, by split <;> simp⟩
  | drop b => exact ⟨l, List.mem_of_mem_filter hl, rfl, id⟩

theorem cacheAct_cfg (x : CacheAct) : (s.cacheAct x).cfg = s.cfg := by cases x <;> rfl

theorem covers_base {l m : CacheLine} (h : m.base = l.base) : CacheLine.covers c a n l = CacheLine.covers c a n m := by
  simp [CacheLine.covers, h]

theorem NoLine.cacheAct (h : NoLine s a n) (x : CacheAct) : NoLine (s.cacheAct x) a n := by
  intro l hl
  obtain ⟨m, hm, hb, -⟩ := mem_cacheAct hl
  rw [cacheAct_cfg, covers_base hb]
  exact h m hm

theorem NoDirty.cacheAct (h : NoDirty s a n) (x : CacheAct) : NoDirty (s.cacheAct x) a n := by
  intro l hl hcov
  obtain ⟨m, hm, hb, hd⟩ := mem_cacheAct hl
  rw [cacheAct_cfg, covers_base hb] at hcov
  exact hd (h m hm hcov)

theorem NoDirty.view (hc : 0 < s.cfg.cacheLine) (hi : CacheInv s) (h : NoDirty s a n) (h1 : a ≤ b) (h2 : b < a + n) :
    s.hostByte b = s.phys.read b :=
  hostByte_clean hc hi fun l hl hb => h l hl (covers_of_mem hc hb h1 h2)

theorem NoLine.noDirty (h : NoLine s a n) : NoDirty s a n := fun l hl hcov => by rw [h l hl] at hcov; cases hcov

/-- A transfer into RAM where no line lies: both views get its bytes, the rest of both is unchanged. -/
theorem physWrite_spec (hc : 0 < s.cfg.cacheLine) (hi : CacheInv s) (hm : s.phys.wf = true) (bs : List Byte)
    (h : NoLine s a bs.length) : CacheInv { s with phys := s.phys.writeBytes a bs } ∧
    ∀ b, State.hostByte { s with phys := s.phys.writeBytes a bs } b =
      if a ≤ b ∧ b < a + bs.length then bs.getD (b - a) blankByte else s.hostByte b := by
  have hout : ∀ l ∈ s.cache, ∀ j < s.cfg.cacheLine, l.base + j < a ∨ a + bs.length ≤ l.base + j := by
    intro l hl j hj
    have := h l hl
    simp [CacheLine.covers] at this
    by_contra hcon
    have hne : bs ≠ [] := by rintro rfl; simp at hcon; omega
    have := this hne
    omega
  refine ⟨⟨hi.distinct, hi.aligned, hi.full, ?_⟩, fun b => ?_⟩
  · intro l hl hd j hj
    rw [hi.clean l hl hd j hj]
    exact (Memory.read_writeBytes_outside _ _ _ (hout l hl j hj)).symm
  · have hb1 := lineBase_le (c := s.cfg.cacheLine) b
    have hb2 := lt_lineBase hc b
    unfold State.hostByte
    dsimp only
    cases hf : findLine s.cache (lineBase s.cfg.cacheLine b) with
    | none =>
      dsimp only
      split
      · have := Memory.read_writeBytes_inside bs hm a (j := b - a) (by omega)
        rwa [show a + (b - a) = b by omega] at this
      · exact Memory.read_writeBytes_outside _ _ _ (by omega)
    | some l =>
      obtain ⟨hl, hb⟩ := findLine_some hf
      have := hout l hl (b - l.base) (by omega)
      rw [if_neg (by omega)]

end Sys2Proof.Machine
end

