-- ==== Sys2Proof/Laws/Moves.lean ====
section
/-! SUPPORT. The two sector moves in an environment that answers at once: what they do to the cartridge's buffer and to
the host view of RAM, whatever the cache does on its own (47_bus_dma.md R241 to R244, 20_memory.md R75). -/

namespace Sys2Proof.Machine

variable {f : Family} {s t u : State} {a n : Nat}

theorem hostByte_cb (s : State) (m : Memory) (b : Nat) : State.hostByte { s with cb := m } b = s.hostByte b := rfl

theorem hostBytes_congr {s t : State} {a b n : Nat} (h : ∀ j < n, t.hostByte (a + j) = s.hostByte (b + j)) :
    t.hostBytes a n = s.hostBytes b n :=
  List.map_congr_left fun j hj => h j (List.mem_range.mp hj)

theorem Ram.cacheAct (h : Ram s) (x : CacheAct) : Ram (s.cacheAct x) := by
  refine ⟨by rw [cacheAct_cfg]; exact h.pos, h.cache.cacheAct h.pos h.phys x, ?_⟩
  cases x with
  | writeBack b => exact wf_writeBackLines _ _ h.phys
  | drop b => exact h.phys

/-- What the cache did on its own. -/
structure Acted (s t : State) : Prop where
  ram : Ram t
  view : ∀ b, t.hostByte b = s.hostByte b
  noLine : ∀ a n, NoLine s a n → NoLine t a n
  noDirty : ∀ a n, NoDirty s a n → NoDirty t a n
  buffer : t.cb = s.cb

theorem acts_spec (acts : List CacheAct) : ∀ {s : State} (_ : Ram s), Acted s (acts.foldl State.cacheAct s) := by
  induction acts with
  | nil => exact fun h => ⟨h, fun _ => rfl, fun _ _ h => h, fun _ _ h => h, rfl⟩
  | cons x acts ih =>
    intro s h
    have k := ih (h.cacheAct x)
    refine ⟨k.ram, fun b => (k.view b).trans (hostByte_cacheAct h.pos h.cache h.phys x b),
      fun a n hn => k.noLine a n (hn.cacheAct x), fun a n hn => k.noDirty a n (hn.cacheAct x), k.buffer.trans ?_⟩
    cases x <;> rfl

theorem nextCacheActs_quiet (hq : Quiet s f) : ∃ acts t, nextCacheActs s = .ok acts t ∧ Went f .access s.env.core [] s t ∧
    t.hist = s.hist := by
  have hrun : ∃ acts t, nextCacheActs s = .ok acts t ∧ t.env.core = s.env.core ∧ t.hist = s.hist ∧
      t.env.pi = s.env.pi ∧ t.env.status = s.env.status ∧ t.cfg = s.cfg := by
    unfold nextCacheActs draw
    split <;> exact ⟨_, _, rfl, rfl, rfl, rfl, rfl, rfl⟩
  obtain ⟨acts, t, hr, he, hh, hp, hs, hc⟩ := hrun
  refine ⟨acts, t, hr, ⟨touches_nextCacheActs.of_ok hr, he, by simp [hh], ?_⟩, hh⟩
  unfold Quiet QuietEnv at *
  rwa [hc, hp, hs]

/-- A point at which the cache may act changes nothing the host sees (R72). -/
theorem cacheMayAct_quiet (hq : Quiet s f) (hr : Ram s) : ∃ t, cacheMayAct s = .ok () t ∧
    Went f .move s.env.core [] s t ∧ t.hist = s.hist ∧ Acted s t := by
  obtain ⟨acts, t, hrun, hw, hh⟩ := nextCacheActs_quiet hq
  have hrun' : cacheMayAct s = .ok () (acts.foldl State.cacheAct t) := by
    simp only [cacheMayAct, bind_ok hrun, upd_run]
  have hram : t.phys = s.phys ∧ t.cache = s.cache := hw.same.ram rfl
  have ht : Ram t := ⟨by rw [hw.cfg]; exact hr.pos,
    ⟨by rw [hram.2]; exact hr.cache.distinct, by rw [hram.2, hw.cfg]; exact hr.cache.aligned,
      by rw [hram.2, hw.cfg]; exact hr.cache.full, by rw [hram.2, hram.1, hw.cfg]; exact hr.cache.clean⟩,
    by rw [hram.1]; exact hr.phys⟩
  have hview : ∀ b, t.hostByte b = s.hostByte b := fun b => by
    unfold State.hostByte; rw [hram.1, hram.2, hw.cfg]
  have k := acts_spec acts ht
  have keep : ∀ (l : List CacheAct) (v : State), (l.foldl State.cacheAct v).env = v.env ∧
      (l.foldl State.cacheAct v).hist = v.hist ∧ (l.foldl State.cacheAct v).cfg = v.cfg := by
    intro l
    induction l with
    | nil => exact fun v => ⟨rfl, rfl, rfl⟩
    | cons x l ih => intro v; obtain ⟨a, b, c⟩ := ih (v.cacheAct x); cases x <;> exact ⟨a, b, c⟩
  obtain ⟨ke, kh, kc⟩ := keep acts t
  refine ⟨_, hrun', ⟨touches_cacheMayAct.of_ok hrun', by rw [ke]; exact hw.env, by rw [kh, hh]; simp,
    hw.quiet.of_env kc ke⟩, kh.trans hh, ⟨k.ram, fun b => (k.view b).trans (hview b), ?_, ?_, ?_⟩⟩
  · intro a n hn
    refine k.noLine a n ?_
    unfold NoLine
    rw [hram.2, hw.cfg]; exact hn
  · intro a n hn
    refine k.noDirty a n ?_
    unfold NoDirty
    rw [hram.2, hw.cfg]; exact hn
  · exact k.buffer.trans (hw.same.buffer rfl)

/-- A change of the memories alone. -/
theorem Went.memory {g : State → State} (hq : Quiet s f) (hs : SameOn .move s (g s)) (he : (g s).env = s.env)
    (hh : (g s).hist = s.hist) : Went f .move s.env.core [] s (g s) := .of_same hq hs he hh

/-- The wait for the PI controller before and after a DMA changes no memory. -/
theorem piWait_ram (hq : Quiet s f) (hr : Ram s) : ∃ t, piWaitIdle f s = .ok () t ∧ Went f .move s.env.core [] s t ∧
    t.hist = s.hist ∧ Acted s t := by
  obtain ⟨t, hrun, hw, hh⟩ := piWaitIdle_quiet hq
  have hram : t.phys = s.phys ∧ t.cache = s.cache := hw.same.ram rfl
  refine ⟨t, hrun, hw.mono rfl, hh, ⟨⟨by rw [hw.cfg]; exact hr.pos,
    ⟨by rw [hram.2]; exact hr.cache.distinct, by rw [hram.2, hw.cfg]; exact hr.cache.aligned,
      by rw [hram.2, hw.cfg]; exact hr.cache.full, by rw [hram.2, hram.1, hw.cfg]; exact hr.cache.clean⟩,
    by rw [hram.1]; exact hr.phys⟩, fun b => ?_, fun a n hn => ?_, fun a n hn => ?_, hw.same.buffer rfl⟩⟩
  · unfold State.hostByte; rw [hram.1, hram.2, hw.cfg]
  · unfold NoLine; rw [hram.2, hw.cfg]; exact hn
  · unfold NoDirty; rw [hram.2, hw.cfg]; exact hn

theorem Acted.trans (h : Acted s t) (k : Acted t u) : Acted s u :=
  ⟨k.ram, fun b => (k.view b).trans (h.view b), fun a n hn => k.noLine a n (h.noLine a n hn),
    fun a n hn => k.noDirty a n (h.noDirty a n hn), k.buffer.trans h.buffer⟩

/-- Recording an event changes no memory. -/
theorem Acted.emit (hr : Ram s) (ev : Event) : Acted s { s with hist := ev :: s.hist } :=
  ⟨⟨hr.pos, ⟨hr.cache.distinct, hr.cache.aligned, hr.cache.full, hr.cache.clean⟩, hr.phys⟩, fun _ => rfl,
    fun _ _ h => h, fun _ _ h => h, rfl⟩

theorem Went.emitMove (hq : Quiet s f) (ev : Event) (hev : ev.sends = none) :
    Went f .move s.env.core [] s { s with hist := ev :: s.hist } := (Went.emit hq ev hev).mono rfl

/-- `CacheWbInv` as an operation. -/
theorem opCacheWbInv_quiet (hq : Quiet s f) (hr : Ram s) (a n : Nat) : ∃ t, opCacheWbInv a n s = .ok () t ∧
    Went f .move s.env.core [] s t ∧ t.hist = .cacheWbInv a n :: s.hist ∧ Ram t ∧
    (∀ b, t.hostByte b = s.hostByte b) ∧ NoLine t a n ∧ t.cb = s.cb := by
  obtain ⟨t, hrun, hw, hh, k⟩ := cacheMayAct_quiet hq hr
  have he := Went.emitMove hw.quiet (.cacheWbInv a n) rfl
  have ke := Acted.emit k.ram (.cacheWbInv a n)
  have hm := Went.memory (g := fun s => s.cacheWbInv a n) he.quiet
    ((sameOn_cacheWbInv _ a n).mono rfl) rfl rfl
  refine ⟨_, by simp only [opCacheWbInv, bind_ok hrun, emit_bind, upd_run]; rfl, ?_, ?_, ?_, ?_, ?_, ?_⟩
  · exact hw.andThen (he.andThen hm)
  · exact congrArg _ hh
  · exact ⟨ke.ram.pos, ke.ram.cache.cacheWbInv ke.ram.pos ke.ram.phys a n, wf_writeBackLines _ _ ke.ram.phys⟩
  · exact fun b => (hostByte_cacheWbInv ke.ram.pos ke.ram.cache ke.ram.phys a n b).trans ((ke.view b).trans (k.view b))
  · exact noLine_cacheWbInv a n
  · exact k.buffer

/-- `CacheWb` as an operation. -/
theorem opCacheWb_quiet (hq : Quiet s f) (hr : Ram s) (a n : Nat) : ∃ t, opCacheWb a n s = .ok () t ∧
    Went f .move s.env.core [] s t ∧ t.hist = .cacheWb a n :: s.hist ∧ Ram t ∧
    (∀ b, t.hostByte b = s.hostByte b) ∧ NoDirty t a n ∧ t.cb = s.cb := by
  obtain ⟨t, hrun, hw, hh, k⟩ := cacheMayAct_quiet hq hr
  have he := Went.emitMove hw.quiet (.cacheWb a n) rfl
  have ke := Acted.emit k.ram (.cacheWb a n)
  have hm := Went.memory (g := fun s => s.cacheWb a n) he.quiet
    ((sameOn_cacheWb _ a n).mono rfl) rfl rfl
  refine ⟨_, by simp only [opCacheWb, bind_ok hrun, emit_bind, upd_run]; rfl, ?_, ?_, ?_, ?_, ?_, ?_⟩
  · exact hw.andThen (he.andThen hm)
  · exact congrArg _ hh
  · exact ⟨ke.ram.pos, ke.ram.cache.cacheWb ke.ram.pos ke.ram.phys a n, wf_writeBackLines _ _ ke.ram.phys⟩
  · exact fun b => (hostByte_cacheWb ke.ram.pos ke.ram.cache ke.ram.phys a n b).trans ((ke.view b).trans (k.view b))
  · exact noDirty_cacheWb a n
  · exact k.buffer

/-- Programming the DMA engine changes no memory (R244). -/
theorem program_quiet (hq : Quiet s f) (hr : Ram s) (d : DmaEngine) :
    Went f .move s.env.core [] s { s with dma := d } ∧ Acted s { s with dma := d } :=
  ⟨.of_same hq (by constructor <;> simp [Foot.move]) rfl rfl,
    ⟨⟨hr.pos, ⟨hr.cache.distinct, hr.cache.aligned, hr.cache.full, hr.cache.clean⟩, hr.phys⟩, fun _ => rfl,
      fun _ _ h => h, fun _ _ h => h, rfl⟩⟩

/-- One DMA into RAM where no line lies (R244, R68). -/
theorem dmaFromCart_quiet (hb : s.busOwner = .cart f) (hq : Quiet s f) (hr : Ram s) {a : Nat} (hn : NoLine s a sector) :
    ∃ t, dmaFromCart a s = .ok () t ∧ Went f .move s.env.core [] s t ∧
      t.hist = .dmaFromCart (s.cfg.fam f).cartBuf a sector :: s.hist ∧ Ram t ∧ t.cb = s.cb ∧
      ∀ b, t.hostByte b = if a ≤ b ∧ b < a + sector then s.cb.read (b - a) else s.hostByte b := by
  obtain ⟨s1, hr1, hw1, hh1, k1⟩ := piWait_ram hq hr
  obtain ⟨hp, kp⟩ := program_quiet hw1.quiet k1.ram { s1.dma with
    ramAddr := BitVec.ofNat 32 a, cartAddr := (s.cfg.fam f).cartBuf, toRamLen := BitVec.ofNat 32 (sector - 1) }
  have he := Went.emitMove hp.quiet (.dmaFromCart (s.cfg.fam f).cartBuf a sector) rfl
  have ke := Acted.emit kp.ram (.dmaFromCart (s.cfg.fam f).cartBuf a sector)
  obtain ⟨s2, hr2, hw2, hh2, k2⟩ := cacheMayAct_quiet he.quiet ke.ram
  obtain ⟨s3, hr3, hw3, hh3, k3⟩ := piWait_ram hw2.quiet k2.ram
  have k := k1.trans (kp.trans <| ke.trans (k2.trans k3))
  have hcb : s3.cb = s.cb := k.buffer
  have hlen : (s3.cb.readBytes 0 sector).length = sector := Memory.length_readBytes _ _
  obtain ⟨hci, hview⟩ := physWrite_spec k.ram.pos k.ram.cache k.ram.phys (a := a) (s3.cb.readBytes 0 sector)
    (by rw [hlen]; exact k.noLine _ _ hn)
  have hm := Went.memory (s := s3) (f := f)
    (g := fun s => { s with phys := s.phys.writeBytes a (s.cb.readBytes 0 sector) }) hw3.quiet
    (by constructor <;> simp [Foot.move, Foot.access]) rfl rfl
  refine ⟨{ s3 with phys := s3.phys.writeBytes a (s3.cb.readBytes 0 sector) }, ?_, ?_, ?_, ?_, hcb, ?_⟩
  · simp only [dmaFromCart, bind_ok (busFamily_run hb), bind_ok (famParams_run hb), bind_ok hr1, programToRam, upd_bind, emit_bind,
      bind_ok hr2, bind_ok (attempt_ok hr3), upd_run]
  · exact hw1.andThen (hp.andThen (he.andThen (hw2.andThen (hw3.andThen hm))))
  · exact hh3.trans (hh2.trans (congrArg _ hh1))
  · refine ⟨k.ram.pos, hci, ?_⟩
    dsimp only
    exact Memory.wf_writeBytes (s3.cb.readBytes 0 sector) k.ram.phys a
  · intro b
    rw [hview b, hlen, k.view b]
    split
    · rw [Memory.getD_readBytes _ (by omega), hcb, Nat.zero_add]
    · rfl

/-- One DMA out of RAM where no dirty line lies (R244, R68). -/
theorem dmaToCart_quiet (hb : s.busOwner = .cart f) (hq : Quiet s f) (hr : Ram s) {a : Nat} (hn : NoDirty s a sector) :
    ∃ t, dmaToCart a s = .ok () t ∧ Went f .move s.env.core [] s t ∧
      t.hist = .dmaToCart a (s.cfg.fam f).cartBuf sector :: s.hist ∧ Ram t ∧
      t.cb = s.cb.writeBytes 0 (s.hostBytes a sector) ∧ ∀ b, t.hostByte b = s.hostByte b := by
  obtain ⟨s1, hr1, hw1, hh1, k1⟩ := piWait_ram hq hr
  obtain ⟨hp, kp⟩ := program_quiet hw1.quiet k1.ram { s1.dma with
    ramAddr := BitVec.ofNat 32 a, cartAddr := (s.cfg.fam f).cartBuf, toCartLen := BitVec.ofNat 32 (sector - 1) }
  have he := Went.emitMove hp.quiet (.dmaToCart a (s.cfg.fam f).cartBuf sector) rfl
  have ke := Acted.emit kp.ram (.dmaToCart a (s.cfg.fam f).cartBuf sector)
  obtain ⟨s2, hr2, hw2, hh2, k2⟩ := cacheMayAct_quiet he.quiet ke.ram
  obtain ⟨s3, hr3, hw3, hh3, k3⟩ := piWait_ram hw2.quiet k2.ram
  have k := k1.trans (kp.trans <| ke.trans (k2.trans k3))
  have hbytes : s3.phys.readBytes a sector = s.hostBytes a sector := by
    unfold Memory.readBytes State.hostBytes
    refine List.map_congr_left fun j hj => ?_
    have hj' := List.mem_range.mp hj
    rw [← (k.noDirty _ _ hn).view k.ram.pos k.ram.cache (b := a + j) (by omega) (by omega), k.view]
  have hm := Went.memory (s := s3) (f := f)
    (g := fun s => { s with cb := s.cb.writeBytes 0 (s.phys.readBytes a sector) }) hw3.quiet
    (by constructor <;> simp [Foot.move, Foot.access]) rfl rfl
  refine ⟨{ s3 with cb := s3.cb.writeBytes 0 (s3.phys.readBytes a sector) }, ?_, ?_, ?_, ?_, ?_, ?_⟩
  · simp only [dmaToCart, bind_ok (busFamily_run hb), bind_ok (famParams_run hb), bind_ok hr1, programToCart, upd_bind, emit_bind,
      bind_ok hr2, bind_ok (attempt_ok hr3), upd_run]
  · exact hw1.andThen (hp.andThen (he.andThen (hw2.andThen (hw3.andThen hm))))
  · exact hh3.trans (hh2.trans (congrArg _ hh1))
  · exact ⟨k.ram.pos, ⟨k.ram.cache.distinct, k.ram.cache.aligned, k.ram.cache.full, k.ram.cache.clean⟩, k.ram.phys⟩
  · rw [k.buffer, hbytes]
  · exact fun b => (hostByte_cb s3 _ b).trans (k.view b)

/-- The staging copy: the bytes of one sector copied, upward, the rest of the host view unchanged (R60). -/
theorem copyMoves_quiet (k : Nat) : ∀ {s : State} (_ : Quiet s f) (_ : Ram s) {src dst : Nat}
    (_ : src + 8 * k ≤ dst ∨ dst + 8 * k ≤ src), ∃ t, copyMoves k src dst s = .ok () t ∧
      Went f .move s.env.core [] s t ∧ t.hist = s.hist ∧ Ram t ∧ t.cb = s.cb ∧
      ∀ b, t.hostByte b = if dst ≤ b ∧ b < dst + 8 * k then s.hostByte (src + (b - dst)) else s.hostByte b := by
  induction k with
  | zero => intro s hq hr src dst _; exact ⟨s, rfl, .refl _ hq, rfl, hr, rfl, fun b => by rw [if_neg (by omega)]⟩
  | succ k ih =>
    intro s hq hr src dst hd
    obtain ⟨s1, hr1, hw1, hh1, k1⟩ := cacheMayAct_quiet hq hr
    obtain ⟨m1, m2, m3, m4⟩ := move8_spec k1.ram.pos k1.ram.cache src dst
    have hm := Went.memory (s := s1) (f := f) (g := fun s => s.move8 src dst) hw1.quiet
      ((sameOn_move8 _ src dst).mono rfl) ?_ ?_
    · have hram : Ram (s1.move8 src dst) := ⟨by rw [m2]; exact k1.ram.pos, m1, by rw [m3]; exact k1.ram.phys⟩
      obtain ⟨t, hrun, hw, hh, hrt, hcb, hview⟩ := ih hm.quiet hram (src := src + 8) (dst := dst + 8) (by omega)
      refine ⟨t, ?_, ?_, ?_, hrt, ?_, ?_⟩
      · simp only [copyMoves, bind_ok hr1, upd_bind, hrun]
      · exact hw1.andThen (hm.andThen hw)
      · rw [hh, ← hh1]
        exact ((sameOn_move8 s1 src dst).log rfl).2.2.1
      · rw [hcb, ← k1.buffer]
        exact (sameOn_move8 s1 src dst).buffer rfl
      · intro b
        rw [hview b, m4 b, m4 (src + 8 + (b - (dst + 8))), k1.view b]
        by_cases h1 : dst + 8 ≤ b ∧ b < dst + 8 + 8 * k
        · rw [if_pos h1, if_neg (by omega), if_pos (by omega),
            show src + 8 + (b - (dst + 8)) = src + (b - dst) by omega, k1.view]
        · rw [if_neg h1]
          by_cases h2 : dst ≤ b ∧ b < dst + 8
          · rw [if_pos h2, if_pos (by omega), k1.view]
          · rw [if_neg h2, if_neg (by omega)]
    · exact ((sameOn_move8 s1 src dst).log rfl).1
    · exact ((sameOn_move8 s1 src dst).log rfl).2.2.1

/-- The cache operation, the DMA and the copy of `move_to_ram` (R242): the sector stands at its destination in the host view; a staged move also leaves it in the
staging buffer. -/
theorem bringToRam_quiet (hb : s.busOwner = .cart f) (hq : Quiet s f) (hr : Ram s) {dest : Nat}
    (hd : direct dest = true ∨ s.cfg.stageAddr + sector ≤ dest ∨ dest + sector ≤ s.cfg.stageAddr) :
    ∃ t, bringToRam dest s = .ok () t ∧ Went f .move s.env.core [] s t ∧
      t.hist = .dmaFromCart (s.cfg.fam f).cartBuf (dmaWindow s.cfg dest) sector ::
        .cacheWbInv (dmaWindow s.cfg dest) sector :: s.hist ∧ Ram t ∧ t.cb = s.cb ∧
      ∀ b, t.hostByte b = if dest ≤ b ∧ b < dest + sector then s.cb.read (b - dest)
        else if direct dest = false ∧ s.cfg.stageAddr ≤ b ∧ b < s.cfg.stageAddr + sector
          then s.cb.read (b - s.cfg.stageAddr) else s.hostByte b := by
  obtain ⟨s1, hr1, hw1, hh1, hram1, hv1, hn1, hcb1⟩ := opCacheWbInv_quiet hq hr (dmaWindow s.cfg dest) sector
  obtain ⟨s2, hr2, hw2, hh2, hram2, hcb2, hv2⟩ := dmaFromCart_quiet ((hw1.same.owner rfl).trans hb) hw1.quiet hram1 hn1
  have hw12 := hw1.andThen hw2
  rw [hw1.cfg, hh1] at hh2
  by_cases hdir : direct dest = true
  · have hwin : dmaWindow s.cfg dest = dest := if_pos hdir
    rw [hwin] at hr1 hr2 hh2 hv2
    refine ⟨s2, ?_, hw12, by rw [hwin]; exact hh2, hram2, hcb2.trans hcb1, fun b => ?_⟩
    · simp only [bringToRam, get'_bind, hdir, if_true, bind_ok hr1, hr2]
    · rw [hv2 b, hv1 b, hcb1]
      simp [hdir]
  · have hdir' : direct dest = false := by simpa using hdir
    have hwin : dmaWindow s.cfg dest = s.cfg.stageAddr := if_neg (by simp [hdir'])
    rw [hwin] at hr1 hr2 hh2 hv2
    have hd' := hd.resolve_left hdir
    obtain ⟨s3, hr3, hw3, hh3, hram3, hcb3, hv3⟩ := copyMoves_quiet (f := f) 64 hw2.quiet hram2
      (src := s.cfg.stageAddr) (dst := dest) (by unfold sector at hd'; omega)
    refine ⟨s3, ?_, ?_, by rw [hh3, hwin]; exact hh2, hram3, hcb3.trans (hcb2.trans hcb1), fun b => ?_⟩
    · simp only [bringToRam, get'_bind, hdir', Bool.false_eq_true, if_false, bind_ok hr1, bind_ok hr2, hr3]
    · exact hw12.andThen hw3
    · rw [hv3 b]
      unfold sector at *
      by_cases h1 : dest ≤ b ∧ b < dest + 512
      · rw [if_pos h1, if_pos (by omega), hv2, if_pos (by omega), hcb1]
        congr 1
        omega
      · rw [if_neg h1, if_neg (by omega), hv2 b, hv1 b, hcb1]
        simp only [hdir', true_and]

/-- `move_to_ram` (R242): the sector stands at its destination in the host view; a staged move also leaves it in the
staging buffer. -/
theorem moveToRam_quiet (hb : s.busOwner = .cart f) (hq : Quiet s f) (hr : Ram s) {dest : Nat}
    (hd : direct dest = true ∨ s.cfg.stageAddr + sector ≤ dest ∨ dest + sector ≤ s.cfg.stageAddr) :
    ∃ t, moveToRam dest s = .ok () t ∧ Went f .move s.env.core [] s t ∧
      t.hist = .dmaFromCart (s.cfg.fam f).cartBuf (dmaWindow s.cfg dest) sector ::
        .cacheWbInv (dmaWindow s.cfg dest) sector :: s.hist ∧ Ram t ∧ t.cb = s.cb ∧
      ∀ b, t.hostByte b = if dest ≤ b ∧ b < dest + sector then s.cb.read (b - dest)
        else if direct dest = false ∧ s.cfg.stageAddr ≤ b ∧ b < s.cfg.stageAddr + sector
          then s.cb.read (b - s.cfg.stageAddr) else s.hostByte b := by
  obtain ⟨u, hru, hwu, hhu, hramu, hcbu, hvu⟩ := bringToRam_quiet hb hq hr hd
  obtain ⟨t, hrt, hwt, hht, k⟩ := cacheMayAct_quiet hwu.quiet hramu
  exact ⟨t, by simp only [moveToRam, bind_ok hru, hrt], hwu.andThen hwt, hht.trans hhu, k.ram, k.buffer.trans hcbu,
    fun b => (k.view b).trans (hvu b)⟩

/-- The copy, the cache operation and the DMA of `move_from_ram` (R243): the cartridge's buffer holds the host view of the source; a staged move also leaves it in the
staging buffer. -/
theorem takeFromRam_quiet (hb : s.busOwner = .cart f) (hq : Quiet s f) (hr : Ram s) {src : Nat}
    (hd : direct src = true ∨ s.cfg.stageAddr + sector ≤ src ∨ src + sector ≤ s.cfg.stageAddr) :
    ∃ t, takeFromRam src s = .ok () t ∧ Went f .move s.env.core [] s t ∧
      t.hist = .dmaToCart (dmaWindow s.cfg src) (s.cfg.fam f).cartBuf sector ::
        .cacheWb (dmaWindow s.cfg src) sector :: s.hist ∧ Ram t ∧
      t.cb = s.cb.writeBytes 0 (s.hostBytes src sector) ∧
      ∀ b, t.hostByte b = if direct src = false ∧ s.cfg.stageAddr ≤ b ∧ b < s.cfg.stageAddr + sector
          then s.hostByte (src + (b - s.cfg.stageAddr)) else s.hostByte b := by
  by_cases hdir : direct src = true
  · have hwin : dmaWindow s.cfg src = src := if_pos hdir
    obtain ⟨s1, hr1, hw1, hh1, hram1, hv1, hn1, hcb1⟩ := opCacheWb_quiet hq hr src sector
    obtain ⟨s2, hr2, hw2, hh2, hram2, hcb2, hv2⟩ := dmaToCart_quiet ((hw1.same.owner rfl).trans hb) hw1.quiet hram1 hn1
    rw [hw1.cfg, hh1] at hh2
    refine ⟨s2, ?_, ?_, by rw [hwin]; exact hh2, hram2, ?_, fun b => ?_⟩
    · simp only [takeFromRam, get'_bind, hdir, if_true, bind_ok hr1, hr2]
    · exact hw1.andThen hw2
    · rw [hcb2, hcb1, hostBytes_congr fun j _ => hv1 (src + j)]
    · rw [hv2 b, hv1 b]; simp [hdir]
  · have hdir' : direct src = false := by simpa using hdir
    have hwin : dmaWindow s.cfg src = s.cfg.stageAddr := if_neg (by simp [hdir'])
    have hd' := hd.resolve_left hdir
    obtain ⟨s1, hr1, hw1, hh1, hram1, hcb1, hv1⟩ := copyMoves_quiet (f := f) 64 hq hr
      (src := src) (dst := s.cfg.stageAddr) (by unfold sector at hd'; omega)
    obtain ⟨s2, hr2, hw2, hh2, hram2, hv2, hn2, hcb2⟩ := opCacheWb_quiet hw1.quiet hram1 s.cfg.stageAddr sector
    have hw12 := hw1.andThen hw2
    obtain ⟨s3, hr3, hw3, hh3, hram3, hcb3, hv3⟩ := dmaToCart_quiet ((hw12.same.owner rfl).trans hb) hw2.quiet hram2 hn2
    rw [hw12.cfg, hh2, hh1] at hh3
    refine ⟨s3, ?_, ?_, by rw [hwin]; exact hh3, hram3, ?_, fun b => ?_⟩
    · simp only [takeFromRam, get'_bind, hdir', Bool.false_eq_true, if_false, bind_ok hr1, bind_ok hr2, hr3]
    · exact hw12.andThen hw3
    · have hcopy : s2.hostBytes s.cfg.stageAddr sector = s.hostBytes src sector := hostBytes_congr fun j hj => by
        unfold sector at hj
        rw [hv2, hv1, if_pos (by omega), Nat.add_sub_cancel_left]
      rw [hcb3, hcb2, hcb1, hcopy]
    · rw [hv3 b, hv2 b, hv1 b]
      unfold sector
      simp only [hdir', true_and]

/-- `move_from_ram` (R243): the cartridge's buffer holds the host view of the source; a staged move also leaves it in the
staging buffer. -/
theorem moveFromRam_quiet (hb : s.busOwner = .cart f) (hq : Quiet s f) (hr : Ram s) {src : Nat}
    (hd : direct src = true ∨ s.cfg.stageAddr + sector ≤ src ∨ src + sector ≤ s.cfg.stageAddr) :
    ∃ t, moveFromRam src s = .ok () t ∧ Went f .move s.env.core [] s t ∧
      t.hist = .dmaToCart (dmaWindow s.cfg src) (s.cfg.fam f).cartBuf sector ::
        .cacheWb (dmaWindow s.cfg src) sector :: s.hist ∧ Ram t ∧
      t.cb = s.cb.writeBytes 0 (s.hostBytes src sector) ∧
      ∀ b, t.hostByte b = if direct src = false ∧ s.cfg.stageAddr ≤ b ∧ b < s.cfg.stageAddr + sector
          then s.hostByte (src + (b - s.cfg.stageAddr)) else s.hostByte b := by
  obtain ⟨u, hru, hwu, hhu, hramu, hcbu, hvu⟩ := takeFromRam_quiet hb hq hr hd
  obtain ⟨t, hrt, hwt, hht, k⟩ := cacheMayAct_quiet hwu.quiet hramu
  exact ⟨t, by simp only [moveFromRam, bind_ok hru, hrt], hwu.andThen hwt, hht.trans hhu, k.ram, k.buffer.trans hcbu,
    fun b => (k.view b).trans (hvu b)⟩

end Sys2Proof.Machine
end

