-- ==== Sys2Proof/Laws/Keeps.lean ====
section
/-! SUPPORT. What the operations that write memory keep, in every environment and however they end: both memories in
canonical form, and the cache over RAM coherent (20_memory.md R72). -/

namespace Sys2Proof.Machine

variable {α β : Type} {R : State → State → Prop} {s t : State}

/-- Whatever holds across a footprint holds across an operation of that footprint. -/
theorem Every.of_touches {F : Foot} {x : Op α} (h : Touches F x) (hR : ∀ s t, SameOn F s t → R s t) : Every R x :=
  .intro (fun _ _ _ hx => hR _ _ (h.of_ok hx)) fun _ _ _ hx => hR _ _ (h.of_error hx)

/-- Both memories and the cache. -/
structure Stored (s : State) : Prop where
  ram : Ram s
  cb : s.cb.wf = true

/-- Keeping both memories and the cache. -/
def KeepsStored (s t : State) : Prop := Stored s → Stored t

theorem order_keepsStored : Order KeepsStored := .keeps Stored

theorem stored_of_same {F : Foot} (hr : F.ram = false) (hb : F.buffer = false) {s t : State} (h : SameOn F s t) :
    KeepsStored s t := fun hs => by
  obtain ⟨hp, hc⟩ := h.ram hr
  have hcfg := h.cfg
  refine ⟨⟨by rw [hcfg]; exact hs.ram.pos, ⟨by rw [hc]; exact hs.ram.cache.distinct,
    by rw [hc, hcfg]; exact hs.ram.cache.aligned, by rw [hc, hcfg]; exact hs.ram.cache.full,
    by rw [hc, hcfg, hp]; exact hs.ram.cache.clean⟩, by rw [hp]; exact hs.ram.phys⟩, by rw [h.buffer hb]; exact hs.cb⟩

/-- An operation with neither memory in its footprint keeps both. -/
theorem keepsStored_touches {F : Foot} {x : Op α} (h : Touches F x) (hr : F.ram = false) (hb : F.buffer = false) :
    Every KeepsStored x := .of_touches h fun _ _ => stored_of_same hr hb

theorem Stored.buffer (h : Stored s) (bs : List Byte) (a : Nat) : Stored { s with cb := s.cb.writeBytes a bs } :=
  ⟨⟨h.ram.pos, ⟨h.ram.cache.distinct, h.ram.cache.aligned, h.ram.cache.full, h.ram.cache.clean⟩, h.ram.phys⟩,
    Memory.wf_writeBytes bs h.cb a⟩

theorem Stored.acts (h : Stored s) (acts : List CacheAct) : Stored (acts.foldl State.cacheAct s) := by
  have k := acts_spec acts h.ram
  exact ⟨k.ram, by rw [k.buffer]; exact h.cb⟩

/-! ### Moves -/

/-- Memory and cache as they should be, no line over a range. -/
structure Cleared (a n : Nat) (s : State) : Prop where
  stored : Stored s
  noLine : NoLine s a n

theorem order_cleared (a n : Nat) : Order fun s t => Cleared a n s → Cleared a n t := .keeps _

theorem cleared_touches {F : Foot} {x : Op α} (a n : Nat) (h : Touches F x) (hr : F.ram = false) (hb : F.buffer = false) :
    Every (fun s t => Cleared a n s → Cleared a n t) x := .of_touches h fun s t hs hc =>
  ⟨stored_of_same hr hb hs hc.stored, by unfold NoLine; rw [(hs.ram hr).2, hs.cfg]; exact hc.noLine⟩

theorem cacheMayAct_keeps : Every KeepsStored cacheMayAct :=
  .bind order_keepsStored (keepsStored_touches touches_nextCacheActs rfl rfl) fun acts => .upd fun _ h => h.acts acts

theorem cacheMayAct_cleared (a n : Nat) : Every (fun s t => Cleared a n s → Cleared a n t) cacheMayAct :=
  .bind (order_cleared a n) (cleared_touches a n touches_nextCacheActs rfl rfl) fun acts => .upd fun _ h =>
    ⟨h.stored.acts acts, (acts_spec acts h.stored.ram).noLine a n h.noLine⟩

theorem opCacheWb_keeps (a n : Nat) : Every KeepsStored (opCacheWb a n) :=
  .bind order_keepsStored cacheMayAct_keeps fun _ => .bind order_keepsStored
    (keepsStored_touches (touches_emit _) rfl rfl) fun _ => .upd fun _ h =>
      ⟨⟨h.ram.pos, h.ram.cache.cacheWb h.ram.pos h.ram.phys a n, wf_writeBackLines _ _ h.ram.phys⟩, h.cb⟩

theorem opCacheWbInv_clears (a n : Nat) : Every (fun s t => Stored s → Cleared a n t) (opCacheWbInv a n) := by
  have h : Every KeepsStored (do cacheMayAct; emit (.cacheWbInv a n)) :=
    .bind order_keepsStored cacheMayAct_keeps fun _ => keepsStored_touches (touches_emit _) rfl rfl
  have clear : ∀ s, Stored s → Cleared a n (s.cacheWbInv a n) := fun s h =>
    ⟨⟨⟨h.ram.pos, h.ram.cache.cacheWbInv h.ram.pos h.ram.phys a n, wf_writeBackLines _ _ h.ram.phys⟩, h.cb⟩,
      noLine_cacheWbInv a n⟩
  have hrun : opCacheWbInv a n = (do (do cacheMayAct; emit (.cacheWbInv a n)); upd fun s => s.cacheWbInv a n) := by
    simp only [opCacheWbInv, bind_assoc]
  rw [hrun]
  refine .intro (fun s _ u hx hs => ?_) fun s c u hx => ?_
  · obtain ⟨_, t, h1, h2⟩ := bind_eq_ok.mp hx
    cases h2
    exact clear t (h.of_ok h1 hs)
  · rcases bind_eq_error.mp hx with h1 | ⟨_, t, h1, h2⟩
    · rcases bind_eq_error.mp h1 with h3 | ⟨_, t, h3, h4⟩
      · rcases bind_eq_error.mp h3 with h5 | ⟨_, t, h5, h6⟩
        · unfold nextCacheActs draw at h5
          split at h5 <;> cases h5
        · cases h6
      · cases h4
    · cases h2

theorem many_length {one : Op α} : ∀ {n : Nat} {s t : State} {l : List α}, many one n s = .ok l t → l.length = n
  | 0, _, _, _, h => by cases h; rfl
  | n + 1, s, t, l, h => by
    obtain ⟨a, s1, _, h2⟩ := bind_eq_ok.mp h
    obtain ⟨rest, s2, h3, h4⟩ := bind_eq_ok.mp h2
    cases h4
    simp [many_length h3]

theorem Cleared.write {a : Nat} (h : Cleared a sector s) {bs : List Byte} (hl : bs.length = sector) :
    Stored { s with phys := s.phys.writeBytes a bs } := by
  obtain ⟨hci, -⟩ := physWrite_spec h.stored.ram.pos h.stored.ram.cache h.stored.ram.phys (a := a) bs
    (by rw [hl]; exact h.noLine)
  exact ⟨⟨h.stored.ram.pos, hci, Memory.wf_writeBytes bs h.stored.ram.phys a⟩, h.stored.cb⟩

/-- Programming the DMA engine changes no memory (R244). -/
theorem Stored.program (h : Stored s) (d : DmaEngine) : Stored { s with dma := d } :=
  ⟨⟨h.ram.pos, ⟨h.ram.cache.distinct, h.ram.cache.aligned, h.ram.cache.full, h.ram.cache.clean⟩, h.ram.phys⟩, h.cb⟩

theorem Cleared.program {a n : Nat} (h : Cleared a n s) (d : DmaEngine) : Cleared a n { s with dma := d } :=
  ⟨h.stored.program d, h.noLine⟩

/-- A DMA into RAM where no line lies keeps both memories, also when its completion wait times out (R244, U4). -/
theorem dmaFromCart_keeps (a : Nat) : Every (fun s t => Cleared a sector s → Stored t) (dmaFromCart a) := by
  have o := order_cleared a sector
  have pre : ∀ (f : Family) (q : FamilyParams), Every (fun s t => Cleared a sector s → Cleared a sector t) (do
      piWaitIdle f
      programToRam a q.cartBuf
      emit (.dmaFromCart (FamilyParams.cartBuf q) a sector)
      cacheMayAct
      attempt (piWaitIdle f)) := fun f q =>
    .bind o (cleared_touches a sector (touches_piWaitIdle f) rfl rfl) fun _ => .bind o (.upd fun _ h => h.program _) fun _ =>
      .bind o (cleared_touches a sector (touches_emit _) rfl rfl) fun _ =>
      .bind o (cacheMayAct_cleared a sector) fun _ => (cleared_touches a sector (touches_piWaitIdle f) rfl rfl).attempt
  have fam : Every (fun s t => Cleared a sector s → Cleared a sector t) (do
      let f ← busFamily
      let q ← famParams
      (do piWaitIdle f
          programToRam a q.cartBuf
          emit (.dmaFromCart (FamilyParams.cartBuf q) a sector)
          cacheMayAct
          attempt (piWaitIdle f))) :=
    .bind o (cleared_touches (F := .access) a sector touches_busFamily rfl rfl) fun f =>
      .bind o (cleared_touches (F := .access) a sector touches_famParams rfl rfl) fun q => pre f q
  have post : ∀ r : Except Cause Unit, Every (fun s t => Cleared a sector s → Stored t) (match r with
      | .ok _ => upd fun s => { s with phys := s.phys.writeBytes a (s.cb.readBytes 0 sector) }
      | .error c => do
        let junk ← many nextJunkByte sector
        upd fun s => { s with phys := s.phys.writeBytes a junk }
        raise c) := fun r => by
    cases r with
    | ok _ => exact .upd fun s h => h.write (Memory.length_readBytes _ _)
    | error c =>
      have junk := (cleared_touches a sector touches_nextJunkByte rfl rfl).many o sector
      refine .intro (fun s _ u hx => ?_) fun s c u hx hs => ?_
      · obtain ⟨_, _, _, h2⟩ := bind_eq_ok.mp hx
        obtain ⟨_, _, _, h4⟩ := bind_eq_ok.mp h2
        cases h4
      · rcases bind_eq_error.mp hx with h1 | ⟨l, t, h1, h2⟩
        · exact (junk.of_cause h1 hs).stored
        · rcases bind_eq_error.mp h2 with h3 | ⟨_, v, h3, h4⟩
          · cases h3
          · cases h3
            cases h4
            exact (junk.of_ok h1 hs).write (many_length h1)
  have hrun : dmaFromCart a = (do
      let r ← (do
        let f ← busFamily
        let q ← famParams
        (do piWaitIdle f
            programToRam a q.cartBuf
            emit (.dmaFromCart (FamilyParams.cartBuf q) a sector)
            cacheMayAct
            attempt (piWaitIdle f)))
      match r with
      | .ok _ => upd fun s => { s with phys := s.phys.writeBytes a (s.cb.readBytes 0 sector) }
      | .error c => do
        let junk ← many nextJunkByte sector
        upd fun s => { s with phys := s.phys.writeBytes a junk }
        raise c) := by
    simp only [dmaFromCart, bind_assoc]
    all_goals rfl
  rw [hrun]
  refine .intro (fun s _ u hx hs => ?_) fun s c u hx hs => ?_
  · obtain ⟨r, t, h1, h2⟩ := bind_eq_ok.mp hx
    exact (post r).of_ok h2 (fam.of_ok h1 hs)
  · rcases bind_eq_error.mp hx with h1 | ⟨r, t, h1, h2⟩
    · exact (fam.of_cause h1 hs).stored
    · exact (post r).of_cause h2 (fam.of_ok h1 hs)

theorem dmaToCart_keeps (a : Nat) : Every KeepsStored (dmaToCart a) := by
  have o := order_keepsStored
  refine .bind o (keepsStored_touches (F := .access) touches_busFamily rfl rfl) fun f =>
    .bind o (keepsStored_touches (F := .access) touches_famParams rfl rfl) fun q =>
    .bind o (keepsStored_touches (touches_piWaitIdle f) rfl rfl) fun _ =>
    .bind o (.upd fun _ h => h.program _) fun _ => .bind o (keepsStored_touches (touches_emit _) rfl rfl) fun _ => .bind o cacheMayAct_keeps fun _ =>
    .bind o (keepsStored_touches (touches_piWaitIdle f) rfl rfl).attempt fun r => ?_
  cases r with
  | ok _ => exact .upd fun s h => h.buffer _ 0
  | error c =>
    exact .bind o ((keepsStored_touches touches_nextJunkByte rfl rfl).many o _) fun _ =>
      .bind o (.upd fun s h => h.buffer _ 0) fun _ => .raise o _

theorem copyMoves_keeps (k : Nat) : ∀ src dst, Every KeepsStored (copyMoves k src dst) := by
  induction k with
  | zero => exact fun _ _ => .pure order_keepsStored _
  | succ k ih =>
    intro src dst
    refine .bind order_keepsStored cacheMayAct_keeps fun _ => .bind order_keepsStored (.upd fun s h => ?_) fun _ => ih _ _
    obtain ⟨m1, m2, m3, -⟩ := move8_spec h.ram.pos h.ram.cache src dst
    exact ⟨⟨by rw [m2]; exact h.ram.pos, m1, by rw [m3]; exact h.ram.phys⟩,
      by rw [(sameOn_move8 s src dst).buffer rfl]; exact h.cb⟩

theorem clearThenMove (a : Nat) : Every KeepsStored (do opCacheWbInv a sector; dmaFromCart a) := by
  refine .intro (fun s _ u hx hs => ?_) fun s c u hx hs => ?_
  · obtain ⟨_, t, h1, h2⟩ := bind_eq_ok.mp hx
    exact (dmaFromCart_keeps a).of_ok h2 ((opCacheWbInv_clears a sector).of_ok h1 hs)
  · rcases bind_eq_error.mp hx with h1 | ⟨_, t, h1, h2⟩
    · exact ((opCacheWbInv_clears a sector).of_cause h1 hs).stored
    · exact (dmaFromCart_keeps a).of_cause h2 ((opCacheWbInv_clears a sector).of_ok h1 hs)

theorem bringToRam_keeps (dest : Nat) : Every KeepsStored (bringToRam dest) := by
  refine .bind order_keepsStored (.get' order_keepsStored _) fun p => .ite (clearThenMove dest) ?_
  have := Every.bind order_keepsStored (clearThenMove p.stageAddr) fun _ => copyMoves_keeps 64 p.stageAddr dest
  simpa only [bind_assoc] using this

/-- `move_to_ram` keeps both memories and the cache, in every environment (R242). -/
theorem moveToRam_keeps (dest : Nat) : Every KeepsStored (moveToRam dest) :=
  .bind order_keepsStored (bringToRam_keeps dest) fun _ => cacheMayAct_keeps

theorem takeFromRam_keeps (src : Nat) : Every KeepsStored (takeFromRam src) :=
  .bind order_keepsStored (.get' order_keepsStored _) fun _ => .ite
    (.bind order_keepsStored (opCacheWb_keeps _ _) fun _ => dmaToCart_keeps _)
    (.bind order_keepsStored (copyMoves_keeps 64 _ _) fun _ => .bind order_keepsStored (opCacheWb_keeps _ _) fun _ =>
      dmaToCart_keeps _)

/-- `move_from_ram` keeps both memories and the cache, in every environment (R243). -/
theorem moveFromRam_keeps (src : Nat) : Every KeepsStored (moveFromRam src) :=
  .bind order_keepsStored (takeFromRam_keeps src) fun _ => cacheMayAct_keeps

/-! ### The cartridge's buffer -/

theorem placeInBuffer_keeps (offset : Nat) (bs : List Byte) : Every KeepsStored (placeInBuffer offset bs) :=
  .upd fun _ h => h.buffer _ _

theorem cartCommand_keeps (code : Byte) (a0 a1 : Word) : Every KeepsStored (cartCommand code a0 a1) := by
  have o := order_keepsStored
  have side : ∀ c a b, Every KeepsStored (cartSideEffect c a b) := fun c a b =>
    .bind o (keepsStored_touches (F := .access) touches_famParams rfl rfl) fun q => .onlyIf o
      (.bind o ((keepsStored_touches touches_nextSectorByte rfl rfl).many o _) fun _ => placeInBuffer_keeps _ _)
  have issue : ∀ c a b, Every KeepsStored (cartIssue c a b) := fun c a b =>
    .bind o (keepsStored_touches (F := .access) touches_famParams rfl rfl) fun q =>
      .bind o (keepsStored_touches (touches_spinOn rfl touches_pollStatus _) rfl rfl) fun _ =>
      .bind o (keepsStored_touches (touches_regWrite _ _) rfl rfl) fun _ =>
      .bind o (keepsStored_touches (touches_regWrite _ _) rfl rfl) fun _ =>
      keepsStored_touches (touches_regWrite _ _) rfl rfl
  have finish : Every KeepsStored cartFinish :=
    .bind o (keepsStored_touches (F := .access) touches_famParams rfl rfl) fun q =>
      .bind o (keepsStored_touches (touches_spinOn rfl touches_pollStatus _) rfl rfl) fun _ => .ite (.raise o _)
      (.bind o (keepsStored_touches (touches_regRead _) rfl rfl) fun _ =>
        .bind o (keepsStored_touches (touches_regRead _) rfl rfl) fun _ => .pure o _)
  have shake : ∀ c a b, Every KeepsStored (cartHandshake c a b) := fun c a b =>
    .bind o (issue c a b) fun _ => .bind o (keepsStored_touches (touches_recordCommand _ _ _) rfl rfl) fun _ =>
      .bind o (side c a b) fun _ => finish
  have mirror : ∀ on, Every KeepsStored (upd fun s => { s with byteswap := on }) := fun on => .upd fun _ h =>
    ⟨⟨h.ram.pos, ⟨h.ram.cache.distinct, h.ram.cache.aligned, h.ram.cache.full, h.ram.cache.clean⟩, h.ram.phys⟩, h.cb⟩
  have drive : ∀ on, Every KeepsStored (swapDrive on) := fun on =>
    .bind o (keepsStored_touches (F := .access) touches_famParams rfl rfl) fun q => .ite
      (.bind o (shake _ _ _) fun _ => mirror on)
      (.bind o (keepsStored_touches (touches_regWrite _ _) rfl rfl) fun _ => mirror on)
  refine .bind o (keepsStored_touches (F := .access) touches_famParams rfl rfl) fun q => .ite
    (.bind o (.get' o _) fun old => .bind o (drive true) fun _ => .bind o (shake _ _ _).attempt fun r => ?_) (shake _ _ _)
  cases r with
  | ok a => exact .bind o (drive old) fun _ => .pure o _
  | error c => exact .bind o ((drive old).bestEffort o) fun _ => .raise o _

end Sys2Proof.Machine
end

