-- ==== Sys2Proof/Laws/Session.lean ====
section
/-! SUPPORT. What becomes of the session when a command does not succeed, in every environment: a command that fails keeps
it but for the bit length (42_sd_commands.md R135), and CMD12 ends the stream whatever happened (R146). -/

namespace Sys2Proof.Machine

variable {α β : Type} {F : Foot} {s t u : State}

/-- The session but for the bit length is as it was. -/
def SameSession (s t : State) : Prop := { t.sess with bitlen := .b8 } = { s.sess with bitlen := BitLen.b8 }

theorem SameSession.restored (h : SameSession s t) : { t.sess with bitlen := s.sess.bitlen } = s.sess :=
  congrArg (fun ss : Session => { ss with bitlen := s.sess.bitlen }) h

theorem SameSession.trans (h : SameSession s t) (k : SameSession t u) : SameSession s u := Eq.trans k h

/-- A failure keeps the session. -/
def FailsSame (x : Op α) : Prop := ∀ s c t, x s = .error (.cause c) t → SameSession s t

namespace FailsSame

theorem of_touches {x : Op α} (h : Touches F x) (hF : F.sess = false) : FailsSame x := fun _ _ _ hx => (h.of_error hx).sess hF

theorem upd (g : State → State) : FailsSame (Machine.upd g) := fun _ _ _ h => by cases h
theorem pure (a : α) : FailsSame (Pure.pure a : Op α) := fun _ _ _ h => by cases h
theorem refuse (r : Refusal) : FailsSame (Machine.refuse r : Op α) := fun _ _ _ h => by cases h

theorem bind {x : Op α} {k : α → Op β} (hx : Touches F x) (hF : F.sess = false) (hk : ∀ a, FailsSame (k a)) :
    FailsSame (x >>= k) := fun s c u h => by
  rcases bind_eq_error.mp h with h1 | ⟨a, t, h1, h2⟩
  · exact (hx.of_error h1).sess hF
  · exact SameSession.trans ((hx.of_ok h1).sess hF) (hk a t c u h2)

end FailsSame

/-! ### The commands -/

theorem testReady_fails (wire : Wire) : FailsSame (testReady wire) := by
  cases wire with
  | sdNative =>
    refine .bind (F := .access) (touches_respByte _) rfl fun b => ?_
    split
    · exact fun _ _ _ h => by cases h
    · exact .pure _
  | spi => exact .bind (F := .access) (touches_respByte _) rfl fun _ => .pure _

theorem testReady_notYet {wire : Wire} (h : testReady wire s = .ok false t) : SameSession s t := by
  cases wire with
  | sdNative =>
    obtain ⟨b, u, h1, h2⟩ := bind_eq_ok.mp h
    have hu : SameSession s u := ((touches_respByte (F := .access) 1).of_ok h1).sess rfl
    split at h2
    · cases h2
    · cases h2
      exact hu
  | spi =>
    obtain ⟨b, u, h1, h2⟩ := bind_eq_ok.mp h
    simp only [pure_run, EStateM.Result.ok.injEq] at h2
    obtain ⟨-, rfl⟩ := h2
    exact ((touches_respByte (F := .access) 0).of_ok h1).sess rfl

theorem pollLoop_fails {mark : Nat → Op Unit} (hm : ∀ k, Touches F (mark k)) (hF : F.sess = false) (arg : Word)
    (wire : Wire) (fuel k : Nat) : FailsSame (pollLoop mark arg wire fuel k) := by
  induction fuel generalizing k with
  | zero => exact .of_touches (F := .access) (.raise _) rfl
  | succ n ih =>
    refine .bind (hm k) hF fun _ => .bind (touches_sendAppCommand _ _ _) rfl fun _ => fun s c u h => ?_
    rcases bind_eq_error.mp h with h1 | ⟨a, t, h1, h2⟩
    · exact testReady_fails wire _ _ _ h1
    · cases a with
      | true => cases h2
      | false => exact (testReady_notYet h1).trans (ih _ _ _ _ h2)

theorem reconfigure_fails (g : Session → Session) : FailsSame (reconfigure g) :=
  .bind (F := .access) touches_sdPort rfl fun _ => .bind (F := .access) (.get' _) rfl fun _ =>
    .bind (touches_regWrite _ _) rfl fun _ => .upd _

theorem publishRca_fails : FailsSame publishRca :=
  .bind (F := .access) touches_sdPort rfl fun _ => .bind (F := .access) (.onlyIf (.faultWith _)) rfl fun _ =>
    .bind (touches_executeCommand _ _ _) rfl fun _ => .bind (F := .access) (touches_respByte _) rfl fun _ =>
      .bind (F := .access) (touches_respByte _) rfl fun _ => .upd _

theorem readOcr_fails : FailsSame readOcr :=
  .bind (touches_executeCommand _ _ _) rfl fun _ => .bind (F := .access) (touches_respByte _) rfl fun _ => .upd _

theorem widenBus_fails : FailsSame widenBus :=
  .bind (F := .access) (.get' _) rfl fun _ => .bind (touches_sendAppCommand _ _ _) rfl fun _ => reconfigure_fails _

theorem highSpeed_fails : FailsSame highSpeed :=
  .bind (F := .access) touches_datPort rfl fun _ => .bind (touches_executeCommand _ _ _) rfl fun _ =>
    .bind (touches_receiveOther rfl) rfl fun _ => reconfigure_fails _

theorem pollReady_fails {mark : Nat → Op Unit} (hm : ∀ k, Touches F (mark k)) (hF : F.sess = false) (arg : Word) :
    FailsSame (pollReady mark arg) :=
  .bind (F := .access) touches_sdPort rfl fun _ => .bind (F := .access) (.get' _) rfl fun _ => pollLoop_fails hm hF _ _ _ _

theorem openStream_fails (m : AccessMode) (idx : BitVec 6) (arg last : Word) : FailsSame (openStream m idx arg last) :=
  .bind (touches_executeCommand _ _ _) rfl fun _ => .upd _

theorem openAtArg_fails (m : AccessMode) (idx : BitVec 6) (arg : Word) : FailsSame (openAtArg m idx arg) := by
  refine .bind (F := .access) (.get' _) rfl fun _ => ?_
  split
  · exact openStream_fails _ _ _ _
  · exact .bind touches_freshWord rfl fun _ => openStream_fails _ _ _ _

/-- A step of an operation that keeps the session on failure, where it does not return ok. -/
theorem runHost_fails {x : Op Unit} (h : FailsSame x) (hx : runHost (do x; pure .ok) s = .next t) (hr : t.result ≠ .ok) :
    SameSession s t := by
  unfold runHost at hx
  split at hx
  · rename_i r u h1
    obtain ⟨_, v, -, h3⟩ := bind_eq_ok.mp h1
    cases h3
    cases hx
    exact absurd rfl hr
  · rename_i c u h1
    cases hx
    rcases bind_eq_error.mp h1 with h2 | ⟨_, v, -, h3⟩
    · exact h s c u h2
    · cases h3
  · cases hx
  · cases hx

/-- A step of an operation with the session outside its footprint. -/
theorem runHost_same {x : Op HostResult} (h : Touches F x) (hF : F.sess = false) (hx : runHost x s = .next t) :
    SameSession s t := by
  obtain ⟨u, hu, ht⟩ := runHost_sameOn h hx
  rw [ht]
  exact hu.sess hF

/-! ### CMD12 -/

/-- Ends in no cause. -/
def NoCause (x : Op α) : Prop := ∀ s c t, x s ≠ .error (.cause c) t

namespace NoCause

theorem bind {x : Op α} {k : α → Op β} (hx : NoCause x) (hk : ∀ a, NoCause (k a)) : NoCause (x >>= k) := fun s c u h => by
  rcases bind_eq_error.mp h with h1 | ⟨a, t, -, h2⟩
  · exact hx s c u h1
  · exact hk a t c u h2

theorem pure (a : α) : NoCause (Pure.pure a : Op α) := fun _ _ _ h => by cases h
theorem get' (g : State → α) : NoCause (Machine.get' g) := fun _ _ _ h => by cases h
theorem refuse (r : Refusal) : NoCause (Machine.refuse r : Op α) := fun _ _ _ h => by cases h
theorem upd (g : State → State) : NoCause (Machine.upd g) := fun _ _ _ h => by cases h

theorem attempt (x : Op α) : NoCause (Machine.attempt x) := fun s c t h => by
  unfold Machine.attempt at h
  split at h <;> cases h

theorem ite {c : Prop} [Decidable c] {x y : Op α} (hx : NoCause x) (hy : NoCause y) : NoCause (if c then x else y) := by
  split <;> assumption

/-- What is run first changes nothing that the relation looks at, and ends in no cause. -/
theorem before {R : State → State → Prop} {x : Op α} {k : α → Op β} (hx : NoCause x) (ht : Touches F x)
    (hR : ∀ s t u, SameOn F s t → R t u → R s u) (hk : ∀ a, Every R (k a)) : Every R (x >>= k) := by
  refine .intro (fun s _ v h => ?_) fun s c v h => ?_
  · obtain ⟨r, t, h1, h2⟩ := bind_eq_ok.mp h
    exact hR _ _ _ (ht.of_ok h1) ((hk r).of_ok h2)
  · rcases bind_eq_error.mp h with h1 | ⟨r, t, h1, h2⟩
    · exact absurd h1 (hx _ _ _)
    · exact hR _ _ _ (ht.of_ok h1) ((hk r).of_cause h2)

end NoCause

theorem noCause_famParams : NoCause famParams :=
  .bind (.bind (.get' _) fun o => by
    cases o
    · exact .refuse _
    · exact .pure _) fun _ => .get' _

theorem noCause_datPort : NoCause datPort :=
  .bind (.bind noCause_famParams fun _ => .ite (.refuse _) (.pure _)) fun _ => .ite (.refuse _) (.pure _)

/-- The session but for the bit length is as it was with the stream closed. -/
def Stopped (s t : State) : Prop :=
  { t.sess with bitlen := .b8 } = { s.sess with bitlen := BitLen.b8, mode := AccessMode.none }

theorem SameSession.stopped (h : SameSession s t) (k : Stopped t u) : Stopped s u :=
  Eq.trans k (congrArg (fun ss : Session => { ss with mode := .none }) h)

theorem Stopped.restored (h : Stopped s t) : { t.sess with bitlen := s.sess.bitlen } = { s.sess with mode := .none } :=
  congrArg (fun ss : Session => { ss with bitlen := s.sess.bitlen }) h

/-- Whatever becomes of CMD12, no stream is open after it (R146). -/
theorem stopStream_stops : Every Stopped stopStream := by
  have rest : ∀ r : Except Cause Unit, Touches .clocked (do rethrow r; waitNotBusy : Op Unit) := fun r =>
    (Touches.rethrow r).bind fun _ => touches_waitNotBusy
  have same : ∀ {F : Foot}, F.sess = false → ∀ s t u, SameOn F s t → Stopped t u → Stopped s u := fun hF _ _ _ h k =>
    SameSession.stopped (h.sess hF) k
  refine NoCause.before (F := .access) noCause_datPort touches_datPort (same rfl) fun _ =>
    NoCause.before (.attempt _) (touches_executeCommand _ _ _).attempt (same rfl) fun r => ?_
  refine .intro (fun s _ v h => ?_) fun s c v h => ?_
  · obtain ⟨_, t, h1, h2⟩ := bind_eq_ok.mp h
    cases h1
    exact ((rest r).of_ok h2).sess rfl
  · rcases bind_eq_error.mp h with h1 | ⟨_, t, h1, h2⟩
    · cases h1
    · cases h1
      exact ((rest r).of_error h2).sess rfl

end Sys2Proof.Machine
end

