-- ==== Sys2Proof/Laws/Lanes.lean ====
section
/-! SUPPORT. The data lanes in an environment that answers at once: single clocks, bytes, waits, and whole blocks in both
directions (43_card_sequencer.md R169 to R174). -/

namespace Sys2Proof.Machine

variable {α β : Type} {f : Family} {F G : Foot} {s t u : State} {e : Env} {out : List Sent}

theorem OnLanes.went (h : OnLanes s f) (w : Went f F e out s t) (hF : F.bus = false) : OnLanes t f :=
  ⟨h.port.went w hF, by rw [w.cfg]; exact h.native⟩

theorem datPort_run (h : OnLanes s f) : datPort s = .ok (s.cfg.fam f) s := by
  simp [datPort, bind_ok (sdPort_run h.port), h.native]

/-- The environment with other lanes. -/
theorem datLine_same {l : List Nibble} (h : s.env.core.datLine = l) : ({ s.env.core with datLine := l } : Env) = s.env.core := by
  rw [← h]

theorem cmdLine_same {l : List Bool} (h : s.env.core.cmdLine = l) : ({ s.env.core with cmdLine := l } : Env) = s.env.core := by
  rw [← h]

/-! ### Clocks -/

theorem many_nextNibble_head (ns : List Nibble) {l : List Nibble} (hl : s.env.datLine = ns ++ l) (hne : l ≠ []) :
    many nextNibble ns.length s = .ok ns { s with env := { s.env with datLine := l } } := by
  induction ns generalizing s with
  | nil =>
    have : s = { s with env := { s.env with datLine := l } } := by rw [← show s.env.datLine = l from hl]
    exact congrArg _ this
  | cons n ns ih =>
    have h1 := nextNibble_head (l := ns ++ l) hl (by simp [hne])
    exact many_succ_ok h1 (ih (s := { s with env := { s.env with datLine := ns ++ l } }) rfl)

/-- One clock of the lanes. -/
theorem laneClock_quiet (h : OnPort s f) {n : Nibble} {l : List Nibble} (hl : s.env.core.datLine = n :: l)
    (hne : l ≠ []) : ∃ t, laneClock s = .ok n t ∧ Went f .access { s.env.core with datLine := l } [] s t := by
  obtain ⟨t, hw1, ht⟩ := portWrite_quiet h .sdDat 0xFF
  have hline : t.env.datLine = n :: l := by
    have : t.env.core.datLine = n :: l := by rw [ht.env]; exact hl
    exact this
  have hbit := nextNibble_head hline hne
  have hu : Went f .access { s.env.core with datLine := l } [] t { t with env := { t.env with datLine := l } } :=
    ⟨touches_nextNibble.of_ok hbit, by rw [← ht.env]; rfl, (List.append_nil _).symm, ht.quiet⟩
  obtain ⟨v, hr, hv⟩ := portRead_quiet ((h.went ht rfl).went hu rfl) .sdDat 1 (if n.getLsbD 0 then 1 else 0)
  refine ⟨v, by simp only [laneClock, bind_ok hw1, bind_ok hbit, bind_ok hr, pure_run], ?_⟩
  have := ht.trans (hu.trans hv)
  rw [hu.env] at this
  exact this

/-- One clock of `DAT0`, at the single-bit length (R192). -/
theorem datRxBit_quiet (h : OnLanes s f) {n : Nibble} {l : List Nibble} (hl : s.env.core.datLine = n :: l)
    (hne : l ≠ []) : ∃ t, datRxBit s = .ok (n.getLsbD 0) t ∧
      Went f .clocked { s.env.core with datLine := l } [] s t ∧ (s.sess.bitlen = .b8 → t.sess.bitlen = .b8) := by
  have clock : ∃ t, singleLaneClock (s.cfg.fam f) s = .ok n t ∧
      Went f .clocked { s.env.core with datLine := l } [] s t ∧ (s.sess.bitlen = .b8 → t.sess.bitlen = .b8) := by
    by_cases hp : (s.cfg.fam f).portLevel = true
    · obtain ⟨t, hrun, ht, hlen⟩ := atSingleBit_ok (e' := { s.env.core with datLine := l }) (out := []) h.port
          (body := laneClock) fun t ht hpt => by
        obtain ⟨u, hclock, hu⟩ := laneClock_quiet hpt (by rw [ht.env]; exact hl) hne
        rw [ht.env] at hu
        exact ⟨u, hclock, hu.mono rfl⟩
      exact ⟨t, by simp [singleLaneClock, hp, hrun], ht, fun _ => hlen⟩
    · obtain ⟨t, hrun, ht⟩ := laneClock_quiet h.port hl hne
      exact ⟨t, by simp [singleLaneClock, hp, hrun], ht.mono rfl, fun hb => (ht.same.line rfl).trans hb⟩
  obtain ⟨t, hrun, ht, hlen⟩ := clock
  refine ⟨{ t with hist := .datRxBit (n.getLsbD 0) :: t.hist }, ?_, ?_, hlen⟩
  · simp only [datRxBit, bind_ok (datPort_run h), bind_ok hrun, emit_bind, pure_run]
  · have := ht.trans ((Went.emit ht.quiet (.datRxBit (n.getLsbD 0)) rfl).mono (G := .clocked) rfl)
    rw [ht.env] at this
    exact this

/-! ### Bytes -/

theorem nibbles_of_byte (b : Byte) : b.extractLsb' 4 4 ++ b.extractLsb' 0 4 = b := by
  revert b; decide +kernel

/-- The first byte of a carried sequence has nibbles of its own. -/
theorem Carries.split {width : BusWidth} {ns : List Nibble} {b : Byte} {bs : List Byte} (h : Carries width ns (b :: bs)) :
    ∃ n1 n2, ns = n1 ++ n2 ∧ Carries width n1 [b] ∧ Carries width n2 bs := by
  cases width with
  | w4 => exact ⟨[b.extractLsb' 4 4, b.extractLsb' 0 4], nibblesOf bs, by simpa [Carries, nibblesOf] using h, rfl, rfl⟩
  | w1 =>
    have h' : (ns.map fun n => n.getLsbD 0) = byteBits b ++ bs.flatMap byteBits := h
    obtain ⟨n1, n2, rfl, h1, h2⟩ := List.map_eq_append_iff.mp h'
    exact ⟨n1, n2, rfl, by simpa [Carries] using h1, h2⟩

/-- The clocks of one byte give the byte (20_memory.md R57, R172). -/
theorem clockByte_run {width : BusWidth} {ns : List Nibble} {b : Byte} (hc : Carries width ns [b]) {l : List Nibble}
    (hl : s.env.datLine = ns ++ l) (hne : l ≠ []) :
    clockByte width s = .ok b { s with env := { s.env with datLine := l } } := by
  cases width with
  | w4 =>
    have hns : ns = [b.extractLsb' 4 4, b.extractLsb' 0 4] := by simpa [Carries, nibblesOf] using hc
    subst hns
    have h1 := nextNibble_head (l := b.extractLsb' 0 4 :: l) hl (by simp)
    have h2 := nextNibble_head (s := { s with env := { s.env with datLine := b.extractLsb' 0 4 :: l } }) rfl hne
    simp only [clockByte, bind_ok h1, bind_ok h2, pure_run, nibbles_of_byte]
  | w1 =>
    have hbits : (ns.map fun n => n.getLsbD 0) = byteBits b := by simpa [Carries] using hc
    have hlen : ns.length = 8 := by simpa [byteBits_length] using congrArg List.length hbits
    have hm := many_nextNibble_head ns hl hne
    rw [hlen] at hm
    simp only [clockByte, bind_ok hm, pure_run, hbits, byteOfBits_byteBits]

theorem many_clockByte_run {width : BusWidth} {ns : List Nibble} {bytes : List Byte} (hc : Carries width ns bytes)
    {l : List Nibble} (hl : s.env.datLine = ns ++ l) (hne : l ≠ []) :
    many (clockByte width) bytes.length s = .ok bytes { s with env := { s.env with datLine := l } } := by
  induction bytes generalizing s ns with
  | nil =>
    have hns : ns = [] := by cases width <;> simpa [Carries, nibblesOf] using hc
    subst hns
    have : s = { s with env := { s.env with datLine := l } } := by rw [← show s.env.datLine = l from hl]
    exact congrArg _ this
  | cons b bs ih =>
    obtain ⟨n1, n2, rfl, h1, h2⟩ := hc.split
    have hb := clockByte_run h1 (l := n2 ++ l) (by rw [hl, List.append_assoc]) (by simp [hne])
    exact many_succ_ok hb (ih (s := { s with env := { s.env with datLine := n2 ++ l } }) h2 rfl)

/-- One byte through the data register. -/
theorem datByte_quiet (h : OnPort s f) {width : BusWidth} {ns : List Nibble} {b : Byte} (hc : Carries width ns [b])
    {l : List Nibble} (hl : s.env.core.datLine = ns ++ l) (hne : l ≠ []) :
    ∃ t, datByte width s = .ok b t ∧ Went f .access { s.env.core with datLine := l } [] s t := by
  obtain ⟨t, hw1, ht⟩ := portWrite_quiet h .sdDat 0xFF
  have hline : t.env.datLine = ns ++ l := by
    have : t.env.core.datLine = ns ++ l := by rw [ht.env]; exact hl
    exact this
  have hbit := clockByte_run hc hline hne
  have hu : Went f .access { s.env.core with datLine := l } [] t { t with env := { t.env with datLine := l } } :=
    ⟨(touches_clockByte width).of_ok hbit, by rw [← ht.env]; rfl, (List.append_nil _).symm, ht.quiet⟩
  obtain ⟨v, hr, hv⟩ := portRead_quiet ((h.went ht rfl).went hu rfl) .sdDat 0xFF (b.zeroExtend 32)
  refine ⟨v, by simp only [datByte, bind_ok hw1, bind_ok hbit, bind_ok hr, pure_run], ?_⟩
  have := ht.trans (hu.trans hv)
  rw [hu.env] at this
  exact this

theorem many_datByte_quiet (h : OnPort s f) {width : BusWidth} {ns : List Nibble} {bytes : List Byte}
    (hc : Carries width ns bytes) {l : List Nibble} (hl : s.env.core.datLine = ns ++ l) (hne : l ≠ []) :
    ∃ t, many (datByte width) bytes.length s = .ok bytes t ∧
      Went f .access { s.env.core with datLine := l } [] s t := by
  induction bytes generalizing s ns with
  | nil =>
    have hns : ns = [] := by cases width <;> simpa [Carries, nibblesOf] using hc
    subst hns
    exact ⟨s, rfl, by rw [datLine_same (l := l) (by simpa using hl)]; exact .refl _ h.quiet⟩
  | cons b bs ih =>
    obtain ⟨n1, n2, rfl, h1, h2⟩ := hc.split
    obtain ⟨t, hb, ht⟩ := datByte_quiet h h1 (l := n2 ++ l) (by rw [hl, List.append_assoc]) (by simp [hne])
    obtain ⟨u, hall, hu⟩ := ih (h.went ht rfl) h2 (by rw [ht.env])
    refine ⟨u, many_succ_ok hb hall, ?_⟩
    have := ht.trans hu
    rwa [ht.env] at this

/-- The bytes a `DatRx` collects are those the lanes carry (R171, R192, R194). -/
theorem datRx_quiet (h : OnLanes s f) {ns : List Nibble} {bytes : List Byte} {n : Nat} (hn : bytes.length = n)
    (hc : Carries s.sess.busWidth ns bytes) {l : List Nibble} (hl : s.env.core.datLine = ns ++ l) (hne : l ≠ []) :
    ∃ t, datRx n s = .ok bytes t ∧ Went f .access { s.env.core with datLine := l } [] s t := by
  subst hn
  have body : ∃ t, datBytes (s.cfg.fam f) s.sess.busWidth bytes.length s = .ok bytes t ∧
      Went f .access { s.env.core with datLine := l } [] s t := by
    by_cases hd : ((s.cfg.fam f).portLevel && (s.cfg.fam f).hasDma) = true
    · obtain ⟨t, hr1, ht, -⟩ := regWrite_quiet h.port.owner h.port.quiet .dmaAddr (s.cfg.fam f).cartBuf
      have htp := h.port.went ht rfl
      obtain ⟨u, hr2, hu, -⟩ := regWrite_quiet htp.owner htp.quiet .dmaLen (BitVec.ofNat 32 bytes.length)
      have hup := htp.went hu rfl
      obtain ⟨w, v, hwait, -, hv, -⟩ := waitStatus_quiet hup.owner hup.quiet (n := (s.cfg.fam f).waits.dma)
        h.port.quiet.caps.2.2.1
      have hw := ht.trans (hu.trans hv)
      have hvcore : v.env.core = s.env.core := by rw [hv.env, hu.env, ht.env]
      have hline : v.env.datLine = ns ++ l := by
        have : v.env.core.datLine = ns ++ l := by rw [hvcore]; exact hl
        exact this
      have hbytes := many_clockByte_run hc hline hne
      refine ⟨_, ?_, hw.trans ⟨((touches_clockByte _).many _).of_ok hbytes, ?_, (List.append_nil _).symm, hv.quiet⟩⟩
      · simp only [datBytes, hd, if_true, cartSideDma, bind_ok hr1, bind_ok hr2, bind_ok hwait, hbytes]
      · rw [← hvcore]; rfl
    · obtain ⟨t, hrun, ht⟩ := many_datByte_quiet h.port hc hl hne
      exact ⟨t, by simp only [datBytes, hd, if_false, hrun, Bool.false_eq_true], ht⟩
  obtain ⟨t, hrun, ht⟩ := body
  refine ⟨{ t with hist := .datRx bytes.length bytes :: t.hist }, ?_, ?_⟩
  · simp only [datRx, bind_ok (datPort_run h), get'_bind, bind_ok hrun, emit_bind, pure_run]
  · have := ht.trans (Went.emit ht.quiet (.datRx bytes.length bytes) rfl)
    rw [ht.env] at this
    exact this

/-! ### Waits on `DAT0` -/

/-- A wait on `DAT0` passes over the clocks at one level and ends at the first of the other, if that comes in time. -/
theorem lane_wait (level : Bool) (h : OnLanes s f) (ns : List Nibble) (hns : ∀ n ∈ ns, n.getLsbD 0 = !level)
    {last : Nibble} (hlast : last.getLsbD 0 = level) {cap : Nat} (hcap : ns.length < cap) {l : List Nibble}
    (hl : s.env.core.datLine = ns ++ last :: l) (hne : l ≠ []) :
    ∃ t, spinOn (do
        let b ← datRxBit
        pure (if b = level then some () else none)) cap s = .ok () t ∧
      Went f .clocked { s.env.core with datLine := l } [] s t ∧ (s.sess.bitlen = .b8 → t.sess.bitlen = .b8) := by
  induction ns generalizing s cap with
  | nil =>
    obtain ⟨n, rfl⟩ := Nat.exists_eq_succ_of_ne_zero (Nat.pos_iff_ne_zero.mp hcap)
    have hc := (Went.count h.port.quiet (n + 1)).mono (G := .clocked) rfl
    obtain ⟨t, hb, ht, hlen⟩ := datRxBit_quiet (h.went hc rfl) (by simpa using hl) hne
    exact ⟨t, spinOn_now (by simp only [bind_ok hb, hlast, if_true]; rfl), hc.trans ht, hlen⟩
  | cons x ns ih =>
    obtain ⟨n, rfl⟩ := Nat.exists_eq_succ_of_ne_zero (Nat.pos_iff_ne_zero.mp (Nat.zero_lt_of_lt hcap))
    have hc := (Went.count h.port.quiet (n + 1)).mono (G := .clocked) rfl
    obtain ⟨t, hb, ht, hlen⟩ := datRxBit_quiet (h.went hc rfl) (l := ns ++ last :: l) (by simpa using hl) (by simp)
    have hd := (Went.count ht.quiet n).mono (G := .clocked) rfl
    have htd := ht.trans hd
    rw [ht.env] at htd
    obtain ⟨u, hrun, hu, hlen'⟩ := ih (s := { t with spinCount := n }) ((h.went hc rfl).went htd rfl)
      (fun y hy => hns y (List.mem_cons_of_mem _ hy)) (Nat.lt_of_succ_lt_succ hcap) (by rw [htd.env])
    refine ⟨u, ?_, ?_, fun hb8 => hlen' (hlen hb8)⟩
    · rw [spinOn_later (t := t), hrun]
      have hx : x.getLsbD 0 = !level := hns x (by simp)
      simp only [bind_ok hb, hx]
      cases level <;> rfl
    · have := hc.trans (htd.trans hu)
      rwa [htd.env] at this

/-- The wait for a data block ends at its start (R169). -/
theorem waitDataStart_quiet (h : OnLanes s f) (ns : List Nibble) (hns : ∀ n ∈ ns, n.getLsbD 0 = true)
    {last : Nibble} (hlast : last.getLsbD 0 = false) (hcap : ns.length < (s.cfg.fam f).waits.dataStart) {l : List Nibble}
    (hl : s.env.core.datLine = ns ++ last :: l) (hne : l ≠ []) :
    ∃ t, waitDataStart s = .ok () t ∧ Went f .clocked { s.env.core with datLine := l } [] s t ∧
      (s.sess.bitlen = .b8 → t.sess.bitlen = .b8) := by
  obtain ⟨t, hrun, ht⟩ := lane_wait false h ns (by simpa using hns) hlast hcap hl hne
  refine ⟨t, ?_, ht⟩
  rw [← hrun]
  simp only [waitDataStart, bind_ok (datPort_run h)]
  congr 2
  funext b
  cases b <;> rfl

/-- The wait for a busy card ends when it lets `DAT0` go (R174). -/
theorem waitNotBusy_quiet (h : OnLanes s f) {ns : List Nibble} (hb : BusyOnLanes (s.cfg.fam f) ns) {l : List Nibble}
    (hl : s.env.core.datLine = ns ++ l) (hne : l ≠ []) :
    ∃ t, waitNotBusy s = .ok () t ∧ Went f .clocked { s.env.core with datLine := l } [] s t ∧
      (s.sess.bitlen = .b8 → t.sess.bitlen = .b8) := by
  obtain ⟨busy, free, rfl, hcap, hbusy, hfree⟩ := hb
  obtain ⟨t, hrun, ht⟩ := lane_wait true h busy (by simpa using hbusy) hfree hcap (l := l) (by simpa using hl) hne
  refine ⟨t, ?_, ht⟩
  rw [← hrun]
  simp only [waitNotBusy, bind_ok (datPort_run h)]

/-! ### Blocks -/

/-- A received block: what it places in the cartridge's buffer, or the checksum error it ends in (R171). -/
theorem receiveBlock_quiet (h : OnLanes s f) {d t : List Byte} {ns : List Nibble}
    (hb : BlockOnLanes (s.cfg.fam f) s.sess.busWidth d t ns) {l : List Nibble}
    (hl : s.env.core.datLine = ns ++ l) (hne : l ≠ []) :
    ∃ u, Went f .receive { s.env.core with datLine := l } [] s u ∧ (s.sess.bitlen = .b8 → u.sess.bitlen = .b8) ∧
      if s.cfg.checkReadCrc16 = true ∧ d.length = sector ∧ t ≠ blockTrailer s.sess.busWidth d then
        receiveBlock d.length s = .error (.cause .crc) u ∧ u.cb = s.cb
      else receiveBlock d.length s = .ok () u ∧
        u.cb = if d.length = sector then s.cb.writeBytes 0 (if s.byteswap then swapPairs d else d) else s.cb := by
  obtain ⟨wait, start, data, crc, stop, rfl, hcap, hwait, hstart, hdata, hcrc, htlen⟩ := hb
  obtain ⟨s1, hr1, hw1, hb1⟩ := waitDataStart_quiet h wait hwait hstart hcap (l := data ++ (crc ++ (stop :: l)))
    (by simpa using hl) (by simp)
  have h1 := h.went hw1 rfl
  have hwid1 : s1.sess.busWidth = s.sess.busWidth := by rw [hw1.same.session rfl]
  obtain ⟨s2, hr2, hw2⟩ := datRx_quiet h1 rfl (by rw [hwid1]; exact hdata) (l := crc ++ (stop :: l))
    (by rw [hw1.env]) (by simp)
  have h2 := h1.went hw2 rfl
  have hwid2 : s2.sess.busWidth = s.sess.busWidth := by rw [hw2.same.session_eq rfl rfl, hwid1]
  obtain ⟨s3, hr3, hw3⟩ := datRx_quiet h2 htlen (by rw [hwid2]; exact hcrc) (l := stop :: l)
    (by rw [hw2.env]) (by simp)
  obtain ⟨s4, hr4, hw4, hb4⟩ := datRxBit_quiet (h2.went hw3 rfl) (by rw [hw3.env]) hne
  have hw : Went f .clocked { s.env.core with datLine := l } [] s s4 := by
    have := hw1.trans ((hw2.mono (G := .clocked) rfl).trans ((hw3.mono (G := .clocked) rfl).trans hw4))
    rw [hw3.env, hw2.env, hw1.env] at this
    simpa using this
  have hcfg : s4.cfg = s.cfg := hw.cfg
  have hlen : s.sess.bitlen = .b8 → s4.sess.bitlen = .b8 := fun hb =>
    hb4 ((hw3.same.line rfl).trans ((hw2.same.line rfl).trans (hb1 hb)))
  have hstep : receiveBlock d.length s = (do
      onlyIf (s.cfg.checkReadCrc16 && d.length == sector) (checkTrailer s.sess.busWidth d t)
      onlyIf (d.length == sector) (placeInBuffer 0 d) : Op Unit) s4 := by
    simp only [receiveBlock, bind_ok hr1, bind_ok hr2, get'_bind, hwid2, bind_ok hr3, bind_ok hr4, hcfg]
  have hswap : s4.byteswap = s.byteswap := hw.same.swap rfl
  have hcb : s4.cb = s.cb := hw.same.buffer rfl
  have acc : Went f .receive s4.env.core [] s4 { s4 with crc16Acc := blockAcc s.sess.busWidth d } :=
    .of_same hw.quiet (by constructor <;> simp [Foot.receive]) rfl rfl
  have place : ∀ {v : State}, Quiet v f →
      Went f .receive v.env.core [] v { v with cb := v.cb.writeBytes 0 (if v.byteswap then swapPairs d else d) } :=
    fun hq => .of_same hq (by constructor <;> simp [Foot.receive]) rfl rfl
  have hwr : Went f .receive { s.env.core with datLine := l } [] s s4 := hw.mono rfl
  rw [hstep]
  by_cases hc : s.cfg.checkReadCrc16 = true
  · by_cases hd : d.length = sector
    · by_cases htr : t = blockTrailer s.sess.busWidth d
      · have h1 := hwr.trans acc
        have h2 := h1.trans (place acc.quiet)
        refine ⟨{ s4 with crc16Acc := blockAcc s.sess.busWidth d, cb := s4.cb.writeBytes 0 (if s4.byteswap then swapPairs d else d) },
          by rw [acc.env, hw.env] at h2; exact h2, hlen, ?_⟩
        rw [if_neg (by simp [htr])]
        have hrun : checkTrailer s.sess.busWidth d t s4 =
            .ok () { s4 with crc16Acc := blockAcc s.sess.busWidth d } := by
          simp only [checkTrailer, upd_bind, htr, if_true, pure_run]
        refine ⟨?_, ?_⟩
        · rw [bind_ok ((onlyIf_true (by simp [hc, hd]) _).trans hrun), onlyIf_true (by simp [hd])]
          rfl
        · simp only [hd, if_true, hcb, hswap]
      · refine ⟨{ s4 with crc16Acc := blockAcc s.sess.busWidth d }, ?_, hlen, ?_⟩
        · have h1 := hwr.trans acc
          rw [hw.env] at h1
          exact h1
        · rw [if_pos ⟨hc, hd, htr⟩]
          have hrun : checkTrailer s.sess.busWidth d t s4 =
              .error (.cause .crc) { s4 with crc16Acc := blockAcc s.sess.busWidth d } := by
            simp only [checkTrailer, upd_bind, htr, if_false, raise_run]
          exact ⟨by rw [bind_error ((onlyIf_true (by simp [hc, hd]) _).trans hrun)], hcb⟩
    · refine ⟨s4, hwr, hlen, ?_⟩
      rw [if_neg (by simp [hd]), if_neg hd]
      refine ⟨?_, hcb⟩
      rw [bind_ok (onlyIf_false (by simp [hd]) _), onlyIf_false (by simp [hd])]
  · have hc' : s.cfg.checkReadCrc16 = false := by simpa using hc
    by_cases hd : d.length = sector
    · refine ⟨{ s4 with cb := s4.cb.writeBytes 0 (if s4.byteswap then swapPairs d else d) }, ?_, hlen, ?_⟩
      · have h2 := hwr.trans (place hw.quiet)
        rw [hw.env] at h2
        exact h2
      · rw [if_neg (by simp [hc'])]
        refine ⟨?_, by simp only [hd, if_true, hcb, hswap]⟩
        rw [bind_ok (onlyIf_false (by simp [hc']) _), onlyIf_true (by simp [hd])]
        rfl
    · refine ⟨s4, hwr, hlen, ?_⟩
      rw [if_neg (by simp [hc']), if_neg hd]
      refine ⟨?_, hcb⟩
      rw [bind_ok (onlyIf_false (by simp [hd]) _), onlyIf_false (by simp [hd])]

/-! ### Sending -/

/-- Several port writes. -/
theorem portWrites_quiet (h : OnPort s f) (r : Reg) (bs : List Byte) :
    ∃ t, forEach (fun b => portWrite r (b.zeroExtend 32)) bs s = .ok () t ∧ Went f .access s.env.core [] s t := by
  induction bs generalizing s with
  | nil => exact ⟨s, rfl, .refl _ h.quiet⟩
  | cons b bs ih =>
    obtain ⟨t, hrun, ht⟩ := portWrite_quiet h r (b.zeroExtend 32)
    obtain ⟨u, hall, hu⟩ := ih (h.went ht rfl)
    refine ⟨u, (forEach_cons_ok (act := fun b : Byte => portWrite r (b.zeroExtend 32)) hrun).trans hall, ?_⟩
    have := ht.trans hu
    rwa [ht.env] at this

/-- Driving the lanes takes no answer (R173, R192). -/
theorem datTx_quiet (h : OnLanes s f) (d : TxData) :
    ∃ t, datTx d s = .ok () t ∧ Went f .clocked s.env.core [.dat d] s t ∧ (s.sess.bitlen = .b8 → t.sess.bitlen = .b8) := by
  have he : Went f .clocked s.env.core [.dat d] s { s with hist := .datTx d :: s.hist } :=
    ⟨by constructor <;> simp [Foot.clocked, Foot.access], rfl, by simp, h.port.quiet⟩
  have hp := h.port.went he rfl
  have drive : ∃ t, driveLanes d { s with hist := .datTx d :: s.hist } = .ok () t ∧
      Went f .clocked s.env.core [] { s with hist := .datTx d :: s.hist } t ∧
        (s.sess.bitlen = .b8 → t.sess.bitlen = .b8) := by
    cases d with
    | bytes bs =>
      obtain ⟨t, hrun, ht⟩ := portWrites_quiet hp .sdDat bs
      exact ⟨t, hrun, ht.mono rfl, fun hb => (ht.same.line rfl).trans hb⟩
    | nibble n =>
      obtain ⟨t, hrun, ht, hlen⟩ := atSingleBit_ok (e' := s.env.core) (out := []) hp
          (body := portWrite .sdDat (n.zeroExtend 32)) fun t ht hpt => by
        obtain ⟨u, hw, hu⟩ := portWrite_quiet hpt .sdDat (n.zeroExtend 32)
        rw [ht.env] at hu
        exact ⟨u, hw, hu.mono rfl⟩
      exact ⟨t, hrun, ht, fun _ => hlen⟩
  by_cases hl : (s.cfg.fam f).portLevel = true
  · obtain ⟨t, hrun, ht, hlen⟩ := drive
    refine ⟨t, ?_, he.trans ht, hlen⟩
    simp only [datTx, bind_ok (datPort_run h), emit_bind, onlyIf_true hl, hrun]
  · refine ⟨{ s with hist := .datTx d :: s.hist }, ?_, he, fun hb => hb⟩
    simp only [datTx, bind_ok (datPort_run h), emit_bind, onlyIf_false (Bool.eq_false_iff.mpr hl)]

/-- The five clocks of a status token give its middle three bits (30_encoding.md R86). -/
theorem readToken_quiet (h : OnLanes s f) {n0 n1 n2 n3 n4 : Nibble} {l : List Nibble}
    (hl : s.env.core.datLine = n0 :: n1 :: n2 :: n3 :: n4 :: l) (hne : l ≠ []) :
    ∃ t, readToken s = .ok (bitOf (n1.getLsbD 0) ++ bitOf (n2.getLsbD 0) ++ bitOf (n3.getLsbD 0)) t ∧
      Went f .clocked { s.env.core with datLine := l } [] s t ∧ (s.sess.bitlen = .b8 → t.sess.bitlen = .b8) := by
  obtain ⟨t0, hr0, hw0, hb0⟩ := datRxBit_quiet h hl (by simp)
  have h0 := h.went hw0 rfl
  obtain ⟨t1, hr1, hw1, hb1⟩ := datRxBit_quiet h0 (n := n1) (l := n2 :: n3 :: n4 :: l) (by rw [hw0.env]) (by simp)
  have h1 := h0.went hw1 rfl
  obtain ⟨t2, hr2, hw2, hb2⟩ := datRxBit_quiet h1 (n := n2) (l := n3 :: n4 :: l) (by rw [hw1.env]) (by simp)
  have h2 := h1.went hw2 rfl
  obtain ⟨t3, hr3, hw3, hb3⟩ := datRxBit_quiet h2 (n := n3) (l := n4 :: l) (by rw [hw2.env]) (by simp)
  have h3 := h2.went hw3 rfl
  obtain ⟨t4, hr4, hw4, hb4⟩ := datRxBit_quiet h3 (n := n4) (l := l) (by rw [hw3.env]) hne
  refine ⟨t4, ?_, ?_, fun hb => hb4 (hb3 (hb2 (hb1 (hb0 hb))))⟩
  · simp only [readToken, bind_ok hr0, bind_ok hr1, bind_ok hr2, bind_ok hr3, bind_ok hr4, pure_run]
  · have := hw0.trans (hw1.trans (hw2.trans (hw3.trans hw4)))
    rw [hw3.env, hw2.env, hw1.env, hw0.env] at this
    exact this

/-- A block goes out and the card's status decides what follows (R173). -/
theorem sendBlock_token (h : OnLanes s f) (d : List Byte) {n0 n1 n2 n3 n4 : Nibble} {l : List Nibble}
    (hl : s.env.core.datLine = n0 :: n1 :: n2 :: n3 :: n4 :: l) (hne : l ≠ []) : ∃ t,
      Went f .sendBlock { s.env.core with datLine := l } (blockSent s.sess.busWidth d) s t ∧
      (s.sess.bitlen = .b8 → t.sess.bitlen = .b8) ∧
      sendBlock d s =
        (match tokenFault (bitOf (n1.getLsbD 0) ++ bitOf (n2.getLsbD 0) ++ bitOf (n3.getLsbD 0)) with
          | some c => raise c
          | none => waitNotBusy : Op Unit) t := by
  have hacc : Went f .sendBlock s.env.core [] s { s with crc16Acc := blockAcc s.sess.busWidth d } :=
    .of_same h.port.quiet (by constructor <;> simp [Foot.sendBlock]) rfl rfl
  have h0 := h.went hacc rfl
  obtain ⟨t1, hr1, hw1, hb1⟩ := datTx_quiet h0 (.nibble 0)
  have h1 := h0.went hw1 rfl
  obtain ⟨t2, hr2, hw2, hb2⟩ := datTx_quiet h1 (.bytes d)
  have h2 := h1.went hw2 rfl
  obtain ⟨t3, hr3, hw3, hb3⟩ := datTx_quiet h2 (.bytes (blockTrailer s.sess.busWidth d))
  have h3 := h2.went hw3 rfl
  obtain ⟨t4, hr4, hw4, hb4⟩ := datTx_quiet h3 (.nibble 0xF)
  have h4 := h3.went hw4 rfl
  have hw14 := hw1.trans (hw2.trans (hw3.trans hw4))
  rw [hw3.env, hw2.env, hw1.env] at hw14
  obtain ⟨t5, hr5, hw5, hb5⟩ := readToken_quiet h4 (by rw [hw14.env]; exact hl) hne
  have hall := hacc.trans ((hw14.trans hw5).mono (G := .sendBlock) rfl)
  rw [hw14.env] at hall
  refine ⟨t5, by simpa [blockSent] using hall, fun hb => hb5 (hb4 (hb3 (hb2 (hb1 hb)))), ?_⟩
  simp only [sendBlock, get'_bind, upd_bind, bind_ok hr1, bind_ok hr2, bind_ok hr3, bind_ok hr4, bind_ok hr5]
  all_goals rfl

/-- A sent block: the card's status decides how it ends (R173). -/
theorem sendBlock_quiet (h : OnLanes s f) (d : List Byte) {n0 n1 n2 n3 n4 : Nibble} {busy l : List Nibble}
    (hb : BusyOnLanes (s.cfg.fam f) busy) (hl : s.env.core.datLine = n0 :: n1 :: n2 :: n3 :: n4 :: (busy ++ l))
    (hne : l ≠ []) : ∃ t,
      Went f .sendBlock { s.env.core with
        datLine := if tokenFault (bitOf (n1.getLsbD 0) ++ bitOf (n2.getLsbD 0) ++ bitOf (n3.getLsbD 0)) = none
          then l else busy ++ l } (blockSent s.sess.busWidth d) s t ∧
      (s.sess.bitlen = .b8 → t.sess.bitlen = .b8) ∧
      sendBlock d s = match tokenFault (bitOf (n1.getLsbD 0) ++ bitOf (n2.getLsbD 0) ++ bitOf (n3.getLsbD 0)) with
        | some c => .error (.cause c) t
        | none => .ok () t := by
  obtain ⟨t5, hall, hbits, hrun⟩ := sendBlock_token h d hl (by simp [hne])
  cases htok : tokenFault (bitOf (n1.getLsbD 0) ++ bitOf (n2.getLsbD 0) ++ bitOf (n3.getLsbD 0)) with
  | some c =>
    exact ⟨t5, by simpa using hall, hbits, by rw [hrun, htok]; rfl⟩
  | none =>
    have hcfg : t5.cfg = s.cfg := hall.cfg
    obtain ⟨t6, hr6, hw6, hb6⟩ := waitNotBusy_quiet (h.went hall rfl) (by rw [hcfg]; exact hb) (l := l)
      (by rw [hall.env]) hne
    refine ⟨t6, ?_, fun hb => hb6 (hbits hb), by rw [hrun, htok]; exact hr6⟩
    have := hall.trans (hw6.mono (G := .sendBlock) rfl)
    rw [hall.env] at this
    simpa using this

end Sys2Proof.Machine
end

