-- ==== Sys2Proof/Laws/SdCommands.lean ====
section
/-! SUPPORT. The thirteen SD commands in an environment that answers at once: one lemma for each shared operation
(42_sd_commands.md). -/

namespace Sys2Proof.Machine

variable {α β : Type} {f : Family} {F G : Foot} {s t u : State} {e : Env} {out : List Sent} {resp : List Byte} {idx : BitVec 6}
  {arg : Word} {l : List Bool}

/-! ### Sessions -/

theorem Exchanged.session (h : Exchanged f e out idx arg resp s t) : t.sess = { s.sess with bitlen := .b8 } := by
  rw [h.went.same.session rfl, h.bytes]

theorem Went.sess {g : Session → Session} (hq : Quiet s f) :
    Went f .command s.env.core [] s { s with sess := g s.sess } :=
  .of_same hq (by constructor <;> simp [Foot.command, Foot.exchange, Foot.clocked]) rfl rfl

theorem Went.setting {g : Session → Session} (hq : Quiet s f) :
    Went f .setting s.env.core [] s { s with sess := g s.sess } :=
  .of_same hq (by constructor <;> simp [Foot.setting, Foot.clocked]) rfl rfl

theorem respByte_run {bytes : List Byte} (h : s.resp = bytes) {i : Nat} (hi : i < bytes.length) :
    respByte i s = .ok (bytes.getD i 0) s := by
  subst h
  simp [respByte, hi, List.getD]

theorem Answer.good_length {p : Params} {wire : Wire} {app : Bool} {a : Answer} (h : a.good p wire app idx) {kind : SdKind}
    (hk : respKind idx app = some kind) : a.bytes.length = respLength wire idx kind := by
  obtain ⟨k, hk', hf, -⟩ := h
  rw [hk] at hk'
  cases hk'
  exact hf.1

/-! ### Commands of one exchange -/

/-- The application prefix and a command (R123). -/
theorem sendAppCommand_quiet (h : OnPort s f) {rca : Half} {a b : Answer}
    (ha : a.good s.cfg (s.cfg.fam f).wire false 55) (hb : b.good s.cfg (s.cfg.fam f).wire true idx)
    (hl : s.env.core.cmdLine = a.wire ++ (b.wire ++ l)) (hne : l ≠ []) :
    ∃ t, sendAppCommand idx rca arg s = .ok () t ∧
      Exchanged f { s.env.core with cmdLine := l } (commandSent s.cfg 55 (rcaArg rca) ++ commandSent s.cfg idx arg)
        idx arg b.bytes s t := by
  obtain ⟨t, hr1, ht⟩ := executeCommand_good h (arg := rcaArg rca) ha hl (by simp [hne])
  have hp := h.went ht.went rfl
  obtain ⟨u, hr2, hu⟩ := executeCommand_good hp (arg := arg) (by rw [ht.went.cfg]; exact hb) (l := l)
    (by rw [ht.went.env]) hne
  have hk : (respKind idx true).isNone = false := by obtain ⟨k, hk, -⟩ := hb; rw [hk]; rfl
  refine ⟨u, by simp only [sendAppCommand, bind_ok (sdPort_run h), bind_ok (onlyIf_false hk _), bind_ok hr1, hr2], ?_, hu.frame, hu.crc, hu.app, hu.resp, hu.bytes⟩
  have := ht.went.trans hu.went
  rw [ht.went.env, ht.went.cfg] at this
  exact this

/-- CMD3: the RCA of the answer (R141). -/
theorem publishRca_quiet (h : OnPort s f) (hn : (s.cfg.fam f).wire = .sdNative) {a : Answer}
    (ha : a.good s.cfg (s.cfg.fam f).wire false 3) (hl : s.env.core.cmdLine = a.wire ++ l) (hne : l ≠ []) :
    ∃ t, publishRca s = .ok () t ∧ Went f .command { s.env.core with cmdLine := l } (commandSent s.cfg 3 0) s t ∧
      t.sess = { s.sess with bitlen := .b8, rca := a.bytes.getD 1 0 ++ a.bytes.getD 2 0 } := by
  have hlen : a.bytes.length = 6 := by rw [Answer.good_length ha (kind := .sdr6) rfl, hn]; rfl
  obtain ⟨t, hr, ht⟩ := executeCommand_good h (arg := 0) ha hl hne
  refine ⟨{ t with sess := { t.sess with rca := a.bytes.getD 1 0 ++ a.bytes.getD 2 0 } }, ?_, ?_, ?_⟩
  · have hshort : (respLength (s.cfg.fam f).wire 3 .sdr6 ≤ 2) = False := by rw [hn]; exact eq_false (by decide)
    simp only [publishRca, bind_ok (sdPort_run h), hshort, decide_false, bind_ok (onlyIf_false rfl _), bind_ok hr, bind_ok (respByte_run ht.resp (i := 1) (by omega)),
      bind_ok (respByte_run ht.resp (i := 2) (by omega)), setSession, upd_run]
  · have := (ht.went.mono (G := .command) rfl).trans
      (Went.sess (g := fun ss => { ss with rca := a.bytes.getD 1 0 ++ a.bytes.getD 2 0 }) ht.went.quiet)
    rw [ht.went.env] at this
    simpa using this
  · simp only [ht.session]

/-- CMD58: the capacity class of the answer (R145). -/
theorem readOcr_quiet (h : OnPort s f) {a : Answer}
    (ha : a.good s.cfg (s.cfg.fam f).wire false 58) (hl : s.env.core.cmdLine = a.wire ++ l) (hne : l ≠ []) :
    ∃ t, readOcr s = .ok () t ∧ Went f .command { s.env.core with cmdLine := l } (commandSent s.cfg 58 0) s t ∧
      t.sess = { s.sess with bitlen := .b8, highCapacity := ocrHighCapacity (a.bytes.getD 1 0) } := by
  have hlen : 1 < a.bytes.length := by
    rw [Answer.good_length ha (kind := .sdr3) rfl]
    cases (s.cfg.fam f).wire <;> decide
  obtain ⟨t, hr, ht⟩ := executeCommand_good h (arg := 0) ha hl hne
  refine ⟨{ t with sess := { t.sess with highCapacity := ocrHighCapacity (a.bytes.getD 1 0) } }, ?_, ?_, ?_⟩
  · simp only [readOcr, bind_ok hr, bind_ok (respByte_run ht.resp hlen), setSession, upd_run]
  · have := (ht.went.mono (G := .command) rfl).trans
      (Went.sess (g := fun ss => { ss with highCapacity := ocrHighCapacity (a.bytes.getD 1 0) }) ht.went.quiet)
    rw [ht.went.env] at this
    simpa using this
  · simp only [ht.session]

/-- CMD7: the exchange, then the wait while the card is busy (R142). -/
theorem selectCard_quiet (h : OnLanes s f) {rca : Half} {a : Answer} (ha : a.good s.cfg (s.cfg.fam f).wire false 7)
    (hl : s.env.core.cmdLine = a.wire ++ l) (hne : l ≠ []) {busy d : List Nibble}
    (hb : BusyOnLanes (s.cfg.fam f) busy) (hd : s.env.core.datLine = busy ++ d) (hdne : d ≠ []) :
    ∃ t, selectCard rca s = .ok () t ∧
      Went f .exchange { s.env.core with cmdLine := l, datLine := d } (commandSent s.cfg 7 (rcaArg rca)) s t ∧
      t.sess = { s.sess with bitlen := .b8 } := by
  obtain ⟨t, hr1, ht⟩ := executeCommand_good h.port (arg := rcaArg rca) ha hl hne
  obtain ⟨u, hr2, hu, hlen⟩ := waitNotBusy_quiet (h.went ht.went rfl) (by rw [ht.went.cfg]; exact hb)
    (l := d) (by rw [ht.went.env]; exact hd) hdne
  refine ⟨u, by simp only [selectCard, bind_ok (datPort_run h), bind_ok hr1, hr2], ?_, ?_⟩
  · have := ht.went.trans (hu.mono (G := .exchange) rfl)
    rw [ht.went.env] at this
    simpa using this
  · rw [hu.same.session rfl, hlen ht.bytes, ht.session]

/-- ACMD6: the exchange, then four lanes in the session and at the port (R143). -/
theorem widenBus_quiet (h : OnPort s f) {a b : Answer} (ha : a.good s.cfg (s.cfg.fam f).wire false 55)
    (hb : b.good s.cfg (s.cfg.fam f).wire true 6) (hl : s.env.core.cmdLine = a.wire ++ (b.wire ++ l)) (hne : l ≠ []) :
    ∃ t, widenBus s = .ok () t ∧
      Went f .command { s.env.core with cmdLine := l }
        (commandSent s.cfg 55 (rcaArg s.sess.rca) ++ commandSent s.cfg 6 argAcmd6) s t ∧
      t.sess = { s.sess with bitlen := .b8, busWidth := .w4 } := by
  obtain ⟨t, hr1, ht⟩ := sendAppCommand_quiet h (rca := s.sess.rca) (arg := argAcmd6) ha hb hl hne
  obtain ⟨u, hr2, hu, -⟩ := reconfigure_quiet (h.went ht.went rfl) fun ss => { ss with busWidth := .w4 }
  have hs := Went.sess (g := fun _ => { t.sess with busWidth := .w4 }) hu.quiet
  refine ⟨{ u with sess := { t.sess with busWidth := .w4 } }, ?_, ?_, ?_⟩
  · simp only [widenBus, get'_bind, bind_ok hr1, hr2]
  · have := (ht.went.mono (G := .command) rfl).trans ((hu.mono (G := .command) rfl).trans hs)
    rw [hu.env, ht.went.env] at this
    simpa using this
  · simp only [ht.session]

/-- CMD6: the exchange, its 64-byte block, then the fast clock in the session and at the port (R144). -/
theorem highSpeed_quiet (h : OnLanes s f) {a : Answer} (ha : a.good s.cfg (s.cfg.fam f).wire false 6)
    (hl : s.env.core.cmdLine = a.wire ++ l) (hne : l ≠ []) {d tr : List Byte} {ns m : List Nibble}
    (hd : d.length = 64) (hb : BlockOnLanes (s.cfg.fam f) s.sess.busWidth d tr ns)
    (hdat : s.env.core.datLine = ns ++ m) (hm : m ≠ []) :
    ∃ t, highSpeed s = .ok () t ∧
      Went f .command { s.env.core with cmdLine := l, datLine := m } (commandSent s.cfg 6 argCmd6) s t ∧
      t.sess = { s.sess with bitlen := .b8, speed := .fast } ∧ t.cb = s.cb := by
  obtain ⟨t, hr1, ht⟩ := executeCommand_good h.port (arg := argCmd6) ha hl hne
  have hwid : t.sess.busWidth = s.sess.busWidth := by rw [ht.session]
  obtain ⟨u, hu, hlen, hcase⟩ := receiveBlock_quiet (h.went ht.went rfl) (d := d) (t := tr) (ns := ns)
    (by rw [ht.went.cfg, hwid]; exact hb) (l := m) (by rw [ht.went.env]; exact hdat) hm
  have hne512 : d.length ≠ sector := by rw [hd]; decide
  rw [if_neg (by simp [hne512]), if_neg hne512, hd] at hcase
  obtain ⟨hr2, hcb⟩ := hcase
  have hu : Went f .clocked { t.env.core with datLine := m } [] t u :=
    ⟨(touches_receiveOther (n := 64) rfl).of_ok hr2, hu.env, hu.sent, hu.quiet⟩
  obtain ⟨v, hr3, hv, -⟩ := reconfigure_quiet ((h.went ht.went rfl).went hu rfl).port fun ss => { ss with speed := .fast }
  have hs := Went.sess (g := fun _ => { u.sess with speed := .fast }) hv.quiet
  refine ⟨{ v with sess := { u.sess with speed := .fast } }, ?_, ?_, ?_, ?_⟩
  · simp only [highSpeed, bind_ok (datPort_run h), bind_ok hr1, bind_ok hr2, hr3]
  · have := (ht.went.mono (G := .command) rfl).trans
      ((hu.mono (G := .command) rfl).trans ((hv.mono (G := .command) rfl).trans hs))
    rw [hv.env, hu.env, ht.went.env] at this
    simpa only [List.append_nil] using this
  · have hsu : u.sess = { s.sess with bitlen := .b8 } := by rw [hu.same.session rfl, hlen ht.bytes, ht.session]
    simp only [hsu]
  · exact (hv.same.buffer rfl).trans (hcb.trans (ht.went.same.buffer rfl))

/-- CMD18 and CMD25 (R147, R148). -/
theorem openStream_quiet (h : OnPort s f) (m : AccessMode) (last : Word) {a : Answer}
    (ha : a.good s.cfg (s.cfg.fam f).wire false idx) (hl : s.env.core.cmdLine = a.wire ++ l) (hne : l ≠ []) :
    ∃ t, openStream m idx arg last s = .ok () t ∧
      Went f .command { s.env.core with cmdLine := l } (commandSent s.cfg idx arg) s t ∧
      t.sess = { s.sess with bitlen := .b8, mode := m, lastLba := last } ∧ t.cb = s.cb := by
  obtain ⟨t, hr, ht⟩ := executeCommand_good h (arg := arg) ha hl hne
  have hs := Went.sess (g := fun ss => { ss with mode := m, lastLba := last }) ht.went.quiet
  refine ⟨{ t with sess := { t.sess with mode := m, lastLba := last } },
    by simp only [openStream, bind_ok hr, setSession, upd_run], ?_, ?_, ht.went.same.buffer rfl⟩
  · have := (ht.went.mono (G := .command) rfl).trans hs
    rw [ht.went.env] at this
    simpa using this
  · simp only [ht.session]

/-- CMD12 (R146). -/
theorem stopStream_quiet (h : OnLanes s f) {a : Answer} (ha : a.good s.cfg (s.cfg.fam f).wire false 12)
    (hl : s.env.core.cmdLine = a.wire ++ l) (hne : l ≠ []) {busy d : List Nibble}
    (hb : BusyOnLanes (s.cfg.fam f) busy) (hd : s.env.core.datLine = busy ++ d) (hdne : d ≠ []) :
    ∃ t, stopStream s = .ok () t ∧
      Went f .command { s.env.core with cmdLine := l, datLine := d } (commandSent s.cfg 12 0) s t ∧
      t.sess = { s.sess with bitlen := .b8, mode := .none } ∧ t.cb = s.cb := by
  obtain ⟨t, hr1, ht⟩ := executeCommand_good h.port (arg := 0) ha hl hne
  have hs := Went.sess (g := fun ss => { ss with mode := .none }) ht.went.quiet
  have hl' := (h.went ht.went rfl).went hs rfl
  obtain ⟨u, hr2, hu, hlen⟩ := waitNotBusy_quiet hl' (ns := busy) (by simpa [ht.went.cfg] using hb)
    (l := d) (by rw [hs.env, ht.went.env]; exact hd) hdne
  refine ⟨u, ?_, ?_, ?_, (hu.same.buffer rfl).trans (ht.went.same.buffer rfl)⟩
  · simp only [stopStream, bind_ok (datPort_run h), bind_ok (attempt_ok hr1), setSession, upd_bind, rethrow, pure_bind_run, hr2]
  · have := (ht.went.mono (G := .command) rfl).trans (hs.trans (hu.mono (G := .command) rfl))
    rw [hs.env, ht.went.env] at this
    simpa using this
  · rw [hu.same.session rfl, hlen (by simpa using ht.bytes)]
    simp only [ht.session]

/-! ### CMD8 -/

/-- A CMD8 that is answered with the right echo (R137). -/
theorem voltageCheck_echo (h : OnPort s f) {a : Answer} (ha : a.good s.cfg (s.cfg.fam f).wire false 8)
    (hspi : (s.cfg.fam f).wire = .spi → spiIllegal (a.bytes.getD 0 0) = false)
    (hl : s.env.core.cmdLine = a.wire ++ l) (hne : l ≠ []) :
    ∃ t, Exchanged f { s.env.core with cmdLine := l } (commandSent s.cfg 8 argCmd8) 8 argCmd8 a.bytes s t ∧
      voltageCheck s = if echoOk (a.bytes.getD 3 0) (a.bytes.getD 4 0) then .ok true t
        else .error (.cause .mismatch) t := by
  have hlen : 4 < a.bytes.length := by
    rw [Answer.good_length ha (kind := .sdr7) rfl]
    cases (s.cfg.fam f).wire <;> decide
  obtain ⟨t, hr, ht⟩ := executeCommand_good h (arg := argCmd8) ha hl hne
  have hecho : checkEcho t = if echoOk (a.bytes.getD 3 0) (a.bytes.getD 4 0) then .ok true t
      else .error (.cause .mismatch) t := by
    simp only [checkEcho, bind_ok (respByte_run ht.resp (i := 3) (by omega)), bind_ok (respByte_run ht.resp hlen)]
    split <;> rfl
  refine ⟨t, ht, ?_⟩
  rw [← hecho]
  simp only [voltageCheck, bind_ok (sdPort_run h), bind_ok (attempt_ok hr)]
  cases hw : (s.cfg.fam f).wire with
  | sdNative => rfl
  | spi =>
    simp only [bind_ok (respByte_run ht.resp (i := 0) (by omega)), hspi hw, Bool.false_eq_true, if_false]

/-- A CMD8 that is never answered says version 1 (R137). -/
theorem voltageCheck_silent (h : OnPort s f)
    (hl : s.env.core.cmdLine = List.replicate s.cfg.respSpinMax true ++ l) (hne : l ≠ []) :
    ∃ t, voltageCheck s = .ok false t ∧
      Exchanged f { s.env.core with cmdLine := l } (frameSent s.cfg 8 argCmd8) 8 argCmd8
        [] s t := by
  obtain ⟨t, hr, ht⟩ := executeCommand_silent h (app := false) (idx := 8) (arg := argCmd8) (kind := .sdr7) rfl
    (by cases (s.cfg.fam f).wire <;> decide) hl hne
  exact ⟨t, by simp only [voltageCheck, bind_ok (sdPort_run h), bind_ok (attempt_cause hr), pure_run], ht⟩

/-! ### ACMD41 -/

/-- One round's test (R138, R162). -/
theorem testReady_quiet {wire : Wire} {a : Answer} (hq : Quiet s f) (hr : s.resp = a.bytes)
    (hlen : a.bytes.length = respLength wire 41 .sdr3) (hb : s.sess.bitlen = .b8) :
    ∃ t, testReady wire s = .ok (saysReady wire a) t ∧ Went f .command s.env.core [] s t ∧
      t.sess = if saysReady wire a then s.sess.polled wire a else s.sess := by
  cases wire with
  | sdNative =>
    have h1 : 1 < a.bytes.length := by rw [hlen]; decide
    by_cases hready : ocrReady (a.bytes.getD 1 0) = true
    · refine ⟨{ s with sess := { s.sess with highCapacity := ocrHighCapacity (a.bytes.getD 1 0) } }, ?_, ?_, ?_⟩
      · simp only [testReady, bind_ok (respByte_run hr h1), hready, if_true, setSession, upd_bind, pure_run, saysReady]
      · exact Went.sess (g := fun ss => { ss with highCapacity := ocrHighCapacity (a.bytes.getD 1 0) }) hq
      · simp only [saysReady, hready, if_true, Session.polled, hb]
    · have hready' : ocrReady (a.bytes.getD 1 0) = false := by simpa using hready
      refine ⟨s, ?_, .refl _ hq, ?_⟩
      · simp only [testReady, bind_ok (respByte_run hr h1), hready', Bool.false_eq_true, if_false, pure_run, saysReady]
      · simp only [saysReady, hready', Bool.false_eq_true, if_false]
  | spi =>
    have h0 : 0 < a.bytes.length := by rw [hlen]; decide
    refine ⟨s, ?_, .refl _ hq, ?_⟩
    · simp only [testReady, bind_ok (respByte_run hr h0), pure_run, saysReady]
    · split
      · simp only [Session.polled, ← hb]
      · rfl

/-- One round of the poll (R138). -/
theorem round_quiet (h : OnPort s f) {r : Answer × Answer} (hg : roundGood s.cfg (s.cfg.fam f).wire r)
    (hl : s.env.core.cmdLine = r.1.wire ++ (r.2.wire ++ l)) (hne : l ≠ []) :
    ∃ t u, sendAppCommand 41 0 arg s = .ok () t ∧
      testReady (s.cfg.fam f).wire t = .ok (saysReady (s.cfg.fam f).wire r.2) u ∧
      Went f .command { s.env.core with cmdLine := l } (roundSent s.cfg arg) s u ∧
      u.sess = if saysReady (s.cfg.fam f).wire r.2 then s.sess.polled (s.cfg.fam f).wire r.2
        else { s.sess with bitlen := .b8 } := by
  obtain ⟨t, hr1, ht⟩ := sendAppCommand_quiet h (rca := 0) (arg := arg) hg.1 hg.2 hl hne
  obtain ⟨u, hr2, hu, hsess⟩ := testReady_quiet (wire := (s.cfg.fam f).wire) ht.went.quiet ht.resp
    (Answer.good_length hg.2 (kind := .sdr3) rfl) ht.bytes
  refine ⟨t, u, hr1, hr2, ?_, ?_⟩
  · have := (ht.went.mono (G := .command) rfl).trans hu
    rw [ht.went.env] at this
    simpa only [roundSent, List.append_nil, show rcaArg (0 : Half) = (0 : Word) from rfl] using this
  · rw [hsess, ht.session]
    cases (s.cfg.fam f).wire <;> rfl

/-- The poll: rounds that say not ready, then one that says ready, within the cap (R138). -/
theorem pollLoop_quiet {mark : Nat → Op Unit} (hF : Foot.command.le F = true) (hFb : F.bus = false)
    (hm : ∀ k s, Quiet s f → ∃ t, mark k s = .ok () t ∧ Went f F s.env.core [] s t ∧ t.sess = s.sess ∧
      t.env = s.env)
    (waits : List (Answer × Answer)) {last : Answer × Answer} : ∀ {s : State} (_ : OnPort s f)
    (_ : ∀ r ∈ waits, roundGood s.cfg (s.cfg.fam f).wire r ∧ saysReady (s.cfg.fam f).wire r.2 = false)
    (_ : roundGood s.cfg (s.cfg.fam f).wire last) (_ : saysReady (s.cfg.fam f).wire last.2 = true)
    {fuel k : Nat} (_ : waits.length < fuel)
    (_ : s.env.core.cmdLine = (waits ++ [last]).flatMap (fun r => r.1.wire ++ r.2.wire) ++ l) (_ : l ≠ []),
    ∃ t, pollLoop mark arg (s.cfg.fam f).wire fuel k s = .ok () t ∧
      Went f F { s.env.core with cmdLine := l }
        ((List.replicate (waits.length + 1) (roundSent s.cfg arg)).flatten) s t ∧
      t.sess = s.sess.polled (s.cfg.fam f).wire last.2 := by
  induction waits with
  | nil =>
    intro s h hw hlast hready fuel k hfuel hl hne
    obtain ⟨n, rfl⟩ := Nat.exists_eq_succ_of_ne_zero (Nat.pos_iff_ne_zero.mp hfuel)
    obtain ⟨s0, hr0, hw0, hs0, he0⟩ := hm k s h.quiet
    have h0 := h.went hw0 hFb
    obtain ⟨t, u, hr1, hr2, hu, hsess⟩ := round_quiet h0 (arg := arg) (r := last) (l := l)
      (by rw [hw0.cfg]; exact hlast) (by rw [hw0.env]; simpa using hl) hne
    rw [hw0.cfg] at hr2 hu hsess
    refine ⟨u, ?_, ?_, ?_⟩
    · simp only [pollLoop, bind_ok hr0, bind_ok hr1, bind_ok hr2, hready, if_true, pure_run]
    · have := hw0.trans (hu.mono hF)
      rw [hw0.env] at this
      simpa using this
    · rw [hsess, hready, if_pos rfl, hs0]
  | cons r waits ih =>
    intro s h hw hlast hready fuel k hfuel hl hne
    obtain ⟨n, rfl⟩ := Nat.exists_eq_succ_of_ne_zero (Nat.pos_iff_ne_zero.mp (Nat.zero_lt_of_lt hfuel))
    obtain ⟨s0, hr0, hw0, hs0, he0⟩ := hm k s h.quiet
    have h0 := h.went hw0 hFb
    obtain ⟨hg, hno⟩ := hw r (.head _)
    obtain ⟨t, u, hr1, hr2, hu, hsess⟩ := round_quiet h0 (arg := arg) (r := r)
      (l := (waits ++ [last]).flatMap (fun r => r.1.wire ++ r.2.wire) ++ l)
      (by rw [hw0.cfg]; exact hg) (by rw [hw0.env]; simpa using hl) (by simp [hne])
    rw [hw0.cfg] at hr2 hu hsess
    have hwu := hw0.trans (hu.mono hF)
    have hcfg := hwu.cfg
    obtain ⟨v, hr3, hv, hsessv⟩ := ih (s := u) (h.went hwu hFb)
      (fun x hx => by rw [hcfg]; exact hw x (.tail _ hx)) (by rw [hcfg]; exact hlast) (by rw [hcfg]; exact hready)
      (fuel := n) (k := k + 1) (by simpa using hfuel) (by rw [hwu.env]) hne
    rw [hcfg] at hr3 hv hsessv
    refine ⟨v, ?_, ?_, ?_⟩
    · simp only [pollLoop, bind_ok hr0, bind_ok hr1, bind_ok hr2, hno, Bool.false_eq_true, if_false, hr3]
    · have := hwu.trans hv
      rw [hwu.env, hw0.env] at this
      simpa [List.replicate_succ] using this
    · rw [hsessv, hsess, hno, hs0]
      cases (s.cfg.fam f).wire <;> rfl

end Sys2Proof.Machine
end

