-- ==== Sys2Proof/Laws/BringUp.lean ====
section
/-! SUPPORT. The three forms of the bring-up in an environment that answers at once (43_card_sequencer.md R160, R162,
R178). -/

namespace Sys2Proof.Machine

variable {f : Family} {F G : Foot} {s t u : State} {e e' : Env} {out out' : List Sent} {l : List Bool} {m : List Nibble}

theorem setBringUpSeq_quiet (hq : Quiet s f) (x : BringUpSeq) :
    ∃ t, setBringUpSeq x s = .ok () t ∧ Went f .bringUp s.env.core [] s t ∧ t.sess = s.sess ∧ t.env = s.env :=
  ⟨{ s with seq := { s.seq with bringUp := x } }, rfl,
    .of_same hq (by constructor <;> simp [Foot.bringUp]) rfl rfl, rfl, rfl⟩

/-- CMD8 in each of its ends that let a bring-up go on (R137, R162). -/
theorem voltageCheck_quiet (h : OnPort s f) {v : Option Answer} {v2 : Bool}
    (hg : ∀ a, v = some a → a.good s.cfg (s.cfg.fam f).wire false 8) (hv : voltVersion (s.cfg.fam f).wire v = some v2)
    (hl : s.env.core.cmdLine = voltWire s.cfg v ++ l) (hne : l ≠ []) :
    ∃ t, voltageCheck s = .ok v2 t ∧ Went f .exchange { s.env.core with cmdLine := l } (voltSent s.cfg v) s t ∧
      t.sess = { s.sess with bitlen := .b8 } := by
  cases v with
  | none =>
    obtain ⟨t, hr, ht⟩ := voltageCheck_silent h hl hne
    have : v2 = false := by simpa [voltVersion] using hv.symm
    exact ⟨t, this ▸ hr, ht.went, ht.session⟩
  | some a =>
    have ha := hg a rfl
    by_cases hill : (s.cfg.fam f).wire = .spi ∧ spiIllegal (a.bytes.getD 0 0) = true
    · have hlen : 0 < a.bytes.length := by
        rw [Answer.good_length ha (kind := .sdr7) rfl]
        cases (s.cfg.fam f).wire <;> decide
      rw [voltVersion, if_pos hill] at hv
      cases hv
      obtain ⟨t, hr, ht⟩ := executeCommand_good h (arg := argCmd8) ha hl hne
      refine ⟨t, ?_, ht.went, ht.session⟩
      simp only [voltageCheck, bind_ok (sdPort_run h), bind_ok (attempt_ok hr), hill.1,
        bind_ok (respByte_run ht.resp hlen), hill.2, if_true, pure_run]
    · simp only [voltVersion, if_neg hill] at hv
      obtain ⟨t, ht, hrun⟩ := voltageCheck_echo h ha (fun hw => by
        by_contra hcon
        exact hill ⟨hw, by simpa using hcon⟩) hl hne
      by_cases he : echoOk (a.bytes.getD 3 0) (a.bytes.getD 4 0) = true
      · rw [if_pos he] at hv hrun
        cases hv
        exact ⟨t, hrun, ht.went, ht.session⟩
      · rw [if_neg he] at hv
        cases hv

/-- The poll of a bring-up (R138). -/
theorem pollReady_quiet {mark : Nat → Op Unit} (hF : Foot.command.le F = true) (hFb : F.bus = false)
    (hm : ∀ k s, Quiet s f → ∃ t, mark k s = .ok () t ∧ Went f F s.env.core [] s t ∧ t.sess = s.sess ∧ t.env = s.env)
    (h : OnPort s f) {b : PollScript} (hg : b.good s.cfg (s.cfg.fam f).wire) (arg : Word)
    (hl : s.env.core.cmdLine = b.bits ++ l) (hne : l ≠ []) :
    ∃ t, pollReady mark arg s = .ok () t ∧ Went f F { s.env.core with cmdLine := l } (b.sent s.cfg arg) s t ∧
      t.sess = s.sess.polled (s.cfg.fam f).wire b.last.2 := by
  obtain ⟨t, hr, ht, hs⟩ := pollLoop_quiet hF hFb hm b.waits h hg.2.1 hg.2.2.1 hg.2.2.2 (arg := arg) (k := 0) hg.1 hl hne
  exact ⟨t, by simp only [pollReady, bind_ok (sdPort_run h), get'_bind, hr], ht, hs⟩

/-- The step of CMD7, where the parameters ask for it. -/
theorem selectStep_quiet (h : OnLanes s f) {rca : Half} (hrca : s.sess.rca = rca) {a : Answer} {busy : List Nibble}
    (hg : s.cfg.useSelect = true → a.good s.cfg .sdNative false 7 ∧ BusyOnLanes (s.cfg.fam f) busy)
    (hl : s.env.core.cmdLine = (if s.cfg.useSelect then a.wire else []) ++ l) (hne : l ≠ [])
    (hd : s.env.core.datLine = (if s.cfg.useSelect then busy else []) ++ m) (hm : m ≠ []) (hb : s.sess.bitlen = .b8) :
    ∃ t, onlyIf s.cfg.useSelect (do
        setBringUpSeq .select
        let rca ← get' fun s => s.sess.rca
        selectCard rca) s = .ok () t ∧
      Went f .bringUp { s.env.core with cmdLine := l, datLine := m }
        (if s.cfg.useSelect then commandSent s.cfg 7 (rcaArg rca) else []) s t ∧
      t.sess = { s.sess with bitlen := .b8 } := by
  by_cases hu : s.cfg.useSelect = true
  · rw [if_pos hu] at hl hd
    obtain ⟨ha, hbusy⟩ := hg hu
    obtain ⟨s1, hr1, hw1, hs1, he1⟩ := setBringUpSeq_quiet h.port.quiet .select
    have h1 := h.went hw1 rfl
    have hcfg := hw1.cfg
    obtain ⟨t, hr2, hw2, hs2⟩ := selectCard_quiet h1 (rca := rca) (a := a) (busy := busy)
      (by rw [hcfg, h.native]; exact ha) (l := l) (by rw [hw1.env]; exact hl) hne (by rw [hcfg]; exact hbusy) (d := m)
      (by rw [hw1.env]; exact hd) hm
    refine ⟨t, ?_, ?_, by rw [hs2, hs1]⟩
    · rw [onlyIf_true hu]
      simp only [bind_ok hr1, get'_bind, hs1, hrca, hr2]
    · have := hw1.trans (hw2.mono (G := .bringUp) rfl)
      rw [hw1.env, hcfg] at this
      rw [if_pos hu]
      exact this
  · have hu' : s.cfg.useSelect = false := by simpa using hu
    rw [if_neg hu] at hl hd
    refine ⟨s, onlyIf_false hu' _, ?_, by rw [← hb]⟩
    rw [if_neg hu]
    have : ({ s.env.core with cmdLine := l, datLine := m } : Env) = s.env.core := by
      rw [← show s.env.core.cmdLine = l from hl, ← show s.env.core.datLine = m from hd]
    rw [this]
    exact .refl _ h.port.quiet

/-- The native bring-up from CMD0 to CMD6 (R160). -/
theorem nativeBringUp_quiet (h : OnLanes s f) {b : NativeScript} {v2 : Bool} (hg : b.good s.cfg (s.cfg.fam f) v2)
    (hl : s.env.core.cmdLine = b.bits s.cfg ++ l) (hne : l ≠ [])
    (hd : s.env.core.datLine = b.nibbles s.cfg ++ m) (hm : m ≠ []) :
    ∃ t, nativeBringUp s = .ok () t ∧
      Went f .bringUp { s.env.core with cmdLine := l, datLine := m } (b.sent s.cfg v2) s t ∧
      t.sess = { s.sess with
        bitlen := .b8, highCapacity := ocrHighCapacity (b.poll.last.2.bytes.getD 1 0), rca := b.rcaValue
        busWidth := .w4, speed := .fast } ∧ t.cb = s.cb := by
  have hn := h.native
  have hwire : (s.cfg.fam f).wire = .sdNative := hn
  -- CMD0
  obtain ⟨s0, hr0, hw0, hs0, he0⟩ := setBringUpSeq_quiet h.port.quiet .idle
  have hp0 := h.went hw0 rfl
  obtain ⟨s1, hr1, hx1⟩ := executeCommand_good hp0.port (app := false) (idx := 0) (arg := 0) (a := ⟨0, []⟩)
    (l := s0.env.core.cmdLine)
    ⟨.none, rfl, ⟨by rw [hw0.cfg, hn]; rfl, by rw [hw0.cfg, hn]; simp [respLength, SdKind.nativeLength]⟩, by
      rw [hw0.cfg, hn]
      simp [responseFault, indexOk, fixedBitsOk, checksumOk, cardFlags]⟩ (by simp [Answer.wire])
    (by rw [hw0.env, hl]; simp [hne])
  have hw1 := hw0.trans (hx1.went.mono (G := .bringUp) rfl)
  rw [cmdLine_same rfl, hw0.env, hw0.cfg] at hw1
  have hss1 : s1.sess = { s.sess with bitlen := .b8 } := by rw [hx1.session, hs0]
  -- CMD8
  obtain ⟨s2, hr2, hw2, hs2, he2⟩ := setBringUpSeq_quiet hw1.quiet .volt
  have ha2 := hw1.trans hw2
  rw [hw1.env] at ha2
  obtain ⟨s3, hr3, hw3, hs3⟩ := voltageCheck_quiet (h.went ha2 rfl).port (v := b.volt) (v2 := v2)
    (by rw [ha2.cfg, hn]; exact hg.volt) (by rw [ha2.cfg, hn]; exact hg.version)
    (l := b.poll.bits ++ (b.cid.wire ++ (b.rca.wire ++ ((if s.cfg.useSelect then b.select.wire else []) ++
      (b.widthPrefix.wire ++ (b.width.wire ++ (b.speed.wire ++ l)))))))
    (by rw [ha2.env, hl, ha2.cfg]; simp [NativeScript.bits]) (by simp [hne])
  have ha3 := ha2.trans (hw3.mono (G := .bringUp) rfl)
  rw [ha2.env, ha2.cfg] at ha3
  -- ACMD41
  obtain ⟨s4, hr4, hw4, hs4⟩ := pollReady_quiet (F := .bringUp) (mark := fun k => setBringUpSeq (.opcond k)) rfl rfl
    (fun k s hq => setBringUpSeq_quiet hq _) (h.went ha3 rfl).port (b := b.poll)
    (by rw [ha3.cfg, hn]; exact hg.poll) (s.cfg.acmd41Arg v2)
    (l := b.cid.wire ++ (b.rca.wire ++ ((if s.cfg.useSelect then b.select.wire else []) ++
      (b.widthPrefix.wire ++ (b.width.wire ++ (b.speed.wire ++ l))))))
    (by rw [ha3.env]) (by simp [hne])
  have ha4 := ha3.trans hw4
  rw [ha3.env, ha3.cfg] at ha4
  -- CMD2
  obtain ⟨s5, hr5, hw5, hs5, he5⟩ := setBringUpSeq_quiet ha4.quiet .cid
  have ha5 := ha4.trans hw5
  rw [ha4.env] at ha5
  obtain ⟨s6, hr6, hx6⟩ := executeCommand_good (h.went ha5 rfl).port (app := false) (idx := 2) (arg := 0) (a := b.cid)
    (by rw [ha5.cfg, hn]; exact hg.cid)
    (l := b.rca.wire ++ ((if s.cfg.useSelect then b.select.wire else []) ++
      (b.widthPrefix.wire ++ (b.width.wire ++ (b.speed.wire ++ l))))) (by rw [ha5.env]) (by simp [hne])
  have ha6 := ha5.trans (hx6.went.mono (G := .bringUp) rfl)
  rw [ha5.env, ha5.cfg] at ha6
  -- CMD3
  obtain ⟨s7, hr7, hw7, hs7, he7⟩ := setBringUpSeq_quiet ha6.quiet .rca
  have ha7 := ha6.trans hw7
  rw [ha6.env] at ha7
  obtain ⟨s8, hr8, hw8, hs8⟩ := publishRca_quiet (h.went ha7 rfl).port (by rw [ha7.cfg]; exact hn) (a := b.rca)
    (by rw [ha7.cfg, hn]; exact hg.rca)
    (l := (if s.cfg.useSelect then b.select.wire else []) ++
      (b.widthPrefix.wire ++ (b.width.wire ++ (b.speed.wire ++ l)))) (by rw [ha7.env]) (by simp [hne])
  have ha8 := ha7.trans (hw8.mono (G := .bringUp) rfl)
  rw [ha7.env, ha7.cfg] at ha8
  have hrca : s8.sess.rca = b.rcaValue := by rw [hs8]; rfl
  -- CMD7
  obtain ⟨s9, hr9, hw9, hs9⟩ := selectStep_quiet (h.went ha8 rfl) hrca (a := b.select) (busy := b.busy)
    (by rw [ha8.cfg]; exact hg.select)
    (l := b.widthPrefix.wire ++ (b.width.wire ++ (b.speed.wire ++ l)))
    (by rw [ha8.env, ha8.cfg]) (by simp [hne]) (m := b.lanes ++ m)
    (by rw [ha8.env, ha8.cfg]; simpa [NativeScript.nibbles] using hd) (by simp [hm]) (by rw [hs8])
  have ha9 := ha8.trans hw9
  rw [ha8.env, ha8.cfg] at ha9
  -- ACMD6
  obtain ⟨s10, hr10, hw10, hs10, he10⟩ := setBringUpSeq_quiet ha9.quiet .width
  have ha10 := ha9.trans hw10
  rw [ha9.env] at ha10
  obtain ⟨s11, hr11, hw11, hs11⟩ := widenBus_quiet (h.went ha10 rfl).port (a := b.widthPrefix) (b := b.width)
    (by rw [ha10.cfg, hn]; exact hg.widthPrefix) (by rw [ha10.cfg, hn]; exact hg.width) (l := b.speed.wire ++ l)
    (by rw [ha10.env]) (by simp [hne])
  have ha11 := ha10.trans (hw11.mono (G := .bringUp) rfl)
  rw [ha10.env, ha10.cfg] at ha11
  have hrca10 : s10.sess.rca = b.rcaValue := by rw [hs10, hs9]; exact hrca
  rw [hrca10] at ha11
  -- CMD6
  obtain ⟨s12, hr12, hw12, hs12, he12⟩ := setBringUpSeq_quiet ha11.quiet .speed
  have ha12 := ha11.trans hw12
  rw [ha11.env] at ha12
  have hwid : s12.sess.busWidth = .w4 := by rw [hs12, hs11]
  obtain ⟨s13, hr13, hw13, hs13, hcb13⟩ := highSpeed_quiet (h.went ha12 rfl) (a := b.speed)
    (by rw [ha12.cfg, hn]; exact hg.speed) (l := l) (by rw [ha12.env]) hne (d := b.data) (tr := b.trailer)
    (ns := b.lanes) hg.data.1 (by rw [ha12.cfg, hwid]; exact hg.data.2) (m := m) (by rw [ha12.env]) hm
  have ha13 := ha12.trans (hw13.mono (G := .bringUp) rfl)
  rw [ha12.env, ha12.cfg] at ha13
  refine ⟨s13, ?_, ?_, ?_, ?_⟩
  · simp only [nativeBringUp, get'_bind, bind_ok hr0, goIdle, bind_ok hr1, bind_ok hr2, bind_ok hr3, bind_ok hr4,
      bind_ok hr5, readCid, bind_ok hr6, bind_ok hr7, bind_ok hr8]
    rw [ha8.cfg] at hr9
    simp only [bind_ok hr9, bind_ok hr10, bind_ok hr11, bind_ok hr12, hr13]
  · simpa [NativeScript.sent] using ha13
  · rw [hs13, hs12, hs11, hs10, hs9, hs8, hs7, hx6.session, hs5, hs4, hs3, hs2, hss1, ha3.cfg, hn]
    rfl
  · exact ha13.same.buffer rfl

/-- The SPI bring-up (R162). -/
theorem spiBringUp_quiet (h : OnPort s f) (hn : (s.cfg.fam f).wire = .spi) {b : SpiScript} {v2 : Bool}
    (hg : b.good s.cfg v2) (hl : s.env.core.cmdLine = b.bits s.cfg ++ l) (hne : l ≠ []) :
    ∃ t, spiBringUp s = .ok () t ∧ Went f .bringUp { s.env.core with cmdLine := l } (b.sent s.cfg v2) s t ∧
      t.sess = { s.sess with bitlen := .b8, highCapacity := ocrHighCapacity (b.ocr.bytes.getD 1 0) } := by
  obtain ⟨s0, hr0, hw0, hs0, he0⟩ := setBringUpSeq_quiet h.quiet .idle
  obtain ⟨s1, hr1, hx1⟩ := executeCommand_good (h.went hw0 rfl) (app := false) (idx := 0) (arg := 0) (a := b.idle)
    (by rw [hw0.cfg, hn]; exact hg.idle.1)
    (l := voltWire s.cfg b.volt ++ (b.poll.bits ++ (b.ocr.wire ++ l)))
    (by rw [hw0.env, hl]; simp [SpiScript.bits]) (by simp [hne])
  have ha1 := hw0.trans (hx1.went.mono (G := .bringUp) rfl)
  rw [hw0.env, hw0.cfg] at ha1
  have hlen : 0 < b.idle.bytes.length := by
    rw [Answer.good_length hg.idle.1 (kind := .none) rfl]; decide
  have hbyte := respByte_run hx1.resp hlen
  rw [hg.idle.2] at hbyte
  obtain ⟨s2, hr2, hw2, hs2, he2⟩ := setBringUpSeq_quiet ha1.quiet .volt
  have ha2 := ha1.trans hw2
  rw [ha1.env] at ha2
  obtain ⟨s3, hr3, hw3, hs3⟩ := voltageCheck_quiet (h.went ha2 rfl) (v := b.volt) (v2 := v2)
    (by rw [ha2.cfg, hn]; exact hg.volt) (by rw [ha2.cfg, hn]; exact hg.version)
    (l := b.poll.bits ++ (b.ocr.wire ++ l)) (by rw [ha2.env, ha2.cfg]) (by simp [hne])
  have ha3 := ha2.trans (hw3.mono (G := .bringUp) rfl)
  rw [ha2.env, ha2.cfg] at ha3
  obtain ⟨s4, hr4, hw4, hs4⟩ := pollReady_quiet (F := .bringUp) (mark := fun k => setBringUpSeq (.opcond k)) rfl rfl
    (fun k s hq => setBringUpSeq_quiet hq _) (h.went ha3 rfl) (b := b.poll)
    (by rw [ha3.cfg, hn]; exact hg.poll) (s.cfg.acmd41Arg v2) (l := b.ocr.wire ++ l) (by rw [ha3.env]) (by simp [hne])
  have ha4 := ha3.trans hw4
  rw [ha3.env, ha3.cfg] at ha4
  obtain ⟨s5, hr5, hw5, hs5, he5⟩ := setBringUpSeq_quiet ha4.quiet .ocr
  have ha5 := ha4.trans hw5
  rw [ha4.env] at ha5
  obtain ⟨s6, hr6, hw6, hs6⟩ := readOcr_quiet (h.went ha5 rfl) (a := b.ocr) (by rw [ha5.cfg, hn]; exact hg.ocr) (l := l)
    (by rw [ha5.env]) hne
  have ha6 := ha5.trans (hw6.mono (G := .bringUp) rfl)
  rw [ha5.env, ha5.cfg] at ha6
  refine ⟨s6, ?_, ?_, ?_⟩
  · simp only [spiBringUp, get'_bind, bind_ok hr0, goIdle, bind_ok hr1, bind_ok hbyte, if_true, bind_ok hr2, bind_ok hr3,
      bind_ok hr4, bind_ok hr5, hr6]
  · simpa [SpiScript.sent] using ha6
  · rw [hs6, hs5, hs4, hs3, hs2, hx1.session, hs0, ha3.cfg, hn]
    rfl

/-- The body of `card_init`: the session cleared, the family's bring-up, the session ready (R160). -/
theorem bringUp_quiet (hF : Foot.setting.le F = true) (hFs : F.seq = true) (hFb : F.bus = false)
    (hb : s.busOwner = .cart f) (hq : Quiet s f) {ss : Session}
    (hfam : ∀ t, Went f .setting s.env.core [] s t → t.sess = s.sess.cleared → t.cb = s.cb →
      ∃ u, familyBringUp (s.cfg.fam f) t = .ok () u ∧ Went f F e out t u ∧ u.sess = ss) :
    ∃ t w u, bringUp s = .ok () t ∧ Went f F e out s t ∧ t.sess = { ss with ready := true } ∧ t.seq.bringUp = .done ∧
      Went f .setting s.env.core [] s w ∧ w.sess = s.sess.cleared ∧ w.cb = s.cb ∧ w.hist = s.hist ∧
      familyBringUp (s.cfg.fam f) w = .ok () u ∧
      t.cb = u.cb ∧ t.byteswap = u.byteswap ∧ t.hist = u.hist := by
  have hs := Went.setting (g := Session.cleared) hq
  obtain ⟨u, hrun, hu, hss⟩ := hfam { s with sess := s.sess.cleared } hs rfl rfl
  have hr := Went.setting (g := fun ss => { ss with ready := true }) hu.quiet
  obtain ⟨v, hrv, hv, hsv, hev⟩ := setBringUpSeq_quiet hr.quiet .done
  have hfoot : ({ seq := true } : Foot).le F = true := by
    revert hFs; cases F; simp [Foot.le]
  have hmark : Went f F (State.env { u with sess := { u.sess with ready := true } }).core []
      { u with sess := { u.sess with ready := true } } v := by
    refine ⟨((touches_setBringUpSeq .done).of_ok hrv).mono hfoot, hv.env, hv.sent, hv.quiet⟩
  have hv' : v = { u with sess := { u.sess with ready := true }, seq := { u.seq with bringUp := .done } } := by
    have : setBringUpSeq .done { u with sess := { u.sess with ready := true } } =
        .ok () { u with sess := { u.sess with ready := true }, seq := { u.seq with bringUp := .done } } := rfl
    rw [this] at hrv
    cases hrv
    rfl
  refine ⟨v, { s with sess := s.sess.cleared }, u, ?_, ?_, ?_, ?_, hs, rfl, rfl, rfl, hrun, by rw [hv'], by rw [hv'],
    by rw [hv']⟩
  · have hclear : clearSession s = .ok () { s with sess := s.sess.cleared } := rfl
    simp only [bringUp, bind_ok hclear, bind_ok (famParams_run (s := { s with sess := s.sess.cleared }) hb), bind_ok hrun,
      setSession, upd_bind, hrv]
  · have := (hs.mono hF).trans (hu.trans ((hr.mono hF).trans hmark))
    rw [hr.env, hu.env] at this
    simpa using this
  · rw [hsv, hss]
  · rw [hv']

/-! ### `card_init` -/

/-- The dispatch of a cartridge that is known (R214). -/
theorem dispatch_known {α : Type} {handler : Family → Op α} (hp : s.probed = true) (hc : s.cartType = some f) :
    dispatch handler s = handler f s := by
  simp only [dispatch, probeOp, bind_ok (show (do
    let done ← get' State.probed
    if done then get' State.cartType
    else do
      let p ← get' State.cfg
      probeLoop p.probeOrder 0 : Op (Option Family)) s = .ok (some f) s by
    simp only [get'_bind, hp, if_true, get'_run, hc])]

/-- The dispatch where no cartridge was found (R214). -/
theorem dispatch_none {α : Type} {handler : Family → Op α} (hp : s.probed = true) (hc : s.cartType = none) :
    dispatch handler s = .error (.cause .noCartridge) s := by
  simp only [dispatch, probeOp, bind_ok (show (do
    let done ← get' State.probed
    if done then get' State.cartType
    else do
      let p ← get' State.cfg
      probeLoop p.probeOrder 0 : Op (Option Family)) s = .ok none s by
    simp only [get'_bind, hp, if_true, get'_run, hc]), raise_run]

/-- What a bring-up leaves. -/
structure Ready (f : Family) (F : Foot) (e : Env) (out : List Sent) (ss : Session) (s t : State) : Prop where
  went : Went f { F with bus := true } e out s t
  restored : Restored s t
  sess : t.sess = { ss with ready := true }
  rest : t.seq.bringUp = .rest

theorem runBringUp_quiet (hF : Foot.setting.le F = true) (hFs : F.seq = true) (hFb : F.bus = false) (h : Idle s f)
    {ss : Session} (hfam : ∀ t, Went f { Foot.setting with bus := true } s.env.core [] s t → t.busOwner = .cart f →
      t.sess = s.sess.cleared →
      ∃ u, familyBringUp (s.cfg.fam f) t = .ok () u ∧ Went f F e out t u ∧ u.sess = ss) :
    ∃ t w u, runBringUp s = .ok () t ∧ Ready f F e out ss s t ∧
      Went f { Foot.setting with bus := true } s.env.core [] s w ∧ w.busOwner = .cart f ∧
      commands w.hist = commands s.hist ∧
      familyBringUp (s.cfg.fam f) w = .ok () u ∧
      t.cb = u.cb ∧ t.byteswap = u.byteswap ∧ commands t.hist = commands u.hist ∧
      writes w.hist = writes s.hist ∧ writes t.hist = writes u.hist ∧ w.sess = s.sess.cleared := by
  have hle : Foot.bracket.le { F with bus := true } = true ∧ F.le { F with bus := true } = true := by
    revert hF; cases F; simp [Foot.le, Foot.bracket, Foot.access, Foot.setting, Foot.clocked]
    intros; simp_all
  have start : ∀ t, Acquired f s t → ∀ w, Went f .setting t.env.core [] t w → w.sess = t.sess.cleared →
      Went f { Foot.setting with bus := true } s.env.core [] s w ∧ w.busOwner = .cart f ∧ w.sess = s.sess.cleared :=
    fun t ht w hw hsw => by
      have htw := ht.quiet h.quiet
      have hall := (htw.mono (G := { Foot.setting with bus := true }) rfl).trans
        (hw.mono (G := { Foot.setting with bus := true }) rfl)
      rw [htw.env] at hall
      exact ⟨hall, (hw.same.owner rfl).trans ht.owner, by rw [hsw, htw.same.session_eq rfl rfl]⟩
  have body : ∀ t, Acquired f s t → ∀ w, Went f .setting t.env.core [] t w → w.sess = t.sess.cleared → w.cb = t.cb →
      ∃ u, familyBringUp (t.cfg.fam f) w = .ok () u ∧ Went f F e out w u ∧ u.sess = ss := fun t ht w hw hsw _ => by
    obtain ⟨h1, h2, h3⟩ := start t ht w hw hsw
    rw [ht.same.cfg]
    exact hfam w h1 h2 h3
  obtain ⟨t, u, v, ht, hrun, hv, hres, hall, hw, hww⟩ := bracketed_quiet (clean := failBringUp) (body := bringUp) (a := ())
    (F := F) (G := { F with bus := true }) (e := e) (out := out) h.cart h.bus h.quiet hFb hle.1 hle.2
    fun t ht htw => by
      obtain ⟨u, -, -, hrun, hu, -⟩ := bringUp_quiet (e := e) (out := out) (ss := ss) hF hFs hFb ht.owner htw.quiet
        (body t ht)
      exact ⟨u, hrun, hu⟩
  obtain ⟨u', w, z, hrun', hu', hsess', hdone', hwent, hwsess, hwcb, hwhist, hfamrun, hucb, husw, huhist⟩ :=
    bringUp_quiet (e := e) (out := out) (ss := ss) hF hFs hFb ht.owner (ht.quiet h.quiet).quiet (body t ht)
  rw [hrun] at hrun'
  cases hrun'
  obtain ⟨h1, h2, h3⟩ := start t ht w hwent hwsess
  obtain ⟨x, hrx, hx, hsx, -⟩ := setBringUpSeq_quiet hww.quiet .rest
  have hx' : x = { v with seq := { v.seq with bringUp := .rest } } := by
    unfold setBringUpSeq at hrx; cases hrx; rfl
  refine ⟨x, w, z, ?_, ⟨?_, ?_, ?_, ?_⟩, h1, h2, ?_, ?_, ?_, ?_, ?_, ?_, ?_, h3⟩
  · simp only [runBringUp, bind_ok (attempt_ok hall), bind_ok hrx, rethrow, pure_run]
  · have hfoot : ({ seq := true } : Foot).le { F with bus := true } = true := by
      revert hFs; cases F; simp [Foot.le]
    have hmark : Went f { F with bus := true } v.env.core [] v x :=
      ⟨((touches_setBringUpSeq .rest).of_ok hrx).mono hfoot, hx.env, hx.sent, hx.quiet⟩
    have := hww.trans hmark
    rwa [hww.env, List.append_nil] at this
  · rw [hx']; exact ⟨hres.owner, hres.saved, hres.native, hres.dom⟩
  · rw [hsx, (hv.same).session_eq rfl rfl, hsess']
  · rw [hx']
  · rw [hwhist, ht.hist, commands_cfgEvents]
  · rw [← ht.same.cfg]; exact hfamrun
  · rw [hx', ← hucb]; exact hv.same.buffer rfl
  · rw [hx', ← husw]; exact hv.same.swap rfl
  · rw [hx', ← huhist]; exact (congrArg commands hv.hist).trans (commands_cfgEvents _ _)
  · rw [hwhist, ht.hist, writes_cfgEvents]
  · rw [hx', ← huhist]; exact (congrArg writes hv.hist).trans (writes_cfgEvents _ _)

/-- `card_init` where it runs (R160). -/
theorem cardInit_ready (hp : s.probed = true) (hc : s.cartType = some f) (hi : s.mayInit = true) :
    cardInit s = runBringUp s := by
  rw [cardInit, dispatch_known hp hc]
  simp only [get'_bind, hi, if_true]

/-- `card_init` where it does not (R160, R189, R272, R289). -/
theorem cardInit_before (hp : s.probed = true) (hc : s.cartType = some f) (hi : s.mayInit = false) :
    cardInit s = .error (.cause .notReady) { s with sess := { s.sess with ready := false, mode := .none } } := by
  rw [cardInit, dispatch_known hp hc]
  simp only [get'_bind, hi, Bool.false_eq_true, if_false]
  rfl

/-- The bring-up of `disk_initialize` (R222). -/
theorem bringUpAgain_known (hp : s.probed = true) (hc : s.cartType = some f) : bringUpAgain s = runBringUp s := by
  rw [bringUpAgain, dispatch_known hp hc]

/-- The bring-up on a native wire (R160). -/
theorem runBringUp_native (h : Idle s f) (ho : (s.cfg.fam f).offload = false) (hn : (s.cfg.fam f).wire = .sdNative)
    {b : NativeScript} {v2 : Bool} (hg : b.good s.cfg (s.cfg.fam f) v2)
    (hl : s.env.core.cmdLine = b.bits s.cfg ++ l) (hne : l ≠ [])
    (hd : s.env.core.datLine = b.nibbles s.cfg ++ m) (hm : m ≠ []) :
    ∃ t, runBringUp s = .ok () t ∧ Ready f .bringUp { s.env.core with cmdLine := l, datLine := m } (b.sent s.cfg v2)
      { s.sess.cleared with
        highCapacity := ocrHighCapacity (b.poll.last.2.bytes.getD 1 0), rca := b.rcaValue
        busWidth := .w4, speed := .fast } s t := by
  refine (fun h => (let ⟨t, _, _, hr, hd, _⟩ := h; ⟨t, hr, hd⟩)) (runBringUp_quiet rfl rfl rfl h fun t ht hb hs => ?_)
  have hcfg := ht.cfg
  have hp : OnPort t f := ⟨hb, by rw [hcfg]; exact ho, ht.quiet⟩
  obtain ⟨u, hr, hu⟩ := portConfig_quiet hp
  have hlanes : OnLanes u f := ⟨hp.went hu rfl, by rw [hu.cfg, hcfg]; exact hn⟩
  have hcfgu : u.cfg = s.cfg := hu.cfg.trans hcfg
  obtain ⟨v, hrv, hv, hsv, -⟩ := nativeBringUp_quiet hlanes (b := b) (v2 := v2) (by rw [hcfgu]; exact hg) (l := l)
    (by rw [hu.env, ht.env, hcfgu]; exact hl) hne (m := m) (by rw [hu.env, ht.env, hcfgu]; exact hd) hm
  refine ⟨v, ?_, ?_, ?_⟩
  · simp only [familyBringUp, ho, Bool.false_eq_true, if_false, wireBringUp, hn, bind_ok hr, hrv]
  · have := (hu.mono (G := .bringUp) rfl).trans hv
    rw [hu.env, ht.env, hcfgu] at this
    simpa using this
  · rw [hsv, hu.same.session_eq rfl rfl, hs]
    rfl

/-- The bring-up on the SPI flavour (R162). -/
theorem runBringUp_spi (h : Idle s f) (ho : (s.cfg.fam f).offload = false) (hn : (s.cfg.fam f).wire = .spi)
    {b : SpiScript} {v2 : Bool} (hg : b.good s.cfg v2)
    (hl : s.env.core.cmdLine = b.bits s.cfg ++ l) (hne : l ≠ []) :
    ∃ t, runBringUp s = .ok () t ∧ Ready f .bringUp { s.env.core with cmdLine := l } (b.sent s.cfg v2)
      { s.sess.cleared with highCapacity := ocrHighCapacity (b.ocr.bytes.getD 1 0) } s t := by
  refine (fun h => (let ⟨t, _, _, hr, hd, _⟩ := h; ⟨t, hr, hd⟩)) (runBringUp_quiet rfl rfl rfl h fun t ht hb hs => ?_)
  have hcfg := ht.cfg
  have hp : OnPort t f := ⟨hb, by rw [hcfg]; exact ho, ht.quiet⟩
  obtain ⟨u, hr, hu⟩ := portConfig_quiet hp
  have hcfgu : u.cfg = s.cfg := hu.cfg.trans hcfg
  obtain ⟨v, hrv, hv, hsv⟩ := spiBringUp_quiet (hp.went hu rfl) (by rw [hcfgu]; exact hn) (b := b) (v2 := v2)
    (by rw [hcfgu]; exact hg) (l := l) (by rw [hu.env, ht.env, hcfgu]; exact hl) hne
  refine ⟨v, ?_, ?_, ?_⟩
  · simp only [familyBringUp, ho, Bool.false_eq_true, if_false, wireBringUp, hn, bind_ok hr, hrv]
  · have := (hu.mono (G := .bringUp) rfl).trans hv
    rw [hu.env, ht.env, hcfgu] at this
    simpa using this
  · rw [hsv, hu.same.session_eq rfl rfl, hs]
    rfl

/-- The bring-up of a family whose cartridge does the framing (R178). -/
theorem runBringUp_offload (h : Idle s f) (ho : (s.cfg.fam f).offload = true) {r0 r1 : Word} {xs ys ws : List Word}
    (hx : xs.length = aroundWords (s.cfg.fam f) (wraps (s.cfg.fam f) 0x69))
    (hy : ys.length = aroundWords (s.cfg.fam f) (wraps (s.cfg.fam f) 0x69))
    (hw' : s.env.core.words = xs ++ r0 :: r1 :: (ys ++ ws)) (hne : ws ≠ []) :
    ∃ t, runBringUp s = .ok () t ∧ Ready f { Foot.cart with line := true, sess := true, seq := true }
      { s.env.core with words := ws } [] s.sess.cleared s t ∧
      t.cb = s.cb ∧ t.byteswap = s.byteswap ∧
      commands t.hist = commands s.hist ++ aroundCommands (s.cfg.fam f) (wraps (s.cfg.fam f) 0x69) s.byteswap
        [(0x69, s.cfg.sdOpInit, 0)] := by
  have run : ∀ w, Went f { Foot.setting with bus := true } s.env.core [] s w → w.busOwner = .cart f →
      ∃ u, familyBringUp (s.cfg.fam f) w = .ok () u ∧
        Drove f .cart { s.env.core with words := ws }
          (aroundWrites s.cfg f (wraps (s.cfg.fam f) 0x69) s.byteswap (handshakeWrites s.cfg f 0x69 s.cfg.sdOpInit 0))
          (aroundCommands (s.cfg.fam f) (wraps (s.cfg.fam f) 0x69) s.byteswap [(0x69, s.cfg.sdOpInit, 0)]) w u ∧
        u.byteswap = s.byteswap ∧ u.cb = s.cb := fun w hw hb => by
    have hcfg := hw.cfg
    have hsw : w.byteswap = s.byteswap := hw.same.swap rfl
    obtain ⟨u, hr, hu, husw, hucb⟩ := cartCommand_quiet hb hw.quiet 0x69 s.cfg.sdOpInit 0 (r0 := r0) (r1 := r1)
      (xs := xs) (ys := ys) (ws := ws) (by rw [hcfg]; exact hx) (by rw [hcfg]; exact hy) (by rw [hw.env]; exact hw') hne
      (bs := []) (sec := s.env.core.sector) (by rw [hw.env]; rfl) (.inl rfl) (by simp [broughtBytes])
    rw [hcfg, hsw, hw.env] at hu
    refine ⟨u, ?_, hu, husw.trans hsw, ?_⟩
    · simp only [familyBringUp, ho, if_true, offloadBringUp, get'_bind, hcfg, bind_ok hr, pure_run]
    · have : u.cb = w.cb := by simpa [bufferAfter] using hucb
      exact this.trans (hw.same.buffer rfl)
  obtain ⟨t, w, u, hrun, hready, hw, hb, hcom, hfam, hcb, hsw, hcomt, -⟩ := runBringUp_quiet
    (F := { Foot.cart with line := true, sess := true, seq := true }) (e := { s.env.core with words := ws }) (out := [])
    (ss := s.sess.cleared) rfl rfl rfl h fun w hw hb hs => by
      obtain ⟨u, hr, hu, -, -⟩ := run w hw hb
      refine ⟨u, hr, hu.went.mono rfl, ?_⟩
      rw [hu.went.same.session_eq rfl rfl, hs]
  obtain ⟨u', hr', hu', hsw', hcb'⟩ := run w hw hb
  rw [hfam] at hr'
  cases hr'
  exact ⟨t, hrun, hready, hcb.trans hcb', hsw.trans hsw', by rw [hcomt, hu'.issued, hcom]⟩

end Sys2Proof.Machine
end

