-- ==== Sys2Proof/Laws/Transfers.lean ====
section
/-! SUPPORT. The streaming transfers of a native card in an environment that answers at once (43_card_sequencer.md R163 to
R168). -/

namespace Sys2Proof.Machine

variable {f : Family} {F G : Foot} {s t u : State} {e e' : Env} {l : List Bool} {m : List Nibble}

theorem Ram.of_same (h : Ram s) (k : SameOn F s t) (hF : F.ram = false) : Ram t := by
  obtain ⟨hp, hc⟩ := k.ram hF
  exact ⟨by rw [k.cfg]; exact h.pos, ⟨by rw [hc]; exact h.cache.distinct, by rw [hc, k.cfg]; exact h.cache.aligned,
    by rw [hc, k.cfg]; exact h.cache.full, by rw [hc, hp, k.cfg]; exact h.cache.clean⟩, by rw [hp]; exact h.phys⟩

theorem hostByte_same (k : SameOn F s t) (hF : F.ram = false) (b : Nat) : t.hostByte b = s.hostByte b := by
  obtain ⟨hp, hc⟩ := k.ram hF
  unfold State.hostByte
  rw [hp, hc, k.cfg]

theorem ReadInto.of_same {stage buf : Nat} {d : List Byte} (h : ReadInto stage buf d s t) (k : SameOn F t u)
    (hF : F.ram = false) : ReadInto stage buf d s u :=
  ⟨fun j hj => (hostByte_same k hF _).trans (h.1 j hj), fun x h1 h2 => (hostByte_same k hF _).trans (h.2 x h1 h2)⟩

theorem ReadFrom.of_same {stage buf : Nat} (h : ReadFrom stage buf s t) (k : SameOn F t u) (hF : F.ram = false) :
    ReadFrom stage buf s u := fun x hx => (hostByte_same k hF _).trans (h x hx)

theorem length_swapPairs : ∀ d : List Byte, (swapPairs d).length = d.length
  | [] => rfl
  | [_] => rfl
  | a :: b :: rest => by simp [swapPairs, length_swapPairs rest]

theorem length_placed (w : Bool) (d : List Byte) : (placed w d).length = d.length := by
  unfold placed; split
  · exact length_swapPairs d
  · rfl

/-! ### The switch -/

theorem openIndex_enter (mode : AccessMode) (lba : Word) :
    enterMode mode lba = openAt mode (openIndex mode) lba := rfl

/-- Opening a stream at an LBA that has a block argument (R89, R147, R148). -/
theorem openAt_quiet (h : OnPort s f) (mode : AccessMode) {idx : BitVec 6} {lba arg : Word}
    (ha : blockArg s.sess.highCapacity lba = some arg) {a : Answer} (hg : a.good s.cfg (s.cfg.fam f).wire false idx)
    (hl : s.env.core.cmdLine = a.wire ++ l) (hne : l ≠ []) :
    ∃ t, openAt mode idx lba s = .ok () t ∧
      Went f .command { s.env.core with cmdLine := l } (commandSent s.cfg idx arg) s t ∧
      t.sess = { s.sess with bitlen := .b8, mode := mode, lastLba := lba - 1 } := by
  obtain ⟨t, hr, hw, hs, -⟩ := openStream_quiet h mode (lba - 1) (arg := arg) hg hl hne
  exact ⟨t, by simp only [openAt, get'_bind, ha, hr], hw, hs⟩

theorem needsSwitch_false {ss : Session} {mode : AccessMode} {lba : Word} (h : needsSwitch ss mode lba = false) :
    ss.mode = mode ∧ ss.lastLba = lba - 1 := by
  simp only [needsSwitch, Bool.not_eq_false', Bool.and_eq_true, beq_iff_eq] at h
  exact ⟨h.1, by rw [h.2]; bv_omega⟩

/-- `ensure_mode` (R164): whatever was open, the stream of the mode is open at the LBA. -/
theorem ensureMode_quiet (h : OnLanes s f) (mode : AccessMode) {lba arg : Word}
    (ha : blockArg s.sess.highCapacity lba = some arg) {b : SwitchScript}
    (hg : b.good s.cfg (s.cfg.fam f) s.sess mode lba) (hb8 : s.sess.bitlen = .b8)
    (hl : s.env.core.cmdLine = b.bits s.sess mode lba ++ l) (hne : l ≠ [])
    (hd : s.env.core.datLine = b.nibbles s.sess mode lba ++ m) (hm : m ≠ []) :
    ∃ t, ensureMode mode lba s = .ok () t ∧
      Went f .command { s.env.core with cmdLine := l, datLine := m } (switchSent s.cfg s.sess mode lba arg) s t ∧
      t.sess = { s.sess with mode := mode, lastLba := lba - 1 } := by
  by_cases hn : needsSwitch s.sess mode lba = true
  · have hstart := hg.start hn
    by_cases hmode : s.sess.mode = .none
    · have hst : stopsFirst s.sess mode lba = false := by simp [stopsFirst, hmode]
      simp only [SwitchScript.bits, SwitchScript.nibbles, hst, hn, Bool.false_eq_true, if_false, if_true,
        List.nil_append] at hl hd
      obtain ⟨t, hr, hw, hs⟩ := openAt_quiet h.port mode ha (idx := openIndex mode) (a := b.start)
        (by rw [h.native]; exact hstart) hl hne
      refine ⟨t, ?_, ?_, by rw [hs, ← hb8]⟩
      · simp only [ensureMode, get'_bind]
        rw [onlyIf_true hn, bind_ok (onlyIf_false (by simp [hmode]) _), openIndex_enter, hr]
      · rw [← show s.env.core.datLine = m from hd]
        simpa [switchSent, hst, hn] using hw
    · have hst : stopsFirst s.sess mode lba = true := by simp [stopsFirst, hn, hmode]
      obtain ⟨hstop, hbusy⟩ := hg.stop hst
      simp only [SwitchScript.bits, SwitchScript.nibbles, hst, hn, if_true, List.append_assoc] at hl hd
      obtain ⟨t, hr, hw, hs, -⟩ := stopStream_quiet h (a := b.stop) (by rw [h.native]; exact hstop) hl (by simp [hne]) hbusy
        hd hm
      have h1 := h.went hw rfl
      have hcap : t.sess.highCapacity = s.sess.highCapacity := by rw [hs]
      obtain ⟨u, hru, hwu, hsu⟩ := openAt_quiet h1.port mode (idx := openIndex mode) (lba := lba) (arg := arg)
        (by rw [hcap]; exact ha) (a := b.start) (by rw [h1.native, hw.cfg]; exact hstart) (l := l) (by rw [hw.env]) hne
      refine ⟨u, ?_, ?_, by rw [hsu, hs, ← hb8]⟩
      · simp only [ensureMode, get'_bind]
        rw [onlyIf_true hn, bind_ok ((onlyIf_true (by simp [hmode]) _).trans hr), openIndex_enter, hru]
      · have := hw.trans hwu
        rw [hw.env, hw.cfg] at this
        simpa [switchSent, hst, hn] using this
  · have hn' : needsSwitch s.sess mode lba = false := by simpa using hn
    have hst : stopsFirst s.sess mode lba = false := by simp [stopsFirst, hn']
    obtain ⟨h1, h2⟩ := needsSwitch_false hn'
    simp only [SwitchScript.bits, SwitchScript.nibbles, hst, hn', Bool.false_eq_true, if_false, List.nil_append] at hl hd
    refine ⟨s, ?_, ?_, by rw [← h1, ← h2]⟩
    · simp only [ensureMode, get'_bind]
      rw [onlyIf_false hn']
    · have : ({ s.env.core with cmdLine := l, datLine := m } : Env) = s.env.core := by
        rw [← show s.env.core.cmdLine = l from hl, ← show s.env.core.datLine = m from hd]
      rw [this]
      simpa [switchSent, hst, hn'] using Went.refl (s := s) (f := f) .command h.port.quiet

/-! ### Reading -/

/-- One more block counted (R165). -/
theorem countBlock_quiet (hq : Quiet s f) : ∃ t, countBlock s = .ok () t ∧ Went f .command s.env.core [] s t ∧
    t.sess = { s.sess with lastLba := s.sess.lastLba + 1 } :=
  ⟨_, rfl, Went.sess (g := fun ss => { ss with lastLba := ss.lastLba + 1 }) hq, rfl⟩

/-- A good sector is placed in the buffer (R171). -/
theorem receiveSector_quiet (h : OnLanes s f) {b : BlockScript} (hg : b.good s.cfg (s.cfg.fam f) s.sess.busWidth)
    (hl : s.env.core.datLine = b.lanes ++ m) (hne : m ≠ []) :
    ∃ t, receiveBlock sector s = .ok () t ∧ Went f .receive { s.env.core with datLine := m } [] s t ∧
      (s.sess.bitlen = .b8 → t.sess.bitlen = .b8) ∧ t.cb = s.cb.writeBytes 0 (placed s.byteswap b.data) := by
  obtain ⟨hlen, hb, hc⟩ := hg
  obtain ⟨t, ht, hb8, hcase⟩ := receiveBlock_quiet h hb hl hne
  rw [if_neg (by rintro ⟨h1, -, h3⟩; exact h3 (hc h1)), if_pos hlen, hlen] at hcase
  exact ⟨t, hcase.1, ht, hb8, by rw [hcase.2, placed]⟩

theorem direct_add (a k : Nat) : direct (a + sector * k) = direct a := by
  unfold direct sector
  rw [show a + 512 * k = a + 8 * (64 * k) by omega, Nat.add_mul_mod_self_left]

theorem direct_next (a : Nat) : direct (a + sector) = direct a := direct_add a 1

theorem bufferFits_head {stage buf n : Nat} (h : bufferFits stage buf (n + 1)) :
    direct buf = true ∨ stage + sector ≤ buf ∨ buf + sector ≤ stage := by
  rcases h with h | h | h
  · exact .inl h
  · exact .inr (.inl h)
  · rw [Nat.mul_add] at h
    exact .inr (.inr (by omega))

theorem bufferFits_tail {stage buf n : Nat} (h : bufferFits stage buf (n + 1)) : bufferFits stage (buf + sector) n := by
  unfold bufferFits
  rw [direct_next]
  rcases h with h | h | h
  · exact .inl h
  · exact .inr (.inl (by omega))
  · rw [Nat.mul_add] at h
    exact .inr (.inr (by omega))

theorem bufferFits_all {stage buf n : Nat} (h : bufferFits stage buf n) :
    direct buf = true ∨ ∀ j < sector * n, buf + j < stage ∨ stage + sector ≤ buf + j := by
  unfold bufferFits at h
  rcases h with h | h | h
  · exact .inl h
  · exact .inr fun j _ => .inr (by omega)
  · exact .inr fun j _ => .inl (by omega)

theorem lba_next (a : Word) (n : Nat) : a + 1 + BitVec.ofNat 32 n = a + BitVec.ofNat 32 (n + 1) := by
  rw [BitVec.ofNat_add]
  bv_omega

/-- One sector moved, then the others after it. -/
theorem ReadInto.cons {stage dest : Nat} {d rest : List Byte} {c c' : Nat → Byte} (hd : d.length = sector)
    (hc : ∀ j < sector, c j = d.getD j blankByte)
    (hv : ∀ b, t.hostByte b = if dest ≤ b ∧ b < dest + sector then c (b - dest)
      else if direct dest = false ∧ stage ≤ b ∧ b < stage + sector then c' b else s.hostByte b)
    (hfit : direct dest = true ∨ ∀ j < sector, dest + j < stage ∨ stage + sector ≤ dest + j)
    (h : ReadInto stage (dest + sector) rest t u) : ReadInto stage dest (d ++ rest) s u := by
  obtain ⟨hin, hout⟩ := h
  rw [direct_next] at hout
  have hlen : (d ++ rest).length = sector + rest.length := by rw [List.length_append, hd]
  refine ⟨fun j hj => ?_, fun x hx hst => ?_⟩
  · rw [hlen] at hj
    by_cases hjs : j < sector
    · have hx := hout (dest + j) (by omega) (hfit.imp id fun h => h j hjs)
      rw [hx, hv, if_pos (by omega), Nat.add_sub_cancel_left, hc j hjs]
      simp [List.getD, List.getElem?_append, hd, hjs]
    · have hx := hin (j - sector) (by omega)
      rw [show dest + sector + (j - sector) = dest + j by omega] at hx
      rw [hx]
      simp [List.getD, List.getElem?_append, hd, hjs]
  · rw [hlen] at hx
    rw [hout x (by omega) hst, hv, if_neg (by omega), if_neg]
    rintro ⟨h1, h2, h3⟩
    rcases hst with h | h
    · rw [h] at h1; cases h1
    · omega

/-- The read loop (R165): the sectors stand in the buffer in the order they came, and the last LBA counts them. -/
theorem readLoop_quiet (blocks : List BlockScript) : ∀ {s : State} (_ : OnLanes s f) (_ : Ram s) (_ : s.cb.wf = true)
    (_ : s.sess.bitlen = .b8) (_ : ∀ b ∈ blocks, b.good s.cfg (s.cfg.fam f) s.sess.busWidth)
    {dest : Nat} (_ : bufferFits s.cfg.stageAddr dest blocks.length)
    (_ : s.env.core.datLine = blocks.flatMap BlockScript.lanes ++ m) (_ : m ≠ []),
    ∃ t, readLoop blocks.length dest s = .ok () t ∧ Went f .transfer { s.env.core with datLine := m } [] s t ∧
      t.sess = { s.sess with lastLba := s.sess.lastLba + BitVec.ofNat 32 blocks.length } ∧
      Ram t ∧ t.cb.wf = true ∧ t.byteswap = s.byteswap ∧
      ReadInto s.cfg.stageAddr dest (landed s.byteswap blocks) s t := by
  induction blocks with
  | nil =>
    intro s h hr hcb hb8 _ dest _ hl _
    refine ⟨s, rfl, ?_, by simp, hr, hcb, rfl, ⟨fun j hj => by simp [landed] at hj, fun b _ _ => rfl⟩⟩
    rw [datLine_same (l := m) (by simpa using hl)]
    exact .refl _ h.port.quiet
  | cons b blocks ih =>
    intro s h hr hcb hb8 hg dest hd hl hne
    obtain ⟨s1, hr1, hw1, hb1, hcb1⟩ := receiveSector_quiet h (hg b (.head _))
      (m := blocks.flatMap BlockScript.lanes ++ m) (by simpa using hl) (by simp [hne])
    have hlenb : (placed s.byteswap b.data).length = sector := by rw [length_placed]; exact (hg b (.head _)).1
    have h1 := h.went hw1 rfl
    have hr1' := hr.of_same hw1.same rfl
    have hd1 : direct dest = true ∨ s1.cfg.stageAddr + sector ≤ dest ∨ dest + sector ≤ s1.cfg.stageAddr := by
      rw [hw1.cfg]
      exact bufferFits_head hd
    obtain ⟨s2, hr2, hw2, -, hram2, hcb2, hv2⟩ := moveToRam_quiet h1.port.owner hw1.quiet hr1' hd1
    have h2 := h1.went hw2 rfl
    obtain ⟨s3, hr3, hw3, hs3⟩ := countBlock_quiet (f := f) hw2.quiet
    have h3 := h2.went hw3 rfl
    have hsess : s3.sess = { s.sess with lastLba := s.sess.lastLba + 1 } := by
      have e2 : s2.sess = s1.sess := hw2.same.session_eq rfl rfl
      have e1 : s1.sess = s.sess := by rw [hw1.same.session rfl, hb1 hb8, ← hb8]
      rw [hs3, e2, e1]
    have hacc : Went f .transfer { s.env.core with datLine := blocks.flatMap BlockScript.lanes ++ m } [] s s3 := by
      have := (hw1.mono (G := .transfer) rfl).trans ((hw2.mono (G := .transfer) rfl).trans (hw3.mono (G := .transfer) rfl))
      rw [hw2.env, hw1.env] at this
      exact this
    have hcfg := hacc.cfg
    have hswap3 : s3.byteswap = s.byteswap :=
      (hw3.same.swap rfl).trans ((hw2.same.swap rfl).trans (hw1.same.swap rfl))
    have hcb3 : s3.cb.wf = true := by
      rw [hw3.same.buffer rfl, hcb2, hcb1]
      exact Memory.wf_writeBytes _ hcb 0
    have hram3 := hram2.of_same hw3.same rfl
    obtain ⟨t, hrt, hwt, hst, hramt, hcbt, hswt, hin, hout⟩ := ih h3 hram3 hcb3 (by rw [hsess]; exact hb8)
      (fun x hx => by rw [hcfg, hsess]; exact hg x (.tail _ hx)) (dest := dest + sector)
      (by rw [hcfg]; exact bufferFits_tail hd)
      (by rw [hacc.env]) hne
    refine ⟨t, ?_, ?_, ?_, hramt, hcbt, hswt.trans hswap3, ?_⟩
    · simp only [List.length_cons, readLoop, bind_ok hr1, bind_ok hr2, bind_ok hr3, hrt]
    · have := hacc.trans hwt
      rw [hacc.env] at this
      exact this
    · rw [hst, hsess]
      simp only [List.length_cons, lba_next]
    · have hview3 : ∀ x, s3.hostByte x = s2.hostByte x := hostByte_same hw3.same rfl
      have hview1 : ∀ x, s1.hostByte x = s.hostByte x := hostByte_same hw1.same rfl
      have hread : ∀ j < sector, s1.cb.read j = (placed s.byteswap b.data).getD j blankByte := fun j hj => by
        have := Memory.read_writeBytes_inside (placed s.byteswap b.data) hcb 0 (j := j) (by omega)
        rw [hcb1]
        simpa using this
      rw [show landed s.byteswap (b :: blocks) = placed s.byteswap b.data ++ landed s.byteswap blocks from List.flatMap_cons]
      have hrest := ReadInto.cons (s := s) (t := s3) (c := s1.cb.read) (c' := fun b => s1.cb.read (b - s1.cfg.stageAddr))
        (dest := dest) (stage := s.cfg.stageAddr) hlenb hread
        (fun x => by rw [hview3, hv2, hview1, hw1.cfg])
        ((bufferFits_all hd).imp id fun h j hj => h j (by rw [List.length_cons, Nat.mul_add]; omega))
        (rest := landed s.byteswap blocks) (u := t) (by
          have : ReadInto s3.cfg.stageAddr (dest + sector) (landed s3.byteswap blocks) s3 t := ⟨hin, hout⟩
          rwa [hcfg, hswap3] at this)
      exact hrest

/-! ### Writing -/

theorem takeFromBuffer_run (s : State) :
    takeFromBuffer s = .ok (placed s.byteswap (s.cb.readBytes 0 sector)) s := rfl

theorem blocksSent_congr {s t : State} (w : Bool) (hw : t.sess.busWidth = s.sess.busWidth) : ∀ (n src : Nat),
    (∀ j < sector * n, t.hostByte (src + j) = s.hostByte (src + j)) → blocksSent t w n src = blocksSent s w n src
  | 0, _, _ => rfl
  | n + 1, src, h => by
    have h1 : t.hostBytes src sector = s.hostBytes src sector :=
      hostBytes_congr fun j hj => h j (by rw [Nat.mul_add]; omega)
    have h2 := blocksSent_congr w hw n (src + sector) fun j hj => by
      rw [Nat.add_assoc]
      exact h (sector + j) (by rw [Nat.mul_add]; omega)
    rw [blocksSent, blocksSent, hw, h1, h2]

/-- The write loop (R166): each sector of the buffer is sent, and the last LBA counts them. -/
theorem writeLoop_quiet (tokens : List TokenScript) : ∀ {s : State} (_ : OnLanes s f) (_ : Ram s) (_ : s.cb.wf = true)
    (_ : s.sess.bitlen = .b8) (_ : ∀ b ∈ tokens, b.good (s.cfg.fam f))
    {src : Nat} (_ : bufferFits s.cfg.stageAddr src tokens.length)
    (_ : s.env.core.datLine = tokens.flatMap TokenScript.nibbles ++ m) (_ : m ≠ []),
    ∃ t, writeLoop tokens.length src s = .ok () t ∧
      Went f .transfer { s.env.core with datLine := m } (blocksSent s s.byteswap tokens.length src) s t ∧
      t.sess = { s.sess with lastLba := s.sess.lastLba + BitVec.ofNat 32 tokens.length } ∧
      Ram t ∧ t.cb.wf = true ∧ t.byteswap = s.byteswap ∧ ReadFrom s.cfg.stageAddr src s t := by
  induction tokens with
  | nil =>
    intro s h hr hcb hb8 _ src _ hl _
    refine ⟨s, rfl, ?_, by simp, hr, hcb, rfl, fun b _ => rfl⟩
    rw [datLine_same (l := m) (by simpa using hl)]
    exact .refl _ h.port.quiet
  | cons b tokens ih =>
    intro s h hr hcb hb8 hg src hd hl hne
    obtain ⟨s1, hr1, hw1, -, hram1, hcb1, hv1⟩ := moveFromRam_quiet h.port.owner h.port.quiet hr (bufferFits_head hd)
    have h1 := h.went hw1 rfl
    have hread : takeFromBuffer s1 = .ok (placed s.byteswap (s.hostBytes src sector)) s1 := by
      have hlen : (s.hostBytes src sector).length = sector := by simp [State.hostBytes]
      have := Memory.readBytes_writeBytes hcb 0 (s.hostBytes src sector)
      rw [hlen] at this
      rw [takeFromBuffer_run, hcb1, this, hw1.same.swap rfl]
    have hss1 : s1.sess = s.sess := hw1.same.session_eq rfl rfl
    obtain ⟨htok, hbusy⟩ := hg b (.head _)
    obtain ⟨s2, hw2, hb2, hcase⟩ := sendBlock_quiet h1 (placed s.byteswap (s.hostBytes src sector)) (n0 := b.before) (n1 := b.tok0)
      (n2 := b.tok1) (n3 := b.tok2) (n4 := b.after) (busy := b.busy) (l := tokens.flatMap TokenScript.nibbles ++ m)
      (by rw [hw1.cfg]; exact hbusy)
      (by rw [hw1.env, hl]; simp [TokenScript.nibbles]) (by simp [hne])
    have htf : tokenFault (bitOf (b.tok0.getLsbD 0) ++ bitOf (b.tok1.getLsbD 0) ++ bitOf (b.tok2.getLsbD 0)) = none := by
      have : bitOf (b.tok0.getLsbD 0) ++ bitOf (b.tok1.getLsbD 0) ++ bitOf (b.tok2.getLsbD 0) = (0b010 : BitVec 3) := htok
      rw [this]; rfl
    rw [htf] at hcase
    rw [if_pos htf, hw1.env, hss1] at hw2
    have h2 := h1.went hw2 rfl
    obtain ⟨s3, hr3, hw3, hs3⟩ := countBlock_quiet (f := f) hw2.quiet
    have h3 := h2.went hw3 rfl
    have hsess : s3.sess = { s.sess with lastLba := s.sess.lastLba + 1 } := by
      have e2 : s2.sess = s.sess := by
        rw [hw2.same.session rfl, hb2 (by rw [hss1]; exact hb8), hss1, ← hb8]
      rw [hs3, e2]
    have hacc : Went f .transfer { s.env.core with datLine := tokens.flatMap TokenScript.nibbles ++ m }
        (blockSent s.sess.busWidth (placed s.byteswap (s.hostBytes src sector))) s s3 := by
      have := (hw1.mono (G := .transfer) rfl).trans ((hw2.mono (G := .transfer) rfl).trans (hw3.mono (G := .transfer) rfl))
      rw [hw2.env] at this
      simpa using this
    have hcfg := hacc.cfg
    have hview3 : ∀ x, s3.hostByte x = s1.hostByte x := fun x =>
      (hostByte_same hw3.same rfl x).trans (hostByte_same hw2.same rfl x)
    have hsame : ∀ x, (direct src = true ∨ x < s.cfg.stageAddr ∨ s.cfg.stageAddr + sector ≤ x) →
        s3.hostByte x = s.hostByte x := fun x hx => by
      rw [hview3, hv1, if_neg]
      rintro ⟨h1, h2, h3⟩
      rcases hx with h | h
      · rw [h] at h1; cases h1
      · omega
    have hcb3 : s3.cb.wf = true := by
      rw [hw3.same.buffer rfl, hw2.same.buffer rfl, hcb1]
      exact Memory.wf_writeBytes _ hcb 0
    obtain ⟨t, hrt, hwt, hst, hramt, hcbt, hswt, hout⟩ := ih h3 ((hram1.of_same hw2.same rfl).of_same hw3.same rfl) hcb3
      (by rw [hsess]; exact hb8) (fun x hx => by rw [hcfg]; exact hg x (.tail _ hx)) (src := src + sector)
      (by rw [hcfg]; exact bufferFits_tail hd) (by rw [hacc.env]) hne
    have hsw3 : s3.byteswap = s.byteswap := (hw3.same.swap rfl).trans ((hw2.same.swap rfl).trans (hw1.same.swap rfl))
    have hsent : blocksSent s3 s3.byteswap tokens.length (src + sector) =
        blocksSent s s.byteswap tokens.length (src + sector) := by
      rw [hsw3]
      exact blocksSent_congr _ (by rw [hsess]) _ _ fun j hj => by
        refine hsame _ ?_
        have := bufferFits_all hd
        rw [List.length_cons, Nat.mul_add] at this
        refine this.imp id fun h => ?_
        rw [Nat.add_assoc]
        exact h (sector + j) (by omega)
    refine ⟨t, ?_, ?_, ?_, hramt, hcbt, ?_, ?_⟩
    · simp only [List.length_cons, writeLoop, bind_ok hr1, bind_ok hread, bind_ok hcase, bind_ok hr3, hrt]
    · have := hacc.trans hwt
      rw [hacc.env, hsent] at this
      simpa only [List.length_cons, blocksSent] using this
    · rw [hst, hsess]
      simp only [List.length_cons, lba_next]
    · exact hswt.trans hsw3
    · intro x hx
      rw [hout x (by rw [hcfg, direct_next]; exact hx), hsame x hx]

/-! ### The whole operations -/

/-- The operands of a transfer have a meaning (R165; U6, U7). -/
theorem transfer_native (h : Idle s f) (hready : s.sess.ready = true) (ho : (s.cfg.fam f).offload = false)
    (hn : (s.cfg.fam f).wire = .sdNative) {buf lba count arg : Word} (hop : operandRefusal s.cfg buf lba count = none)
    (ha : blockArg s.sess.highCapacity lba = some arg) {offloaded : Word → Op Unit} {native : Op Unit} :
    transfer buf lba count offloaded native s = bracketed abortTransfer native s := by
  rw [transfer, dispatch_known h.probed h.cart]
  simp only [get'_bind, hready, if_true, transferBody, hop, ho, Bool.false_eq_true, if_false, hn]
  rw [if_neg (by decide)]
  simp only [nativeTransfer, get'_bind, ha]

theorem transfer_offload (h : Idle s f) (hready : s.sess.ready = true) (ho : (s.cfg.fam f).offload = true)
    {buf lba count : Word} (hop : operandRefusal s.cfg buf lba count = none)
    {offloaded : Word → Op Unit} {native : Op Unit} :
    transfer buf lba count offloaded native s =
      bracketed abortTransfer (swapTransfer (offloaded (s.cfg.fam f).cartBuf)) s := by
  rw [transfer, dispatch_known h.probed h.cart]
  simp only [get'_bind, hready, if_true, transferBody, hop, ho]

/-- The swap around a whole transfer, in an environment that answers at once (R198). -/
theorem swapTransfer_quiet (hFb : F.bus = false) (hcart : Foot.cart.le F = true)
    (hb : s.busOwner = .cart f) (hq : Quiet s f) {body : Op Unit} {xs mid ys ws : List Word}
    {out : List Sent} (hx : xs.length = aroundWords (s.cfg.fam f) (wrapsTransfer (s.cfg.fam f)))
    (hy : ys.length = aroundWords (s.cfg.fam f) (wrapsTransfer (s.cfg.fam f)))
    (hw : s.env.core.words = xs ++ mid)
    (hmid : wrapsTransfer (s.cfg.fam f) = true → (s.cfg.fam f).swapViaCfg = true → mid ≠ [])
    (hne : wrapsTransfer (s.cfg.fam f) = true → (s.cfg.fam f).swapViaCfg = true → ws ≠ []) {P : State → State → Prop}
    (hP : ∀ t u v, P t u → v.byteswap = s.byteswap → SameOn .cart u v → v.cb = u.cb → P t v)
    (hbody : ∀ t, SameOn .cart s t → t.env.core = { s.env.core with words := mid } → Quiet t f →
        t.byteswap = (wrapsTransfer (s.cfg.fam f) || s.byteswap) → t.cb = s.cb →
      ∃ u, body t = .ok () u ∧ Went f F e out t u ∧ u.env.core.words = ys ++ ws ∧ u.byteswap = t.byteswap ∧ P t u) :
    ∃ t u v, SameOn .cart s t ∧ t.cb = s.cb ∧ P t v ∧ swapTransfer body s = .ok () v ∧ v.byteswap = s.byteswap ∧
      Went f F { e with words := ws } out s v ∧ body t = .ok () u ∧ v.cb = u.cb ∧
      t.env.core = { s.env.core with words := mid } ∧ Quiet t f ∧
      t.byteswap = (wrapsTransfer (s.cfg.fam f) || s.byteswap) ∧
      (∀ c, commands u.hist = commands t.hist ++ c → commands v.hist = commands s.hist ++
        aroundCommands (s.cfg.fam f) (wrapsTransfer (s.cfg.fam f)) s.byteswap c) ∧
      ∀ c, traffic u.hist = traffic t.hist ++ c → traffic v.hist = traffic s.hist ++
        transferTraffic (s.cfg.fam f) s.byteswap c := by
  unfold transferTraffic
  cases hwrap : wrapsTransfer (s.cfg.fam f) with
  | true =>
    rw [hwrap] at hx hy hbody
    obtain ⟨t, hon, hd, hsw, hcb⟩ := swapDrive_quiet hb hq true hx hw
      (hmid hwrap)
    obtain ⟨u, hrun, hu, huw, husw, hPu⟩ := hbody t hd.went.same hd.went.env hd.went.quiet (by rw [hsw]; rfl) hcb
    have hcfg : u.cfg = s.cfg := hu.cfg.trans hd.cfg
    obtain ⟨v, hoff, hv, hswv, hcbv⟩ := swapDrive_quiet ((hu.same.owner hFb).trans (hd.owner rfl hb)) hu.quiet s.byteswap
      (by rw [hcfg]; exact hy) huw (by rw [hcfg]; exact hne hwrap)
    refine ⟨t, u, v, hd.went.same, hcb, hP t u v hPu hswv hv.went.same hcbv, ?_, hswv, ?_, hrun, hcbv, hd.went.env,
      hd.went.quiet, by rw [hsw]; rfl, fun c hc => ?_, fun c hc => ?_⟩
    · simp only [swapTransfer, bind_ok (famParams_run hb), swapAround]
      rw [show ((s.cfg.fam f).hasSwap && (s.cfg.fam f).swapPolicy == SwapPolicy.everyTransfer) = true from hwrap]
      simp only [if_true, get'_bind, bind_ok hon, bind_ok (attempt_ok hrun), bind_ok hoff, pure_run]
    · have := (hd.went.mono hcart).trans (hu.trans (hv.went.mono hcart))
      rw [hu.env] at this
      simpa using this
    · rw [hv.issued, hc, hd.issued, hcfg]
      simp [aroundCommands]
    · rw [hv.moved, hc, hd.moved, hcfg]
      simp
  | false =>
    rw [hwrap] at hx hy hbody
    have hxs : xs = [] := List.eq_nil_of_length_eq_zero hx
    have hys : ys = [] := List.eq_nil_of_length_eq_zero hy
    subst hxs hys
    have hcore : s.env.core = { s.env.core with words := mid } := by
      rw [← show s.env.core.words = mid from hw]
    obtain ⟨u, hrun, hu, huw, husw, hPu⟩ := hbody s (.refl _ s) hcore hq (by simp) rfl
    refine ⟨s, u, u, .refl _ s, rfl, hPu, ?_, husw, ?_, hrun, rfl, hcore, hq, by simp, fun c hc => hc, fun c hc => by simpa using hc⟩
    · simp only [swapTransfer, bind_ok (famParams_run hb), swapAround]
      rw [show ((s.cfg.fam f).hasSwap && (s.cfg.fam f).swapPolicy == SwapPolicy.everyTransfer) = false from hwrap]
      simp only [Bool.false_eq_true, if_false, hrun]
    · have he : ({ e with words := ws } : Env) = e := by
        rw [← hu.env, ← show u.env.core.words = ws from huw]
      rw [he]
      exact hu

theorem noRefusal {p : Params} {buf lba count : Word} (h : operandRefusal p buf lba count = none) :
    count.toNat ≠ 0 ∧ lba.toNat + count.toNat ≤ 2 ^ 32 ∧ buf.toNat + sector * count.toNat ≤ 2 ^ 32 ∧
      bufferFits p.stageAddr buf.toNat count.toNat := by
  unfold operandRefusal at h
  split at h
  · cases h
  · split at h
    · cases h
    · split at h
      · cases h
      · split at h
        · cases h
        · rename_i h1 h2 h3 h4
          simp only [countOk, Bool.not_eq_true', bne_eq_false_iff_eq] at h1
          simp only [rangeOk, Bool.not_eq_true', decide_eq_false_iff_not, Decidable.not_not] at h2
          simp only [noWrap, Bool.not_eq_true', decide_eq_false_iff_not, Decidable.not_not] at h3
          simp only [noOverlap, Bool.not_eq_true', Bool.or_eq_false_iff, decide_eq_false_iff_not, not_and_or,
            Decidable.not_not] at h4
          refine ⟨fun hc => h1 (BitVec.eq_of_toNat_eq (by simpa using hc)), h2, h3, ?_⟩
          rcases h4 with h | h
          · exact .inr (.inr h)
          · exact .inr (.inl h)

/-- `card_read` on a native wire (R165). -/
theorem cardRead_native (h : Idle s f) (hready : s.sess.ready = true) (ho : (s.cfg.fam f).offload = false)
    (hn : (s.cfg.fam f).wire = .sdNative) {dest lba count arg : Word}
    (hop : operandRefusal s.cfg dest lba count = none)
    (harg : blockArg s.sess.highCapacity lba = some arg)
    (hr : Ram s) (hcb : s.cb.wf = true) (hb8 : s.sess.bitlen = .b8) {b : SwitchScript}
    (hg : b.good s.cfg (s.cfg.fam f) s.sess .blockRead lba) {blocks : List BlockScript}
    (hlen : blocks.length = count.toNat) (hgood : ∀ b ∈ blocks, b.good s.cfg (s.cfg.fam f) s.sess.busWidth)
    (hl : s.env.core.cmdLine = b.bits s.sess .blockRead lba ++ l) (hne : l ≠ [])
    (hd : s.env.core.datLine = b.nibbles s.sess .blockRead lba ++ (blocks.flatMap BlockScript.lanes ++ m)) (hm : m ≠ [])
    {xs ys ws : List Word} (hw : WrapWords s f xs ys ws) :
    ∃ t, cardRead dest lba count s = .ok () t ∧
      Went f { Foot.transfer with bus := true } { s.env.core with cmdLine := l, datLine := m, words := ws }
        (switchSent s.cfg s.sess .blockRead lba arg) s t ∧
      Restored s t ∧ t.sess = { s.sess with mode := .blockRead, lastLba := lba - 1 + count } ∧
      t.byteswap = s.byteswap ∧
      ReadInto s.cfg.stageAddr dest.toNat
        (landed (wrapsTransfer (s.cfg.fam f) || s.byteswap) blocks) s t := by
  obtain ⟨-, -, -, hfits⟩ := noRefusal hop
  have body : ∀ t, Acquired f s t → Went f .bracket s.env.core [] s t →
      ∃ u, (do
        ensureMode .blockRead lba
        swapTransfer (readLoop count.toNat dest.toNat) : Op Unit) t = .ok () u ∧
      Went f .transfer { s.env.core with cmdLine := l, datLine := m, words := ws }
        (switchSent s.cfg s.sess .blockRead lba arg) t u ∧
      u.sess = { s.sess with mode := .blockRead, lastLba := lba - 1 + count } ∧ u.byteswap = s.byteswap ∧
      ReadInto s.cfg.stageAddr dest.toNat
        (landed (wrapsTransfer (s.cfg.fam f) || s.byteswap) blocks) s u := fun t ht htw => by
    have hcfg := htw.cfg
    have hss : t.sess = s.sess := htw.same.session_eq rfl rfl
    have hlt : OnLanes t f := ⟨⟨ht.owner, by rw [hcfg]; exact ho, htw.quiet⟩, by rw [hcfg]; exact hn⟩
    obtain ⟨v, hrv, hv, hsv⟩ := ensureMode_quiet hlt .blockRead (lba := lba) (arg := arg) (b := b)
      (by rw [hss]; exact harg) (by rw [hcfg, hss]; exact hg) (by rw [hss]; exact hb8) (l := l)
      (by rw [htw.env, hss]; exact hl) hne (m := blocks.flatMap BlockScript.lanes ++ m)
      (by rw [htw.env, hss]; exact hd) (by simp [hm])
    have hlv := hlt.went hv rfl
    have hcfgv : v.cfg = s.cfg := hv.cfg.trans hcfg
    have hsv' : v.sess = { s.sess with mode := .blockRead, lastLba := lba - 1 } := by rw [hsv, hss]
    have hswv : v.byteswap = s.byteswap := (hv.same.swap rfl).trans (htw.same.swap rfl)
    obtain ⟨z, w, u, hz, hzcb, hP, hru, husw, hu, -⟩ := swapTransfer_quiet (f := f) (s := v)
      (body := readLoop count.toNat dest.toNat) (xs := xs) (mid := ys ++ ws) (ys := ys) (ws := ws)
      (e := { v.env.core with words := ys ++ ws, datLine := m }) (out := [])
      (P := fun z u => u.sess = { s.sess with mode := .blockRead, lastLba := lba - 1 + count } ∧
        ReadInto s.cfg.stageAddr dest.toNat
          (landed (wrapsTransfer (s.cfg.fam f) || s.byteswap) blocks) s u)
      (F := .transfer) rfl rfl hlv.port.owner hv.quiet (by rw [hcfgv]; exact hw.before) (by rw [hcfgv]; exact hw.after)
      (by rw [hv.env, htw.env]; exact hw.words)
      (by rw [hcfgv]; exact fun h1 h2 h3 => hw.more h1 h2 (List.append_eq_nil_iff.mp h3).2) (by rw [hcfgv]; exact hw.more)
      (fun z u w hzu _ hs _ => ⟨(hs.session_eq rfl rfl).trans hzu.1, ReadInto.of_same hzu.2 hs rfl⟩)
      fun z hz hze hzq hzsw hzcb => by
        have hzcfg : z.cfg = s.cfg := hz.cfg.trans hcfgv
        have hzss : z.sess = { s.sess with mode := .blockRead, lastLba := lba - 1 } :=
          (hz.session_eq rfl rfl).trans hsv'
        have hlz : OnLanes z f := ⟨⟨(hz.owner rfl).trans hlv.port.owner, by rw [hzcfg]; exact ho, hzq⟩,
          by rw [hzcfg]; exact hn⟩
        have hrz : Ram z := ((hr.of_same htw.same rfl).of_same hv.same rfl).of_same hz rfl
        have hzb : z.byteswap = (wrapsTransfer (s.cfg.fam f) || s.byteswap) := by rw [hzsw, hcfgv, hswv]
        obtain ⟨u, hru, hu, hsu, -, -, hswu, hin⟩ := readLoop_quiet blocks hlz hrz
          (by rw [hzcb, hv.same.buffer rfl, htw.same.buffer rfl]; exact hcb) (by rw [hzss]; exact hb8)
          (by rw [hzcfg, hzss]; exact hgood) (dest := dest.toNat) (by rw [hzcfg, hlen]; exact hfits)
          (m := m) (by rw [hze, hv.env]) hm
        rw [hlen] at hru hsu
        rw [hzcfg, hzb] at hin
        refine ⟨u, hru, ?_, ?_, hswu, ?_, ?_⟩
        · rw [hze] at hu; exact hu
        · rw [hu.env, hze]
        · rw [hsu, hzss]; simp
        · have hview : ∀ x, z.hostByte x = s.hostByte x := fun x =>
            (hostByte_same hz rfl x).trans ((hostByte_same hv.same rfl x).trans (hostByte_same htw.same rfl x))
          exact ⟨hin.1, fun x h1 h2 => (hin.2 x h1 h2).trans (hview x)⟩
    refine ⟨u, by simp only [bind_ok hrv, hru], ?_, hP.1, husw.trans hswv, hP.2⟩
    have := (hv.mono (G := .transfer) rfl).trans hu
    rw [hv.env, htw.env, hcfg, hss] at this
    simpa using this
  obtain ⟨t, u, v, ht, hrun, hv, hres, hall, hwu, hww⟩ := bracketed_quiet (clean := abortTransfer) (a := ())
    (F := .transfer) (G := { Foot.transfer with bus := true }) h.cart h.bus h.quiet rfl rfl rfl fun t ht htw => by
      obtain ⟨u, hr, hu, -⟩ := body t ht htw
      exact ⟨u, hr, hu⟩
  obtain ⟨u', hrun', -, hsu, hswu, hin⟩ := body t ht (ht.quiet h.quiet)
  rw [hrun] at hrun'
  cases hrun'
  refine ⟨v, ?_, hww, hres, ?_, ?_, ?_⟩
  · rw [cardRead, transfer_native h hready ho hn hop harg, hall]
  · rw [hv.same.session_eq rfl rfl, hsu]
  · rw [hv.same.swap rfl, hswu]
  · exact ReadInto.of_same hin hv.same rfl

/-- `card_write` on a native wire (R166). -/
theorem cardWrite_native (h : Idle s f) (hready : s.sess.ready = true) (ho : (s.cfg.fam f).offload = false)
    (hn : (s.cfg.fam f).wire = .sdNative) {src lba count arg : Word}
    (hop : operandRefusal s.cfg src lba count = none)
    (harg : blockArg s.sess.highCapacity lba = some arg)
    (hr : Ram s) (hcb : s.cb.wf = true) (hb8 : s.sess.bitlen = .b8) {b : SwitchScript}
    (hg : b.good s.cfg (s.cfg.fam f) s.sess .blockWrite lba) {tokens : List TokenScript}
    (hlen : tokens.length = count.toNat) (hgood : ∀ b ∈ tokens, b.good (s.cfg.fam f))
    (hl : s.env.core.cmdLine = b.bits s.sess .blockWrite lba ++ l) (hne : l ≠ [])
    (hd : s.env.core.datLine = b.nibbles s.sess .blockWrite lba ++ (tokens.flatMap TokenScript.nibbles ++ m)) (hm : m ≠ [])
    {xs ys ws : List Word} (hw : WrapWords s f xs ys ws) :
    ∃ t, cardWrite src lba count s = .ok () t ∧
      Went f { Foot.transfer with bus := true } { s.env.core with cmdLine := l, datLine := m, words := ws }
        (switchSent s.cfg s.sess .blockWrite lba arg ++ blocksSent s (wrapsTransfer (s.cfg.fam f) || s.byteswap) count.toNat src.toNat) s t ∧
      Restored s t ∧ t.sess = { s.sess with mode := .blockWrite, lastLba := lba - 1 + count } ∧
      t.byteswap = s.byteswap ∧
      ReadFrom s.cfg.stageAddr src.toNat s t := by
  obtain ⟨-, -, -, hfits⟩ := noRefusal hop
  have body : ∀ t, Acquired f s t → Went f .bracket s.env.core [] s t →
      ∃ u, (do
        ensureMode .blockWrite lba
        swapTransfer (writeLoop count.toNat src.toNat) : Op Unit) t = .ok () u ∧
      Went f .transfer { s.env.core with cmdLine := l, datLine := m, words := ws }
        (switchSent s.cfg s.sess .blockWrite lba arg ++ blocksSent s (wrapsTransfer (s.cfg.fam f) || s.byteswap) count.toNat src.toNat) t u ∧
      u.sess = { s.sess with mode := .blockWrite, lastLba := lba - 1 + count } ∧ u.byteswap = s.byteswap ∧
      ReadFrom s.cfg.stageAddr src.toNat s u := fun t ht htw => by
    have hcfg := htw.cfg
    have hss : t.sess = s.sess := htw.same.session_eq rfl rfl
    have hlt : OnLanes t f := ⟨⟨ht.owner, by rw [hcfg]; exact ho, htw.quiet⟩, by rw [hcfg]; exact hn⟩
    obtain ⟨v, hrv, hv, hsv⟩ := ensureMode_quiet hlt .blockWrite (lba := lba) (arg := arg) (b := b)
      (by rw [hss]; exact harg) (by rw [hcfg, hss]; exact hg) (by rw [hss]; exact hb8) (l := l)
      (by rw [htw.env, hss]; exact hl) hne (m := tokens.flatMap TokenScript.nibbles ++ m)
      (by rw [htw.env, hss]; exact hd) (by simp [hm])
    have hlv := hlt.went hv rfl
    have hcfgv : v.cfg = s.cfg := hv.cfg.trans hcfg
    have hsv' : v.sess = { s.sess with mode := .blockWrite, lastLba := lba - 1 } := by rw [hsv, hss]
    have hswv : v.byteswap = s.byteswap := (hv.same.swap rfl).trans (htw.same.swap rfl)
    obtain ⟨z, w, u, hz, hzcb, hP, hru, husw, hu, -⟩ := swapTransfer_quiet (f := f) (s := v)
      (body := writeLoop count.toNat src.toNat) (xs := xs) (mid := ys ++ ws) (ys := ys) (ws := ws)
      (e := { v.env.core with words := ys ++ ws, datLine := m }) (out := blocksSent s (wrapsTransfer (s.cfg.fam f) || s.byteswap) count.toNat src.toNat)
      (P := fun z u => u.sess = { s.sess with mode := .blockWrite, lastLba := lba - 1 + count } ∧
        ReadFrom s.cfg.stageAddr src.toNat s u)
      (F := .transfer) rfl rfl hlv.port.owner hv.quiet (by rw [hcfgv]; exact hw.before) (by rw [hcfgv]; exact hw.after)
      (by rw [hv.env, htw.env]; exact hw.words)
      (by rw [hcfgv]; exact fun h1 h2 h3 => hw.more h1 h2 (List.append_eq_nil_iff.mp h3).2) (by rw [hcfgv]; exact hw.more)
      (fun z u w hzu _ hs _ => ⟨(hs.session_eq rfl rfl).trans hzu.1, ReadFrom.of_same hzu.2 hs rfl⟩)
      fun z hz hze hzq hzsw hzcb => by
        have hzcfg : z.cfg = s.cfg := hz.cfg.trans hcfgv
        have hzss : z.sess = { s.sess with mode := .blockWrite, lastLba := lba - 1 } :=
          (hz.session_eq rfl rfl).trans hsv'
        have hlz : OnLanes z f := ⟨⟨(hz.owner rfl).trans hlv.port.owner, by rw [hzcfg]; exact ho, hzq⟩,
          by rw [hzcfg]; exact hn⟩
        have hrz : Ram z := ((hr.of_same htw.same rfl).of_same hv.same rfl).of_same hz rfl
        obtain ⟨u, hru, hu, hsu, -, -, hswu, hin⟩ := writeLoop_quiet tokens hlz hrz
          (by rw [hzcb, hv.same.buffer rfl, htw.same.buffer rfl]; exact hcb) (by rw [hzss]; exact hb8)
          (by rw [hzcfg]; exact hgood) (src := src.toNat) (by rw [hzcfg, hlen]; exact hfits)
          (m := m) (by rw [hze, hv.env]) hm
        have hview : ∀ x, z.hostByte x = s.hostByte x := fun x =>
          (hostByte_same hz rfl x).trans ((hostByte_same hv.same rfl x).trans (hostByte_same htw.same rfl x))
        rw [hlen] at hru hsu hu
        rw [hzsw, hcfgv, hswv, blocksSent_congr (s := s) _ (by rw [hzss]) _ _ fun j _ => hview _] at hu
        rw [hzcfg] at hin
        refine ⟨u, hru, ?_, ?_, hswu, ?_, ?_⟩
        · rw [hze] at hu; exact hu
        · rw [hu.env, hze]
        · rw [hsu, hzss]; simp
        · exact fun x hx => (hin x hx).trans (hview x)
    refine ⟨u, by simp only [bind_ok hrv, hru], ?_, hP.1, husw.trans hswv, hP.2⟩
    have := (hv.mono (G := .transfer) rfl).trans hu
    rw [hv.env, htw.env, hcfg, hss] at this
    simpa using this
  obtain ⟨t, u, v, ht, hrun, hv, hres, hall, hwu, hww⟩ := bracketed_quiet (clean := abortTransfer) (a := ())
    (F := .transfer) (G := { Foot.transfer with bus := true }) h.cart h.bus h.quiet rfl rfl rfl fun t ht htw => by
      obtain ⟨u, hr, hu, -⟩ := body t ht htw
      exact ⟨u, hr, hu⟩
  obtain ⟨u', hrun', -, hsu, hswu, hin⟩ := body t ht (ht.quiet h.quiet)
  rw [hrun] at hrun'
  cases hrun'
  refine ⟨v, ?_, hww, hres, ?_, ?_, ?_⟩
  · rw [cardWrite, transfer_native h hready ho hn hop harg, hall]
  · rw [hv.same.session_eq rfl rfl, hsu]
  · rw [hv.same.swap rfl, hswu]
  · exact ReadFrom.of_same hin hv.same rfl

end Sys2Proof.Machine
end

