-- ==== Sys2Proof/Laws/Offload.lean ====
section
/-! SUPPORT. The transfers of a family whose cartridge does the framing, in an environment that answers at once
(43_card_sequencer.md R178). -/

namespace Sys2Proof.Machine

variable {f : Family} {F G : Foot} {s t u : State} {e e' : Env}

/-- One command, told by how many words and bytes are listed. -/
theorem cartCommand_enough (hb : s.busOwner = .cart f) (hq : Quiet s f) (code : Byte) (a0 a1 : Word)
    (hw : commandWords (s.cfg.fam f) code < s.env.core.words.length) {bs sec : List Byte}
    (hs : s.env.core.sector = bs ++ sec) (hsec : bs = [] ∨ sec ≠ [])
    (hlen : bs.length = broughtBytes (s.cfg.fam f) code a0 a1) :
    ∃ r t, cartCommand code a0 a1 s = .ok r t ∧
      Drove f .cart { s.env.core with words := s.env.core.words.drop (commandWords (s.cfg.fam f) code), sector := sec }
        (aroundWrites s.cfg f (wraps (s.cfg.fam f) code) s.byteswap (handshakeWrites s.cfg f code a0 a1))
        (aroundCommands (s.cfg.fam f) (wraps (s.cfg.fam f) code) s.byteswap [(code, a0, a1)]) s t ∧
      t.byteswap = s.byteswap ∧
      t.cb = bufferAfter (s.cfg.fam f) (wraps (s.cfg.fam f) code || s.byteswap) code a0 bs s.cb := by
  unfold commandWords at *
  generalize hk : aroundWords (s.cfg.fam f) (wraps (s.cfg.fam f) code) = k at hw ⊢
  generalize hws : s.env.core.words = words at hw ⊢
  have hsplit : words = words.take k ++ (words.drop k).headD 0 :: ((words.drop k).tail).headD 0 ::
      ((words.drop (k + 2)).take k ++ words.drop (2 * k + 2)) := by
    conv_lhs => rw [← List.take_append_drop k words]
    congr 1
    match hd : words.drop k with
    | [] => exact absurd (List.drop_eq_nil_iff.mp hd) (by omega)
    | [x] =>
      have := congrArg List.length hd
      simp at this
      omega
    | x :: y :: rest =>
      have h2 : words.drop (k + 2) = rest := by rw [← List.drop_drop, hd]; rfl
      have h3 : words.drop (2 * k + 2) = rest.drop k := by
        rw [show 2 * k + 2 = (k + 2) + k by omega, ← List.drop_drop, h2]
      rw [h2, h3]
      simp
  obtain ⟨t, hr, ht⟩ := cartCommand_quiet hb hq code a0 a1 (xs := words.take k) (ys := (words.drop (k + 2)).take k)
    (ws := words.drop (2 * k + 2)) (by rw [hk]; simp; omega) (by rw [hk]; simp; omega) (by rw [hws]; exact hsplit)
    (by rw [ne_eq, List.drop_eq_nil_iff]; omega) hs hsec hlen
  exact ⟨_, t, hr, ht⟩

theorem brought_sector {q : FamilyParams} (h : sector ≤ q.cartBufLen) : broughtBytes q 0x73 q.cartBuf 1 = sector := by
  have : (1 : Word).toNat = 1 := rfl
  simp only [broughtBytes, readCount, BEq.rfl, if_true, this]
  unfold sector at *
  omega

theorem readOffset_self (q : FamilyParams) : readOffset q q.cartBuf = 0 := by simp [readOffset]

/-- The read loop of an offloaded family (R178). -/
theorem offloadReadLoop_quiet (sectors : List (List Byte)) : ∀ {s : State} (_ : s.busOwner = .cart f) (_ : Quiet s f)
    (_ : sector ≤ (s.cfg.fam f).cartBufLen) (_ : Ram s) (_ : s.cb.wf = true) (_ : ∀ d ∈ sectors, d.length = sector)
    {dest : Nat} {lba : Word} {sec : List Byte} (_ : bufferFits s.cfg.stageAddr dest sectors.length)
    (_ : s.env.core.sector = sectors.flatten ++ sec) (_ : sec ≠ [])
    (_ : sectorWords (s.cfg.fam f) 0x73 sectors.length < s.env.core.words.length),
    ∃ t, offloadReadLoop (s.cfg.fam f).cartBuf sectors.length lba dest s = .ok () t ∧
      Went f .offload { s.env.core with
        words := s.env.core.words.drop (sectorWords (s.cfg.fam f) 0x73 sectors.length), sector := sec } [] s t ∧
      commands t.hist = commands s.hist ++ sectorCommands (s.cfg.fam f) s.byteswap 0x73 sectors.length lba ∧
      traffic t.hist = traffic s.hist ++ readTraffic s.cfg f s.byteswap sectors.length lba dest ∧
      Ram t ∧ t.cb.wf = true ∧ t.byteswap = s.byteswap ∧
      ReadInto s.cfg.stageAddr dest (sectors.flatMap (placed (wraps (s.cfg.fam f) 0x73 || s.byteswap))) s t := by
  induction sectors with
  | nil =>
    intro s hb hq _ hr hcb _ dest lba sec _ hs _ _
    refine ⟨s, rfl, ?_, by simp [sectorCommands], by simp [readTraffic], hr, hcb, rfl, ⟨fun j hj => by simp at hj, fun b _ _ => rfl⟩⟩
    have hcore : ({ s.env.core with
        words := s.env.core.words.drop (sectorWords (s.cfg.fam f) 0x73 0), sector := sec } : Env) = s.env.core := by
      rw [← show s.env.core.sector = sec by simpa using hs]
      simp [sectorWords]
    rw [List.length_nil, hcore]
    exact .refl _ hq
  | cons d sectors ih =>
    intro s hb hq hbuf hr hcb hlen dest lba sec hd hs hne hw
    have hdlen := hlen d (.head _)
    rw [List.length_cons] at hw
    unfold sectorWords at hw
    rw [Nat.add_mul, Nat.one_mul] at hw
    obtain ⟨r1, s1, hr1, hd1, hsw1, hcb1⟩ := cartCommand_enough hb hq 0x49 lba 0 (by omega) (bs := [])
      (sec := s.env.core.sector) rfl (.inl rfl) (by simp [broughtBytes])
    have hb1 := hd1.owner rfl hb
    have hcfg1 := hd1.cfg
    obtain ⟨r2, s2, hr2, hd2, hsw2, hcb2⟩ := cartCommand_enough hb1 hd1.went.quiet 0x73 (s.cfg.fam f).cartBuf 1
      (by rw [hcfg1, hd1.went.env]; simp only [List.length_drop]; omega) (bs := d) (sec := sectors.flatten ++ sec)
      (by rw [hd1.went.env, hs]; simp) (.inr (by simp [hne])) (by rw [hcfg1, brought_sector hbuf]; exact hdlen)
    rw [hd1.went.env, hcfg1, hsw1] at hd2
    rw [hcfg1, hsw1] at hcb2
    have hd12 := hd1.trans hd2
    have hcfg2 := hd12.cfg
    have hcbd : s2.cb = s.cb.writeBytes 0 (placed (wraps (s.cfg.fam f) 0x73 || s.byteswap) d) := by
      rw [hcb2, hcb1]
      simp only [bufferAfter, BEq.rfl, if_true, readOffset_self, placed]
      rfl
    have hr2' := hr.of_same hd12.went.same rfl
    have hd2' := bufferFits_head hd
    rw [← hcfg2] at hd2'
    obtain ⟨s3, hr3, hw3, hh3, hram3, hcb3, hv3⟩ := moveToRam_quiet (hd12.owner rfl hb) hd12.went.quiet hr2' hd2'
    have hacc := (hd12.went.mono (G := .offload) rfl).trans (hw3.mono (G := .offload) rfl)
    rw [hd12.went.env] at hacc
    have hcfg3 := hacc.cfg
    have hsw3 : s3.byteswap = s.byteswap := (hw3.same.swap rfl).trans (hsw2.trans hsw1)
    obtain ⟨t, hrt, hwt, hct, htt, hramt, hcbt, hswt, hin, hout⟩ := ih ((hacc.same.owner rfl).trans hb) hacc.quiet
      (by rw [hcfg3]; exact hbuf) hram3 (by rw [hcb3, hcbd]; exact Memory.wf_writeBytes _ hcb 0)
      (fun x hx => hlen x (.tail _ hx)) (dest := dest + sector) (lba := lba + 1) (sec := sec)
      (by rw [hcfg3]; exact bufferFits_tail hd) (by rw [hacc.env]) hne
      (by rw [hcfg3, hacc.env]; simp only [List.length_drop]; unfold sectorWords; omega)
    rw [hcfg3, hacc.env, hsw3] at *
    refine ⟨t, ?_, ?_, ?_, ?_, hramt, hcbt, hswt, ?_⟩
    · simp only [List.length_cons, offloadReadLoop, bind_ok hr1, bind_ok hr2, bind_ok hr3, hrt]
    · have := hacc.trans hwt
      simp only [List.drop_drop] at this
      rw [List.length_cons]
      have hn : sectorWords (s.cfg.fam f) 0x73 (sectors.length + 1) =
          commandWords (s.cfg.fam f) 0x49 + (commandWords (s.cfg.fam f) 0x73 +
            sectorWords (s.cfg.fam f) 0x73 sectors.length) := by
        unfold sectorWords; rw [Nat.add_mul, Nat.one_mul]; omega
      rw [hn]
      simpa [Nat.add_assoc] using this
    · have h3 : commands s3.hist = commands s2.hist := by
        rw [hh3]
        simp [Event.cartCommand]
      rw [hct, h3, hd12.issued, List.length_cons, sectorCommands]
      simp only [List.append_assoc]
    · have h3 : traffic s3.hist = traffic s2.hist ++ [.fromCart (dmaWindow s.cfg dest)] := by
        rw [hh3, hcfg2]
        simp [Event.traffic]
      rw [htt, h3, hd12.moved, List.length_cons, readTraffic]
      simp only [commandTraffic, List.map_append, List.append_assoc, List.cons_append, List.nil_append]
    · have hread : ∀ j < sector, s2.cb.read j =
          (placed (wraps (s.cfg.fam f) 0x73 || s.byteswap) d).getD j blankByte := fun j hj => by
        have := Memory.read_writeBytes_inside (placed (wraps (s.cfg.fam f) 0x73 || s.byteswap) d) hcb 0 (j := j)
          (by rw [length_placed, hdlen]; exact hj)
        rw [hcbd]
        simpa using this
      have hview : ∀ x, s2.hostByte x = s.hostByte x := hostByte_same hd12.went.same rfl
      rw [List.flatMap_cons]
      exact ReadInto.cons (s := s) (t := s3) (c := s2.cb.read) (c' := fun b => s2.cb.read (b - s2.cfg.stageAddr))
        (by rw [length_placed]; exact hdlen) hread (fun x => by rw [hv3, hview, hcfg2])
        ((bufferFits_all hd).imp id fun h j hj => h j (by rw [List.length_cons, Nat.mul_add]; omega)) ⟨hin, hout⟩

/-- The write loop of an offloaded family (R178): each sector stands in the cartridge's buffer when its command is
issued, the last one at the end. -/
theorem offloadWriteLoop_quiet (n : Nat) : ∀ {s : State} (_ : s.busOwner = .cart f) (_ : Quiet s f)
    (_ : Ram s) (_ : s.cb.wf = true) {src : Nat} {lba : Word} (_ : bufferFits s.cfg.stageAddr src n)
    (_ : sectorWords (s.cfg.fam f) 0x53 n < s.env.core.words.length),
    ∃ t, offloadWriteLoop (s.cfg.fam f).cartBuf n lba src s = .ok () t ∧
      Went f .offload { s.env.core with
        words := s.env.core.words.drop (sectorWords (s.cfg.fam f) 0x53 n) } [] s t ∧
      commands t.hist = commands s.hist ++ sectorCommands (s.cfg.fam f) s.byteswap 0x53 n lba ∧
      traffic t.hist = traffic s.hist ++ writeTraffic s.cfg f s.byteswap n lba src ∧
      t.byteswap = s.byteswap ∧ ReadFrom s.cfg.stageAddr src s t ∧
      (0 < n → t.cb.readBytes 0 sector = s.hostBytes (src + sector * (n - 1)) sector) := by
  induction n with
  | zero =>
    intro s hb hq hr hcb src lba _ _
    refine ⟨s, rfl, ?_, by simp [sectorCommands], by simp [writeTraffic], rfl, fun b _ => rfl, fun h => absurd h (Nat.lt_irrefl 0)⟩
    have hcore : ({ s.env.core with words := s.env.core.words.drop (sectorWords (s.cfg.fam f) 0x53 0) } : Env) =
        s.env.core := by simp [sectorWords]
    rw [hcore]
    exact .refl _ hq
  | succ n ih =>
    intro s hb hq hr hcb src lba hd hw
    unfold sectorWords at hw
    rw [Nat.add_mul, Nat.one_mul] at hw
    obtain ⟨s1, hr1, hw1, hh1, hram1, hcb1, hv1⟩ := moveFromRam_quiet hb hq hr (bufferFits_head hd)
    have hb1 := (hw1.same.owner rfl).trans hb
    have hcfg1 := hw1.cfg
    have hread : s1.cb.readBytes 0 sector = s.hostBytes src sector := by
      have hlen : (s.hostBytes src sector).length = sector := by simp [State.hostBytes]
      have := Memory.readBytes_writeBytes hcb 0 (s.hostBytes src sector)
      rw [hlen] at this
      rw [hcb1, this]
    obtain ⟨r2, s2, hr2, hd2, hsw2, hcb2⟩ := cartCommand_enough hb1 hw1.quiet 0x49 lba 0
      (by rw [hcfg1, hw1.env]; omega) (bs := []) (sec := s1.env.core.sector) rfl (.inl rfl) (by simp [broughtBytes])
    have hb2 := hd2.owner rfl hb1
    obtain ⟨r3, s3, hr3, hd3, hsw3, hcb3⟩ := cartCommand_enough hb2 hd2.went.quiet 0x53 (s.cfg.fam f).cartBuf 1
      (by rw [hd2.cfg, hcfg1, hd2.went.env, hw1.env, hcfg1]; simp only [List.length_drop]; omega) (bs := [])
      (sec := s2.env.core.sector) rfl (.inl rfl) (by simp [broughtBytes])
    have hd23 := hd2.trans hd3
    have hswap1 : s1.byteswap = s.byteswap := hw1.same.swap rfl
    have hcb13 : s3.cb = s1.cb := by
      rw [hcb3, hcb2]
      simp [bufferAfter]
    have hacc : Went f .offload { s.env.core with
        words := (s.env.core.words.drop (commandWords (s.cfg.fam f) 0x49)).drop (commandWords (s.cfg.fam f) 0x53) } []
        s s3 := by
      have := (hw1.mono (G := .offload) rfl).trans (hd23.went.mono (G := .offload) rfl)
      rw [hd2.cfg, hd2.went.env, hw1.env, hcfg1] at this
      exact this
    have hcfg3 := hacc.cfg
    have hswt3 : s3.byteswap = s.byteswap := hsw3.trans (hsw2.trans hswap1)
    have hview3 : ∀ x, s3.hostByte x = s1.hostByte x := hostByte_same hd23.went.same rfl
    have hsame : ∀ x, (direct src = true ∨ x < s.cfg.stageAddr ∨ s.cfg.stageAddr + sector ≤ x) →
        s3.hostByte x = s.hostByte x := fun x hx => by
      rw [hview3, hv1, if_neg]
      rintro ⟨h1, h2, h3⟩
      rcases hx with h | h
      · rw [h] at h1; cases h1
      · omega
    obtain ⟨t, hrt, hwt, hct, htt, hswt, hout, hlast⟩ := ih ((hacc.same.owner rfl).trans hb) hacc.quiet
      (hram1.of_same hd23.went.same rfl) (by rw [hcb13, hcb1]; exact Memory.wf_writeBytes _ hcb 0)
      (src := src + sector) (lba := lba + 1) (by rw [hcfg3]; exact bufferFits_tail hd)
      (by rw [hcfg3, hacc.env]; simp only [List.length_drop]; unfold sectorWords; omega)
    rw [hcfg3, hacc.env, hswt3] at *
    refine ⟨t, ?_, ?_, ?_, ?_, hswt, ?_, fun _ => ?_⟩
    · simp only [offloadWriteLoop, bind_ok hr1, bind_ok hr2, bind_ok hr3, hrt]
    · have := hacc.trans hwt
      simp only [List.drop_drop] at this
      have hn : sectorWords (s.cfg.fam f) 0x53 (n + 1) =
          commandWords (s.cfg.fam f) 0x49 + (commandWords (s.cfg.fam f) 0x53 + sectorWords (s.cfg.fam f) 0x53 n) := by
        unfold sectorWords; rw [Nat.add_mul, Nat.one_mul]; omega
      rw [hn]
      simpa [Nat.add_assoc] using this
    · have h1 : commands s1.hist = commands s.hist := by
        rw [hh1]
        simp [Event.cartCommand]
      rw [hct, hd23.issued, h1, hd2.cfg, hcfg1, hsw2, hswap1, sectorCommands]
      simp only [List.append_assoc]
    · have h1 : traffic s1.hist = traffic s.hist ++ [.toCart (dmaWindow s.cfg src)] := by
        rw [hh1]
        simp [Event.traffic]
      rw [htt, hd23.moved, h1, hd2.cfg, hcfg1, hsw2, hswap1, writeTraffic]
      simp only [commandTraffic, List.map_append, List.append_assoc, List.cons_append, List.nil_append]
    · intro x hx
      rw [hout x (by rw [direct_next]; exact hx), hsame x hx]
    · by_cases hn : 0 < n
      · rw [hlast hn, show src + sector * (n + 1 - 1) = src + sector + sector * (n - 1) by
          obtain ⟨k, rfl⟩ := Nat.exists_eq_succ_of_ne_zero (Nat.pos_iff_ne_zero.mp hn)
          simp only [Nat.succ_eq_add_one, Nat.add_sub_cancel, Nat.mul_add]; omega]
        refine hostBytes_congr fun j hj => hsame _ ?_
        refine (bufferFits_all hd).imp id fun h => ?_
        have := h (sector + sector * (n - 1) + j) (by
          obtain ⟨k, rfl⟩ := Nat.exists_eq_succ_of_ne_zero (Nat.pos_iff_ne_zero.mp hn)
          simp only [Nat.succ_eq_add_one, Nat.add_sub_cancel, Nat.mul_add]; omega)
        rwa [show src + (sector + sector * (n - 1) + j) = src + sector + sector * (n - 1) + j by omega] at this
      · have hn0 : n = 0 := Nat.eq_zero_of_not_pos hn
        subst hn0
        have : t = s3 := by
          have : offloadWriteLoop (s.cfg.fam f).cartBuf 0 (lba + 1) (src + sector) s3 = .ok () s3 := rfl
          rw [this] at hrt
          cases hrt
          rfl
        rw [this, hcb13, hread]
        rfl

/-- A whole transfer of an offloaded family: the bracket, the swap around it, and a body of `n` sectors. -/
theorem offloadTransfer_quiet (h : Idle s f) {body : Op Unit} {code : Byte} {n : Nat} {lba : Word} {sec : List Byte}
    {T : List Traffic}
    (hw : transferWords (s.cfg.fam f) code n < s.env.core.words.length) {P : State → State → Prop}
    (hP : ∀ t u v, P t u → SameOn { Foot.cart with bus := true } u v → v.cb = u.cb → P t v)
    (hPs : ∀ t u, P t u → SameOn { Foot.cart with bus := true } s t → t.cb = s.cb → P s u)
    (hbody : ∀ t, SameOn { Foot.cart with bus := true } s t → t.cb = s.cb → t.busOwner = .cart f → Quiet t f →
        t.env.core.sector = s.env.core.sector → sectorWords (s.cfg.fam f) code n < t.env.core.words.length →
        t.byteswap = (wrapsTransfer (s.cfg.fam f) || s.byteswap) →
      ∃ u, body t = .ok () u ∧
        Went f .offload { t.env.core with words := t.env.core.words.drop (sectorWords (s.cfg.fam f) code n), sector := sec }
          [] t u ∧
        commands u.hist = commands t.hist ++
          sectorCommands (s.cfg.fam f) (wrapsTransfer (s.cfg.fam f) || s.byteswap) code n lba ∧
        traffic u.hist = traffic t.hist ++ T ∧ u.byteswap = t.byteswap ∧ P t u) :
    ∃ t, bracketed abortTransfer (swapTransfer body) s = .ok () t ∧
      Went f { Foot.offload with bus := true } { s.env.core with
        words := s.env.core.words.drop (transferWords (s.cfg.fam f) code n), sector := sec } [] s t ∧
      Restored s t ∧ t.sess = s.sess ∧ t.byteswap = s.byteswap ∧
      commands t.hist = commands s.hist ++ transferCommands (s.cfg.fam f) s.byteswap code n lba ∧
      traffic t.hist = traffic s.hist ++ transferTraffic (s.cfg.fam f) s.byteswap T ∧ P s t := by
  unfold transferWords at *
  generalize hk : aroundWords (s.cfg.fam f) (wrapsTransfer (s.cfg.fam f)) = k at hw ⊢
  generalize hm : sectorWords (s.cfg.fam f) code n = m at hw hbody ⊢
  have inner : ∀ t, Acquired f s t → Went f .bracket s.env.core [] s t →
      ∃ v, swapTransfer body t = .ok () v ∧
        Went f .offload { s.env.core with words := s.env.core.words.drop (k + m + k), sector := sec } [] t v ∧
        v.byteswap = s.byteswap ∧ P s v ∧ v.sess = s.sess ∧
        commands v.hist = commands s.hist ++ transferCommands (s.cfg.fam f) s.byteswap code n lba ∧
        traffic v.hist = traffic s.hist ++ transferTraffic (s.cfg.fam f) s.byteswap T := fun t ht htw => by
    have hcfg := htw.cfg
    have hsw : t.byteswap = s.byteswap := htw.same.swap rfl
    have hwords : t.env.core.words = s.env.core.words := by rw [htw.env]
    have start : ∀ w, SameOn .cart t w → w.env.core = { t.env.core with words := s.env.core.words.drop k } →
        Quiet w f → w.byteswap = (wrapsTransfer (t.cfg.fam f) || t.byteswap) → w.cb = t.cb →
        SameOn { Foot.cart with bus := true } s w ∧ w.cb = s.cb ∧ ∃ u, body w = .ok () u ∧
          Went f .offload { s.env.core with words := s.env.core.words.drop (k + m), sector := sec } [] w u ∧
          commands u.hist = commands w.hist ++
            sectorCommands (s.cfg.fam f) (wrapsTransfer (s.cfg.fam f) || s.byteswap) code n lba ∧
          traffic u.hist = traffic w.hist ++ T ∧ u.byteswap = w.byteswap ∧ P w u := fun w hw1 hwe hwq hwsw hwcb => by
      have hsame : SameOn { Foot.cart with bus := true } s w := (htw.same.mono rfl).trans (hw1.mono rfl)
      have hcbw : w.cb = s.cb := hwcb.trans (htw.same.buffer rfl)
      rw [hcfg, hsw] at hwsw
      obtain ⟨u, hr, hu, hc, hT, hs, hp⟩ := hbody w hsame hcbw ((hw1.owner rfl).trans ht.owner) hwq
        (by rw [hwe, htw.env]) (by rw [hwe]; simp only [List.length_drop]; omega) hwsw
      refine ⟨hsame, hcbw, u, hr, ?_, hc, hT, hs, hp⟩
      rw [hwe, htw.env] at hu
      simpa [List.drop_drop] using hu
    obtain ⟨w, u, v, hw1, hwcb, hPv, hrun, hvsw, hv, hbw, hvcb, hwe, hwq, hwsw, hcom, htra⟩ := swapTransfer_quiet (f := f) (s := t)
      (body := body) (xs := s.env.core.words.take k) (mid := s.env.core.words.drop k)
      (ys := (s.env.core.words.drop (k + m)).take k) (ws := s.env.core.words.drop (k + m + k))
      (e := { s.env.core with words := s.env.core.words.drop (k + m), sector := sec }) (out := [])
      (P := P) (F := .offload) rfl rfl ht.owner htw.quiet
      (by rw [hcfg, hk]; simp; omega) (by rw [hcfg, hk]; simp; omega) (by rw [hwords]; simp)
      (fun _ _ hnil => by have := List.drop_eq_nil_iff.mp hnil; omega)
      (fun _ _ hnil => by have := List.drop_eq_nil_iff.mp hnil; omega)
      (fun t u v hp _ hs hc => hP t u v hp (hs.mono rfl) hc)
      fun w h1 h2 h3 h4 h5 => by
        obtain ⟨-, -, u, hr, hu, -, -, hs, hp⟩ := start w h1 h2 h3 h4 h5
        refine ⟨u, hr, hu, ?_, hs, hp⟩
        rw [hu.env]
        simp only [← List.drop_drop, List.take_append_drop]
    obtain ⟨hsame, hcbw, u', hr', hu', hc', hT', hs', hp'⟩ := start w hw1 hwe hwq hwsw hwcb
    rw [hbw] at hr'
    cases hr'
    refine ⟨v, hrun, hv, hvsw.trans hsw, hPs w v hPv hsame hcbw, ?_, ?_, ?_⟩
    · exact (hv.same.session_eq rfl rfl).trans (htw.same.session_eq rfl rfl)
    · rw [hcom _ hc', ht.hist, commands_cfgEvents, hcfg, hsw]
      rfl
    · rw [htra _ hT', ht.hist, traffic_cfgEvents, hcfg, hsw]
  obtain ⟨t, u, v, ht, hrun, hv, hres, hall, hwu, hww⟩ := bracketed_quiet (clean := abortTransfer) (a := ())
    (F := .offload) (G := { Foot.offload with bus := true }) h.cart h.bus h.quiet rfl rfl rfl fun t ht htw => by
      obtain ⟨u, hr, hu, -⟩ := inner t ht htw
      exact ⟨u, hr, hu⟩
  obtain ⟨u', hrun', -, hsw, hp, hss, hc, hT⟩ := inner t ht (ht.quiet h.quiet)
  rw [hrun] at hrun'
  cases hrun'
  refine ⟨v, hall, hww, hres, (hv.same.session_eq rfl rfl).trans hss, (hv.same.swap rfl).trans hsw, ?_, ?_,
    hP s u v hp (hv.same.mono rfl) (hv.same.buffer rfl)⟩
  · rw [hv.hist, commands_cfgEvents, hc]
  · rw [hv.hist, traffic_cfgEvents, hT]

/-- `card_read` on a family whose cartridge does the framing (R178). -/
theorem cardRead_offload (h : Idle s f) (hready : s.sess.ready = true) (ho : (s.cfg.fam f).offload = true)
    {dest lba count : Word} (hop : operandRefusal s.cfg dest lba count = none) (hbuf : sector ≤ (s.cfg.fam f).cartBufLen)
    (hr : Ram s) (hcb : s.cb.wf = true) {sectors : List (List Byte)} {sec : List Byte}
    (hlen : sectors.length = count.toNat) (hall : ∀ d ∈ sectors, d.length = sector)
    (hs : s.env.core.sector = sectors.flatten ++ sec) (hne : sec ≠ [])
    (hw : transferWords (s.cfg.fam f) 0x73 count.toNat < s.env.core.words.length) :
    ∃ t, cardRead dest lba count s = .ok () t ∧
      Went f { Foot.offload with bus := true } { s.env.core with
        words := s.env.core.words.drop (transferWords (s.cfg.fam f) 0x73 count.toNat), sector := sec } [] s t ∧
      Restored s t ∧ t.sess = s.sess ∧ t.byteswap = s.byteswap ∧
      commands t.hist = commands s.hist ++ transferCommands (s.cfg.fam f) s.byteswap 0x73 count.toNat lba ∧
      traffic t.hist = traffic s.hist ++ transferTraffic (s.cfg.fam f) s.byteswap
        (readTraffic s.cfg f (wrapsTransfer (s.cfg.fam f) || s.byteswap) count.toNat lba dest.toNat) ∧
      ReadInto s.cfg.stageAddr dest.toNat
        (sectors.flatMap (placed (wraps (s.cfg.fam f) 0x73 || (wrapsTransfer (s.cfg.fam f) || s.byteswap)))) s t := by
  obtain ⟨-, -, -, hfits⟩ := noRefusal hop
  rw [cardRead, transfer_offload h hready ho hop]
  refine offloadTransfer_quiet h hw (P := fun a t => ReadInto s.cfg.stageAddr dest.toNat
      (sectors.flatMap (placed (wraps (s.cfg.fam f) 0x73 || (wrapsTransfer (s.cfg.fam f) || s.byteswap)))) a t)
    (fun t u v hp hs _ => ReadInto.of_same hp hs rfl)
    (fun t u hp hs _ => ⟨hp.1, fun x h1 h2 => (hp.2 x h1 h2).trans (hostByte_same hs rfl x)⟩)
    fun t hst hcbt hb hq hsec hwords hsw => ?_
  have hcfg := hst.cfg
  have := offloadReadLoop_quiet sectors hb hq (by rw [hcfg]; exact hbuf) (hr.of_same hst rfl) (by rw [hcbt]; exact hcb) hall
    (dest := dest.toNat) (lba := lba) (sec := sec) (by rw [hcfg, hlen]; exact hfits) (by rw [hsec]; exact hs) hne
    (by rw [hcfg, hlen]; exact hwords)
  rw [hcfg, hlen, hsw] at this
  obtain ⟨u, hru, hu, hc, hT, -, -, hswu, hin⟩ := this
  exact ⟨u, hru, hu, hc, hT, hswu.trans hsw.symm, hin⟩

/-- `card_write` on a family whose cartridge does the framing (R178). -/
theorem cardWrite_offload (h : Idle s f) (hready : s.sess.ready = true) (ho : (s.cfg.fam f).offload = true)
    {src lba count : Word} (hop : operandRefusal s.cfg src lba count = none) (hr : Ram s) (hcb : s.cb.wf = true)
    (hw : transferWords (s.cfg.fam f) 0x53 count.toNat < s.env.core.words.length) :
    ∃ t, cardWrite src lba count s = .ok () t ∧
      Went f { Foot.offload with bus := true } { s.env.core with
        words := s.env.core.words.drop (transferWords (s.cfg.fam f) 0x53 count.toNat) } [] s t ∧
      Restored s t ∧ t.sess = s.sess ∧ t.byteswap = s.byteswap ∧
      commands t.hist = commands s.hist ++ transferCommands (s.cfg.fam f) s.byteswap 0x53 count.toNat lba ∧
      traffic t.hist = traffic s.hist ++ transferTraffic (s.cfg.fam f) s.byteswap
        (writeTraffic s.cfg f (wrapsTransfer (s.cfg.fam f) || s.byteswap) count.toNat lba src.toNat) ∧
      ReadFrom s.cfg.stageAddr src.toNat s t ∧
      t.cb.readBytes 0 sector = s.hostBytes (src.toNat + sector * (count.toNat - 1)) sector := by
  obtain ⟨hpos, -, -, hfits⟩ := noRefusal hop
  rw [cardWrite, transfer_offload h hready ho hop]
  have := offloadTransfer_quiet h (body := offloadWriteLoop (s.cfg.fam f).cartBuf count.toNat lba src.toNat) (lba := lba) hw
    (sec := s.env.core.sector)
    (T := writeTraffic s.cfg f (wrapsTransfer (s.cfg.fam f) || s.byteswap) count.toNat lba src.toNat)
    (P := fun a t => ReadFrom s.cfg.stageAddr src.toNat a t ∧
      t.cb.readBytes 0 sector = a.hostBytes (src.toNat + sector * (count.toNat - 1)) sector)
    (fun t u v hp hs hc => ⟨ReadFrom.of_same hp.1 hs rfl, by rw [hc]; exact hp.2⟩)
    (fun t u hp hs _ => ⟨fun x hx => (hp.1 x hx).trans (hostByte_same hs rfl x),
      hp.2.trans (hostBytes_congr fun j _ => hostByte_same hs rfl _)⟩)
    fun t hst hcbt hb hq hsec hwords hsw => by
      have hcfg := hst.cfg
      have := offloadWriteLoop_quiet count.toNat hb hq (hr.of_same hst rfl) (by rw [hcbt]; exact hcb)
        (src := src.toNat) (lba := lba) (by rw [hcfg]; exact hfits) (by rw [hcfg]; exact hwords)
      rw [hcfg, hsw] at this
      obtain ⟨u, hru, hu, hc, hT, hswu, hout, hlast⟩ := this
      refine ⟨u, hru, ?_, hc, hT, hswu.trans hsw.symm, hout, hlast (Nat.pos_of_ne_zero hpos)⟩
      rw [← hsec]
      exact hu
  exact this

end Sys2Proof.Machine
end

