-- ==== Sys2Proof/Laws/Transport.lean ====
section
/-! SUPPORT. The transport contract's `init` and `exit`, the byte-swap toggle, the stop of a stream and the probe, in an
environment that answers at once (44_transport_handlers.md R188, R189, R198; 45_autodetect_dispatch.md R210). -/

namespace Sys2Proof.Machine

variable {α : Type} {f : Family} {F G : Foot} {s t u : State} {e e' : Env} {W W' : List (Word × Word)}
  {C C' : List (Byte × Word × Word)} {l : List Bool} {m : List Nibble} {out : List Sent}

/-- The data lanes on the SPI flavour (R126, U9). -/
theorem datPort_spi (hb : s.busOwner = .cart f) (ho : (s.cfg.fam f).offload = false) (hw : (s.cfg.fam f).wire = .spi) :
    datPort s = .error (.refuse .spiDataPath) s := by
  have hp : sdPort s = .ok (s.cfg.fam f) s := by simp [sdPort, bind_ok (famParams_run hb), ho]
  simp [datPort, bind_ok hp, hw]

/-- The stop of an open stream on the SPI flavour is refused, whatever the environment answers (R126, U9). -/
theorem cardStop_spi (hc : s.cartType = some f) (hb : s.busOwner = .native) (hm : s.sess.mode ≠ .none)
    (ho : (s.cfg.fam f).offload = false) (hw : (s.cfg.fam f).wire = .spi) :
    ∃ t, cardStop s = .error (.refuse .spiDataPath) t := by
  obtain ⟨t, hr, ha⟩ := acquireFor_run f hb
  have hacq : acquireBus s = .ok () t := by simp [acquireBus, hc, hr]
  have hd : datPort t = .error (.refuse .spiDataPath) t :=
    datPort_spi ha.owner (by rw [ha.same.cfg]; exact ho) (by rw [ha.same.cfg]; exact hw)
  refine ⟨t, ?_⟩
  simp only [cardStop, get'_bind, onlyIf_true (show (s.sess.mode != .none) = true by simpa using hm), bracketed,
    bind_ok hacq]
  exact bind_error (attempt_refuse (bind_error hd))

/-- A bracket around a body: what the body did, and the native timing back (R179). -/
theorem bracketed_drove {clean : Op Unit} {body : Op α} {a : α} (hc : s.cartType = some f) (hb : s.busOwner = .native)
    (hq : Quiet s f) (hF : F.bus = false) (hbF : Foot.bracket.le G = true) (hFG : F.le G = true) {P : State → State → Prop}
    (hP : ∀ t u v, P t u → SameOn .bracket s t → SameOn .bracket u v → P s v)
    (hbody : ∀ t, t.busOwner = .cart f → SameOn .bracket s t → Went f .bracket s.env.core [] s t →
      ∃ u, body t = .ok a u ∧ Drove f F e W C t u ∧ P t u) :
    ∃ v, bracketed clean body s = .ok a v ∧ Drove f G e W C s v ∧ Restored s v ∧ P s v := by
  obtain ⟨t, u, v, ht, hrun, hv, hres, hall, -, hww⟩ := bracketed_quiet (clean := clean) hc hb hq hF hbF hFG
    fun t ht htw => by
      obtain ⟨u, hr, hd, -⟩ := hbody t ht.owner ht.same htw
      exact ⟨u, hr, hd.went⟩
  obtain ⟨u', hr', hd, hp⟩ := hbody t ht.owner ht.same (ht.quiet hq)
  rw [hrun] at hr'
  cases hr'
  refine ⟨v, hall, ⟨hww, ?_, ?_, ?_⟩, hres, hP t u v hp ht.same hv.same⟩
  · rw [hv.hist, writes_cfgEvents, hd.wrote, ht.hist, writes_cfgEvents]
  · rw [hv.hist, commands_cfgEvents, hd.issued, ht.hist, commands_cfgEvents]
  · rw [hv.hist, traffic_cfgEvents, hd.moved, ht.hist, traffic_cfgEvents]

/-- Recording whether `init` has succeeded changes that alone. -/
theorem setInitDone_quiet (hq : Quiet s f) (v : Bool) : setInitDone v s = .ok () { s with initDone := s.noted v } ∧
    Went f { init := true } s.env.core [] s { s with initDone := s.noted v } :=
  ⟨rfl, .of_same hq ((touches_setInitDone v).of_ok rfl) rfl rfl⟩

/-- What the record would be does not change where the record does not. -/
theorem noted_same (h : SameOn F s t) (hF : F.init = false) (v : Bool) : t.noted v = s.noted v := by
  simp only [State.noted, h.cfg, h.init hF]

/-- The session put down (R188, R189). -/
theorem putDown_quiet (hq : Quiet s f) : ∃ t, putDown s = .ok () t ∧
    Went f { Foot.setting with init := true } s.env.core [] s t ∧
    t.sess = { s.sess with ready := false, mode := .none } ∧ t.initDone = s.noted false ∧ t.hist = s.hist ∧
    t.busOwner = s.busOwner ∧ t.byteswap = s.byteswap ∧ t.cb = s.cb := by
  have h := Went.setting (g := fun ss => { ss with ready := false, mode := .none }) hq
  exact ⟨_, rfl, (h.mono (G := { Foot.setting with init := true }) rfl).andThen
    ((setInitDone_quiet h.quiet false).2.mono rfl), rfl, rfl, rfl, rfl, rfl, rfl⟩

/-! ### Key writes, identifier, settings -/

theorem keyWrites_drove (hb : s.busOwner = .cart f) (hq : Quiet s f) (ks : List Word) :
    ∃ t, forEach (fun k => regWrite .key k) ks s = .ok () t ∧
      Drove f .access s.env.core (ks.map fun k => (regAddr s.cfg f .key, k)) [] s t := by
  induction ks generalizing s with
  | nil => exact ⟨s, rfl, .refl _ hq⟩
  | cons k ks ih =>
    obtain ⟨t, hr, hd⟩ := regWrite_drove hb hq .key k
    obtain ⟨u, hr', hd'⟩ := ih (hd.owner rfl hb) hd.went.quiet
    refine ⟨u, by rw [forEach_cons_ok hr, hr'], ?_⟩
    have := hd.trans hd'
    rw [hd.went.env, hd.cfg] at this
    exact this

/-- `match(f)`: the key sequence, then the identifier (R212). -/
theorem matchFamily_quiet (hb : s.busOwner = .cart f) (hq : Quiet s f) {id : Word} {ids : List Word}
    (hi : s.env.core.ident = id :: ids) (hne : ids ≠ []) :
    ∃ t, matchFamily f s = .ok (identifierMatches s.cfg f id) t ∧
      Drove f .access { s.env.core with ident := ids } (keyWrites s.cfg f) [] s t := by
  obtain ⟨t, hr, hd⟩ := keyWrites_drove hb hq (s.cfg.fam f).keySeq
  have hbt := hd.owner rfl hb
  have hti : t.env.ident = id :: ids := by
    have := hd.went.env
    rw [show t.env.ident = t.env.core.ident from rfl, this, hi]
  have hn : nextRegValue .id t = .ok id { t with env := { t.env with ident := ids } } :=
    draw_head (put := fun l e => { e with ident := l }) (free := Config.freeWord) hti hne
  have hrun := regRead_run hbt hd.went.quiet.regs hn
  refine ⟨_, ?_, ⟨⟨hd.went.same.trans ((touches_regRead .id).of_ok hrun), ?_, ?_, ?_⟩, ?_, ?_, ?_⟩⟩
  · simp only [matchFamily, get'_bind, bind_ok hr, bind_ok hrun, pure_run]
  · have := congrArg (fun e : Env => { e with ident := ids }) hd.went.env
    simpa [Env.core] using this
  · exact (sent_cons_other _ rfl).trans hd.went.sent
  · exact hd.went.quiet
  · exact (writes_cons _ _).trans (by simpa [Event.written, keyWrites] using hd.wrote)
  · exact (commands_cons _ _).trans (by simpa [Event.cartCommand] using hd.issued)
  · exact (traffic_cons _ _).trans (by simpa [Event.traffic] using hd.moved)

/-- The settings `init` sends (R197). -/
theorem sendSettings_drove (kvs : List (Word × Word)) : ∀ {s : State} (_ : s.busOwner = .cart f) (_ : Quiet s f)
    (_ : kvs.length * commandWords (s.cfg.fam f) 0x43 < s.env.core.words.length),
    ∃ t, sendSettings kvs s = .ok () t ∧
      Drove f .cart { s.env.core with words := s.env.core.words.drop (kvs.length * commandWords (s.cfg.fam f) 0x43) }
        (settingsWrites s.cfg f s.byteswap kvs) (settingsCommands (s.cfg.fam f) s.byteswap kvs) s t ∧
      t.byteswap = s.byteswap ∧ t.cb = s.cb := by
  induction kvs with
  | nil =>
    intro s hb hq _
    exact ⟨s, rfl, by simpa [settingsWrites, settingsCommands] using Drove.refl .cart hq, rfl, rfl⟩
  | cons kv kvs ih =>
    intro s hb hq hw
    rw [List.length_cons, Nat.add_mul, Nat.one_mul] at hw
    obtain ⟨r, t, hr, hd, hsw, hcb⟩ := cartCommand_enough hb hq 0x43 kv.1 kv.2 (by omega) (bs := [])
      (sec := s.env.core.sector) rfl (.inl rfl) (by simp [broughtBytes])
    have hcfg := hd.cfg
    obtain ⟨u, hr', hd', hsw', hcb'⟩ := ih (hd.owner rfl hb) hd.went.quiet
      (by rw [hcfg, hd.went.env]; simp only [List.length_drop]; omega)
    refine ⟨u, ?_, ?_, hsw'.trans hsw, hcb'.trans (by simpa [bufferAfter] using hcb)⟩
    · simp only [sendSettings, forEach]
      rw [bind_ok (show (do
        let _ ← cartCommand 0x43 kv.1 kv.2
        (pure () : Op Unit)) s = .ok () t by simp only [bind_ok hr, pure_run])]
      exact hr'
    · have := hd.trans hd'
      rw [hd.went.env, hcfg, hsw] at this
      simp only [List.drop_drop] at this
      rw [List.length_cons, Nat.add_mul, Nat.one_mul, Nat.add_comm]
      simpa [settingsWrites, settingsCommands] using this

/-- `reset_port` of a bit-level family: the reset bit, then the session's settings (R199). -/
theorem resetPort_drove (hb : s.busOwner = .cart f) (hq : Quiet s f) (ho : (s.cfg.fam f).offload = false) :
    ∃ t, resetPort s = .ok () t ∧ Drove f .access s.env.core (resetWrites s.cfg f s.sess) [] s t := by
  obtain ⟨t, hr, hd⟩ := regWrite_drove hb hq .sdCfg
    (sdCfgWord (s.cfg.fam f) s.sess.busWidth s.sess.speed .b8 ||| (s.cfg.fam f).resetBits)
  obtain ⟨u, hr', hd'⟩ := regWrite_drove (hd.owner rfl hb) hd.went.quiet .sdCfg
    (sdCfgWord (s.cfg.fam f) s.sess.busWidth s.sess.speed .b8)
  refine ⟨u, ?_, ?_⟩
  · simp only [resetPort, bind_ok (famParams_run hb), get'_bind, ho, Bool.false_eq_true, if_false,
      bind_ok (bestEffort_ok hr), bestEffort_ok hr']
  · have := hd.trans hd'
    rw [hd.went.env, hd.cfg] at this
    exact this

/-! ### `init`, `exit`, the byte swap -/

/-- `init` (R188). -/
theorem initOp_quiet (h : Idle s f) {id : Word} {ids : List Word} (hi : s.env.core.ident = id :: ids) (hne : ids ≠ [])
    (hid : identifierMatches s.cfg f id = true)
    (hw : (s.cfg.fam f).cfgInit.length * commandWords (s.cfg.fam f) 0x43 < s.env.core.words.length) :
    ∃ t, initOp s = .ok (s.cfg.fam f).cartBufLen t ∧
      Drove f { Foot.cart with line := true, sess := true, init := true, bus := true } { s.env.core with
        ident := ids
        words := s.env.core.words.drop ((s.cfg.fam f).cfgInit.length * commandWords (s.cfg.fam f) 0x43) }
        (initWrites s.cfg f s.sess s.byteswap) (settingsCommands (s.cfg.fam f) s.byteswap (s.cfg.fam f).cfgInit) s t ∧
      Restored s t ∧ t.sess = { s.sess with ready := false, mode := .none } ∧ t.byteswap = s.byteswap ∧ t.cb = s.cb ∧
      t.initDone = s.noted true := by
  obtain ⟨v, hall, hd, hres, hP⟩ := bracketed_drove (clean := pure ()) (body := initBody f) (a := ())
    (F := { Foot.cart with line := true, sess := true, init := true })
    (G := { Foot.cart with line := true, sess := true, init := true, bus := true })
    (P := fun t u => u.sess = { t.sess with ready := false, mode := .none } ∧ u.byteswap = t.byteswap ∧ u.cb = t.cb ∧
      u.initDone = t.noted true)
    (e := { s.env.core with
        ident := ids
        words := s.env.core.words.drop ((s.cfg.fam f).cfgInit.length * commandWords (s.cfg.fam f) 0x43) })
    (W := initWrites s.cfg f s.sess s.byteswap)
    (C := settingsCommands (s.cfg.fam f) s.byteswap (s.cfg.fam f).cfgInit) h.cart h.bus h.quiet rfl rfl rfl
    (fun t u v hp h1 h2 => by
      refine ⟨?_, (h2.swap rfl).trans (hp.2.1.trans (h1.swap rfl)),
        (h2.buffer rfl).trans (hp.2.2.1.trans (h1.buffer rfl)), ((h2.init rfl).trans hp.2.2.2).trans (noted_same h1 rfl _)⟩
      rw [h2.session_eq rfl rfl, hp.1, h1.session_eq rfl rfl])
    fun t hb hsame htw => by
      have hcfg := htw.cfg
      have hss : t.sess = s.sess := hsame.session_eq rfl rfl
      have hsw : t.byteswap = s.byteswap := hsame.swap rfl
      obtain ⟨w, hrw, h0, hssw, hdonew, hhw, hbw, hsww, hcbw⟩ := putDown_quiet htw.quiet
      have hcfgw : w.cfg = s.cfg := h0.cfg.trans hcfg
      have hset : Drove f { Foot.cart with line := true, sess := true, init := true } t.env.core [] [] t w :=
        .silent (h0.mono rfl) hhw
      obtain ⟨a, hra, hda⟩ := matchFamily_quiet (hbw.trans hb) h0.quiet (id := id) (ids := ids)
        (by rw [h0.env, htw.env]; exact hi) hne
      rw [h0.env, htw.env, hcfgw] at hda
      rw [hcfgw, hid] at hra
      have hcfga : a.cfg = s.cfg := hda.cfg.trans hcfgw
      have hba := hda.owner rfl (hbw.trans hb)
      have hssa : a.sess = { t.sess with ready := false, mode := .none } := (hda.went.same.session_eq rfl rfl).trans hssw
      have hreset : ∃ b, onlyIf (!(s.cfg.fam f).offload) resetPort a = .ok () b ∧
          Drove f .access { s.env.core with ident := ids }
            (if (s.cfg.fam f).offload then [] else resetWrites s.cfg f s.sess) [] a b := by
        by_cases ho : (s.cfg.fam f).offload = true
        · refine ⟨a, onlyIf_false (by simp [ho]) _, ?_⟩
          have := Drove.refl (s := a) (f := f) .access hda.went.quiet
          rw [hda.went.env] at this
          rwa [if_pos ho]
        · have ho' : (s.cfg.fam f).offload = false := by simpa using ho
          obtain ⟨b, hrb, hdb⟩ := resetPort_drove hba hda.went.quiet (by rw [hcfga]; exact ho')
          refine ⟨b, by rw [onlyIf_true (by simp [ho']), hrb], ?_⟩
          rw [hda.went.env, hcfga, show resetWrites s.cfg f a.sess = resetWrites s.cfg f s.sess by rw [hssa, hss]; rfl] at hdb
          rwa [if_neg ho]
      obtain ⟨b, hrb, hdb⟩ := hreset
      have hcfgb : b.cfg = s.cfg := hdb.cfg.trans hcfga
      have hwb : b.env.core.words = s.env.core.words := by rw [hdb.went.env]
      obtain ⟨c, hrc, hdc, hswc, hcbc⟩ := sendSettings_drove (s.cfg.fam f).cfgInit (hdb.owner rfl hba) hdb.went.quiet
        (by rw [hcfgb, hwb]; exact hw)
      have hswb : b.byteswap = s.byteswap := (hdb.went.same.swap rfl).trans
        ((hda.went.same.swap rfl).trans (hsww.trans hsw))
      rw [hcfgb, hdb.went.env, hswb] at hdc
      obtain ⟨hrd, hd0⟩ := setInitDone_quiet hdc.went.quiet true
      have hdd := Drove.silent hd0 rfl
      rw [hdc.went.env] at hdd
      refine ⟨{ c with initDone := c.noted true }, ?_, ?_, ?_, ?_, ?_, ?_⟩
      · simp only [initBody, bind_ok hrw, bind_ok hra, if_true, bind_ok (famParams_run hba), hcfga, bind_ok hrb,
          bind_ok hrc, hrd]
      · have := hset.trans ((hda.mono rfl).trans ((hdb.mono rfl).trans ((hdc.mono rfl).trans (hdd.mono rfl))))
        simpa only [initWrites, List.nil_append, List.append_nil, List.append_assoc] using this
      · show c.sess = _
        rw [hdc.went.same.session_eq rfl rfl, hdb.went.same.session_eq rfl rfl, hssa]
      · show c.byteswap = _
        rw [hswc, hswb, hsw]
      · exact hcbc.trans ((hdb.went.same.buffer rfl).trans ((hda.went.same.buffer rfl).trans hcbw))
      · have hdone : c.initDone = t.noted false := (hdc.went.same.init rfl).trans
          ((hdb.went.same.init rfl).trans ((hda.went.same.init rfl).trans hdonew))
        have hcfgc : c.cfg = t.cfg := (hdc.cfg.trans hcfgb).trans hcfg.symm
        show c.noted true = t.noted true
        simp only [State.noted, hdone, hcfgc]
        split <;> rfl
  refine ⟨v, ?_, hd, hres, hP⟩
  simp only [initOp]
  rw [dispatch_known h.probed h.cart]
  simp only [bind_ok hall, get'_run, hd.cfg]

/-- `card_stop` with a stream open (R167). -/
theorem cardStop_open (h : Idle s f) (ho : (s.cfg.fam f).offload = false) (hn : (s.cfg.fam f).wire = .sdNative)
    (hmode : s.sess.mode ≠ .none) {a : Answer} (ha : a.good s.cfg .sdNative false 12)
    (hl : s.env.core.cmdLine = a.wire ++ l) (hne : l ≠ []) {busy : List Nibble}
    (hb : BusyOnLanes (s.cfg.fam f) busy) (hd : s.env.core.datLine = busy ++ m) (hm : m ≠ []) :
    ∃ t, cardStop s = .ok () t ∧
      Went f { Foot.command with bus := true } { s.env.core with cmdLine := l, datLine := m } (commandSent s.cfg 12 0) s t ∧
      Restored s t ∧ t.sess = { s.sess with bitlen := .b8, mode := .none } := by
  have body : ∀ t, Acquired f s t → Went f .bracket s.env.core [] s t →
      ∃ u, stopStream t = .ok () u ∧
        Went f .command { s.env.core with cmdLine := l, datLine := m } (commandSent s.cfg 12 0) t u ∧
        u.sess = { s.sess with bitlen := .b8, mode := .none } := fun t ht htw => by
    have hcfg := htw.cfg
    have hlt : OnLanes t f := ⟨⟨ht.owner, by rw [hcfg]; exact ho, htw.quiet⟩, by rw [hcfg]; exact hn⟩
    obtain ⟨u, hr, hu, hs, -⟩ := stopStream_quiet hlt (a := a) (by rw [hcfg, hn]; exact ha) (l := l)
      (by rw [htw.env]; exact hl) hne (busy := busy) (d := m) (by rw [hcfg]; exact hb) (by rw [htw.env]; exact hd) hm
    rw [htw.env, hcfg] at hu
    exact ⟨u, hr, hu, by rw [hs, htw.same.session_eq rfl rfl]⟩
  obtain ⟨t, u, v, ht, hrun, hv, hres, hall, -, hww⟩ := bracketed_quiet (clean := pure ()) (F := .command)
    (G := { Foot.command with bus := true }) h.cart h.bus h.quiet rfl rfl rfl fun t ht htw => by
      obtain ⟨u, hr, hu, -⟩ := body t ht htw
      exact ⟨u, hr, hu⟩
  obtain ⟨u', hr', -, hs⟩ := body t ht (ht.quiet h.quiet)
  rw [hrun] at hr'
  cases hr'
  refine ⟨v, ?_, hww, hres, (hv.same.session_eq rfl rfl).trans hs⟩
  simp only [cardStop, get'_bind]
  rw [onlyIf_true (by simp [hmode]), hall]

/-- `card_stop` with no stream open (R167). -/
theorem cardStop_closed (hmode : s.sess.mode = .none) : cardStop s = .ok () s := by
  simp only [cardStop, get'_bind]
  rw [onlyIf_false (by simp [hmode])]

theorem Restored.trans (h : Restored s t) (k : Restored t u) : Restored s u := by
  have : captured t = captured s := by simp only [captured, h.saved, if_true, h.native]
  exact ⟨k.owner, k.saved, k.native.trans this, k.dom.trans this⟩

/-- `exit` with no stream open (R189). -/
theorem exitBracket_quiet (h : Idle s f) {xs ws : List Word}
    (hx : xs.length = if s.byteswap then swapWords (s.cfg.fam f) else 0) (hw : s.env.core.words = xs ++ ws)
    (hne : s.byteswap = true → (s.cfg.fam f).swapViaCfg = true → ws ≠ []) :
    ∃ t, bracketed putDown (exitBody f) s = .ok () t ∧
      Drove f { Foot.cart with line := true, sess := true, init := true, bus := true } { s.env.core with words := ws }
        (exitWrites s.cfg f s.byteswap) (if s.byteswap then swapCommands (s.cfg.fam f) false else []) s t ∧
      Restored s t ∧ t.sess = { s.sess with ready := false, mode := .none } ∧ t.byteswap = false ∧ t.cb = s.cb ∧
      t.initDone = s.noted false := by
  refine bracketed_drove (F := { Foot.cart with line := true, sess := true, init := true })
    (P := fun t u => u.sess = { t.sess with ready := false, mode := .none } ∧ u.byteswap = false ∧ u.cb = t.cb ∧
      u.initDone = t.noted false)
    h.cart h.bus h.quiet rfl rfl rfl
    (fun t u v hp h1 h2 => by
      refine ⟨?_, (h2.swap rfl).trans hp.2.1, (h2.buffer rfl).trans (hp.2.2.1.trans (h1.buffer rfl)),
        ((h2.init rfl).trans hp.2.2.2).trans (noted_same h1 rfl _)⟩
      rw [h2.session_eq rfl rfl, hp.1, h1.session_eq rfl rfl])
    fun t hb hsame htw => ?_
  have hcfg := htw.cfg
  have hsw : t.byteswap = s.byteswap := hsame.swap rfl
  have hswap : ∃ a, onlyIf t.byteswap (swapDrive false) t = .ok () a ∧
      Drove f .cart { s.env.core with words := ws } (if s.byteswap then swapWrites s.cfg f false else [])
        (if s.byteswap then swapCommands (s.cfg.fam f) false else []) t a ∧ a.byteswap = false ∧ a.cb = t.cb := by
    by_cases hon : s.byteswap = true
    · rw [if_pos hon] at hx
      obtain ⟨a, hr, hd, hs, hc⟩ := swapDrive_quiet hb htw.quiet false (xs := xs) (ws := ws) (by rw [hcfg]; exact hx)
        (by rw [htw.env]; exact hw) (by rw [hcfg]; exact hne hon)
      rw [htw.env, hcfg] at hd
      exact ⟨a, by rw [onlyIf_true (hsw.trans hon), hr], by rw [if_pos hon, if_pos hon]; exact hd, hs, hc⟩
    · have hoff : s.byteswap = false := by simpa using hon
      rw [if_neg hon] at hx
      have hxs : xs = [] := List.eq_nil_of_length_eq_zero hx
      subst hxs
      refine ⟨t, onlyIf_false (hsw.trans hoff) _, ?_, hsw.trans hoff, rfl⟩
      rw [if_neg hon, if_neg hon]
      have := Drove.refl (s := t) (f := f) .cart htw.quiet
      rw [htw.env, show s.env.core = { s.env.core with words := ws } by rw [← show s.env.core.words = ws from hw]] at this
      exact this
  obtain ⟨a, hra, hda, hsa, hca⟩ := hswap
  have hcfga : a.cfg = s.cfg := hda.cfg.trans hcfg
  obtain ⟨b, hrb, hdb⟩ := regWrite_drove (hda.owner rfl hb) hda.went.quiet .key (s.cfg.fam f).lockKey
  rw [hda.went.env, hcfga] at hdb
  obtain ⟨c, hrc, hset, hssc, hdone, hhc, -, hswc, hcbc⟩ := putDown_quiet hdb.went.quiet
  rw [hdb.went.env] at hset
  refine ⟨c, ?_, ?_, ?_, ?_, ?_, hdone.trans (noted_same
    ((hda.went.same.mono (G := { Foot.cart with line := true, sess := true }) rfl).trans (hdb.went.same.mono rfl)) rfl _)⟩
  · simp only [exitBody, get'_bind, bind_ok hra, hcfga, bind_ok hrb, hrc]
  · have := (hda.mono (G := { Foot.cart with line := true, sess := true, init := true }) rfl).trans
      ((hdb.mono rfl).trans (Drove.silent (hset.mono rfl) hhc))
    simpa only [exitWrites, List.append_nil] using this
  · rw [hssc, hdb.went.same.session_eq rfl rfl, hda.went.same.session_eq rfl rfl]
  · exact hswc.trans ((hdb.went.same.swap rfl).trans hsa)
  · exact hcbc.trans ((hdb.went.same.buffer rfl).trans hca)

/-- `set_byteswap` on a family that has the control (R198). -/
theorem setByteswap_quiet (h : Idle s f) (hs : (s.cfg.fam f).hasSwap = true) (on : Bool) {xs ws : List Word}
    (hx : xs.length = swapWords (s.cfg.fam f)) (hw : s.env.core.words = xs ++ ws)
    (hne : (s.cfg.fam f).swapViaCfg = true → ws ≠ []) :
    ∃ t, setByteswap on s = .ok () t ∧
      Drove f { Foot.cart with bus := true } { s.env.core with words := ws } (swapWrites s.cfg f on)
        (swapCommands (s.cfg.fam f) on) s t ∧
      Restored s t ∧ t.byteswap = on ∧ t.cb = s.cb := by
  refine bracketed_drove (F := .cart) (P := fun t u => u.byteswap = on ∧ u.cb = t.cb) h.cart h.bus h.quiet rfl rfl rfl
    (fun t u v hp h1 h2 => ⟨(h2.swap rfl).trans hp.1, (h2.buffer rfl).trans (hp.2.trans (h1.buffer rfl))⟩)
    fun t hb hsame htw => ?_
  have hcfg := htw.cfg
  obtain ⟨u, hr, hd, hsw, hcb⟩ := swapDrive_quiet hb htw.quiet on (xs := xs) (ws := ws) (by rw [hcfg]; exact hx)
    (by rw [htw.env]; exact hw) (by rw [hcfg]; exact hne)
  rw [htw.env, hcfg] at hd
  refine ⟨{ u with byteswap := on }, ?_, ⟨⟨?_, hd.went.env, hd.went.sent, hd.went.quiet⟩, hd.wrote, hd.issued, hd.moved⟩, rfl, hcb⟩
  · simp only [bind_ok (famParams_run hb), hcfg, hs, if_true, bind_ok (bestEffort_ok hr), upd_run]
  · exact hd.went.same.trans (by constructor <;> simp [Foot.cart])

/-! ### The probe -/

/-- One bracket of the probe: the answer to the identifier read decides (R210, R212). -/
theorem probeOne_quiet (hb : s.busOwner = .native) (hq : ∀ g, Quiet s g) {id : Word} {ids : List Word}
    (hi : s.env.core.ident = id :: ids) (hne : ids ≠ []) :
    ∃ t, probeOne f s = .ok (identifierMatches s.cfg f id) t ∧ Restored s t ∧ (∀ g, Quiet t g) ∧
      SameOn .bracket s t ∧ t.env.core = { s.env.core with ident := ids } ∧ sent t.hist = sent s.hist ∧
      writes t.hist = writes s.hist ++ keyWrites s.cfg f := by
  obtain ⟨t, hacq, ht⟩ := acquireFor_run f hb
  have htw := ht.quiet (hq f)
  obtain ⟨u, hr, hd⟩ := matchFamily_quiet ht.owner htw.quiet (id := id) (ids := ids) (by rw [htw.env]; exact hi) hne
  have hcfg := htw.cfg
  rw [htw.env, hcfg] at hd
  rw [hcfg] at hr
  obtain ⟨p, n, sv, ow⟩ := hd.went.same.bus rfl
  obtain ⟨v, hrel, hv⟩ := releaseBus_run (ow.trans ht.owner) (sv.trans ht.saved)
  have hvw := hv.quiet hd.went.quiet
  have hsame : SameOn .bracket s v := ht.same.trans ((hd.went.same.mono rfl).trans hv.same)
  have hcore : v.env.core = { s.env.core with ident := ids } := by rw [hvw.env, hd.went.env]
  have hrun : probeOne f s = .ok (identifierMatches s.cfg f id) v := by
    simp only [probeOne, bind_ok hacq, bind_ok (attempt_ok hr), bind_ok hrel, pure_run]
  refine ⟨v, hrun, ⟨hv.owner, hv.saved, ?_, ?_⟩, ?_, hsame, hcore, ?_, ?_⟩
  · rw [hv.native, n, ht.native]
  · rw [hv.dom, n, ht.native]
  · intro g
    have hst : v.env.status = s.env.status := (probeOne_status f).of_ok hrun
    have hg := hq g
    unfold Quiet QuietEnv at *
    rw [hsame.cfg, hst]
    exact ⟨⟨hvw.quiet.1.1, hg.1.2⟩, hg.2⟩
  · rw [hvw.sent, hd.went.sent, htw.sent]; simp
  · rw [hv.hist, writes_cfgEvents, hd.wrote, ht.hist, writes_cfgEvents]

/-- The loop of the probe: families that do not match, then one that does (R210). -/
theorem probeLoop_found (pre : List Family) : ∀ {s : State} {post : List Family} {i : Nat} {vals : List Word} {id : Word}
    {ids : List Word} (_ : s.busOwner = .native) (_ : ∀ g, Quiet s g) (_ : vals.length = pre.length)
    (_ : ∀ gv ∈ pre.zip vals, identifierMatches s.cfg gv.1 gv.2 = false) (_ : identifierMatches s.cfg f id = true)
    (_ : s.env.core.ident = vals ++ id :: ids) (_ : ids ≠ []),
    ∃ t, probeLoop (pre ++ f :: post) i s = .ok (some f) t ∧ Restored s t ∧
      SameOn { Foot.bracket with ident := true, seq := true } s t ∧ t.env.core = { s.env.core with ident := ids } ∧
      sent t.hist = sent s.hist ∧ writes t.hist = writes s.hist ++ (pre ++ [f]).flatMap (keyWrites s.cfg) ∧
      t.probed = true ∧ t.cartType = some f ∧ t.seq = { s.seq with probe := .bound f } := by
  induction pre with
  | nil =>
    intro s post i vals id ids hb hq hlen hno hyes hi hne
    obtain rfl : vals = [] := List.eq_nil_of_length_eq_zero hlen
    obtain ⟨t, hr, hres, -, hsame, henv, hsent, hwr⟩ := probeOne_quiet (f := f)
      (s := { s with seq := { s.seq with probe := .probing i } }) hb hq (id := id) (ids := ids) hi hne
    rw [show identifierMatches ({ s with seq := { s.seq with probe := .probing i } } : State).cfg f id = true from hyes]
      at hr
    refine ⟨{ t with cartType := some f, probed := true, seq := { t.seq with probe := .bound f } }, ?_, ?_, ?_, henv, hsent,
      ?_, rfl, rfl, ?_⟩
    · simp only [List.nil_append, probeLoop, setProbeSeq, upd_bind, bind_ok hr, if_true, pure_run]
    · exact ⟨hres.owner, hres.saved, hres.native, hres.dom⟩
    · have h1 : SameOn { Foot.bracket with ident := true, seq := true } s
          { s with seq := { s.seq with probe := .probing i } } := by constructor <;> simp
      exact (h1.trans (hsame.mono rfl)).trans (by constructor <;> simp)
    · simpa using hwr
    · show ({ t.seq with probe := .bound f } : Seq) = _
      rw [hsame.seq rfl]
  | cons g pre ih =>
    intro s post i vals id ids hb hq hlen hno hyes hi hne
    match vals, hlen with
    | v :: vals, hlen =>
      have hmiss : identifierMatches s.cfg g v = false := hno (g, v) (by simp)
      obtain ⟨t, hr, hres, hqt, hsame, henv, hsent, hwr⟩ := probeOne_quiet (f := g)
        (s := { s with seq := { s.seq with probe := .probing i } }) hb hq (id := v) (ids := vals ++ id :: ids)
        (by simpa using hi) (by simp)
      rw [show identifierMatches ({ s with seq := { s.seq with probe := .probing i } } : State).cfg g v = false from hmiss]
        at hr
      have hcfg : t.cfg = s.cfg := hsame.cfg
      have hident : t.env.core.ident = vals ++ id :: ids := by rw [henv]
      obtain ⟨u, hru, hresu, hsu, heu, hsentu, hwu, hp, hc, hseq⟩ := ih (post := post) (i := i + 1) (vals := vals) (id := id)
        (ids := ids) hres.owner hqt (by simpa using hlen)
        (fun gv hgv => by rw [hcfg]; exact hno gv (by simp [hgv])) (by rw [hcfg]; exact hyes) hident hne
      refine ⟨u, ?_, ?_, ?_, ?_, hsentu.trans hsent, ?_, hp, hc, ?_⟩
      · simp only [List.cons_append, probeLoop, setProbeSeq, upd_bind, bind_ok hr, Bool.false_eq_true, if_false, hru]
      · have : Restored s t := ⟨hres.owner, hres.saved, hres.native, hres.dom⟩
        exact this.trans hresu
      · have h1 : SameOn { Foot.bracket with ident := true, seq := true } s
            { s with seq := { s.seq with probe := .probing i } } := by constructor <;> simp
        exact (h1.trans (hsame.mono rfl)).trans hsu
      · rw [heu, henv]
      · rw [hwu, hwr, hcfg]
        simp
      · rw [hseq, hsame.seq rfl]

/-- The loop of the probe when no family matches (R210). -/
theorem probeLoop_none (order : List Family) : ∀ {s : State} {i : Nat} {vals ids : List Word}
    (_ : s.busOwner = .native) (_ : ∀ g, Quiet s g) (_ : vals.length = order.length)
    (_ : ∀ gv ∈ order.zip vals, identifierMatches s.cfg gv.1 gv.2 = false)
    (_ : s.env.core.ident = vals ++ ids) (_ : ids ≠ []),
    ∃ t, probeLoop order i s = .ok none t ∧ (order ≠ [] → Restored s t) ∧
      SameOn { Foot.bracket with ident := true, seq := true } s t ∧ t.env.core = { s.env.core with ident := ids } ∧
      sent t.hist = sent s.hist ∧ writes t.hist = writes s.hist ++ order.flatMap (keyWrites s.cfg) ∧
      t.probed = true ∧ t.cartType = none ∧ t.seq = { s.seq with probe := .noCart } := by
  induction order with
  | nil =>
    intro s i vals ids hb hq hlen hno hi hne
    obtain rfl : vals = [] := List.eq_nil_of_length_eq_zero hlen
    refine ⟨{ s with cartType := none, probed := true, seq := { s.seq with probe := .noCart } }, rfl, by simp, ?_, ?_, rfl,
      by simp, rfl, rfl, rfl⟩
    · constructor <;> simp
    · rw [← show s.env.core.ident = ids by simpa using hi]
  | cons g order ih =>
    intro s i vals ids hb hq hlen hno hi hne
    match vals, hlen with
    | v :: vals, hlen =>
      have hmiss : identifierMatches s.cfg g v = false := hno (g, v) (by simp)
      obtain ⟨t, hr, hres, hqt, hsame, henv, hsent, hwr⟩ := probeOne_quiet (f := g)
        (s := { s with seq := { s.seq with probe := .probing i } }) hb hq (id := v) (ids := vals ++ ids)
        (by simpa using hi) (by simp [hne])
      rw [show identifierMatches ({ s with seq := { s.seq with probe := .probing i } } : State).cfg g v = false from hmiss]
        at hr
      have hcfg : t.cfg = s.cfg := hsame.cfg
      have hident : t.env.core.ident = vals ++ ids := by rw [henv]
      obtain ⟨u, hru, hresu, hsu, heu, hsentu, hwu, hp, hc, hseq⟩ := ih (i := i + 1) (vals := vals)
        (ids := ids) hres.owner hqt (by simpa using hlen)
        (fun gv hgv => by rw [hcfg]; exact hno gv (by simp [hgv])) hident hne
      have hst : Restored s t := ⟨hres.owner, hres.saved, hres.native, hres.dom⟩
      refine ⟨u, ?_, fun _ => ?_, ?_, ?_, hsentu.trans hsent, ?_, hp, hc, ?_⟩
      · simp only [probeLoop, setProbeSeq, upd_bind, bind_ok hr, Bool.false_eq_true, if_false, hru]
      · by_cases ho : order = []
        · subst ho
          have hu : u = { t with cartType := none, probed := true, seq := { t.seq with probe := .noCart } } := by
            have : probeLoop [] (i + 1) t = .ok none
              { t with cartType := none, probed := true, seq := { t.seq with probe := .noCart } } := rfl
            rw [this] at hru
            cases hru
            rfl
          rw [hu]
          exact ⟨hst.owner, hst.saved, hst.native, hst.dom⟩
        · exact hst.trans (hresu ho)
      · have h1 : SameOn { Foot.bracket with ident := true, seq := true } s
            { s with seq := { s.seq with probe := .probing i } } := by constructor <;> simp
        exact (h1.trans (hsame.mono rfl)).trans hsu
      · rw [heu, henv]
      · rw [hwu, hwr, hcfg]
        simp
      · rw [hseq, hsame.seq rfl]

end Sys2Proof.Machine
end

