-- ==== Sys2Proof/Laws/Abort.lean ====
section
/-! SUPPORT. The clean-up of a transfer that failed, in an environment that answers at once but for the card, which may answer
CMD12 or not: what it sends and which registers it writes (43_card_sequencer.md R168, 44_transport_handlers.md R199). -/

namespace Sys2Proof.Machine

variable {α : Type} {f : Family} {F : Foot} {s t u : State} {e : Env} {out : List Sent} {idx : BitVec 6} {arg : Word}

/-! ### What sends nothing, whatever the card answers -/

/-- On a port in an environment that answers at once, it goes on doing so and nothing was sent. -/
def Hush (f : Family) (s t : State) : Prop := OnPort s f → OnPort t f ∧ t.cfg = s.cfg ∧ sent t.hist = sent s.hist

theorem Hush.order (f : Family) : Order (Hush f) :=
  ⟨fun _ h => ⟨h, rfl, rfl⟩, fun h k p =>
    have ⟨p', c, w⟩ := h p
    have ⟨p'', c', w'⟩ := k p'
    ⟨p'', c'.trans c, w'.trans w⟩⟩

theorem Hush.of_went (h : Went f F e [] s t) (hF : F.bus = false) : Hush f s t :=
  fun p => ⟨p.went h hF, h.cfg, by rw [h.sent, List.append_nil]⟩

/-- An operation that completes there and sends nothing. -/
theorem hush_total {x : Op α} (hF : F.bus = false)
    (h : ∀ s, OnPort s f → ∃ a t, x s = .ok a t ∧ Went f F s.env.core [] s t) : Every (Hush f) x := by
  refine .intro (fun s a t hx p => ?_) fun s c t hx p => ?_ <;> obtain ⟨a', t', hr, hw⟩ := h s p <;> rw [hr] at hx <;> cases hx
  exact Hush.of_went hw hF p

/-- What touches neither the environment, the history nor the bus. -/
theorem hush_silent {x : Op α} (h : Touches F x) (hl : F.log = false) (hb : F.bus = false) : Every (Hush f) x := by
  have same : ∀ {s t : State}, SameOn F s t → Hush f s t := fun k p =>
    Hush.of_went (.of_same p.quiet k (k.log hl).1 (k.log hl).2.2.1) hb p
  exact .intro (fun _ _ _ hx => same (h.of_ok hx)) fun _ _ _ hx => same (h.of_error hx)

theorem hush_emit {ev : Event} (hev : ev.sends = none) : Every (Hush f) (emit ev) :=
  hush_total (F := .access) rfl fun _ p => ⟨(), _, rfl, .emit p.quiet ev hev⟩

/-- An answer of a stream that neither the PI controller nor the cartridge's status is. -/
theorem hush_draw {get : Env → List α} {put : List α → Env → Env} {free : Nat → α}
    (hput : ∀ l e, (put l e).pi = e.pi ∧ (put l e).status = e.status) : Every (Hush f) (draw get put free) := by
  refine .intro (fun s a t h p => ?_) fun s c t h => by unfold draw at h; split at h <;> cases h
  have keep : ∀ {l : List α}, Quiet { s with env := put l s.env } f := fun {l} => by
    obtain ⟨h1, h2⟩ := hput l s.env
    have := p.quiet
    unfold Quiet QuietEnv at *
    simpa only [h1, h2] using this
  unfold draw at h
  split at h <;> cases h
  · exact ⟨⟨p.owner, p.bitLevel, p.quiet⟩, rfl, rfl⟩
  · exact ⟨p, rfl, rfl⟩
  · exact ⟨⟨p.owner, p.bitLevel, keep⟩, rfl, rfl⟩

theorem hush_count (s : State) (n : Nat) : Hush f s { s with spinCount := n } :=
  fun p => ⟨⟨p.owner, p.bitLevel, p.quiet⟩, rfl, rfl⟩

theorem hush_sdPort : Every (Hush f) sdPort :=
  hush_total (F := .access) rfl fun _ p => ⟨_, _, sdPort_run p, .refl _ p.quiet⟩

theorem hush_portWrite (r : Reg) (v : Word) : Every (Hush f) (portWrite r v) :=
  hush_total rfl fun _ p => ⟨(), portWrite_quiet p r v⟩

theorem hush_portRead (r : Reg) (mask v : Word) : Every (Hush f) (portRead r mask v) :=
  hush_total rfl fun _ p => ⟨(), portRead_quiet p r mask v⟩

theorem hush_setBitLen (len : BitLen) : Every (Hush f) (setBitLen len) := hush_total rfl fun _ p =>
  have ⟨t, h1, h2, _⟩ := setBitLen_quiet p len
  ⟨(), t, h1, h2⟩

theorem hush_atSingleBit {body : Op α} (h : Every (Hush f) body) : Every (Hush f) (atSingleBit body) := by
  have o := Hush.order f
  refine .bind o (Every.bind o (hush_setBitLen _) fun _ => h).attempt fun r => ?_
  cases r
  · exact .bind o ((hush_setBitLen _).bestEffort o) fun _ => .raise o _
  · exact .bind o (hush_setBitLen _) fun _ => .pure o _

theorem hush_nextCmdBit : Every (Hush f) nextCmdBit := hush_draw fun _ _ => ⟨rfl, rfl⟩

theorem hush_cmdRxBit : Every (Hush f) cmdRxBit := by
  have o := Hush.order f
  exact .bind o hush_sdPort fun _ => .bind o (hush_portWrite _ _) fun _ => .bind o hush_nextCmdBit fun _ =>
    .bind o (hush_portRead _ _ _) fun _ => .bind o (hush_emit rfl) fun _ => .pure o _

theorem hush_cmdRx : Every (Hush f) cmdRx := by
  have o := Hush.order f
  exact .bind o hush_sdPort fun _ => .bind o (hush_portWrite _ _) fun _ => .bind o (.many o hush_nextCmdBit _) fun _ =>
    .bind o (hush_portRead _ _ _) fun _ => .bind o (hush_emit rfl) fun _ => .pure o _

theorem hush_collectResponse (n len : Nat) : Every (Hush f) (collectResponse n len) := by
  have o := Hush.order f
  exact .bind o (hush_atSingleBit (.bind o (.spinOn o hush_count (.bind o hush_cmdRxBit fun _ => .pure o _) _) fun _ =>
    .bind o (.many o hush_cmdRxBit _) fun _ => .pure o _)) fun _ => .bind o (.many o hush_cmdRx _) fun _ => .pure o _

theorem hush_datPort : Every (Hush f) datPort := by
  have o := Hush.order f
  exact .bind o hush_sdPort fun _ => .ite (.refuse _) (.pure o _)

theorem hush_waitNotBusy : Every (Hush f) waitNotBusy := by
  have o := Hush.order f
  have clock : Every (Hush f) laneClock := .bind o (hush_portWrite _ _) fun _ =>
    .bind o (hush_draw fun _ _ => ⟨rfl, rfl⟩) fun _ => .bind o (hush_portRead _ _ _) fun _ => .pure o _
  exact .bind o hush_datPort fun _ => .spinOn o hush_count (.bind o (.bind o hush_datPort fun _ =>
    .bind o (.ite (hush_atSingleBit clock) clock) fun _ => .bind o (hush_emit rfl) fun _ => .pure o _) fun _ => .pure o _) _

/-! ### CMD12 and the clean-up -/

theorem OnLanes.onWire (h : OnLanes s f) : OnWire f s := ⟨h.port.owner, h.port.bitLevel, h.native, h.port.quiet.regs⟩

/-- How a command ends that the card may answer or not: with its frame sent, and, where the card answered, the trailing
clocks behind it. -/
structure Sends (f : Family) (idx : BitVec 6) (arg : Word) (s t : State) : Prop where
  lanes : OnLanes t f
  cfg : t.cfg = s.cfg
  sent : ∃ out, (out = frameSent s.cfg idx arg ∨ out = commandSent s.cfg idx arg) ∧ sent t.hist = sent s.hist ++ out

theorem Sends.hush (h : Sends f idx arg s t) (k : Hush f t u) : Sends f idx arg s u := by
  obtain ⟨p, c, w⟩ := k h.lanes.port
  obtain ⟨out, ho, hs⟩ := h.sent
  exact ⟨⟨p, by rw [c]; exact h.lanes.native⟩, c.trans h.cfg, out, ho, w.trans hs⟩

/-- CMD12, whatever the card answers (R115 to R119). -/
theorem stopCommand_sends (h : OnLanes s f) : ∃ t, Sends f 12 0 s t ∧
    (executeCommand false 12 0 s = .ok () t ∨ ∃ c, executeCommand false 12 0 s = .error (.cause c) t) := by
  obtain ⟨t, htx, ht, -⟩ := transmitFrame_quiet h.port s.cfg.nLeadin 12 0
  have hlt := h.went ht rfl
  have hframe : sent t.hist = sent s.hist ++ frameSent s.cfg 12 0 := ht.sent
  have hlen : respLength (s.cfg.fam f).wire 12 .sdr1b ≠ 0 := by rw [h.native]; decide
  have start : executeCommand false 12 0 s = receiveResponse s.cfg (s.cfg.fam f) .sdr1b 12 t := by
    simp only [executeCommand, bind_ok (sdPort_run h.port), get'_bind, show respKind 12 false = some .sdr1b from rfl,
      bind_ok htx]
  have store : ∀ {u : State} (bytes : List Byte), Hush f u { u with resp := bytes } := fun bytes p =>
    ⟨⟨p.owner, p.bitLevel, p.quiet⟩, rfl, rfl⟩
  rw [start]
  cases hc : collectResponse s.cfg.respSpinMax (respLength (s.cfg.fam f).wire 12 .sdr1b) t with
  | error x u =>
    obtain ⟨c, rfl⟩ := (calm_collectResponse (f := f) _ _).ends t hlt.onWire _ _ hc
    obtain ⟨p, cu, wu⟩ := (Hush.order f).trans ((hush_collectResponse _ _).of_cause hc) (store []) hlt.port
    refine ⟨{ u with resp := [] }, ⟨⟨p, by rw [cu]; exact hlt.native⟩, cu.trans ht.cfg, _, .inl rfl, wu.trans hframe⟩, .inr ⟨c, ?_⟩⟩
    simp only [receiveResponse, if_neg hlen, bind_ok (attempt_cause hc), upd_bind, raise_run]
  | ok bytes u =>
    obtain ⟨p, cu, wu⟩ := (Hush.order f).trans ((hush_collectResponse _ _).of_ok hc) (store bytes) hlt.port
    obtain ⟨v, hv, hvw⟩ := cmdTx_all_quiet p (List.replicate s.cfg.nTrail 0xFF)
    refine ⟨v, ⟨⟨p.went hvw rfl, by rw [hvw.cfg, cu]; exact hlt.native⟩, hvw.cfg.trans (cu.trans ht.cfg), _, .inr rfl, ?_⟩, ?_⟩
    · rw [hvw.sent, wu, hframe, commandSent, List.append_assoc]
    · simp only [receiveResponse, if_neg hlen, bind_ok (attempt_ok hc), upd_bind, trailClocks, bind_ok hv]
      cases responseFault s.cfg (s.cfg.fam f).wire .sdr1b 12 bytes with
      | none => exact .inl rfl
      | some c => exact .inr ⟨c, rfl⟩

/-- The stop of a stream, its own outcome ignored (R146, R271). -/
theorem stopStream_sends (h : OnLanes s f) : ∃ t, bestEffort stopStream s = .ok () t ∧ Sends f 12 0 s t ∧
    SameOn .command s t ∧ Stopped s t ∧ ((s.cfg.fam f).portLevel = false → writes t.hist = writes s.hist) := by
  obtain ⟨t, hrun, hsame⟩ := calm_stopStream.ends_ok (f := f) h.onWire
  have hstopped : Stopped s t := by
    cases hx : stopStream s with
    | ok a v =>
      rw [bestEffort_ok hx] at hrun
      cases hrun
      exact stopStream_stops.of_ok hx
    | error x v =>
      cases x with
      | cause c =>
        rw [bestEffort_cause hx] at hrun
        cases hrun
        exact stopStream_stops.of_cause hx
      | fault x => simp [bestEffort, bind, EStateM.bind, attempt, hx] at hrun
      | refuse x => simp [bestEffort, bind, EStateM.bind, attempt, hx] at hrun
  refine ⟨t, hrun, ?_, hsame, hstopped, fun hp => (((noWrites_stopStream.bestEffort (NoWrites.order f)).of_ok hrun) h.port.owner hp).2.2⟩
  obtain ⟨u, hu, hex⟩ := stopCommand_sends h
  have hset : Hush f u { u with sess := { u.sess with mode := .none } } := fun p =>
    ⟨⟨p.owner, p.bitLevel, p.quiet⟩, rfl, rfl⟩
  rcases hex with hex | ⟨c, hex⟩
  · have hstop : stopStream s = waitNotBusy { u with sess := { u.sess with mode := .none } } := by
      simp only [stopStream, bind_ok (datPort_run h), bind_ok (attempt_ok hex), setSession, upd_bind, rethrow, pure_bind_run]
    have hwait : Every (Hush f) (bestEffort waitNotBusy) := hush_waitNotBusy.bestEffort (Hush.order f)
    have hb : bestEffort waitNotBusy { u with sess := { u.sess with mode := .none } } = .ok () t := by
      rw [← hrun]
      simp only [bestEffort, bind, EStateM.bind, attempt, hstop]
    exact (hu.hush hset).hush (hwait.of_ok hb)
  · have hstop : stopStream s = .error (.cause c) { u with sess := { u.sess with mode := .none } } := by
      simp only [stopStream, bind_ok (datPort_run h), bind_ok (attempt_cause hex), setSession, upd_bind, rethrow, raise_bind]
    rw [bestEffort_cause hstop] at hrun
    cases hrun
    exact hu.hush hset

/-- The clean-up of a failed transfer of a native card: CMD12 where a stream is open, whether or not the card answers it, then
the port reset (R168, R199). -/
theorem abortTransfer_sends (h : OnLanes s f) : ∃ t, abortTransfer s = .ok () t ∧
    SameOn { Foot.transfer with seq := true } s t ∧ t.sess.mode = .none ∧
    (∃ out, (if s.sess.mode = .none then out = [] else out = frameSent s.cfg 12 0 ∨ out = commandSent s.cfg 12 0) ∧
      sent t.hist = sent s.hist ++ out) ∧
    ((s.cfg.fam f).portLevel = false → writes t.hist = writes s.hist ++ resetWrites s.cfg f s.sess) := by
  obtain ⟨w, hall, hsame, hmode⟩ := abortTransfer_ends h.onWire
  refine ⟨w, hall, hsame, hmode, ?_⟩
  have stop : ∃ t, onlyIf (s.sess.mode != .none && !(s.cfg.fam f).offload) (bestEffort stopStream) s = .ok () t ∧ OnLanes t f ∧
      t.cfg = s.cfg ∧ (∃ out, (if s.sess.mode = .none then out = [] else out = frameSent s.cfg 12 0 ∨ out = commandSent s.cfg 12 0) ∧
        sent t.hist = sent s.hist ++ out) ∧ SameOn .command s t ∧
      (t.sess.busWidth = s.sess.busWidth ∧ t.sess.speed = s.sess.speed) ∧
      ((s.cfg.fam f).portLevel = false → writes t.hist = writes s.hist) := by
    by_cases hm : s.sess.mode = .none
    · exact ⟨s, onlyIf_false (by simp [hm]) _, h, rfl, ⟨[], by rw [if_pos hm], by simp⟩, .refl _ _, ⟨rfl, rfl⟩, fun _ => rfl⟩
    · obtain ⟨t, hr, ht, hst, hstop, hwt⟩ := stopStream_sends h
      obtain ⟨out, ho, hs⟩ := ht.sent
      exact ⟨t, (onlyIf_true (by simp [hm, h.port.bitLevel]) _).trans hr, ht.lanes, ht.cfg, ⟨out, by rw [if_neg hm]; exact ho, hs⟩,
        hst, ⟨congrArg (·.busWidth) (show _ = ({ s.sess with bitlen := .b8, mode := .none } : Session) from hstop),
          congrArg (·.speed) (show _ = ({ s.sess with bitlen := .b8, mode := .none } : Session) from hstop)⟩, hwt⟩
  obtain ⟨t, hrt, hlt, hct, ⟨out, ho, hs⟩, -, ⟨hwidth, hspeed⟩, hwt⟩ := stop
  have hset := Went.sess (g := fun ss => { ss with mode := .none }) hlt.port.quiet
  have hlu := hlt.went hset rfl
  obtain ⟨v, hrv, hv⟩ := resetPort_drove hlu.port.owner hlu.port.quiet hlu.port.bitLevel
  have hrun : abortTransfer s = .ok () v := by
    simp only [abortTransfer, bind_ok (famParams_run h.port.owner), get'_bind, bind_ok hrt, setSession, upd_bind, hrv]
  rw [hrun] at hall
  cases hall
  refine ⟨⟨out, ho, ?_⟩, fun hp => ?_⟩
  · rw [hv.went.sent, List.append_nil, hset.sent, List.append_nil, hs]
  · rw [hv.wrote, hwt hp, hct]
    simp only [resetWrites, hwidth, hspeed]

end Sys2Proof.Machine
end

