-- ==== Sys2Proof/Laws/Did.lean ====
section
/-! SUPPORT. From what an operation did to what the step of its host operation did. -/

namespace Sys2Proof.Machine

variable {f : Family} {F : Foot} {e : Env} {out : List Sent} {r : HostResult} {c : Cause} {s t : State} {x : Op HostResult}

theorem runHost_ok (h : x s = .ok r t) : runHost x s = .next { t with result := r } := by unfold runHost; rw [h]

theorem runHost_cause (h : x s = .error (.cause c) t) : runHost x s = .next { t with result := .error c } := by
  unfold runHost; rw [h]

theorem runHost_refuse {q : Refusal} (h : x s = .error (.refuse q) t) : runHost x s = .refused q := by
  unfold runHost; rw [h]

/-- Setting the result and taking it back is nothing, where the run did not change it. -/
theorem SameOn.unset (h : SameOn F s t) : { t with result := s.result } = t := by
  obtain ⟨-, -, hr⟩ := h.fixed
  rw [← hr]

theorem Went.did (h : Went f F e out s t) (r : HostResult) : Did f F e out r s { t with result := r } where
  result := rfl
  went := by
    show Went f F e out s { t with result := s.result }
    rw [h.same.unset]; exact h
  ram hF a := ⟨hostByte_same h.same hF a, by
    show t.phys.read a = _
    rw [(h.same.ram hF).1]⟩
  buffer hF a := by
    show t.cb.read a = _
    rw [h.same.buffer hF]

/-- A host operation whose run ends in a value. -/
theorem runHost_did (h : x s = .ok r t) (w : Went f F e out s t) :
    runHost x s = .next { t with result := r } ∧ Did f F e out r s { t with result := r } := ⟨runHost_ok h, w.did r⟩

/-- A host operation whose run ends in a cause. -/
theorem runHost_did_cause (h : x s = .error (.cause c) t) (w : Went f F e out s t) :
    runHost x s = .next { t with result := .error c } ∧ Did f F e out (.error c) s { t with result := .error c } :=
  ⟨runHost_cause h, w.did _⟩

theorem Exchanged.did {idx : BitVec 6} {arg : Word} {resp : List Byte} (h : Exchanged f e out idx arg resp s t)
    (r : HostResult) : DidExchange f e out idx arg resp r s { t with result := r } :=
  ⟨h.went.did r, h.frame, h.crc, h.app, h.resp, h.session⟩

/-- What the cache does on its own reaches no more than the memory's physical view, its own lines and its stream of acts,
and the host sees none of it (R72). -/
theorem cacheMayAct_spec (s : State) : ∃ t, cacheMayAct s = .ok () t ∧ SameOn { Foot.access with ram := true } s t ∧
    t.dma = s.dma ∧ t.hist = s.hist ∧ t.spinCount = s.spinCount ∧ (Ram s → Ram t ∧ ∀ a, t.hostByte a = s.hostByte a) := by
  have hrun : ∃ acts e n, nextCacheActs s = .ok acts { s with env := e, freeCount := n } := by
    unfold nextCacheActs draw
    split <;> exact ⟨_, _, _, rfl⟩
  obtain ⟨acts, e, n, h1⟩ := hrun
  have hact : cacheMayAct s = .ok () (acts.foldl State.cacheAct { s with env := e, freeCount := n }) := by
    simp only [cacheMayAct, bind_ok h1, upd_run]
  have keep : ∀ (l : List CacheAct) (v : State), (l.foldl State.cacheAct v).dma = v.dma ∧
      (l.foldl State.cacheAct v).hist = v.hist ∧ (l.foldl State.cacheAct v).spinCount = v.spinCount := by
    intro l
    induction l with
    | nil => exact fun _ => ⟨rfl, rfl, rfl⟩
    | cons x l ih => intro v; obtain ⟨a, b, c⟩ := ih (v.cacheAct x); cases x <;> exact ⟨a, b, c⟩
  obtain ⟨k1, k2, k3⟩ := keep acts { s with env := e, freeCount := n }
  refine ⟨_, hact, touches_cacheAlone.of_ok hact, k1, k2, k3, fun hr => ?_⟩
  have hu : Ram { s with env := e, freeCount := n } := ⟨hr.pos, ⟨hr.cache.distinct, hr.cache.aligned, hr.cache.full,
    hr.cache.clean⟩, hr.phys⟩
  have k := acts_spec acts hu
  exact ⟨k.ram, k.view⟩

/-- With no line present the cache has nothing to do. -/
theorem settle_nil (h : s.cache = []) : settle s = s := by unfold settle; rw [h]

/-- With a line present it does what its stream of acts says. -/
theorem settle_cons {l : CacheLine} {ls : List CacheLine} (h : s.cache = l :: ls) (hr : cacheMayAct s = .ok () t) :
    settle s = t := by unfold settle; rw [h]; simp only [hr]

/-- What the cache may do between two host operations (R72). -/
theorem settle_spec (s : State) : SameOn { Foot.access with ram := true } s (settle s) ∧ (settle s).dma = s.dma ∧
    (settle s).hist = s.hist ∧ (settle s).spinCount = s.spinCount ∧
    (Ram s → Ram (settle s) ∧ ∀ a, (settle s).hostByte a = s.hostByte a) := by
  match h : s.cache with
  | [] =>
    rw [settle_nil h]
    exact ⟨.refl _ s, rfl, rfl, rfl, fun hr => ⟨hr, fun _ => rfl⟩⟩
  | l :: ls =>
    obtain ⟨t, hrun, hw⟩ := cacheMayAct_spec s
    rw [settle_cons h hrun]
    exact hw

end Sys2Proof.Machine
end

