-- ==== Sys2Proof/Laws/Dma.lean ====
section
/-! SUPPORT. What the PI DMA engine's registers hold after a sector move, in every environment (47_bus_dma.md R242 to
R244): the two addresses of its one DMA and the length of its direction less one. -/

namespace Sys2Proof.Machine

variable {α β : Type} {f : Family} {s t : State}

/-- The DMA engine's registers are as they were. -/
def SameDma (s t : State) : Prop := t.dma = s.dma

theorem order_dma : Order SameDma := .same State.dma

theorem dma_touches {F : Foot} {x : Op α} (h : Touches F x) (hF : F.ram = false) : Every SameDma x :=
  .of_touches h fun _ _ hs => hs.dma hF

theorem dma_cacheMayAct : Every SameDma cacheMayAct := by
  refine .intro (fun s a t h => ?_) fun s c t h => ?_
  · obtain ⟨u, hu, -, hd, -⟩ := cacheMayAct_spec s
    rw [hu] at h
    cases h
    exact hd
  · obtain ⟨u, hu, -⟩ := cacheMayAct_spec s
    rw [hu] at h
    cases h

theorem dma_fillLine (s : State) (a : Nat) : (s.fillLine a).dma = s.dma := by
  unfold State.fillLine
  split <;> rfl

theorem dma_touchBytes (s : State) (a n : Nat) : (s.touchBytes a n).dma = s.dma := by
  induction n generalizing s a with
  | zero => rfl
  | succ n ih => exact (ih _ _).trans (dma_fillLine s a)

theorem dma_hostStoreBytes (s : State) (a : Nat) (bs : List Byte) : (s.hostStoreBytes a bs).dma = s.dma := by
  induction bs generalizing s a with
  | nil => rfl
  | cons b bs ih => exact (ih _ _).trans (dma_fillLine s a)

theorem dma_copyMoves (k src dst : Nat) : Every SameDma (copyMoves k src dst) := by
  induction k generalizing src dst with
  | zero => exact .pure order_dma _
  | succ k ih =>
    exact .bind order_dma dma_cacheMayAct fun _ => .bind order_dma
      (.upd fun s => (dma_hostStoreBytes _ _ _).trans (dma_touchBytes s src 8)) fun _ => ih _ _

theorem dma_opCacheWbInv (a n : Nat) : Every SameDma (opCacheWbInv a n) :=
  .bind order_dma dma_cacheMayAct fun _ => .bind order_dma (dma_touches (touches_emit _) rfl) fun _ => .upd fun _ => rfl

theorem dma_opCacheWb (a n : Nat) : Every SameDma (opCacheWb a n) :=
  .bind order_dma dma_cacheMayAct fun _ => .bind order_dma (dma_touches (touches_emit _) rfl) fun _ => .upd fun _ => rfl

/-- A DMA that is done has programmed the engine for it (R244). -/
theorem dmaFromCart_dma (hb : s.busOwner = .cart f) {a : Nat} (h : dmaFromCart a s = .ok () t) :
    t.dma = { s.dma with
      ramAddr := BitVec.ofNat 32 a, cartAddr := (s.cfg.fam f).cartBuf, toRamLen := BitVec.ofNat 32 (sector - 1) } := by
  have after : ∀ q : FamilyParams, Every SameDma (do
      emit (.dmaFromCart q.cartBuf a sector)
      cacheMayAct
      let r ← attempt (piWaitIdle f)
      match r with
      | .ok _ => upd fun s => { s with phys := s.phys.writeBytes a (s.cb.readBytes 0 sector) }
      | .error c => do
        let junk ← many nextJunkByte sector
        upd fun s => { s with phys := s.phys.writeBytes a junk }
        raise c : Op Unit) := fun q => by
    refine .bind order_dma (dma_touches (touches_emit _) rfl) fun _ => .bind order_dma dma_cacheMayAct fun _ =>
      .bind order_dma (dma_touches (touches_piWaitIdle f).attempt rfl) fun r => ?_
    cases r with
    | ok _ => exact .upd fun _ => rfl
    | error c =>
      exact .bind order_dma (dma_touches (touches_nextJunkByte.many _) rfl) fun _ =>
        .bind order_dma (.upd fun _ => rfl) fun _ => .raise order_dma _
  simp only [dmaFromCart, bind_ok (busFamily_run hb), bind_ok (famParams_run hb)] at h
  obtain ⟨_, u, h1, h2⟩ := bind_eq_ok.mp h
  simp only [programToRam, upd_bind] at h2
  have hu := (dma_touches (touches_piWaitIdle f) rfl).of_ok h1
  rw [(after _).of_ok h2]
  simp only [show u.dma = s.dma from hu]

theorem dmaToCart_dma (hb : s.busOwner = .cart f) {a : Nat} (h : dmaToCart a s = .ok () t) :
    t.dma = { s.dma with
      ramAddr := BitVec.ofNat 32 a, cartAddr := (s.cfg.fam f).cartBuf, toCartLen := BitVec.ofNat 32 (sector - 1) } := by
  have after : ∀ q : FamilyParams, Every SameDma (do
      emit (.dmaToCart a q.cartBuf sector)
      cacheMayAct
      let r ← attempt (piWaitIdle f)
      match r with
      | .ok _ => upd fun s => { s with cb := s.cb.writeBytes 0 (s.phys.readBytes a sector) }
      | .error c => do
        let junk ← many nextJunkByte sector
        upd fun s => { s with cb := s.cb.writeBytes 0 junk }
        raise c : Op Unit) := fun q => by
    refine .bind order_dma (dma_touches (touches_emit _) rfl) fun _ => .bind order_dma dma_cacheMayAct fun _ =>
      .bind order_dma (dma_touches (touches_piWaitIdle f).attempt rfl) fun r => ?_
    cases r with
    | ok _ => exact .upd fun _ => rfl
    | error c =>
      exact .bind order_dma (dma_touches (touches_nextJunkByte.many _) rfl) fun _ =>
        .bind order_dma (.upd fun _ => rfl) fun _ => .raise order_dma _
  simp only [dmaToCart, bind_ok (busFamily_run hb), bind_ok (famParams_run hb)] at h
  obtain ⟨_, u, h1, h2⟩ := bind_eq_ok.mp h
  simp only [programToCart, upd_bind] at h2
  have hu := (dma_touches (touches_piWaitIdle f) rfl).of_ok h1
  rw [(after _).of_ok h2]
  simp only [show u.dma = s.dma from hu]

/-- Where the one DMA of a sector move stands in RAM: at the host's address, or at the staging buffer (R242, R243). -/
def moveAddr (p : Params) (a : Nat) : Nat := if direct a then a else p.stageAddr

theorem moveToRam_dma (hb : s.busOwner = .cart f) {dest : Nat} (h : moveToRam dest s = .ok () t) :
    t.dma = { s.dma with
      ramAddr := BitVec.ofNat 32 (moveAddr s.cfg dest), cartAddr := (s.cfg.fam f).cartBuf, toRamLen := 511 } := by
  obtain ⟨_, v, h1, h2⟩ := bind_eq_ok.mp h
  rw [show t.dma = v.dma from dma_cacheMayAct.of_ok h2]
  simp only [bringToRam, get'_bind] at h1
  by_cases hd : direct dest = true
  · rw [if_pos hd] at h1
    obtain ⟨_, u, h3, h4⟩ := bind_eq_ok.mp h1
    have hs := (touches_opCacheWbInv _ _).of_ok h3
    rw [dmaFromCart_dma ((hs.owner rfl).trans hb) h4, show u.dma = s.dma from (dma_opCacheWbInv _ _).of_ok h3, hs.cfg,
      moveAddr, if_pos hd]
    rfl
  · rw [if_neg hd] at h1
    obtain ⟨_, u, h3, h4⟩ := bind_eq_ok.mp h1
    obtain ⟨_, w, h5, h6⟩ := bind_eq_ok.mp h4
    have hs := (touches_opCacheWbInv _ _).of_ok h3
    rw [show v.dma = w.dma from (dma_copyMoves _ _ _).of_ok h6, dmaFromCart_dma ((hs.owner rfl).trans hb) h5,
      show u.dma = s.dma from (dma_opCacheWbInv _ _).of_ok h3, hs.cfg, moveAddr, if_neg hd]
    rfl

theorem moveFromRam_dma (hb : s.busOwner = .cart f) {src : Nat} (h : moveFromRam src s = .ok () t) :
    t.dma = { s.dma with
      ramAddr := BitVec.ofNat 32 (moveAddr s.cfg src), cartAddr := (s.cfg.fam f).cartBuf, toCartLen := 511 } := by
  obtain ⟨_, v, h1, h2⟩ := bind_eq_ok.mp h
  rw [show t.dma = v.dma from dma_cacheMayAct.of_ok h2]
  simp only [takeFromRam, get'_bind] at h1
  by_cases hd : direct src = true
  · rw [if_pos hd] at h1
    obtain ⟨_, u, h3, h4⟩ := bind_eq_ok.mp h1
    have hs := (touches_opCacheWb _ _).of_ok h3
    rw [dmaToCart_dma ((hs.owner rfl).trans hb) h4, show u.dma = s.dma from (dma_opCacheWb _ _).of_ok h3, hs.cfg,
      moveAddr, if_pos hd]
    rfl
  · rw [if_neg hd] at h1
    obtain ⟨_, u, h3, h4⟩ := bind_eq_ok.mp h1
    obtain ⟨_, w, h5, h6⟩ := bind_eq_ok.mp h4
    have hs := ((touches_copyMoves _ _ _).of_ok h3).trans ((touches_opCacheWb _ _).of_ok h5)
    rw [dmaToCart_dma ((hs.owner rfl).trans hb) h6, show w.dma = u.dma from (dma_opCacheWb _ _).of_ok h5,
      show u.dma = s.dma from (dma_copyMoves _ _ _).of_ok h3, hs.cfg, moveAddr, if_neg hd]
    rfl

end Sys2Proof.Machine
end

