-- ==== Sys2Proof/Laws/Failures.lean ====
section
/-! SUPPORT. CMD7 and CMD12 that fail (42_sd_commands.md R142, R146), and transfers whose hardware fails at a block, in an
environment that otherwise answers at once: the cause reaches the caller whatever the clean-up meets
(43_card_sequencer.md R168 to R177). -/

namespace Sys2Proof.Machine

variable {f : Family} {F G : Foot} {s t u : State} {e : Env} {l bits : List Bool} {m : List Nibble} {c : Cause}
  {out : List Sent} {W : List (Word × Word)} {app : Bool} {idx : BitVec 6} {arg : Word}

/-! ### Waits that run out -/

/-- A wait on `DAT0` times out after its cap of clocks at the other level (R124). -/
theorem lane_wait_out (level : Bool) (ns : List Nibble) : ∀ {s : State} (_ : OnLanes s f)
    (_ : ∀ n ∈ ns, n.getLsbD 0 = !level) (_ : s.env.core.datLine = ns ++ m) (_ : m ≠ []),
    ∃ t, spinOn (do
        let b ← datRxBit
        pure (if b = level then some () else none)) ns.length s = .error (.cause .timeout) t ∧
      Went f .clocked { s.env.core with datLine := m } [] s t ∧ (s.sess.bitlen = .b8 → t.sess.bitlen = .b8) := by
  induction ns with
  | nil =>
    intro s h _ hl _
    refine ⟨s, rfl, ?_, id⟩
    rw [datLine_same (l := m) (by simpa using hl)]
    exact .refl _ h.port.quiet
  | cons x ns ih =>
    intro s h hns hl hne
    have hc := (Went.count h.port.quiet (ns.length + 1)).mono (G := .clocked) rfl
    obtain ⟨t, hb, ht, hlen⟩ := datRxBit_quiet (h.went hc rfl) (l := ns ++ m) (by simpa using hl) (by simp [hne])
    have hd := (Went.count ht.quiet ns.length).mono (G := .clocked) rfl
    have htd := ht.trans hd
    rw [ht.env] at htd
    obtain ⟨u, hrun, hu, hlen'⟩ := ih (s := { t with spinCount := ns.length }) ((h.went hc rfl).went htd rfl)
      (fun y hy => hns y (List.mem_cons_of_mem _ hy)) (by rw [htd.env]) hne
    refine ⟨u, ?_, ?_, fun hb8 => hlen' (hlen hb8)⟩
    · rw [List.length_cons, spinOn_later (t := t), hrun]
      have hx : x.getLsbD 0 = !level := hns x (by simp)
      simp only [bind_ok hb, hx]
      cases level <;> rfl
    · have := hc.trans (htd.trans hu)
      rwa [htd.env] at this

theorem waitDataStart_out (h : OnLanes s f) {ns : List Nibble} (hcap : ns.length = (s.cfg.fam f).waits.dataStart)
    (hns : ∀ n ∈ ns, n.getLsbD 0 = true) (hl : s.env.core.datLine = ns ++ m) (hne : m ≠ []) :
    ∃ t, waitDataStart s = .error (.cause .timeout) t ∧ Went f .clocked { s.env.core with datLine := m } [] s t ∧
      (s.sess.bitlen = .b8 → t.sess.bitlen = .b8) := by
  obtain ⟨t, hrun, ht⟩ := lane_wait_out false ns h (by simpa using hns) hl hne
  refine ⟨t, ?_, ht⟩
  rw [← hrun, hcap]
  simp only [waitDataStart, bind_ok (datPort_run h)]
  congr 2
  funext b
  cases b <;> rfl

theorem waitNotBusy_out (h : OnLanes s f) {ns : List Nibble} (hcap : ns.length = (s.cfg.fam f).waits.busy)
    (hns : ∀ n ∈ ns, n.getLsbD 0 = false) (hl : s.env.core.datLine = ns ++ m) (hne : m ≠ []) :
    ∃ t, waitNotBusy s = .error (.cause .timeout) t ∧ Went f .clocked { s.env.core with datLine := m } [] s t ∧
      (s.sess.bitlen = .b8 → t.sess.bitlen = .b8) := by
  obtain ⟨t, hrun, ht⟩ := lane_wait_out true ns h (by simpa using hns) hl hne
  refine ⟨t, ?_, ht⟩
  rw [← hrun, hcap]
  simp only [waitNotBusy, bind_ok (datPort_run h)]

/-! ### Commands that fail -/

theorem responseFault_noResponse (p : Params) (wire : Wire) (idx : BitVec 6) (resp : List Byte) :
    responseFault p wire .none idx resp = none := by
  cases wire <;> simp [responseFault, indexOk, fixedBitsOk, checksumOk, cardFlags]

theorem responseFault_length {p : Params} {wire : Wire} {kind : SdKind} {resp : List Byte}
    (h : responseFault p wire kind idx resp = some c) : respLength wire idx kind ≠ 0 := by
  cases wire with
  | spi => cases h
  | sdNative =>
    cases kind with
    | none => rw [responseFault_noResponse] at h; cases h
    | _ => simp [respLength, SdKind.nativeLength]

/-- One command that fails. -/
theorem executeCommand_fails (h : OnPort s f) (hc : CommandFails s.cfg (s.cfg.fam f).wire app idx arg c bits out)
    (hl : s.env.core.cmdLine = bits ++ l) (hne : l ≠ []) :
    ∃ t, executeCommand app idx arg s = .error (.cause c) t ∧
      Went f .exchange { s.env.core with cmdLine := l } out s t ∧ t.sess = { s.sess with bitlen := .b8 } := by
  cases hc with
  | silent kind hk h0 =>
    obtain ⟨t, hr, ht⟩ := executeCommand_silent h hk h0 hl hne
    exact ⟨t, hr, ht.went, ht.session⟩
  | check kind a _ hk hfit hf =>
    obtain ⟨t, ht, hr⟩ := executeCommand_answered h (arg := arg) hk hfit hl hne
    exact ⟨t, by rw [hr, if_neg (responseFault_length hf), hf], ht.went, ht.session⟩

/-- CMD7 whose card stays busy for too long (R142, R174). -/
theorem selectCard_out (h : OnLanes s f) {rca : Half} {a : Answer} (ha : a.good s.cfg (s.cfg.fam f).wire false 7)
    (hl : s.env.core.cmdLine = a.wire ++ l) (hne : l ≠ []) {ns : List Nibble}
    (hcap : ns.length = (s.cfg.fam f).waits.busy) (hns : ∀ n ∈ ns, n.getLsbD 0 = false)
    (hd : s.env.core.datLine = ns ++ m) (hm : m ≠ []) :
    ∃ t, selectCard rca s = .error (.cause .timeout) t ∧
      Went f .exchange { s.env.core with cmdLine := l, datLine := m } (commandSent s.cfg 7 (rcaArg rca)) s t ∧
      t.sess.bitlen = .b8 := by
  obtain ⟨t, hr1, ht⟩ := executeCommand_good h.port (arg := rcaArg rca) ha hl hne
  obtain ⟨u, hr2, hu, hlen⟩ := waitNotBusy_out (h.went ht.went rfl) (by rw [ht.went.cfg]; exact hcap) hns (m := m)
    (by rw [ht.went.env]; exact hd) hm
  refine ⟨u, by simp only [selectCard, bind_ok (datPort_run h), bind_ok hr1, hr2], ?_, hlen ht.bytes⟩
  have := ht.went.trans (hu.mono (G := .exchange) rfl)
  rw [ht.went.env] at this
  simpa using this

/-- CMD12 whose card stays busy for too long (R146, R174). -/
theorem stopStream_out (h : OnLanes s f) {a : Answer} (ha : a.good s.cfg (s.cfg.fam f).wire false 12)
    (hl : s.env.core.cmdLine = a.wire ++ l) (hne : l ≠ []) {ns : List Nibble}
    (hcap : ns.length = (s.cfg.fam f).waits.busy) (hns : ∀ n ∈ ns, n.getLsbD 0 = false)
    (hd : s.env.core.datLine = ns ++ m) (hm : m ≠ []) :
    ∃ t, stopStream s = .error (.cause .timeout) t ∧
      Went f .command { s.env.core with cmdLine := l, datLine := m } (commandSent s.cfg 12 0) s t := by
  obtain ⟨t, hr1, ht⟩ := executeCommand_good h.port (arg := 0) ha hl hne
  have hs := Went.sess (g := fun ss => { ss with mode := .none }) ht.went.quiet
  obtain ⟨u, hr2, hu, -⟩ := waitNotBusy_out ((h.went ht.went rfl).went hs rfl) (by rw [hs.cfg, ht.went.cfg]; exact hcap) hns
    (m := m) (by rw [hs.env, ht.went.env]; exact hd) hm
  refine ⟨u, ?_, ?_⟩
  · simp only [stopStream, bind_ok (datPort_run h), bind_ok (attempt_ok hr1), setSession, upd_bind, rethrow,
      pure_bind_run, hr2]
  · have := (ht.went.mono (G := .command) rfl).trans (hs.trans (hu.mono (G := .command) rfl))
    rw [hs.env, ht.went.env] at this
    simpa using this

/-- CMD12 whose answer fails a response check returns that check's cause (R122, R146). -/
theorem stopStream_rejected (h : OnLanes s f) {a : Answer} (ha : a.fits s.cfg .sdNative 12 .sdr1b)
    (hc : responseFault s.cfg .sdNative .sdr1b 12 a.bytes = some c) (hl : s.env.core.cmdLine = a.wire ++ l) (hne : l ≠ []) :
    ∃ t, stopStream s = .error (.cause c) t ∧
      Went f .command { s.env.core with cmdLine := l } (commandSent s.cfg 12 0) s t := by
  obtain ⟨t, ht, hrun⟩ := executeCommand_answered h.port (app := false) (idx := 12) (arg := 0) (kind := .sdr1b) rfl
    (a := a) (by rw [h.native]; exact ha) hl hne
  have hrun' : executeCommand false 12 0 s = .error (.cause c) t := by
    rw [hrun, if_neg (by rw [h.native]; decide), h.native, hc]
  have hs := Went.sess (g := fun ss => { ss with mode := .none }) ht.went.quiet
  refine ⟨{ t with sess := { t.sess with mode := .none } }, ?_, ?_⟩
  · simp only [stopStream, bind_ok (datPort_run h), bind_ok (attempt_cause hrun'), setSession, upd_bind, rethrow, raise_bind]
  · have := (ht.went.mono (G := .command) rfl).trans hs
    rw [ht.went.env] at this
    simpa using this

/-! ### One block -/

/-- A sector that is not received: its start never comes, or its trailer is wrong (R169, R171). -/
theorem receiveBlock_fails (h : OnLanes s f) {ns : List Nibble} (hb : BadBlock s.cfg (s.cfg.fam f) s.sess.busWidth c ns)
    (hl : s.env.core.datLine = ns ++ m) (hne : m ≠ []) :
    ∃ t, receiveBlock sector s = .error (.cause c) t ∧ Went f .receive { s.env.core with datLine := m } [] s t := by
  cases c <;> try exact hb.elim
  · obtain ⟨hcap, hns⟩ := hb
    obtain ⟨t, hrun, ht, -⟩ := waitDataStart_out h hcap hns hl hne
    exact ⟨t, by simp only [receiveBlock, bind_error hrun], ht.mono rfl⟩
  · obtain ⟨hcheck, d, tr, hd, hblock, htr⟩ := hb
    obtain ⟨t, ht, -, hcase⟩ := receiveBlock_quiet h hblock hl hne
    rw [if_pos ⟨hcheck, hd, htr⟩, hd] at hcase
    exact ⟨t, hcase.1, ht⟩

/-- A sector that is not accepted, or keeps the card busy for too long (R173, R174). -/
theorem sendBlock_fails (h : OnLanes s f) (d : List Byte) {ns : List Nibble} (hb : BadToken (s.cfg.fam f) c ns)
    (hl : s.env.core.datLine = ns ++ m) (hne : m ≠ []) :
    ∃ t, sendBlock d s = .error (.cause c) t ∧
      Went f .sendBlock { s.env.core with datLine := m } (blockSent s.sess.busWidth d) s t := by
  obtain ⟨b, rfl, hcase⟩ := hb
  obtain ⟨t, ht, -, hrun⟩ := sendBlock_token h d (n0 := b.before) (n1 := b.tok0) (n2 := b.tok1) (n3 := b.tok2)
    (n4 := b.after) (l := b.busy ++ m) (by rw [hl]; simp [TokenScript.nibbles]) (by simp [hne])
  change sendBlock d s = (match tokenFault b.status with
    | some c => raise c
    | none => waitNotBusy : Op Unit) t at hrun
  rcases hcase with ⟨hbusy, hcase⟩ | ⟨hstatus, rfl, hcap, hbusy⟩
  · rw [hbusy, List.nil_append] at ht
    have htok : tokenFault b.status = some c := by
      rcases hcase with ⟨h1, rfl⟩ | ⟨h1, rfl⟩ | ⟨h1, h2, h3, rfl⟩
      · rw [h1]; rfl
      · rw [h1]; rfl
      · simp only [tokenFault, h1, h2, h3, if_false]
    exact ⟨t, by rw [hrun, htok]; rfl, ht⟩
  · have htok : tokenFault b.status = none := by rw [hstatus]; rfl
    obtain ⟨u, hru, hu, -⟩ := waitNotBusy_out (h.went ht rfl) (by rw [ht.cfg]; exact hcap) hbusy (m := m) (by rw [ht.env]) hne
    refine ⟨u, by rw [hrun, htok]; exact hru, ?_⟩
    have := ht.trans (hu.mono (G := .sendBlock) rfl)
    rw [ht.env] at this
    simpa using this

/-! ### The loops -/

theorem readLoop_add (k n dest : Nat) :
    readLoop (k + n) dest = (do readLoop k dest; readLoop n (dest + sector * k) : Op Unit) := by
  induction k generalizing dest with
  | zero => simp [readLoop]
  | succ k ih =>
    rw [Nat.add_right_comm, readLoop, readLoop]
    simp only [ih, bind_assoc]
    rw [show dest + sector + sector * k = dest + sector * (k + 1) by rw [Nat.mul_add]; omega]

theorem writeLoop_add (k n src : Nat) :
    writeLoop (k + n) src = (do writeLoop k src; writeLoop n (src + sector * k) : Op Unit) := by
  induction k generalizing src with
  | zero => simp [writeLoop]
  | succ k ih =>
    rw [Nat.add_right_comm, writeLoop, writeLoop]
    simp only [ih, bind_assoc]
    rw [show src + sector + sector * k = src + sector * (k + 1) by rw [Nat.mul_add]; omega]

theorem bufferFits_take {stage buf k n : Nat} (h : bufferFits stage buf n) (hk : k ≤ n) : bufferFits stage buf k := by
  have : sector * k ≤ sector * n := Nat.mul_le_mul_left _ hk
  rcases h with h | h | h
  · exact .inl h
  · exact .inr (.inl h)
  · exact .inr (.inr (by omega))

theorem bufferFits_drop {stage buf k n : Nat} (h : bufferFits stage buf n) (hk : k ≤ n) :
    bufferFits stage (buf + sector * k) (n - k) := by
  have : sector * n = sector * k + sector * (n - k) := by rw [← Nat.mul_add, Nat.add_sub_cancel' hk]
  unfold bufferFits
  rw [direct_add]
  rcases h with h | h | h
  · exact .inl h
  · exact .inr (.inl (by omega))
  · exact .inr (.inr (by omega))

/-- The read loop ends at the first sector that fails (R165, R177). -/
theorem readLoop_fails (h : OnLanes s f) (hr : Ram s) (hcb : s.cb.wf = true) (hb8 : s.sess.bitlen = .b8)
    {blocks : List BlockScript} (hg : ∀ b ∈ blocks, b.good s.cfg (s.cfg.fam f) s.sess.busWidth) {n dest : Nat}
    (hn : blocks.length < n) (hfit : bufferFits s.cfg.stageAddr dest n) {bad : List Nibble}
    (hbad : BadBlock s.cfg (s.cfg.fam f) s.sess.busWidth c bad)
    (hl : s.env.core.datLine = blocks.flatMap BlockScript.lanes ++ (bad ++ m)) (hne : m ≠ []) :
    ∃ t, readLoop n dest s = .error (.cause c) t ∧ Went f .transfer { s.env.core with datLine := m } [] s t := by
  obtain ⟨t, hrt, ht, hst, -⟩ := readLoop_quiet blocks h hr hcb hb8 hg (bufferFits_take hfit (Nat.le_of_lt hn)) hl
    (by simp [hne])
  obtain ⟨u, hru, hu⟩ := receiveBlock_fails (c := c) (h.went ht rfl) (by rw [ht.cfg, hst]; exact hbad) (m := m)
    (by rw [ht.env]) hne
  obtain ⟨k, rfl⟩ : ∃ k, n = blocks.length + (k + 1) := ⟨n - blocks.length - 1, by omega⟩
  refine ⟨u, by rw [readLoop_add, bind_ok hrt, readLoop, bind_error hru], ?_⟩
  have := ht.trans (hu.mono (G := .transfer) rfl)
  rwa [ht.env] at this

/-- What a write puts on the lanes, its last sector apart. -/
theorem blocksSent_last (s : State) (w : Bool) : ∀ (n src : Nat), blocksSent s w (n + 1) src =
    blocksSent s w n src ++ blockSent s.sess.busWidth (placed w (s.hostBytes (src + sector * n) sector))
  | 0, src => by simp [blocksSent]
  | n + 1, src => by
    rw [blocksSent, blocksSent_last s w n (src + sector), blocksSent, List.append_assoc,
      show src + sector + sector * n = src + sector * (n + 1) by rw [Nat.mul_add]; omega]

/-- The write loop ends at the first sector that fails, which went out behind those before it (R166, R177). -/
theorem writeLoop_fails (h : OnLanes s f) (hr : Ram s) (hcb : s.cb.wf = true) (hb8 : s.sess.bitlen = .b8)
    {tokens : List TokenScript} (hg : ∀ b ∈ tokens, b.good (s.cfg.fam f)) {n src : Nat}
    (hn : tokens.length < n) (hfit : bufferFits s.cfg.stageAddr src n) {bad : List Nibble}
    (hbad : BadToken (s.cfg.fam f) c bad)
    (hl : s.env.core.datLine = tokens.flatMap TokenScript.nibbles ++ (bad ++ m)) (hne : m ≠ []) :
    ∃ t, writeLoop n src s = .error (.cause c) t ∧ Went f .transfer { s.env.core with datLine := m }
      (blocksSent s s.byteswap (tokens.length + 1) src) s t := by
  obtain ⟨t, hrt, ht, hst, hramt, hcbt, hswt, hview⟩ := writeLoop_quiet tokens h hr hcb hb8 hg
    (bufferFits_take hfit (Nat.le_of_lt hn)) hl (by simp [hne])
  obtain ⟨k, rfl⟩ : ∃ k, n = tokens.length + (k + 1) := ⟨n - tokens.length - 1, by omega⟩
  have hrest : bufferFits s.cfg.stageAddr (src + sector * tokens.length) (k + 1) := by
    have := bufferFits_drop hfit (Nat.le_of_lt hn)
    rwa [Nat.add_sub_cancel_left] at this
  have h1 := h.went ht rfl
  obtain ⟨u, hru, hu, -, -, hcbu, -⟩ := moveFromRam_quiet h1.port.owner ht.quiet hramt
    (by rw [ht.cfg]; exact bufferFits_head hrest)
  have hbytes : t.hostBytes (src + sector * tokens.length) sector = s.hostBytes (src + sector * tokens.length) sector :=
    hostBytes_congr fun j hj => hview _ ((bufferFits_all (bufferFits_take hrest (show 1 ≤ k + 1 by omega))).imp
      (fun hd => (direct_add src tokens.length).symm.trans hd) fun hd => hd j (by omega))
  have hread : placed u.byteswap (u.cb.readBytes 0 sector) =
      placed s.byteswap (s.hostBytes (src + sector * tokens.length) sector) := by
    have hlen : (t.hostBytes (src + sector * tokens.length) sector).length = sector := by simp [State.hostBytes]
    have := Memory.readBytes_writeBytes hcbt 0 (t.hostBytes (src + sector * tokens.length) sector)
    rw [hlen] at this
    rw [hcbu, this, hbytes, hu.same.swap rfl, hswt]
  obtain ⟨v, hrv, hv⟩ := sendBlock_fails (c := c) (h1.went hu rfl) (placed u.byteswap (u.cb.readBytes 0 sector))
    (by rw [hu.cfg, ht.cfg]; exact hbad) (m := m) (by rw [hu.env, ht.env]) hne
  have hw := ht.trans ((hu.mono (G := .transfer) rfl).trans (hv.mono (G := .transfer) rfl))
  have hwidth : u.sess.busWidth = s.sess.busWidth := by rw [hu.same.session_eq rfl rfl, hst]
  rw [hread, hwidth, hu.env, ht.env, List.nil_append, ← blocksSent_last] at hw
  exact ⟨v, by rw [writeLoop_add, bind_ok hrt, writeLoop, bind_ok hru, bind_ok (takeFromBuffer_run u), bind_error hrv], hw⟩

/-! ### The whole operations -/

/-- The session but for the bit length and the last LBA is as it was. -/
def SameStream (s t : State) : Prop :=
  { t.sess with bitlen := .b8, lastLba := 0 } = { s.sess with bitlen := BitLen.b8, lastLba := 0 }

theorem SameStream.order : Order SameStream := ⟨fun _ => rfl, fun h k => Eq.trans k h⟩

theorem SameStream.of_same (h : SameOn F s t) (hF : F.sess = false) : SameStream s t :=
  congrArg (fun ss : Session => ({ ss with lastLba := 0 } : Session)) (h.sess hF)

theorem SameStream.kept (h : SameStream s t) :
    t.sess.mode = s.sess.mode ∧ t.sess.busWidth = s.sess.busWidth ∧ t.sess.speed = s.sess.speed :=
  have e : ({ t.sess with bitlen := .b8, lastLba := 0 } : Session) = { s.sess with bitlen := .b8, lastLba := 0 } := h
  ⟨congrArg (·.mode) e, congrArg (·.busWidth) e, congrArg (·.speed) e⟩

theorem sameStream_touches {α : Type} {x : Op α} (h : Touches F x) (hF : F.sess = false) : Every SameStream x :=
  .intro (fun _ _ _ hx => .of_same (h.of_ok hx) hF) fun _ _ _ hx => .of_same (h.of_error hx) hF

theorem readLoop_stream (n dest : Nat) : Every SameStream (readLoop n dest) := by
  have o := SameStream.order
  induction n generalizing dest with
  | zero => exact .pure o _
  | succ n ih =>
    exact .bind o (sameStream_touches (touches_receiveBlock _) rfl) fun _ =>
      .bind o (sameStream_touches (touches_moveToRam _) rfl) fun _ => .bind o (.upd fun _ => rfl) fun _ => ih _

theorem writeLoop_stream (n src : Nat) : Every SameStream (writeLoop n src) := by
  have o := SameStream.order
  induction n generalizing src with
  | zero => exact .pure o _
  | succ n ih =>
    exact .bind o (sameStream_touches (touches_moveFromRam _) rfl) fun _ => .bind o (.get' o _) fun _ =>
      .bind o (sameStream_touches (touches_sendBlock _) rfl) fun _ => .bind o (.upd fun _ => rfl) fun _ => ih _

/-- How the body of a transfer fails: what it sent, which registers it wrote, and that width and clock are as they were. -/
structure BodyFailed (f : Family) (out : List Sent) (W : List (Word × Word)) (s t : State) : Prop where
  same : SameOn .transfer s t
  quiet : Quiet t f
  sent : sent t.hist = sent s.hist ++ out
  width : t.sess.busWidth = s.sess.busWidth
  speed : t.sess.speed = s.sess.speed
  wrote : (s.cfg.fam f).portLevel = false → writes t.hist = writes s.hist ++ W

/-- The swap around a transfer that fails is set back and the cause stands (R198). -/
theorem swapTransfer_fails (hb : s.busOwner = .cart f) (hq : Quiet s f) {body : Op Unit} {xs ys ws : List Word}
    (hx : xs.length = aroundWords (s.cfg.fam f) (wrapsTransfer (s.cfg.fam f)))
    (hy : ys.length = aroundWords (s.cfg.fam f) (wrapsTransfer (s.cfg.fam f)))
    (hw : s.env.core.words = xs ++ (ys ++ ws))
    (hne : wrapsTransfer (s.cfg.fam f) = true → (s.cfg.fam f).swapViaCfg = true → ws ≠ [])
    (hnw : Every (NoWrites f) body) (hst : Every SameStream body)
    (hbody : ∀ t, SameOn .cart s t → t.env.core = { s.env.core with words := ys ++ ws } → Quiet t f →
        t.byteswap = (wrapsTransfer (s.cfg.fam f) || s.byteswap) → t.cb = s.cb →
      ∃ u, body t = .error (.cause c) u ∧ Went f .transfer e out t u ∧ u.env.core.words = ys ++ ws) :
    ∃ v, swapTransfer body s = .error (.cause c) v ∧ v.sess.mode = s.sess.mode ∧
      BodyFailed f out (aroundWrites s.cfg f (wrapsTransfer (s.cfg.fam f)) s.byteswap []) s v := by
  cases hwrap : wrapsTransfer (s.cfg.fam f) with
  | true =>
    rw [hwrap] at hx hy hbody
    obtain ⟨t, hon, hd, hsw, hcb⟩ := swapDrive_quiet hb hq true hx hw
      (fun h1 h2 => hne hwrap h1 (List.append_eq_nil_iff.mp h2).2)
    obtain ⟨u, hrun, hu, huw⟩ := hbody t hd.went.same hd.went.env hd.went.quiet (by rw [hsw]; rfl) hcb
    have hcfg : u.cfg = s.cfg := hu.cfg.trans hd.cfg
    have hbt := hd.owner rfl hb
    obtain ⟨v, hoff, hv, -⟩ := swapDrive_quiet ((hu.same.owner rfl).trans hbt) hu.quiet s.byteswap
      (by rw [hcfg]; exact hy) huw (by rw [hcfg]; exact hne hwrap)
    obtain ⟨hmode, hwidth, hspeed⟩ := (SameStream.order.trans (.of_same hd.went.same rfl)
      (SameStream.order.trans (hst.of_cause hrun) (.of_same hv.went.same rfl))).kept
    refine ⟨v, ?_, hmode, (hd.went.same.mono rfl).trans (hu.same.trans (hv.went.same.mono rfl)), hv.went.quiet, ?_, hwidth,
      hspeed, fun hp => ?_⟩
    · simp only [swapTransfer, bind_ok (famParams_run hb), swapAround]
      rw [show ((s.cfg.fam f).hasSwap && (s.cfg.fam f).swapPolicy == SwapPolicy.everyTransfer) = true from hwrap]
      simp only [if_true, get'_bind, bind_ok hon, bind_ok (attempt_cause hrun), bind_ok (bestEffort_ok hoff),
        raise_run]
    · rw [hv.went.sent, hu.sent, hd.went.sent, List.append_nil, List.append_nil]
    · rw [hv.wrote, (hnw.of_cause hrun hbt (by rw [hd.cfg]; exact hp)).2.2, hd.wrote, hcfg]
      simp [aroundWrites]
  | false =>
    rw [hwrap] at hx hy hbody
    have hxs : xs = [] := List.eq_nil_of_length_eq_zero hx
    subst hxs
    obtain ⟨u, hrun, hu, -⟩ := hbody s (.refl _ s) (by rw [← show s.env.core.words = ys ++ ws from hw]) hq (by simp) rfl
    obtain ⟨hmode, hwidth, hspeed⟩ := (hst.of_cause hrun).kept
    refine ⟨u, ?_, hmode, hu.same, hu.quiet, hu.sent, hwidth, hspeed, fun hp => ?_⟩
    · simp only [swapTransfer, bind_ok (famParams_run hb), swapAround]
      rw [show ((s.cfg.fam f).hasSwap && (s.cfg.fam f).swapPolicy == SwapPolicy.everyTransfer) = false from hwrap]
      simp only [Bool.false_eq_true, if_false, hrun]
    · rw [(hnw.of_cause hrun hb hp).2.2]
      simp [aroundWrites]

/-- A transfer on a native wire whose body fails returns the cause: a stream that is open is stopped, whatever the card
answers, the port is reset, and the bus handed back (R168, R199, R270). -/
theorem transfer_aborts (h : Idle s f) (hready : s.sess.ready = true) (ho : (s.cfg.fam f).offload = false)
    (hn : (s.cfg.fam f).wire = .sdNative) {buf lba count arg : Word} (hop : operandRefusal s.cfg buf lba count = none)
    (harg : blockArg s.sess.highCapacity lba = some arg) {offloaded : Word → Op Unit} {body : Op Unit} {open' : Bool}
    (hbody : ∀ t, OnLanes t f → Acquired f s t → t.cfg = s.cfg → t.sess = s.sess → t.env.core = s.env.core →
      ∃ u, body t = .error (.cause c) u ∧ BodyFailed f out W t u ∧ (u.sess.mode != .none) = open') :
    ∃ t, transfer buf lba count offloaded body s = .error (.cause c) t ∧
      (∃ stop, (if open' then stop = frameSent s.cfg 12 0 ∨ stop = commandSent s.cfg 12 0 else stop = []) ∧
        sent t.hist = sent s.hist ++ (out ++ stop)) ∧
      ((s.cfg.fam f).portLevel = false → writes t.hist = writes s.hist ++ (W ++ resetWrites s.cfg f s.sess)) := by
  have run : ∀ t, Acquired f s t → ∃ u w, body t = .error (.cause c) u ∧ SameOn .inside t u ∧
      abortTransfer u = .ok () w ∧ SameOn .inside u w ∧
      (∃ stop, (if open' then stop = frameSent s.cfg 12 0 ∨ stop = commandSent s.cfg 12 0 else stop = []) ∧
        sent w.hist = sent t.hist ++ (out ++ stop)) ∧
      ((s.cfg.fam f).portLevel = false → writes w.hist = writes t.hist ++ (W ++ resetWrites s.cfg f s.sess)) :=
    fun t ht => by
    have htw := ht.quiet h.quiet
    have hcfg := htw.cfg
    have hss : t.sess = s.sess := htw.same.session_eq rfl rfl
    have hlt : OnLanes t f := ⟨⟨ht.owner, by rw [hcfg]; exact ho, htw.quiet⟩, by rw [hcfg]; exact hn⟩
    obtain ⟨u, hru, hu, hopen⟩ := hbody t hlt ht hcfg hss htw.env
    have hcfgu : u.cfg = s.cfg := hu.same.cfg.trans hcfg
    have hlu : OnLanes u f :=
      ⟨⟨(hu.same.owner rfl).trans ht.owner, by rw [hcfgu]; exact ho, hu.quiet⟩, by rw [hcfgu]; exact hn⟩
    obtain ⟨w, hrw, hw, -, ⟨stop, hs, hsent⟩, hwrote⟩ := abortTransfer_sends hlu
    refine ⟨u, w, hru, hu.same.mono rfl, hrw, hw, ⟨stop, ?_, by rw [hsent, hu.sent, List.append_assoc]⟩, fun hp => ?_⟩
    · rw [hcfgu] at hs
      rw [← hopen]
      by_cases hm : u.sess.mode = .none
      · rw [if_pos hm] at hs
        simpa [hm] using hs
      · rw [if_neg hm] at hs
        simpa [hm] using hs
    · rw [hwrote (by rw [hcfgu]; exact hp), hu.wrote (by rw [hcfg]; exact hp), List.append_assoc, hcfgu]
      simp only [resetWrites, hu.width, hu.speed, hss]
  obtain ⟨t, u, w, v, ht, hru, hclean, hv, -, hall⟩ := bracketed_cause (F := .inside) (clean := abortTransfer)
    h.cart h.bus (fun t ht => by
      obtain ⟨u, w, h1, h2, h3, h4, -⟩ := run t ht
      exact ⟨u, w, h1, h2, h3, h4⟩) rfl
  obtain ⟨u', w', h1, -, h3, -, ⟨stop, hs, h5⟩, h6⟩ := run t ht
  rw [hru] at h1
  cases h1
  rw [hclean] at h3
  cases h3
  refine ⟨v, by rw [transfer_native h hready ho hn hop harg, hall], ⟨stop, hs, ?_⟩, fun hp => ?_⟩
  · rw [hv.hist, sent_cfgEvents, h5, ht.hist, sent_cfgEvents]
  · rw [hv.hist, writes_cfgEvents, h6 hp, ht.hist, writes_cfgEvents]

/-- A transfer on a native wire whose loop fails: the stream that was opened is stopped (R168). -/
theorem transfer_fails (h : Idle s f) (hready : s.sess.ready = true) (ho : (s.cfg.fam f).offload = false)
    (hn : (s.cfg.fam f).wire = .sdNative) {buf lba count arg : Word} (hop : operandRefusal s.cfg buf lba count = none)
    {mode : AccessMode} (hopen : mode ≠ .none) (harg : blockArg s.sess.highCapacity lba = some arg)
    (hr : Ram s) (hcb : s.cb.wf = true) (hb8 : s.sess.bitlen = .b8) {b : SwitchScript}
    (hg : b.good s.cfg (s.cfg.fam f) s.sess mode lba) {d : List Nibble}
    (hl : s.env.core.cmdLine = b.bits s.sess mode lba ++ l) (hne : l ≠ [])
    (hd : s.env.core.datLine = b.nibbles s.sess mode lba ++ d) (hdne : d ≠ [])
    {xs ys ws : List Word} (hw : WrapWords s f xs ys ws) {offloaded : Word → Op Unit} {loop : Op Unit}
    (hnw : Every (NoWrites f) loop) (hst : Every SameStream loop)
    (hloop : ∀ t, OnLanes t f → Ram t → t.cb.wf = true → t.cfg = s.cfg → t.sess.busWidth = s.sess.busWidth →
      t.sess.bitlen = .b8 → t.env.core.datLine = d → (∀ b, t.hostByte b = s.hostByte b) →
      t.byteswap = (wrapsTransfer (s.cfg.fam f) || s.byteswap) →
      ∃ u, loop t = .error (.cause c) u ∧ Went f .transfer { t.env.core with datLine := m } out t u) :
    ∃ t, transfer buf lba count offloaded (do ensureMode mode lba; swapTransfer loop) s = .error (.cause c) t ∧
      (∃ stop, (stop = frameSent s.cfg 12 0 ∨ stop = commandSent s.cfg 12 0) ∧
        sent t.hist = sent s.hist ++ (switchSent s.cfg s.sess mode lba arg ++ out ++ stop)) ∧
      ((s.cfg.fam f).portLevel = false → writes t.hist = writes s.hist ++
        (aroundWrites s.cfg f (wrapsTransfer (s.cfg.fam f)) s.byteswap [] ++ resetWrites s.cfg f s.sess)) := by
  refine transfer_aborts h hready ho hn hop harg (open' := true) fun t hlt ht hcfg hss henv => ?_
  have htsame : SameOn .bracket s t := ht.same
  obtain ⟨v, hrv, hv, hsv⟩ := ensureMode_quiet hlt mode (lba := lba) (arg := arg) (b := b)
    (by rw [hss]; exact harg) (by rw [hcfg, hss]; exact hg) (by rw [hss]; exact hb8) (l := l)
    (by rw [henv, hss]; exact hl) hne (m := d) (by rw [henv, hss]; exact hd) hdne
  have hlv := hlt.went hv rfl
  have hcfgv : v.cfg = s.cfg := hv.cfg.trans hcfg
  have hswv : v.byteswap = s.byteswap := (hv.same.swap rfl).trans (htsame.swap rfl)
  obtain ⟨u, hru, hmode, hu⟩ := swapTransfer_fails (c := c) (body := loop) (e := { v.env.core with
      words := ys ++ ws, datLine := m }) (out := out) hlv.port.owner hv.quiet
    (by rw [hcfgv]; exact hw.before) (by rw [hcfgv]; exact hw.after) (by rw [hv.env, henv]; exact hw.words)
    (by rw [hcfgv]; exact hw.more) hnw hst fun z hz hze hzq hzsw hzcb => by
      have hzcfg : z.cfg = s.cfg := hz.cfg.trans hcfgv
      have hzss : z.sess = v.sess := hz.session_eq rfl rfl
      obtain ⟨u, hru, hu⟩ := hloop z
        ⟨⟨(hz.owner rfl).trans hlv.port.owner, by rw [hzcfg]; exact ho, hzq⟩, by rw [hzcfg]; exact hn⟩
        (((hr.of_same htsame rfl).of_same hv.same rfl).of_same hz rfl)
        (by rw [hzcb, hv.same.buffer rfl, htsame.buffer rfl]; exact hcb) hzcfg (by rw [hzss, hsv, hss])
        (by rw [hzss, hsv, hss]; exact hb8) (by rw [hze, hv.env])
        (fun b => (hostByte_same hz rfl b).trans ((hostByte_same hv.same rfl b).trans (hostByte_same htsame rfl b)))
        (by rw [hzsw, hcfgv, hswv])
      rw [hze] at hu
      exact ⟨u, hru, hu, by rw [hu.env]⟩
  obtain ⟨-, hnv, hwv⟩ : v.busOwner = .cart f ∧ v.cfg = t.cfg ∧
      ((t.cfg.fam f).portLevel = false → writes v.hist = writes t.hist) :=
    ⟨hlv.port.owner, hv.cfg, fun hp => ((noWrites_ensureMode _ _).of_ok hrv hlt.port.owner hp).2.2⟩
  rw [hcfgv, hswv] at hu
  refine ⟨u, by rw [bind_ok hrv, hru], ⟨(hv.same.mono rfl).trans hu.same, hu.quiet, ?_, ?_, ?_, fun hp => ?_⟩, ?_⟩
  · rw [hu.sent, hv.sent, hcfg, hss, List.append_assoc]
  · rw [hu.width, hsv]
  · rw [hu.speed, hsv]
  · rw [hu.wrote (by rw [hnv]; exact hp), hwv hp]
  · rw [hmode, hsv]
    simpa using hopen

/-- `ensure_mode` whose opening command fails leaves no stream open (R164). -/
theorem ensureMode_unopened (h : OnLanes s f) {mode : AccessMode} {lba : Word}
    (ha : blockArg s.sess.highCapacity lba = some arg) (hsw : needsSwitch s.sess mode lba = true) {b : SwitchScript}
    (hg : stopsFirst s.sess mode lba = true → b.stop.good s.cfg .sdNative false 12 ∧ BusyOnLanes (s.cfg.fam f) b.busy)
    (hc : CommandFails s.cfg .sdNative false (openIndex mode) arg c bits out)
    (hl : s.env.core.cmdLine = (if stopsFirst s.sess mode lba then b.stop.wire else []) ++ (bits ++ l)) (hne : l ≠ [])
    (hd : s.env.core.datLine = b.nibbles s.sess mode lba ++ m) (hm : m ≠ []) :
    ∃ t, ensureMode mode lba s = .error (.cause c) t ∧ Went f .command { s.env.core with cmdLine := l, datLine := m }
      ((if stopsFirst s.sess mode lba then commandSent s.cfg 12 0 else []) ++ out) s t ∧
      t.sess = { s.sess with bitlen := .b8, mode := .none } := by
  have opens : ∀ {u : State}, OnLanes u f → u.cfg = s.cfg → u.sess.highCapacity = s.sess.highCapacity →
      u.env.core.cmdLine = bits ++ l → ∃ t, enterMode mode lba u = .error (.cause c) t ∧
        Went f .exchange { u.env.core with cmdLine := l } out u t ∧ t.sess = { u.sess with bitlen := .b8 } :=
    fun hu hcfg hcap hline => by
      obtain ⟨t, hr, ht⟩ := executeCommand_fails (c := c) hu.port (by rw [hu.native, hcfg]; exact hc) hline hne
      exact ⟨t, by simp only [openIndex_enter, openAt, openStream, get'_bind, hcap, ha, bind_error hr], ht⟩
  by_cases hmode : s.sess.mode = .none
  · have hst : stopsFirst s.sess mode lba = false := by simp [stopsFirst, hmode]
    simp only [SwitchScript.nibbles, hst, Bool.false_eq_true, if_false, List.nil_append] at hl hd
    obtain ⟨t, hr, ht, hs⟩ := opens h rfl rfl hl
    refine ⟨t, ?_, ?_, by rw [hs, ← hmode]⟩
    · simp only [ensureMode, get'_bind]
      rw [onlyIf_true hsw, bind_ok (onlyIf_false (by simp [hmode]) _), hr]
    · rw [← show s.env.core.datLine = m from hd]
      simpa [hst] using ht.mono (G := .command) rfl
  · have hst : stopsFirst s.sess mode lba = true := by simp [stopsFirst, hsw, hmode]
    obtain ⟨hstop, hbusy⟩ := hg hst
    simp only [SwitchScript.nibbles, hst, if_true] at hl hd
    obtain ⟨t, hr, hw, hs, -⟩ := stopStream_quiet h (a := b.stop) (by rw [h.native]; exact hstop) hl (by simp [hne]) hbusy
      hd hm
    obtain ⟨u, hru, hu, hsu⟩ := opens (h.went hw rfl) hw.cfg (by rw [hs]) (by rw [hw.env])
    refine ⟨u, ?_, ?_, by rw [hsu, hs]⟩
    · simp only [ensureMode, get'_bind]
      rw [onlyIf_true hsw, bind_ok ((onlyIf_true (by simp [hmode]) _).trans hr), hru]
    · have := hw.trans (hu.mono (G := .command) rfl)
      rw [hw.env] at this
      simpa [hst] using this

/-- A transfer whose opening command fails sends no CMD12 behind it: no stream is open (R164, R168). -/
theorem transfer_unopened (h : Idle s f) (hready : s.sess.ready = true) (ho : (s.cfg.fam f).offload = false)
    (hn : (s.cfg.fam f).wire = .sdNative) {buf lba count arg : Word} (hop : operandRefusal s.cfg buf lba count = none)
    {mode : AccessMode} (harg : blockArg s.sess.highCapacity lba = some arg)
    (hsw : needsSwitch s.sess mode lba = true) {b : SwitchScript}
    (hg : stopsFirst s.sess mode lba = true → b.stop.good s.cfg .sdNative false 12 ∧ BusyOnLanes (s.cfg.fam f) b.busy)
    (hc : CommandFails s.cfg .sdNative false (openIndex mode) arg c bits out)
    (hl : s.env.core.cmdLine = (if stopsFirst s.sess mode lba then b.stop.wire else []) ++ (bits ++ l)) (hne : l ≠ [])
    (hd : s.env.core.datLine = b.nibbles s.sess mode lba ++ m) (hm : m ≠ [])
    {offloaded : Word → Op Unit} {body : Op Unit} :
    ∃ t, transfer buf lba count offloaded (do ensureMode mode lba; body) s = .error (.cause c) t ∧
      sent t.hist = sent s.hist ++ ((if stopsFirst s.sess mode lba then commandSent s.cfg 12 0 else []) ++ out) ∧
      ((s.cfg.fam f).portLevel = false → writes t.hist = writes s.hist ++ resetWrites s.cfg f s.sess) := by
  obtain ⟨t, hrun, ⟨stop, hs, hsent⟩, hw⟩ := transfer_aborts h hready ho hn hop harg (open' := false) (W := [])
    (out := (if stopsFirst s.sess mode lba then commandSent s.cfg 12 0 else []) ++ out)
    (body := do ensureMode mode lba; body) (offloaded := offloaded) (c := c) fun t hlt ht hcfg hss henv => by
      obtain ⟨u, hru, hu, hsu⟩ := ensureMode_unopened hlt (mode := mode) (lba := lba) (arg := arg) (c := c) (b := b)
        (bits := bits) (out := out) (by rw [hss]; exact harg) (by rw [hss]; exact hsw) (by rw [hss, hcfg]; exact hg)
        (by rw [hcfg]; exact hc) (l := l) (by rw [henv, hss]; exact hl) hne (m := m) (by rw [henv, hss]; exact hd) hm
      refine ⟨u, bind_error hru, ⟨hu.same.mono rfl, hu.quiet, by rw [hu.sent, hss, hcfg], by rw [hsu], by rw [hsu],
        fun hp => ?_⟩, by rw [hsu]; rfl⟩
      rw [List.append_nil]
      exact ((noWrites_ensureMode _ _).of_cause hru hlt.port.owner hp).2.2
  simp only [Bool.false_eq_true, if_false] at hs
  subst hs
  exact ⟨t, hrun, by rw [hsent, List.append_nil], fun hp => by rw [hw hp, List.nil_append]⟩

/-- `card_read` returns the cause of the sector that fails (R165, R168, R177). -/
theorem cardRead_fails {dest lba count arg : Word} (h : CanTransfer s f dest lba count)
    (ho : (s.cfg.fam f).offload = false) (hn : (s.cfg.fam f).wire = .sdNative) (hb8 : s.sess.bitlen = .b8)
    (harg : blockArg s.sess.highCapacity lba = some arg) {b : SwitchScript}
    (hg : b.good s.cfg (s.cfg.fam f) s.sess .blockRead lba) {blocks : List BlockScript} (hlen : blocks.length < count.toNat)
    (hgood : ∀ b ∈ blocks, b.good s.cfg (s.cfg.fam f) s.sess.busWidth) {bad : List Nibble}
    (hbad : BadBlock s.cfg (s.cfg.fam f) s.sess.busWidth c bad)
    (hl : s.env.core.cmdLine = b.bits s.sess .blockRead lba ++ l) (hne : l ≠ [])
    (hd : s.env.core.datLine = b.nibbles s.sess .blockRead lba ++ (blocks.flatMap BlockScript.lanes ++ (bad ++ m)))
    (hm : m ≠ []) {xs ys ws : List Word} (hw : WrapWords s f xs ys ws) :
    ∃ t, cardRead dest lba count s = .error (.cause c) t ∧
      (∃ stop, (stop = frameSent s.cfg 12 0 ∨ stop = commandSent s.cfg 12 0) ∧
        sent t.hist = sent s.hist ++ (switchSent s.cfg s.sess .blockRead lba arg ++ stop)) ∧
      ((s.cfg.fam f).portLevel = false → writes t.hist = writes s.hist ++
        (aroundWrites s.cfg f (wrapsTransfer (s.cfg.fam f)) s.byteswap [] ++ resetWrites s.cfg f s.sess)) := by
  have := transfer_fails (m := m) (out := []) h.idle h.ready ho hn h.operands (mode := .blockRead) (by decide) harg h.ram h.cb
    hb8 hg hl hne hd (by simp [hm]) hw (offloaded := fun buf => offloadReadLoop buf count.toNat lba dest.toNat)
    (noWrites_readLoop _ _) (readLoop_stream _ _) (c := c)
    fun t hlt hrt hcbt hcfg hwid hb8t hline _ _ => readLoop_fails (c := c) hlt hrt hcbt hb8t (by rw [hcfg, hwid]; exact hgood)
      hlen (by rw [hcfg]; exact (noRefusal h.operands).2.2.2) (by rw [hcfg, hwid]; exact hbad) hline hm
  simp only [List.append_nil] at this
  exact this

/-- `card_write` returns the cause of the sector that fails (R166, R168, R177). -/
theorem cardWrite_fails {src lba count arg : Word} (h : CanTransfer s f src lba count)
    (ho : (s.cfg.fam f).offload = false) (hn : (s.cfg.fam f).wire = .sdNative) (hb8 : s.sess.bitlen = .b8)
    (harg : blockArg s.sess.highCapacity lba = some arg) {b : SwitchScript}
    (hg : b.good s.cfg (s.cfg.fam f) s.sess .blockWrite lba) {tokens : List TokenScript} (hlen : tokens.length < count.toNat)
    (hgood : ∀ b ∈ tokens, b.good (s.cfg.fam f)) {bad : List Nibble} (hbad : BadToken (s.cfg.fam f) c bad)
    (hl : s.env.core.cmdLine = b.bits s.sess .blockWrite lba ++ l) (hne : l ≠ [])
    (hd : s.env.core.datLine = b.nibbles s.sess .blockWrite lba ++ (tokens.flatMap TokenScript.nibbles ++ (bad ++ m)))
    (hm : m ≠ []) {xs ys ws : List Word} (hw : WrapWords s f xs ys ws) :
    ∃ t, cardWrite src lba count s = .error (.cause c) t ∧
      (∃ stop, (stop = frameSent s.cfg 12 0 ∨ stop = commandSent s.cfg 12 0) ∧
        sent t.hist = sent s.hist ++ (switchSent s.cfg s.sess .blockWrite lba arg ++
          blocksSent s (wrapsTransfer (s.cfg.fam f) || s.byteswap) (tokens.length + 1) src.toNat ++ stop)) ∧
      ((s.cfg.fam f).portLevel = false → writes t.hist = writes s.hist ++
        (aroundWrites s.cfg f (wrapsTransfer (s.cfg.fam f)) s.byteswap [] ++ resetWrites s.cfg f s.sess)) :=
  transfer_fails (m := m) h.idle h.ready ho hn h.operands (mode := .blockWrite) (by decide) harg h.ram h.cb hb8 hg hl hne hd
    (by simp [hm]) hw (noWrites_writeLoop _ _) (writeLoop_stream _ _) fun t hlt hrt hcbt hcfg hwid hb8t hline hview hsw => by
      have := writeLoop_fails (c := c) hlt hrt hcbt hb8t (by rw [hcfg]; exact hgood) hlen
        (by rw [hcfg]; exact (noRefusal h.operands).2.2.2) (by rw [hcfg]; exact hbad) hline hm
      rwa [hsw, blocksSent_congr (s := s) _ hwid _ _ fun j _ => hview _] at this

end Sys2Proof.Machine
end

