-- ==== Sys2Proof/Laws/FailedBringUp.lean ====
section
/-! SUPPORT. A bring-up over the wire step by step, in an environment that answers at once: how far it gets, which registers
it writes, and how it ends where a step fails (43_card_sequencer.md R160, R162). -/

namespace Sys2Proof.Machine

variable {α : Type} {f : Family} {F G : Foot} {s t u : State} {e e' : Env} {out out' : List Sent} {W W' : List (Word × Word)}
  {bits l : List Bool} {m : List Nibble} {c : Cause} {app : Bool} {idx : BitVec 6} {arg : Word} {rca : Half} {v2 : Bool}

/-! ### Commands that fail -/

/-- A command that fails behind its prefix, or with it (R123). -/
theorem sendAppCommand_fails (h : OnPort s f) (hk : (respKind idx true).isNone = false)
    (hc : AppCommandFails s.cfg (s.cfg.fam f).wire idx rca arg c bits out)
    (hl : s.env.core.cmdLine = bits ++ l) (hne : l ≠ []) :
    ∃ t, sendAppCommand idx rca arg s = .error (.cause c) t ∧
      Went f .exchange { s.env.core with cmdLine := l } out s t ∧ t.sess = { s.sess with bitlen := .b8 } := by
  cases hc with
  | atPrefix _ _ _ hc =>
    obtain ⟨t, hr, ht⟩ := executeCommand_fails h hc hl hne
    exact ⟨t, by simp only [sendAppCommand, bind_ok (sdPort_run h), bind_ok (onlyIf_false hk _), bind_error hr], ht⟩
  | atCommand a _ bits out ha hc =>
    obtain ⟨t, hr, ht⟩ := executeCommand_good h (arg := rcaArg rca) ha (l := bits ++ l) (by simpa using hl) (by simp [hne])
    obtain ⟨u, hru, hu, hs⟩ := executeCommand_fails (h.went ht.went rfl) (by rw [ht.went.cfg]; exact hc) (l := l)
      (by rw [ht.went.env]) hne
    refine ⟨u, by simp only [sendAppCommand, bind_ok (sdPort_run h), bind_ok (onlyIf_false hk _), bind_ok hr, hru], ?_,
      by rw [hs, ht.session]⟩
    have := ht.went.trans hu
    rwa [ht.went.env] at this

/-- CMD8 that fails (R137, R162). -/
theorem voltageCheck_fails (h : OnPort s f) (hc : VoltageFails s.cfg (s.cfg.fam f).wire c bits out)
    (hl : s.env.core.cmdLine = bits ++ l) (hne : l ≠ []) :
    ∃ t, voltageCheck s = .error (.cause c) t ∧
      Went f .exchange { s.env.core with cmdLine := l } out s t ∧ t.sess = { s.sess with bitlen := .b8 } := by
  cases hc with
  | echo a ha hv =>
    have hspi : (s.cfg.fam f).wire = .spi → spiIllegal (a.bytes.getD 0 0) = false := fun hw => by
      by_contra hcon
      rw [voltVersion, if_pos ⟨hw, by simpa using hcon⟩] at hv
      cases hv
    obtain ⟨t, ht, hr⟩ := voltageCheck_echo h ha hspi hl hne
    refine ⟨t, ?_, ht.went, ht.session⟩
    rw [hr, if_neg]
    intro he
    simp only [voltVersion, he, if_true] at hv
    split at hv <;> cases hv
  | check _ _ _ h1 h2 hc =>
    obtain ⟨t, hr, ht⟩ := executeCommand_fails h hc hl hne
    refine ⟨t, ?_, ht⟩
    simp only [voltageCheck, bind_ok (sdPort_run h), bind_ok (attempt_cause hr), raise_run]

/-- Rounds of the poll that say not ready (R138). -/
theorem pollLoop_waits {mark : Nat → Op Unit} (hF : Foot.command.le F = true) (hFb : F.bus = false)
    (hm : ∀ k s, Quiet s f → ∃ t, mark k s = .ok () t ∧ Went f F s.env.core [] s t ∧ t.sess = s.sess ∧
      t.env = s.env)
    (rounds : List (Answer × Answer)) : ∀ {s : State} (_ : OnPort s f) (_ : s.sess.bitlen = .b8)
    (_ : ∀ r ∈ rounds, roundGood s.cfg (s.cfg.fam f).wire r ∧ saysReady (s.cfg.fam f).wire r.2 = false)
    {n k : Nat} (_ : s.env.core.cmdLine = rounds.flatMap (fun r => r.1.wire ++ r.2.wire) ++ l) (_ : l ≠ []),
    ∃ t, pollLoop mark arg (s.cfg.fam f).wire (rounds.length + n) k s =
        pollLoop mark arg (s.cfg.fam f).wire n (k + rounds.length) t ∧
      Went f F { s.env.core with cmdLine := l } ((List.replicate rounds.length (roundSent s.cfg arg)).flatten) s t ∧
      t.sess = s.sess := by
  induction rounds with
  | nil =>
    intro s h hb _ n k hl _
    refine ⟨s, by simp, ?_, rfl⟩
    rw [cmdLine_same (l := l) (by simpa using hl)]
    exact .refl _ h.quiet
  | cons r rounds ih =>
    intro s h hb hw n k hl hne
    obtain ⟨s0, hr0, hw0, hs0, he0⟩ := hm k s h.quiet
    have h0 := h.went hw0 hFb
    obtain ⟨hg, hno⟩ := hw r (.head _)
    obtain ⟨t, u, hr1, hr2, hu, hsess⟩ := round_quiet h0 (arg := arg) (r := r)
      (l := rounds.flatMap (fun r => r.1.wire ++ r.2.wire) ++ l)
      (by rw [hw0.cfg]; exact hg) (by rw [hw0.env]; simpa using hl) (by simp [hne])
    rw [hw0.cfg] at hr2 hu hsess
    rw [hno, if_neg (by decide), hs0, ← hb] at hsess
    have hwu := hw0.trans (hu.mono hF)
    have hcfg := hwu.cfg
    obtain ⟨v, hr3, hv, hsessv⟩ := ih (s := u) (h.went hwu hFb) (by rw [hsess]; exact hb)
      (fun x hx => by rw [hcfg]; exact hw x (.tail _ hx)) (n := n) (k := k + 1) (by rw [hwu.env]) hne
    rw [hcfg] at hr3 hv
    refine ⟨v, ?_, ?_, hsessv.trans hsess⟩
    · rw [List.length_cons, Nat.add_right_comm, pollLoop]
      simp only [bind_ok hr0, bind_ok hr1, bind_ok hr2, hno, Bool.false_eq_true, if_false, hr3]
      rw [Nat.add_right_comm, Nat.add_assoc]
    · have := hwu.trans hv
      rw [hwu.env, hw0.env] at this
      simpa [List.replicate_succ] using this

/-- The poll that fails: its cap, or a round (R138). -/
theorem readyPoll_fails {mark : Nat → Op Unit} (hF : Foot.command.le F = true) (hFb : F.bus = false)
    (hm : ∀ k s, Quiet s f → ∃ t, mark k s = .ok () t ∧ Went f F s.env.core [] s t ∧ t.sess = s.sess ∧
      t.env = s.env)
    (h : OnPort s f) (hb : s.sess.bitlen = .b8) (hc : PollFails s.cfg (s.cfg.fam f).wire arg c bits out)
    (hl : s.env.core.cmdLine = bits ++ l) (hne : l ≠ []) :
    ∃ t, pollReady mark arg s = .error (.cause c) t ∧ Went f F { s.env.core with cmdLine := l } out s t ∧
      t.sess = s.sess := by
  have start : pollReady mark arg s = pollLoop mark arg (s.cfg.fam f).wire s.cfg.acmd41Max 0 s := by
    simp only [pollReady, bind_ok (sdPort_run h), get'_bind]
  rw [start]
  cases hc with
  | absent rounds hn hw =>
    obtain ⟨t, hr, ht, hs⟩ := pollLoop_waits hF hFb hm rounds h hb hw (arg := arg) (n := 0) (k := 0) hl hne
    rw [hn, Nat.add_zero] at hr
    exact ⟨t, by rw [hr]; rfl, ht, hs⟩
  | round rounds _ bits out hn hw hc =>
    obtain ⟨n, hn⟩ : ∃ n, s.cfg.acmd41Max = rounds.length + (n + 1) := ⟨s.cfg.acmd41Max - rounds.length - 1, by omega⟩
    obtain ⟨t, hr, ht, hs⟩ := pollLoop_waits hF hFb hm rounds h hb hw (arg := arg) (n := n + 1) (k := 0) (l := bits ++ l)
      (by simpa using hl) (by simp [hne])
    obtain ⟨v, hrv, hv, hsv, -⟩ := hm (0 + rounds.length) t ht.quiet
    have hvw := ht.trans hv
    rw [ht.env] at hvw
    obtain ⟨u, hru, hu, hsu⟩ := sendAppCommand_fails (h.went hvw hFb) rfl (by rw [hvw.cfg]; exact hc) (l := l)
      (by rw [hvw.env]) hne
    refine ⟨u, ?_, ?_, by rw [hsu, hsv, hs, ← hb]⟩
    · rw [hn, hr, pollLoop, bind_ok hrv, bind_error hru]
    · have := hvw.trans ((hu.mono (G := .command) rfl).mono hF)
      rw [hvw.env] at this
      simpa using this

/-! ### What a run wrote -/

/-- What a run did, with the register writes it made where the port is not modelled by its registers. -/
structure Ran (f : Family) (F : Foot) (e : Env) (out : List Sent) (W : List (Word × Word)) (s t : State) : Prop where
  went : Went f F e out s t
  wrote : (s.cfg.fam f).portLevel = false → writes t.hist = writes s.hist ++ W

theorem Ran.trans (h : Ran f F e out W s t) (k : Ran f F e' out' W' t u) : Ran f F e' (out ++ out') (W ++ W') s u :=
  ⟨h.went.trans k.went, fun hp => by
    rw [k.wrote (by rw [h.went.cfg]; exact hp), h.wrote hp, List.append_assoc]⟩

theorem Ran.mono (h : Ran f F e out W s t) (hle : F.le G = true) : Ran f G e out W s t := ⟨h.went.mono hle, h.wrote⟩

/-- A run that wrote nothing. -/
theorem Ran.of (hw : Went f F e out s t) (hn : NoWrites f s t) (hb : s.busOwner = .cart f) : Ran f F e out [] s t :=
  ⟨hw, fun hp => by rw [(hn hb hp).2.2, List.append_nil]⟩

/-- From `s`, a bring-up got to `t`, where `rest` is left of it. -/
structure Reached (f : Family) (x rest : Op Unit) (e : Env) (out : List Sent) (W : List (Word × Word)) (s t : State) :
    Prop where
  runs : x s = rest t
  ran : Ran f .bringUp e out W s t

/-- One more of its operations completes. -/
theorem Reached.ok {x : Op Unit} {y : Op α} {k : α → Op Unit} {a : α} (h : Reached f x (y >>= k) e out W s t)
    (hy : y t = .ok a u) (hr : Ran f .bringUp e' out' W' t u) : Reached f x (k a) e' (out ++ out') (W ++ W') s u :=
  ⟨by rw [h.runs, bind_ok hy], h.ran.trans hr⟩

/-- One of its operations fails, and the bring-up with it. -/
theorem Reached.fails {x : Op Unit} {y : Op α} {k : α → Op Unit} (h : Reached f x (y >>= k) e out W s t)
    (hy : y t = .error (.cause c) u) (hr : Ran f .bringUp e' out' W' t u) :
    x s = .error (.cause c) u ∧ Ran f .bringUp e' (out ++ out') (W ++ W') s u :=
  ⟨by rw [h.runs, bind_error hy], h.ran.trans hr⟩

/-- Its last operation. -/
theorem Reached.last {x y : Op Unit} {r : EStateM.Result Halt State Unit} (h : Reached f x y e out W s t) (hy : y t = r)
    (hr : Ran f .bringUp e' out' W' t u) : x s = r ∧ Ran f .bringUp e' (out ++ out') (W ++ W') s u :=
  ⟨by rw [h.runs, hy], h.ran.trans hr⟩

/-- The step is recorded (10_state.md R40). -/
theorem setBringUpSeq_ran (hb : s.busOwner = .cart f) (hq : Quiet s f) (x : BringUpSeq) :
    ∃ t, setBringUpSeq x s = .ok () t ∧ Ran f .bringUp s.env.core [] [] s t ∧ t.sess = s.sess := by
  obtain ⟨t, hr, hw, hs, -⟩ := setBringUpSeq_quiet hq x
  exact ⟨t, hr, .of hw ((noWrites_setBringUpSeq x).of_ok hr) hb, hs⟩

theorem Reached.mark {x : Op Unit} {q : BringUpSeq} {k : Unit → Op Unit} (h : Reached f x (setBringUpSeq q >>= k) e out W s t)
    (hb : s.busOwner = .cart f) : ∃ u, Reached f x (k ()) e out W s u ∧ u.sess = t.sess := by
  obtain ⟨u, hr, hu, hs⟩ := setBringUpSeq_ran ((h.ran.went.same.owner rfl).trans hb) h.ran.went.quiet q
  have := h.ok hr hu
  rw [h.ran.went.env, List.append_nil, List.append_nil] at this
  exact ⟨u, this, hs⟩

/-- ACMD6 writes `SD_CFG` once (R143, R193). -/
theorem widenBus_ran (h : OnPort s f) {a b : Answer} (ha : a.good s.cfg (s.cfg.fam f).wire false 55)
    (hb : b.good s.cfg (s.cfg.fam f).wire true 6) (hl : s.env.core.cmdLine = a.wire ++ (b.wire ++ l)) (hne : l ≠ []) :
    ∃ t, widenBus s = .ok () t ∧ Ran f .command { s.env.core with cmdLine := l }
        (commandSent s.cfg 55 (rcaArg s.sess.rca) ++ commandSent s.cfg 6 argAcmd6)
        [configWrite s.cfg f .w4 s.sess.speed] s t ∧
      t.sess = { s.sess with bitlen := .b8, busWidth := .w4 } := by
  obtain ⟨t, hr, hw, hs⟩ := widenBus_quiet h ha hb hl hne
  refine ⟨t, hr, ⟨hw, fun hp => ?_⟩, hs⟩
  obtain ⟨u, hr1, hu⟩ := sendAppCommand_quiet h (rca := s.sess.rca) (arg := argAcmd6) ha hb hl hne
  obtain ⟨v, hr2, hv, -, hh⟩ := reconfigure_quiet (h.went hu.went rfl) fun ss => { ss with busWidth := .w4 }
  have hn := ((noWrites_sendAppCommand 6 s.sess.rca argAcmd6).of_ok hr1 h.owner hp).2.2
  simp only [widenBus, get'_bind, bind_ok hr1, hr2] at hr
  cases hr
  simp only [hh, writes_cons, hn, Event.written, hu.session, hu.went.cfg, Option.toList, configWrite]

/-- CMD6 writes `SD_CFG` once (R144, R193). -/
theorem highSpeed_ran (h : OnLanes s f) {a : Answer} (ha : a.good s.cfg (s.cfg.fam f).wire false 6)
    (hl : s.env.core.cmdLine = a.wire ++ l) (hne : l ≠ []) {d tr : List Byte} {ns : List Nibble}
    (hd : d.length = 64) (hb : BlockOnLanes (s.cfg.fam f) s.sess.busWidth d tr ns)
    (hdat : s.env.core.datLine = ns ++ m) (hm : m ≠ []) :
    ∃ t, highSpeed s = .ok () t ∧ Ran f .command { s.env.core with cmdLine := l, datLine := m }
        (commandSent s.cfg 6 argCmd6) [configWrite s.cfg f s.sess.busWidth .fast] s t ∧
      t.sess = { s.sess with bitlen := .b8, speed := .fast } := by
  obtain ⟨t, hr, hw, hs, -⟩ := highSpeed_quiet h ha hl hne hd hb hdat hm
  refine ⟨t, hr, ⟨hw, fun hp => ?_⟩, hs⟩
  obtain ⟨u, hr1, hu⟩ := executeCommand_good h.port (arg := argCmd6) ha hl hne
  have hwid : u.sess.busWidth = s.sess.busWidth := by rw [hu.session]
  have hlu := h.went hu.went rfl
  obtain ⟨v, hv, hlen, hcase⟩ := receiveBlock_quiet hlu (d := d) (t := tr) (ns := ns)
    (by rw [hu.went.cfg, hwid]; exact hb) (l := m) (by rw [hu.went.env]; exact hdat) hm
  have hne512 : d.length ≠ sector := by rw [hd]; decide
  rw [if_neg (by simp [hne512]), hd] at hcase
  have hr2 := hcase.1
  have hv : Went f .clocked { u.env.core with datLine := m } [] u v :=
    ⟨(touches_receiveOther (n := 64) rfl).of_ok hr2, hv.env, hv.sent, hv.quiet⟩
  obtain ⟨w, hr3, hw3, -, hh⟩ := reconfigure_quiet (hlu.went hv rfl).port fun ss => { ss with speed := .fast }
  have hn1 := ((noWrites_executeCommand false 6 argCmd6).of_ok hr1 h.port.owner hp).2.2
  have hn2 := ((noWrites_receiveBlock 64).of_ok hr2 hlu.port.owner (by rw [hu.went.cfg]; exact hp)).2.2
  have hsv : v.sess = { s.sess with bitlen := .b8 } := by rw [hv.same.session rfl, hlen hu.bytes, hu.session]
  simp only [highSpeed, bind_ok (datPort_run h), bind_ok hr1, bind_ok hr2, hr3] at hr
  cases hr
  simp only [hh, writes_cons, hn2, hn1, Event.written, hsv, hv.cfg, hu.went.cfg, Option.toList, configWrite]

/-! ### The native bring-up -/

/-- What is left of the native bring-up at a step, the poll's argument being that of a version (R160). -/
def nativeRest (p : Params) (v2 : Bool) : NativeStep → Op Unit
  | .volt => fromVolt
  | .poll => fromPoll
  | .cid => fromCid
  | .rca => fromRca
  | .select => fromSelect
  | .width => fromWidth
  | .speed => fromSpeed
where
  fromSpeed : Op Unit := do
    setBringUpSeq .speed
    highSpeed
  fromWidth : Op Unit := do
    setBringUpSeq .width
    widenBus
    fromSpeed
  fromSelect : Op Unit := do
    onlyIf p.useSelect do
      setBringUpSeq .select
      let rca ← get' fun s => s.sess.rca
      selectCard rca
    fromWidth
  fromRca : Op Unit := do
    setBringUpSeq .rca
    publishRca
    fromSelect
  fromCid : Op Unit := do
    setBringUpSeq .cid
    readCid
    fromRca
  fromPoll : Op Unit := do
    pollReady (fun k => setBringUpSeq (.opcond k)) (p.acmd41Arg v2)
    fromCid
  fromVolt : Op Unit := do
    setBringUpSeq .volt
    let v2 ← voltageCheck
    pollReady (fun k => setBringUpSeq (.opcond k)) (p.acmd41Arg v2)
    fromCid

/-- The register writes of a native bring-up before a step: those of ACMD6 (R143). -/
def nativeWrites (p : Params) (f : Family) (x : NativeStep) : List (Word × Word) :=
  if .width ∈ x.before then [configWrite p f .w4 .slow] else []

/-- A native bring-up got to a step. -/
def NativeReached (f : Family) (b : NativeScript) (v2 : Bool) (s : State) (x : NativeStep) : Prop :=
  ∀ {l : List Bool} {m : List Nibble}, s.env.core.cmdLine = b.bitsBefore s.cfg x ++ l → l ≠ [] →
    s.env.core.datLine = b.nibblesBefore s.cfg x ++ m → m ≠ [] →
    ∃ t, Reached f nativeBringUp (nativeRest s.cfg v2 x) { s.env.core with cmdLine := l, datLine := m }
      (b.sentBefore s.cfg v2 x) (nativeWrites s.cfg f x) s t ∧ t.sess = b.sessionAt s.sess x

variable {b : NativeScript}

/-- CMD0 is behind it (R136). -/
theorem native_volt (h : OnLanes s f) (hs : s.sess = s.sess.cleared) : NativeReached f b v2 s .volt := by
  intro l m hl hne hd hm
  have hn := h.native
  obtain ⟨s0, hr0, hw0, hs0⟩ := setBringUpSeq_ran h.port.owner h.port.quiet .idle
  have hp0 := h.went hw0.went rfl
  obtain ⟨s1, hr1, hx1⟩ := executeCommand_good hp0.port (app := false) (idx := 0) (arg := 0) (a := ⟨0, []⟩)
    (l := l)
    ⟨.none, rfl, ⟨by rw [hw0.went.cfg, hn]; rfl, by rw [hw0.went.cfg, hn]; simp [respLength, SdKind.nativeLength]⟩,
      responseFault_noResponse _ _ _ _⟩ (by rw [hw0.went.env, hl]; simp [Answer.wire, NativeScript.bitsBefore, NativeStep.before]) hne
  have hx := Ran.of (hx1.went.mono (G := .bringUp) rfl) ((noWrites_executeCommand false 0 0).of_ok hr1) hp0.port.owner
  have hall := hw0.trans hx
  rw [hw0.went.env, hw0.went.cfg] at hall
  have hdat : s.env.core.datLine = m := by simpa [NativeScript.nibblesBefore, NativeStep.before] using hd
  refine ⟨s1, ⟨?_, ?_⟩, ?_⟩
  · simp only [nativeBringUp, get'_bind, bind_ok hr0, goIdle, bind_ok hr1]
    rfl
  · rw [← hdat]
    simpa [NativeScript.sentBefore, NativeStep.before, nativeWrites] using hall
  · rw [hx1.session, hs0, hs]
    rfl

/-- CMD8 is behind it (R137). -/
theorem native_poll (h : OnLanes s f) (hs : s.sess = s.sess.cleared) (hg : b.good s.cfg (s.cfg.fam f) v2) :
    NativeReached f b v2 s .poll := by
  intro l m hl hne hd hm
  obtain ⟨t, ht, hst⟩ := native_volt h hs (b := b) (v2 := v2) (l := voltWire s.cfg b.volt ++ l) (m := m)
    (by rw [hl]; simp [NativeScript.bitsBefore, NativeStep.before, NativeScript.stepBits]) (by simp [hne])
    (by rw [hd]; simp [NativeScript.nibblesBefore, NativeStep.before, NativeScript.stepNibbles]) hm
  obtain ⟨u, hu, hsu⟩ := Reached.mark ht h.port.owner
  have hp := h.went hu.ran.went rfl
  have hcfg := hu.ran.went.cfg
  obtain ⟨v, hrv, hv, hsv⟩ := voltageCheck_quiet hp.port (v := b.volt) (v2 := v2) (by rw [hcfg, h.native]; exact hg.volt)
    (by rw [hcfg, h.native]; exact hg.version) (l := l) (by rw [hu.ran.went.env, hcfg]) hne
  have := hu.ok hrv (.of (hv.mono rfl) (noWrites_voltageCheck.of_ok hrv) hp.port.owner)
  rw [hu.ran.went.env, hcfg] at this
  refine ⟨v, ⟨this.runs, ?_⟩, by rw [hsv, hsu, hst]; rfl⟩
  simpa [NativeScript.sentBefore, NativeStep.before, NativeScript.stepSent, nativeWrites] using this.ran

/-- The poll is behind it (R138). -/
theorem native_cid (h : OnLanes s f) (hs : s.sess = s.sess.cleared) (hg : b.good s.cfg (s.cfg.fam f) v2) :
    NativeReached f b v2 s .cid := by
  intro l m hl hne hd hm
  obtain ⟨t, ht, hst⟩ := native_poll h hs hg (l := b.poll.bits ++ l) (m := m)
    (by rw [hl]; simp [NativeScript.bitsBefore, NativeStep.before, NativeScript.stepBits]) (by simp [hne])
    (by rw [hd]; simp [NativeScript.nibblesBefore, NativeStep.before, NativeScript.stepNibbles]) hm
  have hp := h.went ht.ran.went rfl
  have hcfg := ht.ran.went.cfg
  obtain ⟨v, hrv, hv, hsv⟩ := pollReady_quiet (F := .bringUp) (mark := fun k => setBringUpSeq (.opcond k)) rfl rfl
    (fun k s hq => setBringUpSeq_quiet hq _) hp.port (b := b.poll) (by rw [hcfg, h.native]; exact hg.poll)
    (s.cfg.acmd41Arg v2) (l := l) (by rw [ht.ran.went.env]) hne
  have := ht.ok hrv (.of hv ((noWrites_pollReady (fun _ => noWrites_setBringUpSeq _) _).of_ok hrv) hp.port.owner)
  rw [ht.ran.went.env, hcfg] at this
  refine ⟨v, ⟨this.runs, ?_⟩, by rw [hsv, hst, hcfg, h.native]; rfl⟩
  simpa [NativeScript.sentBefore, NativeStep.before, NativeScript.stepSent, nativeWrites] using this.ran

/-- CMD2 is behind it (R140). -/
theorem native_rca (h : OnLanes s f) (hs : s.sess = s.sess.cleared) (hg : b.good s.cfg (s.cfg.fam f) v2) :
    NativeReached f b v2 s .rca := by
  intro l m hl hne hd hm
  obtain ⟨t, ht, hst⟩ := native_cid h hs hg (l := b.cid.wire ++ l) (m := m)
    (by rw [hl]; simp [NativeScript.bitsBefore, NativeStep.before, NativeScript.stepBits]) (by simp [hne])
    (by rw [hd]; simp [NativeScript.nibblesBefore, NativeStep.before, NativeScript.stepNibbles]) hm
  obtain ⟨u, hu, hsu⟩ := Reached.mark ht h.port.owner
  have hp := h.went hu.ran.went rfl
  have hcfg := hu.ran.went.cfg
  obtain ⟨v, hrv, hv⟩ := executeCommand_good hp.port (app := false) (idx := 2) (arg := 0) (a := b.cid)
    (by rw [hcfg, h.native]; exact hg.cid) (l := l) (by rw [hu.ran.went.env]) hne
  have := Reached.ok (y := readCid) hu hrv (.of (hv.went.mono rfl) ((noWrites_executeCommand false 2 0).of_ok hrv) hp.port.owner)
  rw [hu.ran.went.env, hcfg] at this
  refine ⟨v, ⟨this.runs, ?_⟩, by rw [hv.session, hsu, hst]; rfl⟩
  simpa [NativeScript.sentBefore, NativeStep.before, NativeScript.stepSent, nativeWrites] using this.ran

/-- CMD3 is behind it (R141). -/
theorem native_select (h : OnLanes s f) (hs : s.sess = s.sess.cleared) (hg : b.good s.cfg (s.cfg.fam f) v2) :
    NativeReached f b v2 s .select := by
  intro l m hl hne hd hm
  obtain ⟨t, ht, hst⟩ := native_rca h hs hg (l := b.rca.wire ++ l) (m := m)
    (by rw [hl]; simp [NativeScript.bitsBefore, NativeStep.before, NativeScript.stepBits]) (by simp [hne])
    (by rw [hd]; simp [NativeScript.nibblesBefore, NativeStep.before, NativeScript.stepNibbles]) hm
  obtain ⟨u, hu, hsu⟩ := Reached.mark ht h.port.owner
  have hp := h.went hu.ran.went rfl
  have hcfg := hu.ran.went.cfg
  obtain ⟨v, hrv, hv, hsv⟩ := publishRca_quiet hp.port (by rw [hcfg]; exact h.native) (a := b.rca)
    (by rw [hcfg, h.native]; exact hg.rca) (l := l) (by rw [hu.ran.went.env]) hne
  have := hu.ok hrv (.of (hv.mono rfl) (noWrites_publishRca.of_ok hrv) hp.port.owner)
  rw [hu.ran.went.env, hcfg] at this
  refine ⟨v, ⟨this.runs, ?_⟩, by rw [hsv, hsu, hst]; rfl⟩
  simpa [NativeScript.sentBefore, NativeStep.before, NativeScript.stepSent, nativeWrites] using this.ran

/-- CMD7 is behind it, where the parameters ask for it (R142). -/
theorem native_width (h : OnLanes s f) (hs : s.sess = s.sess.cleared) (hg : b.good s.cfg (s.cfg.fam f) v2) :
    NativeReached f b v2 s .width := by
  intro l m hl hne hd hm
  obtain ⟨t, ht, hst⟩ := native_select h hs hg (l := (if s.cfg.useSelect then b.select.wire else []) ++ l)
    (m := (if s.cfg.useSelect then b.busy else []) ++ m)
    (by rw [hl]; simp [NativeScript.bitsBefore, NativeStep.before, NativeScript.stepBits]) (by simp [hne])
    (by rw [hd]; simp [NativeScript.nibblesBefore, NativeStep.before, NativeScript.stepNibbles]) (by simp [hm])
  have hp := h.went ht.ran.went rfl
  have hcfg := ht.ran.went.cfg
  obtain ⟨v, hrv, hv, hsv⟩ := selectStep_quiet hp (rca := b.rcaValue) (by rw [hst]; rfl) (a := b.select) (busy := b.busy)
    (by rw [hcfg]; exact hg.select) (l := l) (by rw [ht.ran.went.env, hcfg]) hne (m := m)
    (by rw [ht.ran.went.env, hcfg]) hm (by rw [hst]; rfl)
  rw [hcfg] at hrv hv
  have o := NoWrites.order f
  have := ht.ok hrv (.of hv (Every.of_ok (.onlyIf o (.bind o (noWrites_setBringUpSeq _) fun _ => .bind o (.get' o _) fun _ =>
    noWrites_selectCard _)) hrv) hp.port.owner)
  rw [ht.ran.went.env] at this
  refine ⟨v, ⟨this.runs, ?_⟩, by rw [hsv, hst]; rfl⟩
  simpa [NativeScript.sentBefore, NativeStep.before, NativeScript.stepSent, nativeWrites] using this.ran

/-- ACMD6 is behind it (R143). -/
theorem native_speed (h : OnLanes s f) (hs : s.sess = s.sess.cleared) (hg : b.good s.cfg (s.cfg.fam f) v2) :
    NativeReached f b v2 s .speed := by
  intro l m hl hne hd hm
  obtain ⟨t, ht, hst⟩ := native_width h hs hg (l := b.widthPrefix.wire ++ (b.width.wire ++ l)) (m := m)
    (by rw [hl]; simp [NativeScript.bitsBefore, NativeStep.before, NativeScript.stepBits]) (by simp [hne])
    (by rw [hd]; simp [NativeScript.nibblesBefore, NativeStep.before, NativeScript.stepNibbles]) hm
  obtain ⟨u, hu, hsu⟩ := Reached.mark ht h.port.owner
  have hp := h.went hu.ran.went rfl
  have hcfg := hu.ran.went.cfg
  obtain ⟨v, hrv, hv, hsv⟩ := widenBus_ran hp.port (a := b.widthPrefix) (b := b.width)
    (by rw [hcfg, h.native]; exact hg.widthPrefix) (by rw [hcfg, h.native]; exact hg.width) (l := l)
    (by rw [hu.ran.went.env]) hne
  have hsess : u.sess = b.sessionAt s.sess .width := hsu.trans hst
  rw [hsess, hcfg] at hv
  have := hu.ok hrv (hv.mono rfl)
  rw [hu.ran.went.env] at this
  refine ⟨v, ⟨this.runs, ?_⟩, by rw [hsv, hsess]; rfl⟩
  have hr : rcaArg (b.sessionAt s.sess .width).rca = rcaArg b.rcaValue := rfl
  have hp : (b.sessionAt s.sess .width).speed = .slow := rfl
  rw [hr, hp] at this
  simpa [NativeScript.sentBefore, NativeStep.before, NativeScript.stepSent, nativeWrites] using this.ran

/-- A native bring-up gets to each of its steps (R160). -/
theorem native_reaches (h : OnLanes s f) (hs : s.sess = s.sess.cleared) (hg : b.good s.cfg (s.cfg.fam f) v2)
    (x : NativeStep) : NativeReached f b v2 s x := by
  cases x
  · exact native_volt h hs
  · exact native_poll h hs hg
  · exact native_cid h hs hg
  · exact native_rca h hs hg
  · exact native_select h hs hg
  · exact native_width h hs hg
  · exact native_speed h hs hg

/-- CMD3 that fails (R141). -/
theorem publishRca_out (h : OnPort s f) (hn : (s.cfg.fam f).wire = .sdNative)
    (hx : executeCommand false 3 0 s = .error (.cause c) t) : publishRca s = .error (.cause c) t := by
  have hshort : (respLength (s.cfg.fam f).wire 3 .sdr6 ≤ 2) = False := by rw [hn]; exact eq_false (by decide)
  simp only [publishRca, bind_ok (sdPort_run h), hshort, decide_false, bind_ok (onlyIf_false rfl _), bind_error hx]

/-- CMD6 whose block never starts (R144, R169). -/
theorem highSpeed_out (h : OnLanes s f) {a : Answer} (ha : a.good s.cfg (s.cfg.fam f).wire false 6)
    (hl : s.env.core.cmdLine = a.wire ++ l) (hne : l ≠ []) {ns : List Nibble}
    (hcap : ns.length = (s.cfg.fam f).waits.dataStart) (hns : ∀ n ∈ ns, n.getLsbD 0 = true)
    (hd : s.env.core.datLine = ns ++ m) (hm : m ≠ []) :
    ∃ t, highSpeed s = .error (.cause .timeout) t ∧
      Ran f .command { s.env.core with cmdLine := l, datLine := m } (commandSent s.cfg 6 argCmd6) [] s t ∧
      t.sess = { s.sess with bitlen := .b8 } := by
  obtain ⟨t, hr1, ht⟩ := executeCommand_good h.port (arg := argCmd6) ha hl hne
  have hlt := h.went ht.went rfl
  obtain ⟨u, hr2, hu, hlen⟩ := waitDataStart_out hlt (by rw [ht.went.cfg]; exact hcap) hns (m := m)
    (by rw [ht.went.env]; exact hd) hm
  have r1 := Ran.of (ht.went.mono (G := .command) rfl) ((noWrites_executeCommand false 6 argCmd6).of_ok hr1) h.port.owner
  have r2 := Ran.of (hu.mono (G := .command) rfl) (noWrites_waitDataStart.of_cause hr2) hlt.port.owner
  refine ⟨u, by simp only [highSpeed, bind_ok (datPort_run h), bind_ok hr1, receiveBlock, bind_error (bind_error hr2)], ?_, ?_⟩
  · have := r1.trans r2
    rw [ht.went.env] at this
    simpa using this
  · rw [hu.same.session rfl, hlen ht.bytes, ht.session]

/-- A native bring-up ends with the step that fails: its cause, and nothing sent after it (R160). -/
theorem nativeBringUp_fails (h : OnLanes s f) (hs : s.sess = s.sess.cleared) (hg : b.good s.cfg (s.cfg.fam f) v2)
    {x : NativeStep} {nibs : List Nibble} (hc : b.FailsAt s.cfg (s.cfg.fam f) v2 x c bits nibs out)
    (hl : s.env.core.cmdLine = b.bitsBefore s.cfg x ++ (bits ++ l)) (hne : l ≠ [])
    (hd : s.env.core.datLine = b.nibblesBefore s.cfg x ++ (nibs ++ m)) (hm : m ≠ []) :
    ∃ t, nativeBringUp s = .error (.cause c) t ∧
      Ran f .bringUp { s.env.core with cmdLine := l, datLine := m } (b.sentBefore s.cfg v2 x ++ out)
        (nativeWrites s.cfg f x) s t ∧ t.sess = b.sessionAt s.sess x := by
  obtain ⟨t, ht, hst⟩ := native_reaches h hs hg x hl (by simp [hne]) hd (by simp [hm])
  have step : ∀ {u v : State} {y : Op Unit}, Reached f nativeBringUp y { s.env.core with cmdLine := bits ++ l, datLine := nibs ++ m }
      (b.sentBefore s.cfg v2 x) (nativeWrites s.cfg f x) s u → y u = .error (.cause c) v →
      Ran f .bringUp { s.env.core with cmdLine := l, datLine := m } out [] u v → v.sess = b.sessionAt s.sess x →
      ∃ t, nativeBringUp s = .error (.cause c) t ∧
        Ran f .bringUp { s.env.core with cmdLine := l, datLine := m } (b.sentBefore s.cfg v2 x ++ out)
          (nativeWrites s.cfg f x) s t ∧ t.sess = b.sessionAt s.sess x := fun hu hy hr hsess => by
    obtain ⟨h1, h2⟩ := hu.last hy hr
    rw [List.append_nil] at h2
    exact ⟨_, h1, h2, hsess⟩
  cases hc with
  | volt _ _ _ hc =>
    obtain ⟨u, hu, hsu⟩ := Reached.mark ht h.port.owner
    have hp := h.went hu.ran.went rfl
    have hcfg := hu.ran.went.cfg
    obtain ⟨v, hrv, hv, hsv⟩ := voltageCheck_fails hp.port (by rw [hcfg, h.native]; exact hc) (l := l)
      (by rw [hu.ran.went.env]) hne
    rw [hu.ran.went.env] at hv
    exact step hu (bind_error hrv) (.of (hv.mono rfl) (noWrites_voltageCheck.of_cause hrv) hp.port.owner)
      (by rw [hsv, hsu, hst]; rfl)
  | poll _ _ _ hc =>
    have hp := h.went ht.ran.went rfl
    have hcfg := ht.ran.went.cfg
    obtain ⟨v, hrv, hv, hsv⟩ := readyPoll_fails (F := .bringUp) (mark := fun k => setBringUpSeq (.opcond k)) rfl rfl
      (fun k s hq => setBringUpSeq_quiet hq _) hp.port (by rw [hst]; rfl) (by rw [hcfg, h.native]; exact hc) (l := l)
      (by rw [ht.ran.went.env]) hne
    rw [ht.ran.went.env] at hv
    exact step ht (bind_error hrv)
      (.of hv ((noWrites_pollReady (fun _ => noWrites_setBringUpSeq _) _).of_cause hrv) hp.port.owner) (hsv.trans hst)
  | cid _ _ _ hc =>
    obtain ⟨u, hu, hsu⟩ := Reached.mark ht h.port.owner
    have hp := h.went hu.ran.went rfl
    have hcfg := hu.ran.went.cfg
    obtain ⟨v, hrv, hv, hsv⟩ := executeCommand_fails hp.port (by rw [hcfg, h.native]; exact hc) (l := l)
      (by rw [hu.ran.went.env]) hne
    rw [hu.ran.went.env] at hv
    exact step hu (bind_error hrv) (.of (hv.mono rfl) ((noWrites_executeCommand _ _ _).of_cause hrv) hp.port.owner)
      (by rw [hsv, hsu, hst]; rfl)
  | rca _ _ _ hc =>
    obtain ⟨u, hu, hsu⟩ := Reached.mark ht h.port.owner
    have hp := h.went hu.ran.went rfl
    have hcfg := hu.ran.went.cfg
    obtain ⟨v, hrv, hv, hsv⟩ := executeCommand_fails hp.port (by rw [hcfg, h.native]; exact hc) (l := l)
      (by rw [hu.ran.went.env]) hne
    rw [hu.ran.went.env] at hv
    exact step hu (bind_error (publishRca_out hp.port hp.native hrv))
      (.of (hv.mono rfl) ((noWrites_executeCommand _ _ _).of_cause hrv) hp.port.owner) (by rw [hsv, hsu, hst]; rfl)
  | select _ _ _ hsel hc =>
    have hfrom : nativeRest s.cfg v2 .select t = (setBringUpSeq .select >>= fun _ => (do
        let rca ← get' fun s => s.sess.rca
        selectCard rca) >>= fun _ => nativeRest s.cfg v2 .width) t := by
      simp only [nativeRest, nativeRest.fromSelect, hsel, onlyIf, if_true, bind_assoc]
    obtain ⟨u, hu, hsu⟩ := Reached.mark ⟨ht.runs.trans hfrom, ht.ran⟩ h.port.owner
    have hp := h.went hu.ran.went rfl
    have hcfg := hu.ran.went.cfg
    have hrca : u.sess.rca = b.rcaValue := by rw [hsu, hst]; rfl
    obtain ⟨v, hrv, hv, hsv⟩ := executeCommand_fails hp.port (by rw [hcfg, h.native]; exact hc) (l := l)
      (by rw [hu.ran.went.env]) hne
    rw [hu.ran.went.env] at hv
    have hrun : (do let rca ← get' fun s => s.sess.rca; selectCard rca : Op Unit) u = .error (.cause c) v := by
      simp only [get'_bind, hrca, selectCard, bind_ok (datPort_run hp), bind_error hrv]
    exact step hu (bind_error hrun) (.of (hv.mono rfl) ((noWrites_executeCommand _ _ _).of_cause hrv) hp.port.owner)
      (by rw [hsv, hsu, hst]; rfl)
  | busy _ hsel hcap hstuck =>
    have hfrom : nativeRest s.cfg v2 .select t = (setBringUpSeq .select >>= fun _ => (do
        let rca ← get' fun s => s.sess.rca
        selectCard rca) >>= fun _ => nativeRest s.cfg v2 .width) t := by
      simp only [nativeRest, nativeRest.fromSelect, hsel, onlyIf, if_true, bind_assoc]
    obtain ⟨u, hu, hsu⟩ := Reached.mark ⟨ht.runs.trans hfrom, ht.ran⟩ h.port.owner
    have hp := h.went hu.ran.went rfl
    have hcfg := hu.ran.went.cfg
    have hrca : u.sess.rca = b.rcaValue := by rw [hsu, hst]; rfl
    obtain ⟨v, hrv, hv, hlen⟩ := selectCard_out hp (rca := b.rcaValue) (a := b.select)
      (by rw [hcfg, h.native]; exact (hg.select hsel).1) (l := l) (by rw [hu.ran.went.env]) hne
      (by rw [hcfg]; exact hcap) hstuck (m := m) (by rw [hu.ran.went.env]) hm
    rw [hu.ran.went.env, hcfg] at hv
    have hrun : (do let rca ← get' fun s => s.sess.rca; selectCard rca : Op Unit) u = .error (.cause .timeout) v := by
      simp only [get'_bind, hrca, hrv]
    refine step hu (bind_error hrun) (.of (hv.mono rfl) ((noWrites_selectCard _).of_cause hrv) hp.port.owner) ?_
    rw [hv.same.session rfl, hlen, hsu, hst]
    rfl
  | width _ _ _ hc =>
    obtain ⟨u, hu, hsu⟩ := Reached.mark ht h.port.owner
    have hp := h.went hu.ran.went rfl
    have hcfg := hu.ran.went.cfg
    have hrca : u.sess.rca = b.rcaValue := by rw [hsu, hst]; rfl
    obtain ⟨v, hrv, hv, hsv⟩ := sendAppCommand_fails hp.port rfl (by rw [hcfg, h.native]; exact hc) (l := l)
      (by rw [hu.ran.went.env]) hne
    rw [hu.ran.went.env] at hv
    have hrun : widenBus u = .error (.cause c) v := by simp only [widenBus, get'_bind, hrca, bind_error hrv]
    exact step hu (bind_error hrun) (.of (hv.mono rfl) ((noWrites_sendAppCommand _ _ _).of_cause hrv) hp.port.owner)
      (by rw [hsv, hsu, hst]; rfl)
  | speed _ _ _ hc =>
    obtain ⟨u, hu, hsu⟩ := Reached.mark ht h.port.owner
    have hp := h.went hu.ran.went rfl
    have hcfg := hu.ran.went.cfg
    obtain ⟨v, hrv, hv, hsv⟩ := executeCommand_fails hp.port (by rw [hcfg, h.native]; exact hc) (l := l)
      (by rw [hu.ran.went.env]) hne
    rw [hu.ran.went.env] at hv
    have hrun : highSpeed u = .error (.cause c) v := by
      simp only [highSpeed, bind_ok (datPort_run hp), bind_error hrv]
    exact step hu hrun (.of (hv.mono rfl) ((noWrites_executeCommand _ _ _).of_cause hrv) hp.port.owner)
      (by rw [hsv, hsu, hst]; rfl)
  | block _ hcap hhigh =>
    obtain ⟨u, hu, hsu⟩ := Reached.mark ht h.port.owner
    have hp := h.went hu.ran.went rfl
    have hcfg := hu.ran.went.cfg
    obtain ⟨v, hrv, hv, hsv⟩ := highSpeed_out hp (a := b.speed) (by rw [hcfg, h.native]; exact hg.speed) (l := l)
      (by rw [hu.ran.went.env]) hne (by rw [hcfg]; exact hcap) hhigh (m := m) (by rw [hu.ran.went.env]) hm
    rw [hu.ran.went.env, hcfg] at hv
    exact step hu hrv (hv.mono rfl) (by rw [hsv, hsu, hst]; rfl)

/-- A native bring-up that completes writes `SD_CFG` for ACMD6 and for CMD6 (R143, R144, R193). -/
theorem nativeBringUp_wrote (h : OnLanes s f) (hs : s.sess = s.sess.cleared) (hg : b.good s.cfg (s.cfg.fam f) v2)
    (hl : s.env.core.cmdLine = b.bits s.cfg ++ l) (hne : l ≠ [])
    (hd : s.env.core.datLine = b.nibbles s.cfg ++ m) (hm : m ≠ []) (hrun : nativeBringUp s = .ok () t)
    (hp : (s.cfg.fam f).portLevel = false) :
    writes t.hist = writes s.hist ++ [configWrite s.cfg f .w4 .slow, configWrite s.cfg f .w4 .fast] := by
  obtain ⟨v, hv, hsv⟩ := native_reaches h hs hg .speed (l := b.speed.wire ++ l) (m := b.lanes ++ m)
    (by rw [hl]; simp [NativeScript.bits, NativeScript.bitsBefore, NativeStep.before, NativeScript.stepBits]) (by simp [hne])
    (by rw [hd]; simp [NativeScript.nibbles, NativeScript.nibblesBefore, NativeStep.before, NativeScript.stepNibbles])
    (by simp [hm])
  obtain ⟨u, hu, hsu⟩ := Reached.mark hv h.port.owner
  have hpu := h.went hu.ran.went rfl
  have hcfg := hu.ran.went.cfg
  have hsess : u.sess = b.sessionAt s.sess .speed := hsu.trans hsv
  obtain ⟨w, hrw, hw, -⟩ := highSpeed_ran hpu (a := b.speed) (by rw [hcfg, h.native]; exact hg.speed) (l := l)
    (by rw [hu.ran.went.env]) hne hg.data.1 (by rw [hcfg, hsess]; exact hg.data.2) (m := m) (by rw [hu.ran.went.env]) hm
  obtain ⟨h1, h2⟩ := hu.last hrw (hw.mono rfl)
  rw [hrun] at h1
  cases h1
  have := h2.wrote hp
  rw [hsess, hcfg] at this
  simpa [nativeWrites, NativeStep.before, NativeScript.sessionAt] using this

/-! ### The SPI bring-up -/

/-- What is left of the SPI bring-up at a step, the poll's argument being that of a version (R162). -/
def spiRest (p : Params) (v2 : Bool) : SpiStep → Op Unit
  | .idle => fromIdle
  | .volt => fromVolt
  | .poll => fromPoll
  | .ocr => fromOcr
where
  fromOcr : Op Unit := do
    setBringUpSeq .ocr
    readOcr
  fromPoll : Op Unit := do
    pollReady (fun k => setBringUpSeq (.opcond k)) (p.acmd41Arg v2)
    fromOcr
  fromVolt : Op Unit := do
    setBringUpSeq .volt
    let v2 ← voltageCheck
    pollReady (fun k => setBringUpSeq (.opcond k)) (p.acmd41Arg v2)
    fromOcr
  fromIdle : Op Unit := do
    setBringUpSeq .idle
    goIdle
    let b0 ← respByte 0
    if b0 = 0x01 then fromVolt else raise .malformed

/-- An SPI bring-up got to a step. -/
def SpiReached (f : Family) (b : SpiScript) (v2 : Bool) (s : State) (x : SpiStep) : Prop :=
  ∀ {l : List Bool}, s.env.core.cmdLine = x.before.flatMap (b.stepBits s.cfg) ++ l → l ≠ [] →
    ∃ t, Reached f spiBringUp (spiRest s.cfg v2 x) { s.env.core with cmdLine := l }
      (x.before.flatMap (b.stepSent s.cfg v2)) [] s t ∧ t.sess = s.sess

variable {r : SpiScript}

theorem spi_idle (h : OnPort s f) : SpiReached f r v2 s .idle := by
  intro l hl hne
  refine ⟨s, ⟨rfl, ⟨?_, fun _ => by simp⟩⟩, rfl⟩
  rw [cmdLine_same (by simpa [SpiStep.before] using hl)]
  exact .refl _ h.quiet

/-- CMD0 is behind it (R162). -/
theorem spi_volt (h : OnPort s f) (hn : (s.cfg.fam f).wire = .spi) (hs : s.sess = s.sess.cleared) (hg : r.good s.cfg v2) :
    SpiReached f r v2 s .volt := by
  intro l hl hne
  obtain ⟨t, ht, hst⟩ := spi_idle h (r := r) (v2 := v2) (l := r.idle.wire ++ l)
    (by rw [hl]; simp [SpiStep.before, SpiScript.stepBits]) (by simp [hne])
  obtain ⟨u, hu, hsu⟩ := Reached.mark ht h.owner
  have hp := h.went hu.ran.went rfl
  have hcfg := hu.ran.went.cfg
  obtain ⟨v, hrv, hv⟩ := executeCommand_good hp (app := false) (idx := 0) (arg := 0) (a := r.idle)
    (by rw [hcfg, hn]; exact hg.idle.1) (l := l) (by rw [hu.ran.went.env]) hne
  have := Reached.ok (y := goIdle) hu hrv (.of (hv.went.mono rfl) ((noWrites_executeCommand false 0 0).of_ok hrv) hp.owner)
  rw [hu.ran.went.env, hcfg] at this
  have hlen : 0 < r.idle.bytes.length := by rw [Answer.good_length hg.idle.1 (kind := .none) rfl]; decide
  have hbyte := respByte_run hv.resp hlen
  rw [hg.idle.2] at hbyte
  refine ⟨v, ⟨by rw [this.runs, bind_ok hbyte]; rfl, ?_⟩, by rw [hv.session, hsu, hst, hs]; rfl⟩
  simpa [SpiStep.before, SpiScript.stepSent] using this.ran

/-- CMD8 is behind it (R162). -/
theorem spi_poll (h : OnPort s f) (hn : (s.cfg.fam f).wire = .spi) (hs : s.sess = s.sess.cleared) (hg : r.good s.cfg v2) :
    SpiReached f r v2 s .poll := by
  intro l hl hne
  obtain ⟨t, ht, hst⟩ := spi_volt h hn hs hg (l := voltWire s.cfg r.volt ++ l)
    (by rw [hl]; simp [SpiStep.before, SpiScript.stepBits]) (by simp [hne])
  obtain ⟨u, hu, hsu⟩ := Reached.mark ht h.owner
  have hp := h.went hu.ran.went rfl
  have hcfg := hu.ran.went.cfg
  obtain ⟨v, hrv, hv, hsv⟩ := voltageCheck_quiet hp (v := r.volt) (v2 := v2) (by rw [hcfg, hn]; exact hg.volt)
    (by rw [hcfg, hn]; exact hg.version) (l := l) (by rw [hu.ran.went.env, hcfg]) hne
  have := hu.ok hrv (.of (hv.mono rfl) (noWrites_voltageCheck.of_ok hrv) hp.owner)
  rw [hu.ran.went.env, hcfg] at this
  refine ⟨v, ⟨this.runs, ?_⟩, by rw [hsv, hsu, hst, hs]; rfl⟩
  simpa [SpiStep.before, SpiScript.stepSent] using this.ran

/-- The poll is behind it (R162). -/
theorem spi_ocr (h : OnPort s f) (hn : (s.cfg.fam f).wire = .spi) (hs : s.sess = s.sess.cleared) (hg : r.good s.cfg v2) :
    SpiReached f r v2 s .ocr := by
  intro l hl hne
  obtain ⟨t, ht, hst⟩ := spi_poll h hn hs hg (l := r.poll.bits ++ l)
    (by rw [hl]; simp [SpiStep.before, SpiScript.stepBits]) (by simp [hne])
  have hp := h.went ht.ran.went rfl
  have hcfg := ht.ran.went.cfg
  obtain ⟨v, hrv, hv, hsv⟩ := pollReady_quiet (F := .bringUp) (mark := fun k => setBringUpSeq (.opcond k)) rfl rfl
    (fun k s hq => setBringUpSeq_quiet hq _) hp (b := r.poll) (by rw [hcfg, hn]; exact hg.poll)
    (s.cfg.acmd41Arg v2) (l := l) (by rw [ht.ran.went.env]) hne
  have := ht.ok hrv (.of hv ((noWrites_pollReady (fun _ => noWrites_setBringUpSeq _) _).of_ok hrv) hp.owner)
  rw [ht.ran.went.env, hcfg] at this
  refine ⟨v, ⟨this.runs, ?_⟩, by rw [hsv, hst, hcfg, hn, hs]; rfl⟩
  simpa [SpiStep.before, SpiScript.stepSent] using this.ran

/-- An SPI bring-up gets to each of its steps (R162). -/
theorem spi_reaches (h : OnPort s f) (hn : (s.cfg.fam f).wire = .spi) (hs : s.sess = s.sess.cleared) (hg : r.good s.cfg v2)
    (x : SpiStep) : SpiReached f r v2 s x := by
  cases x
  · exact spi_idle h
  · exact spi_volt h hn hs hg
  · exact spi_poll h hn hs hg
  · exact spi_ocr h hn hs hg

/-- An SPI bring-up ends with the step that fails: its cause, and nothing sent after it (R162). -/
theorem spiBringUp_fails (h : OnPort s f) (hn : (s.cfg.fam f).wire = .spi) (hs : s.sess = s.sess.cleared)
    (hg : r.good s.cfg v2) {x : SpiStep} (hc : SpiScript.FailsAt s.cfg v2 x c bits out)
    (hl : s.env.core.cmdLine = x.before.flatMap (r.stepBits s.cfg) ++ (bits ++ l)) (hne : l ≠ []) :
    ∃ t, spiBringUp s = .error (.cause c) t ∧
      Ran f .bringUp { s.env.core with cmdLine := l } (x.before.flatMap (r.stepSent s.cfg v2) ++ out) [] s t ∧
      t.sess = s.sess := by
  have hs8 : ({ s.sess with bitlen := .b8 } : Session) = s.sess := by rw [hs]; rfl
  obtain ⟨t, ht, hst⟩ := spi_reaches h hn hs hg x hl (by simp [hne])
  have step : ∀ {u v : State} {y : Op Unit}, Reached f spiBringUp y { s.env.core with cmdLine := bits ++ l }
      (x.before.flatMap (r.stepSent s.cfg v2)) [] s u → y u = .error (.cause c) v →
      Ran f .bringUp { s.env.core with cmdLine := l } out [] u v → v.sess = { u.sess with bitlen := .b8 } →
      u.sess = s.sess → ∃ t, spiBringUp s = .error (.cause c) t ∧
        Ran f .bringUp { s.env.core with cmdLine := l } (x.before.flatMap (r.stepSent s.cfg v2) ++ out) [] s t ∧
        t.sess = s.sess := fun hu hy hr h1 h2 => by
    obtain ⟨h3, h4⟩ := hu.last hy hr
    exact ⟨_, h3, h4, by rw [h1, h2, hs8]⟩
  cases hc with
  | silent _ _ _ hc =>
    obtain ⟨u, hu, hsu⟩ := Reached.mark ht h.owner
    have hp := h.went hu.ran.went rfl
    have hcfg := hu.ran.went.cfg
    obtain ⟨v, hrv, hv, hsv⟩ := executeCommand_fails hp (by rw [hcfg, hn]; exact hc) (l := l)
      (by rw [hu.ran.went.env]) hne
    rw [hu.ran.went.env] at hv
    exact step hu (bind_error (x := goIdle) hrv)
      (.of (hv.mono rfl) ((noWrites_executeCommand _ _ _).of_cause hrv) hp.owner) hsv (hsu.trans hst)
  | notIdle a ha hbyte =>
    obtain ⟨u, hu, hsu⟩ := Reached.mark ht h.owner
    have hp := h.went hu.ran.went rfl
    have hcfg := hu.ran.went.cfg
    obtain ⟨v, hrv, hv⟩ := executeCommand_good hp (app := false) (idx := 0) (arg := 0) (a := a)
      (by rw [hcfg, hn]; exact ha) (l := l) (by rw [hu.ran.went.env]) hne
    have hvw := hv.went
    rw [hu.ran.went.env, hcfg] at hvw
    have hlen : 0 < a.bytes.length := by rw [Answer.good_length ha (kind := .none) rfl]; decide
    refine step hu ?_ (.of (hvw.mono rfl) ((noWrites_executeCommand false 0 0).of_ok hrv) hp.owner) hv.session
      (hsu.trans hst)
    rw [bind_ok (x := goIdle) hrv, bind_ok (respByte_run hv.resp hlen), if_neg hbyte]
    rfl
  | volt _ _ _ hc =>
    obtain ⟨u, hu, hsu⟩ := Reached.mark ht h.owner
    have hp := h.went hu.ran.went rfl
    have hcfg := hu.ran.went.cfg
    obtain ⟨v, hrv, hv, hsv⟩ := voltageCheck_fails hp (by rw [hcfg, hn]; exact hc) (l := l)
      (by rw [hu.ran.went.env]) hne
    rw [hu.ran.went.env] at hv
    exact step hu (bind_error hrv) (.of (hv.mono rfl) (noWrites_voltageCheck.of_cause hrv) hp.owner) hsv (hsu.trans hst)
  | poll _ _ _ hc =>
    have hp := h.went ht.ran.went rfl
    have hcfg := ht.ran.went.cfg
    obtain ⟨v, hrv, hv, hsv⟩ := readyPoll_fails (F := .bringUp) (mark := fun k => setBringUpSeq (.opcond k)) rfl rfl
      (fun k s hq => setBringUpSeq_quiet hq _) hp (by rw [hst, hs]; rfl) (by rw [hcfg, hn]; exact hc) (l := l)
      (by rw [ht.ran.went.env]) hne
    rw [ht.ran.went.env] at hv
    exact step ht (bind_error hrv)
      (.of hv ((noWrites_pollReady (fun _ => noWrites_setBringUpSeq _) _).of_cause hrv) hp.owner)
      (by rw [hsv, hst, hs8]) hst
  | ocr _ _ _ hc =>
    obtain ⟨u, hu, hsu⟩ := Reached.mark ht h.owner
    have hp := h.went hu.ran.went rfl
    have hcfg := hu.ran.went.cfg
    obtain ⟨v, hrv, hv, hsv⟩ := executeCommand_fails hp (by rw [hcfg, hn]; exact hc) (l := l)
      (by rw [hu.ran.went.env]) hne
    rw [hu.ran.went.env] at hv
    have hrun : readOcr u = .error (.cause c) v := by simp only [readOcr, bind_error hrv]
    exact step hu hrun (.of (hv.mono rfl) ((noWrites_executeCommand _ _ _).of_cause hrv) hp.owner) hsv (hsu.trans hst)

/-! ### `card_init` -/

/-- The port is configured for a cleared session (R160, R193). -/
theorem portConfig_ran (h : OnPort s f) (hs : s.sess = s.sess.cleared) :
    ∃ t, portConfig s = .ok () t ∧ Ran f .bringUp s.env.core [] [configWrite s.cfg f .w1 .slow] s t ∧ t.sess = s.sess := by
  obtain ⟨t, hr, hw, hh⟩ := portConfig_wrote h
  have hword : sdCfgWord (s.cfg.fam f) s.sess.busWidth s.sess.speed s.sess.bitlen ||| 0 =
      sdCfgWord (s.cfg.fam f) .w1 .slow .b8 := by
    rw [show ∀ w : Word, w ||| 0 = w from fun _ => BitVec.or_zero, hs]
    rfl
  refine ⟨t, hr, ⟨hw.mono rfl, fun _ => ?_⟩, hw.same.session_eq rfl rfl⟩
  simp only [hh, hword, writes_cons, Event.written, Option.toList, configWrite]

/-- The clean-up of a bring-up that failed: the port reset, the session down (R160, R199). -/
theorem failBringUp_ran (hb : s.busOwner = .cart f) (hq : Quiet s f) (ho : (s.cfg.fam f).offload = false) :
    ∃ t, failBringUp s = .ok () t ∧ Went f .bringUp s.env.core [] s t ∧
      t.sess = { s.sess with ready := false, mode := .none } ∧ writes t.hist = writes s.hist ++ resetWrites s.cfg f s.sess := by
  have hm : Went f .bringUp s.env.core [] s { s with seq := { s.seq with bringUp := .fail } } :=
    .of_same hq (by constructor <;> simp [Foot.bringUp]) rfl rfl
  obtain ⟨u, hr, hd⟩ := resetPort_drove (s := { s with seq := { s.seq with bringUp := .fail } }) hb hm.quiet ho
  have hs := Went.sess (g := fun ss => { ss with ready := false, mode := .none }) hd.went.quiet
  have hsess : u.sess = s.sess := hd.went.same.session_eq rfl rfl
  refine ⟨{ u with sess := { u.sess with ready := false, mode := .none } }, ?_, ?_, by simp only [hsess], hd.wrote⟩
  · simp only [failBringUp, setBringUpSeq, upd_bind, bind_ok hr, sessionDown, setSession, upd_run]
  · have := hm.trans ((hd.went.mono (G := .bringUp) rfl).trans (hs.mono (G := .bringUp) rfl))
    rw [hd.went.env] at this
    simpa using this

/-- What a bring-up that failed leaves: its cause, the session down, the port reset (R160). -/
structure BringUpFailed (f : Family) (e : Env) (out : List Sent) (W : List (Word × Word)) (ss : Session) (s t : State) :
    Prop where
  went : Went f { Foot.bringUp with bus := true } e out s t
  restored : Restored s t
  rest : t.seq.bringUp = .rest
  sess : t.sess = { ss with ready := false, mode := .none }
  wrote : (s.cfg.fam f).portLevel = false → writes t.hist = writes s.hist ++ W ++ resetWrites s.cfg f ss

/-- A bring-up over the wire that fails: the cause reaches the caller (R160, R270). -/
theorem runBringUp_fails (h : Idle s f) (ho : (s.cfg.fam f).offload = false) {ss : Session}
    (hfam : ∀ t, OnPort t f → t.cfg = s.cfg → t.env.core = s.env.core → t.sess = s.sess.cleared →
      ∃ u, wireBringUp (s.cfg.fam f).wire t = .error (.cause c) u ∧ Ran f .bringUp e out W t u ∧ u.sess = ss) :
    ∃ t, runBringUp s = .error (.cause c) t ∧ BringUpFailed f e out W ss s t := by
  have body : ∀ t, Acquired f s t → Went f .bracket s.env.core [] s t → ∃ u w, bringUp t = .error (.cause c) u ∧
      Went f .bringUp e out t u ∧ failBringUp u = .ok () w ∧ Went f .bringUp e [] u w ∧
      w.sess = { ss with ready := false, mode := .none } ∧
      ((s.cfg.fam f).portLevel = false → writes w.hist = writes t.hist ++ W ++ resetWrites s.cfg f ss) := fun t ht htw => by
    have hcfg := htw.cfg
    have hset := Went.sess (g := Session.cleared) htw.quiet
    have hss : t.sess = s.sess := htw.same.session_eq rfl rfl
    have hp : OnPort { t with sess := t.sess.cleared } f := ⟨ht.owner, by simpa [hcfg] using ho, hset.quiet⟩
    obtain ⟨u, hr, hu, hsu⟩ := hfam { t with sess := t.sess.cleared } hp hcfg htw.env (by simp only [hss])
    have hcfgu : u.cfg = s.cfg := hu.went.cfg.trans hcfg
    have hbu : u.busOwner = .cart f := (hu.went.same.owner rfl).trans ht.owner
    obtain ⟨w, hrw, hw, hsw, hww⟩ := failBringUp_ran hbu hu.went.quiet (by rw [hcfgu]; exact ho)
    rw [hu.went.env] at hw
    rw [hcfgu, hsu] at hww
    refine ⟨u, w, ?_, ?_, hrw, hw, by rw [hsw, hsu], fun hpl => ?_⟩
    · have hclear : clearSession t = .ok () { t with sess := t.sess.cleared } := rfl
      have hfamq : famParams { t with sess := t.sess.cleared } =
          .ok (s.cfg.fam f) { t with sess := t.sess.cleared } :=
        (famParams_run (s := { t with sess := t.sess.cleared }) ht.owner).trans (by simp only [hcfg])
      simp only [bringUp, bind_ok hclear, bind_ok hfamq, familyBringUp, ho, Bool.false_eq_true, if_false, bind_error hr]
    · have := (hset.mono (G := .bringUp) rfl).trans hu.went
      simpa using this
    · rw [hww, hu.wrote (by simpa [hcfg] using hpl)]
  obtain ⟨t, u, w, v, ht, hrun, hclean, hv, hres, hall, hww⟩ := bracketed_fails (F := .bringUp)
    (G := { Foot.bringUp with bus := true }) (e := e) (out := out) (clean := failBringUp) (body := bringUp) (c := c) h.cart
    h.bus h.quiet rfl rfl rfl fun t ht htw => by
      obtain ⟨u, w, h1, h2, h3, h4, -⟩ := body t ht htw
      exact ⟨u, w, h1, h2, h3, h4⟩
  obtain ⟨u', w', h1, h2, h3, h4, hsess, hwrote⟩ := body t ht (ht.quiet h.quiet)
  rw [hrun] at h1
  cases h1
  rw [hclean] at h3
  cases h3
  have hmark : Went f { Foot.bringUp with bus := true } v.env.core [] v { v with seq := { v.seq with bringUp := .rest } } :=
    .of_same hww.quiet (by constructor <;> simp [Foot.bringUp]) rfl rfl
  refine ⟨{ v with seq := { v.seq with bringUp := .rest } }, ?_, ?_, ⟨hres.owner, hres.saved, hres.native, hres.dom⟩, rfl, ?_,
    fun hpl => ?_⟩
  · simp only [runBringUp, bind_ok (attempt_cause hall), setBringUpSeq, upd_bind, rethrow, raise_run]
  · have := hww.trans hmark
    rwa [hww.env, List.append_nil] at this
  · exact (hv.same.session_eq rfl rfl).trans hsess
  · show writes v.hist = _
    rw [hv.hist, writes_cfgEvents, hwrote hpl, ht.hist, writes_cfgEvents]

/-- A bring-up over the native wire that fails at a step (R160). -/
theorem runBringUp_native_fails (h : Idle s f) (ho : (s.cfg.fam f).offload = false) (hn : (s.cfg.fam f).wire = .sdNative)
    (hg : b.good s.cfg (s.cfg.fam f) v2) {x : NativeStep} {nibs : List Nibble}
    (hc : b.FailsAt s.cfg (s.cfg.fam f) v2 x c bits nibs out)
    (hl : s.env.core.cmdLine = b.bitsBefore s.cfg x ++ (bits ++ l)) (hne : l ≠ [])
    (hd : s.env.core.datLine = b.nibblesBefore s.cfg x ++ (nibs ++ m)) (hm : m ≠ []) :
    ∃ t, runBringUp s = .error (.cause c) t ∧
      BringUpFailed f { s.env.core with cmdLine := l, datLine := m } (b.sentBefore s.cfg v2 x ++ out)
        (configWrite s.cfg f .w1 .slow :: nativeWrites s.cfg f x) (b.sessionAt s.sess x) s t :=
  runBringUp_fails h ho fun t hp hcfg henv hs => by
    have hcl : t.sess = t.sess.cleared := by rw [hs]; rfl
    obtain ⟨u, hru, hu, hsu⟩ := portConfig_ran hp hcl
    have hpu := hp.went hu.went rfl
    have hcfgu : u.cfg = s.cfg := hu.went.cfg.trans hcfg
    obtain ⟨v, hrv, hv, hsv⟩ := nativeBringUp_fails (s := u) ⟨hpu, by rw [hcfgu]; exact hn⟩ (by rw [hsu]; exact hcl)
      (by rw [hcfgu]; exact hg) (by rw [hcfgu]; exact hc) (by rw [hcfgu, hu.went.env, henv]; exact hl) hne
      (by rw [hcfgu, hu.went.env, henv]; exact hd) hm
    have := hu.trans hv
    rw [hu.went.env, henv, hcfgu, hcfg] at this
    exact ⟨v, by rw [hn]; simp only [wireBringUp, bind_ok hru, hrv], this, by rw [hsv, hsu, hs]; rfl⟩

/-- A bring-up on the SPI flavour that fails at a step (R162). -/
theorem runBringUp_spi_fails (h : Idle s f) (ho : (s.cfg.fam f).offload = false) (hn : (s.cfg.fam f).wire = .spi)
    (hg : r.good s.cfg v2) {x : SpiStep} (hc : SpiScript.FailsAt s.cfg v2 x c bits out)
    (hl : s.env.core.cmdLine = x.before.flatMap (r.stepBits s.cfg) ++ (bits ++ l)) (hne : l ≠ []) :
    ∃ t, runBringUp s = .error (.cause c) t ∧
      BringUpFailed f { s.env.core with cmdLine := l } (x.before.flatMap (r.stepSent s.cfg v2) ++ out)
        [configWrite s.cfg f .w1 .slow] s.sess.cleared s t :=
  runBringUp_fails h ho fun t hp hcfg henv hs => by
    have hcl : t.sess = t.sess.cleared := by rw [hs]; rfl
    obtain ⟨u, hru, hu, hsu⟩ := portConfig_ran hp hcl
    have hpu := hp.went hu.went rfl
    have hcfgu : u.cfg = s.cfg := hu.went.cfg.trans hcfg
    obtain ⟨v, hrv, hv, hsv⟩ := spiBringUp_fails (s := u) hpu (by rw [hcfgu]; exact hn) (by rw [hsu]; exact hcl)
      (by rw [hcfgu]; exact hg) (by rw [hcfgu]; exact hc) (by rw [hcfgu, hu.went.env, henv]; exact hl) hne
    have := hu.trans hv
    rw [hu.went.env, henv, hcfgu, hcfg] at this
    exact ⟨v, by rw [hn]; simp only [wireBringUp, bind_ok hru, hrv], this, by rw [hsv, hsu, hs]⟩

/-- The register writes of a bring-up over the native wire (R143, R144, R160, R193). -/
theorem runBringUp_native_wrote (h : Idle s f) (ho : (s.cfg.fam f).offload = false) (hn : (s.cfg.fam f).wire = .sdNative)
    (hg : b.good s.cfg (s.cfg.fam f) v2) (hl : s.env.core.cmdLine = b.bits s.cfg ++ l) (hne : l ≠ [])
    (hd : s.env.core.datLine = b.nibbles s.cfg ++ m) (hm : m ≠ []) (hp : (s.cfg.fam f).portLevel = false)
    (hrun : runBringUp s = .ok () t) :
    writes t.hist = writes s.hist ++
      [configWrite s.cfg f .w1 .slow, configWrite s.cfg f .w4 .slow, configWrite s.cfg f .w4 .fast] := by
  have body : ∀ w, Went f { Foot.setting with bus := true } s.env.core [] s w → w.busOwner = .cart f →
      w.sess = s.sess.cleared → ∃ u, familyBringUp (s.cfg.fam f) w = .ok () u ∧
        Went f .bringUp { s.env.core with cmdLine := l, datLine := m } (b.sent s.cfg v2) w u ∧
        u.sess = { s.sess.cleared with
          highCapacity := ocrHighCapacity (b.poll.last.2.bytes.getD 1 0), rca := b.rcaValue
          busWidth := .w4, speed := .fast } ∧
        writes u.hist = writes w.hist ++
          [configWrite s.cfg f .w1 .slow, configWrite s.cfg f .w4 .slow, configWrite s.cfg f .w4 .fast] :=
      fun w hw hb hs => by
    have hcfg := hw.cfg
    have hpw : OnPort w f := ⟨hb, by rw [hcfg]; exact ho, hw.quiet⟩
    have hcl : w.sess = w.sess.cleared := by rw [hs]; rfl
    obtain ⟨u, hru, hu, hsu⟩ := portConfig_ran hpw hcl
    have hcfgu : u.cfg = s.cfg := hu.went.cfg.trans hcfg
    have hlu : OnLanes u f := ⟨hpw.went hu.went rfl, by rw [hcfgu]; exact hn⟩
    have hlu' : u.env.core.cmdLine = b.bits u.cfg ++ l := by rw [hcfgu, hu.went.env, hw.env]; exact hl
    have hdu : u.env.core.datLine = b.nibbles u.cfg ++ m := by rw [hcfgu, hu.went.env, hw.env]; exact hd
    have hgu : b.good u.cfg (u.cfg.fam f) v2 := by rw [hcfgu]; exact hg
    obtain ⟨v, hrv, hv, hsv, -⟩ := nativeBringUp_quiet hlu hgu hlu' hne hdu hm
    have hwv := nativeBringUp_wrote hlu (by rw [hsu]; exact hcl) hgu hlu' hne hdu hm hrv (by rw [hcfgu]; exact hp)
    refine ⟨v, ?_, ?_, ?_, ?_⟩
    · simp only [familyBringUp, ho, Bool.false_eq_true, if_false, wireBringUp, hn, bind_ok hru, hrv]
    · have := hu.went.trans hv
      rw [hu.went.env, hw.env, hcfgu] at this
      simpa using this
    · rw [hsv, hsu, hs]; rfl
    · rw [hwv, hu.wrote (by rw [hcfg]; exact hp), hcfgu, hcfg]
      simp
  obtain ⟨x, w, u, hrx, -, hw, hb, -, hfam, -, -, -, h1, h2, hs⟩ := runBringUp_quiet rfl rfl rfl h fun w hw hb hs => by
    obtain ⟨u, a, b, c, -⟩ := body w hw hb hs
    exact ⟨u, a, b, c⟩
  obtain ⟨u', hru, -, -, hwr⟩ := body w hw hb hs
  rw [hrun] at hrx
  cases hrx
  rw [hfam] at hru
  cases hru
  rw [h2, hwr, h1]

theorem noWrites_spiBringUp : Every (NoWrites f) spiBringUp := by
  have o := NoWrites.order f
  exact .bind o (.get' o _) fun _ => .bind o (noWrites_setBringUpSeq _) fun _ => .bind o (noWrites_executeCommand _ _ _) fun _ =>
    .bind o (noWrites_respByte _) fun _ => .ite (.bind o (noWrites_setBringUpSeq _) fun _ => .bind o noWrites_voltageCheck fun _ =>
      .bind o (noWrites_pollReady (fun _ => noWrites_setBringUpSeq _) _) fun _ => .bind o (noWrites_setBringUpSeq _) fun _ =>
      noWrites_readOcr) (.raise o _)

/-- The register write of a bring-up on the SPI flavour (R160, R162, R193). -/
theorem runBringUp_spi_wrote (h : Idle s f) (ho : (s.cfg.fam f).offload = false) (hn : (s.cfg.fam f).wire = .spi)
    (hg : r.good s.cfg v2) (hl : s.env.core.cmdLine = r.bits s.cfg ++ l) (hne : l ≠ [])
    (hp : (s.cfg.fam f).portLevel = false) (hrun : runBringUp s = .ok () t) :
    writes t.hist = writes s.hist ++ [configWrite s.cfg f .w1 .slow] := by
  have body : ∀ w, Went f { Foot.setting with bus := true } s.env.core [] s w → w.busOwner = .cart f →
      w.sess = s.sess.cleared → ∃ u, familyBringUp (s.cfg.fam f) w = .ok () u ∧
        Went f .bringUp { s.env.core with cmdLine := l } (r.sent s.cfg v2) w u ∧
        u.sess = { s.sess.cleared with highCapacity := ocrHighCapacity (r.ocr.bytes.getD 1 0) } ∧
        writes u.hist = writes w.hist ++ [configWrite s.cfg f .w1 .slow] := fun w hw hb hs => by
    have hcfg := hw.cfg
    have hpw : OnPort w f := ⟨hb, by rw [hcfg]; exact ho, hw.quiet⟩
    obtain ⟨u, hru, hu, hsu⟩ := portConfig_ran hpw (by rw [hs]; rfl)
    have hcfgu : u.cfg = s.cfg := hu.went.cfg.trans hcfg
    have hpu := hpw.went hu.went rfl
    obtain ⟨v, hrv, hv, hsv⟩ := spiBringUp_quiet hpu (by rw [hcfgu]; exact hn) (b := r) (v2 := v2) (by rw [hcfgu]; exact hg)
      (l := l) (by rw [hu.went.env, hw.env, hcfgu]; exact hl) hne
    refine ⟨v, ?_, ?_, ?_, ?_⟩
    · simp only [familyBringUp, ho, Bool.false_eq_true, if_false, wireBringUp, hn, bind_ok hru, hrv]
    · have := hu.went.trans hv
      rw [hu.went.env, hw.env, hcfgu] at this
      simpa using this
    · rw [hsv, hsu, hs]; rfl
    · rw [(noWrites_spiBringUp.of_ok hrv hpu.owner (by rw [hcfgu]; exact hp)).2.2, hu.wrote (by rw [hcfg]; exact hp), hcfg]
  obtain ⟨x, w, u, hrx, -, hw, hb, -, hfam, -, -, -, h1, h2, hs⟩ := runBringUp_quiet rfl rfl rfl h fun w hw hb hs => by
    obtain ⟨u, a, b, c, -⟩ := body w hw hb hs
    exact ⟨u, a, b, c⟩
  obtain ⟨u', hru, -, -, hwr⟩ := body w hw hb hs
  rw [hrun] at hrx
  cases hrx
  rw [hfam] at hru
  cases hru
  rw [h2, hwr, h1]

end Sys2Proof.Machine
end

