-- ==== Sys2Proof/Laws/OffloadFails.lean ====
section
/-! SUPPORT. Card operations of a family whose cartridge does the framing, where a cartridge command fails: how far they get,
and the `'i'(SD_OP_DEINIT, 0)` behind it (43_card_sequencer.md R178). The PI controller is idle at every sample; the cartridge
answers as a script of its status values says. -/

namespace Sys2Proof.Machine

variable {α β : Type} {f : Family} {s t u : State} {st st' : List Word} {C C' : List (Byte × Word × Word)} {c : Cause}
  {code : Byte} {a0 a1 : Word}

/-- Inside a bracket, with a PI controller that is idle at every sample. -/
structure Awake (f : Family) (s : State) : Prop where
  owner : s.busOwner = .cart f
  pi : s.env.pi ≠ [] ∧ ∀ p ∈ s.env.pi, p.dmaBusy = false ∧ p.ioBusy = false
  caps : positiveCaps (s.cfg.fam f).waits
  regs : regsFit f (s.cfg.fam f) = true

/-- From one such state to another: the status values that are left, and the cartridge commands issued. -/
structure Onward (f : Family) (st : List Word) (C : List (Byte × Word × Word)) (s t : State) : Prop where
  awake : Awake f t
  cfg : t.cfg = s.cfg
  saved : t.nativeSaved = s.nativeSaved
  status : t.env.status = st
  issued : commands t.hist = commands s.hist ++ C

theorem Onward.refl (h : Awake f s) : Onward f s.env.status [] s s := ⟨h, rfl, rfl, rfl, by simp⟩

theorem Onward.trans (h : Onward f st C s t) (k : Onward f st' C' t u) : Onward f st' (C ++ C') s u :=
  ⟨k.awake, k.cfg.trans h.cfg, k.saved.trans h.saved, k.status, by rw [k.issued, h.issued, List.append_assoc]⟩

/-- A change that takes neither a sample nor a status value and issues nothing. -/
theorem Awake.onward (h : Awake f s) (hb : t.busOwner = s.busOwner) (hc : t.cfg = s.cfg) (hv : t.nativeSaved = s.nativeSaved)
    (hp : t.env.pi = s.env.pi) (hs : t.env.status = s.env.status) (hh : commands t.hist = commands s.hist) : Onward f s.env.status [] s t :=
  ⟨⟨hb.trans h.owner, by rw [hp]; exact h.pi, by rw [hc]; exact h.caps, by rw [hc]; exact h.regs⟩, hc, hv, hs, by simp [hh]⟩

/-! ### Operations that complete there and take no status value -/

/-- It completes, takes no status value and issues nothing. -/
def Smooth (f : Family) (x : Op α) : Prop := ∀ s, Awake f s → ∃ a t, x s = .ok a t ∧ Onward f s.env.status [] s t

namespace Smooth

theorem pure (a : α) : Smooth f (Pure.pure a : Op α) := fun s h => ⟨a, s, rfl, .refl h⟩
theorem get' (g : State → α) : Smooth f (Machine.get' g) := fun s h => ⟨g s, s, rfl, .refl h⟩

theorem bind {x : Op α} {k : α → Op β} (hx : Smooth f x) (hk : ∀ a, Smooth f (k a)) : Smooth f (x >>= k) := fun s h => by
  obtain ⟨a, t, h1, h2⟩ := hx s h
  obtain ⟨b, u, h3, h4⟩ := hk a t h2.awake
  rw [h2.status] at h4
  exact ⟨b, u, by rw [bind_ok h1, h3], h2.trans h4⟩

theorem ite {b : Prop} [Decidable b] {x y : Op α} (hx : Smooth f x) (hy : Smooth f y) : Smooth f (if b then x else y) := by
  split <;> assumption

/-- What follows an attempt that completes is what follows its value. -/
theorem attempt {x : Op α} {k : Except Cause α → Op β} (hx : Smooth f x) (hk : ∀ a, Smooth f (k (.ok a))) :
    Smooth f (Machine.attempt x >>= k) := fun s h => by
  obtain ⟨a, t, h1, h2⟩ := hx s h
  obtain ⟨b, u, h3, h4⟩ := hk a t h2.awake
  rw [h2.status] at h4
  exact ⟨b, u, by rw [bind_ok (attempt_ok h1), h3], h2.trans h4⟩

theorem many {one : Op α} (h : Smooth f one) (n : Nat) : Smooth f (Machine.many one n) := by
  induction n with
  | zero => exact .pure _
  | succ n ih => exact .bind h fun _ => .bind ih fun _ => .pure _

theorem upd {g : State → State} (h : ∀ s, (g s).busOwner = s.busOwner ∧ (g s).cfg = s.cfg ∧
    (g s).nativeSaved = s.nativeSaved ∧ (g s).env = s.env ∧ commands (g s).hist = commands s.hist) : Smooth f (Machine.upd g) := fun s hs => by
  obtain ⟨hb, hc, hv, he, hh⟩ := h s
  exact ⟨(), g s, rfl, hs.onward hb hc hv (by rw [he]) (by rw [he]) hh⟩

end Smooth

theorem smooth_emit {ev : Event} (h : ev.cartCommand = none) : Smooth f (emit ev) :=
  .upd fun s => ⟨rfl, rfl, rfl, rfl, by simp [h]⟩

/-- An answer of a stream that neither the PI controller nor the cartridge's status is. -/
theorem smooth_draw {get : Env → List α} {put : List α → Env → Env} {free : Nat → α}
    (hput : ∀ l e, (put l e).pi = e.pi ∧ (put l e).status = e.status) : Smooth f (draw get put free) := fun s h => by
  unfold draw
  split
  · exact ⟨_, _, rfl, h.onward rfl rfl rfl rfl rfl rfl⟩
  · exact ⟨_, _, rfl, .refl h⟩
  · exact ⟨_, _, rfl, h.onward rfl rfl rfl (hput _ _).1 (hput _ _).2 rfl⟩

theorem smooth_nextPi : ∀ s, Awake f s → ∃ p t, nextPi s = .ok p t ∧ (p.dmaBusy = false ∧ p.ioBusy = false) ∧
    Onward f s.env.status [] s t := fun s h => by
  obtain ⟨p, l, hp, hl, hall, hrun⟩ := draw_listed (get := Env.pi) (put := fun l e => { e with pi := l })
    (free := Config.freePi) (fun _ => rfl) h.pi.1 h.pi.2
  exact ⟨p, _, hrun, hp, ⟨⟨h.owner, ⟨hl, hall⟩, h.caps, h.regs⟩, rfl, rfl, rfl, by simp⟩⟩

/-- A wait that its first poll ends. -/
theorem smooth_spin {poll : Op (Option Unit)} (hp : ∀ s, Awake f s → ∃ t, poll s = .ok (some ()) t ∧ Onward f s.env.status [] s t)
    {n : Nat} (hn : 0 < n) (h : Awake f s) : ∃ t, spinOn poll n s = .ok () t ∧ Onward f s.env.status [] s t := by
  obtain ⟨n, rfl⟩ := Nat.exists_eq_succ_of_ne_zero (Nat.pos_iff_ne_zero.mp hn)
  have hc := h.onward (t := { s with spinCount := n + 1 }) rfl rfl rfl rfl rfl rfl
  obtain ⟨t, h1, h2⟩ := hp _ hc.awake
  exact ⟨t, spinOn_now h1, hc.trans h2⟩

theorem smooth_piWaitIdle : Smooth f (piWaitIdle f) := fun s h => by
  obtain ⟨t, h1, h2⟩ := smooth_spin (poll := pollPiIdle) (fun s h => by
    obtain ⟨p, t, h1, ⟨h2, h3⟩, h4⟩ := smooth_nextPi s h
    exact ⟨t, by simp [pollPiIdle, bind_ok h1, h2, h3], h4⟩) h.caps.2.2.2.2.2 h
  exact ⟨(), t, by simp only [piWaitIdle, get'_bind, h1], h2⟩

theorem smooth_busFamily : Smooth f busFamily := fun _ h => ⟨_, _, busFamily_run h.owner, .refl h⟩
theorem smooth_famParams : Smooth f famParams := fun _ h => ⟨_, _, famParams_run h.owner, .refl h⟩

theorem smooth_regWrite (r : Reg) (v : Word) : Smooth f (regWrite r v) := fun s h => by
  have he := h.onward (t := { s with hist := .regWrite (regAddr s.cfg f r) v :: s.hist }) rfl rfl rfl rfl rfl
    (by simp [Event.cartCommand])
  obtain ⟨t, h1, h2⟩ := smooth_spin (poll := pollPiWritten) (fun s h => by
    obtain ⟨p, t, h1, ⟨h2, h3⟩, h4⟩ := smooth_nextPi s h
    exact ⟨t, by simp [pollPiWritten, bind_ok h1, h3], h4⟩) h.caps.2.2.2.2.2 he.awake
  exact ⟨(), t, by simp only [regWrite, bind_ok (regAt_run h.owner h.regs r), emit_bind,
    bind_ok (famParams_run he.awake.owner), h1], he.trans h2⟩

/-- A read of a result word. -/
theorem smooth_readWord {r : Reg} (hr : nextRegValue r = nextWord) : Smooth f (regRead r) := by
  refine .bind (fun s h => ⟨_, _, regAt_run h.owner h.regs r, .refl h⟩) fun _ => .bind ?_ fun _ =>
    .bind (smooth_emit rfl) fun _ => .pure _
  rw [hr]
  exact smooth_draw fun _ _ => ⟨rfl, rfl⟩

theorem smooth_cacheMayAct : Smooth f cacheMayAct := by
  have acts : ∀ (l : List CacheAct) (s : State), (l.foldl State.cacheAct s).busOwner = s.busOwner ∧
      (l.foldl State.cacheAct s).cfg = s.cfg ∧ (l.foldl State.cacheAct s).nativeSaved = s.nativeSaved ∧
      (l.foldl State.cacheAct s).env = s.env ∧
      commands (l.foldl State.cacheAct s).hist = commands s.hist := fun l => by
    induction l with
    | nil => exact fun _ => ⟨rfl, rfl, rfl, rfl, rfl⟩
    | cons x l ih => intro s; obtain ⟨a, b, c, d, e⟩ := ih (s.cacheAct x); cases x <;> exact ⟨a, b, c, d, e⟩
  exact .bind (smooth_draw fun _ _ => ⟨rfl, rfl⟩) fun l => .upd (acts l)

theorem smooth_copyMoves (k src dst : Nat) : Smooth f (copyMoves k src dst) := by
  induction k generalizing src dst with
  | zero => exact .pure _
  | succ k ih =>
    refine .bind smooth_cacheMayAct fun _ => .bind (.upd fun s => ?_) fun _ => ih _ _
    have h := sameOn_move8 s src dst
    exact ⟨h.owner rfl, h.cfg, (h.bus rfl).2.2.1, (h.log rfl).1, by rw [(h.log rfl).2.2.1]⟩

theorem smooth_dmaFromCart (a : Nat) : Smooth f (dmaFromCart a) := fun s h => by
  simp only [dmaFromCart, bind_ok (busFamily_run h.owner), bind_ok (famParams_run h.owner)]
  generalize s.cfg.fam f = q
  refine (?_ : Smooth f _) s h
  refine .bind smooth_piWaitIdle fun _ => .bind (.upd fun _ => ⟨rfl, rfl, rfl, rfl, rfl⟩) fun _ => .bind (smooth_emit rfl) fun _ =>
    .bind smooth_cacheMayAct fun _ => .attempt smooth_piWaitIdle fun _ => ?_
  exact .upd fun _ => ⟨rfl, rfl, rfl, rfl, rfl⟩

theorem smooth_dmaToCart (a : Nat) : Smooth f (dmaToCart a) := fun s h => by
  simp only [dmaToCart, bind_ok (busFamily_run h.owner), bind_ok (famParams_run h.owner)]
  generalize s.cfg.fam f = q
  refine (?_ : Smooth f _) s h
  refine .bind smooth_piWaitIdle fun _ => .bind (.upd fun _ => ⟨rfl, rfl, rfl, rfl, rfl⟩) fun _ => .bind (smooth_emit rfl) fun _ =>
    .bind smooth_cacheMayAct fun _ => .attempt smooth_piWaitIdle fun _ => ?_
  exact .upd fun _ => ⟨rfl, rfl, rfl, rfl, rfl⟩

theorem smooth_moveToRam (dest : Nat) : Smooth f (moveToRam dest) := by
  have wb : ∀ a n, Smooth f (opCacheWbInv a n) := fun a n => .bind smooth_cacheMayAct fun _ =>
    .bind (smooth_emit rfl) fun _ => .upd fun _ => ⟨rfl, rfl, rfl, rfl, rfl⟩
  exact .bind (.bind (.get' _) fun _ => .ite (.bind (wb _ _) fun _ => smooth_dmaFromCart _)
    (.bind (wb _ _) fun _ => .bind (smooth_dmaFromCart _) fun _ => smooth_copyMoves _ _ _)) fun _ => smooth_cacheMayAct

theorem smooth_moveFromRam (src : Nat) : Smooth f (moveFromRam src) := by
  have wb : ∀ a n, Smooth f (opCacheWb a n) := fun a n => .bind smooth_cacheMayAct fun _ =>
    .bind (smooth_emit rfl) fun _ => .upd fun _ => ⟨rfl, rfl, rfl, rfl, rfl⟩
  exact .bind (.bind (.get' _) fun _ => .ite (.bind (wb _ _) fun _ => smooth_dmaToCart _)
    (.bind (smooth_copyMoves _ _ _) fun _ => .bind (wb _ _) fun _ => smooth_dmaToCart _)) fun _ => smooth_cacheMayAct

/-! ### One command -/

/-- The status values left after one was taken: the last one stays. -/
def leftOf (w : Word) (l : List Word) : List Word := if l = [] then [w] else l

theorem leftOf_cons (w x : Word) (l : List Word) : leftOf w (x :: l) = x :: l := rfl
theorem leftOf_append (w : Word) {l : List Word} (hne : l ≠ []) : leftOf w l = l := by simp [leftOf, hne]

theorem mem_leftOf {w x : Word} {l : List Word} (h : x ∈ leftOf w l) : x = w ∨ x ∈ l := by
  unfold leftOf at h
  split at h
  · exact .inl (by simpa using h)
  · exact .inr h

theorem leftOf_ne (w : Word) (l : List Word) : leftOf w l ≠ [] := by
  unfold leftOf
  split <;> simp_all

/-- One poll takes one status value. -/
theorem pollStatus_head (h : Awake f s) {w : Word} {l : List Word} (hl : s.env.status = w :: l) :
    ∃ t, pollStatus s = .ok (if statusBusy (s.cfg.fam f) w then none else some w) t ∧ Onward f (leftOf w l) [] s t := by
  have hd : nextStatus s = .ok w { s with env := { s.env with status := leftOf w l } } := by
    cases l with
    | nil =>
      have : s = { s with env := { s.env with status := leftOf w [] } } := by rw [show leftOf w [] = s.env.status from hl.symm]
      unfold nextStatus draw
      rw [hl]
      exact congrArg _ this
    | cons x l => exact draw_head hl (by simp [leftOf])
  have hread := regRead_run h.owner h.regs (r := .status) hd
  have hrun : pollStatus s = .ok (if statusBusy (s.cfg.fam f) w then none else some w)
      { s with env := { s.env with status := leftOf w l }, hist := .regRead (regAddr s.cfg f .status) w :: s.hist } := by
    simp only [pollStatus, bind_ok (famParams_run h.owner), bind_ok hread]
    rfl
  exact ⟨_, hrun, ⟨h.owner, h.pi, h.caps, h.regs⟩, rfl, rfl, rfl, by simp [Event.cartCommand]⟩

/-- A wait whose first value is not busy. -/
theorem wait_now (h : Awake f s) {w : Word} {l : List Word} (hl : s.env.status = w :: l)
    (hw : statusBusy (s.cfg.fam f) w = false) {n : Nat} (hn : 0 < n) :
    ∃ t, spinOn pollStatus n s = .ok w t ∧ Onward f (leftOf w l) [] s t := by
  obtain ⟨n, rfl⟩ := Nat.exists_eq_succ_of_ne_zero (Nat.pos_iff_ne_zero.mp hn)
  have hc := h.onward (t := { s with spinCount := n + 1 }) rfl rfl rfl rfl rfl rfl
  obtain ⟨t, h1, h2⟩ := pollStatus_head hc.awake (w := w) (l := l) hl
  rw [show statusBusy (({ s with spinCount := n + 1 } : State).cfg.fam f) w = false from hw] at h1
  exact ⟨t, spinOn_now h1, hc.trans h2⟩

/-- A wait that outlasts its cap. -/
theorem wait_out (busy : List Word) : ∀ {s : State} (_ : Awake f s) {l : List Word} (_ : s.env.status = busy ++ l) (_ : l ≠ [])
    (_ : ∀ w ∈ busy, statusBusy (s.cfg.fam f) w = true),
    ∃ t, spinOn pollStatus busy.length s = .error (.cause .timeout) t ∧ Onward f l [] s t := by
  induction busy with
  | nil => exact fun {s} h l hl _ _ => ⟨s, rfl, by rw [show l = s.env.status from hl.symm]; exact .refl h⟩
  | cons w busy ih =>
    intro s h l hl hne hb
    have hc := h.onward (t := { s with spinCount := busy.length + 1 }) rfl rfl rfl rfl rfl rfl
    obtain ⟨t, h1, h2⟩ := pollStatus_head hc.awake (w := w) (l := busy ++ l) hl
    rw [show statusBusy (({ s with spinCount := busy.length + 1 } : State).cfg.fam f) w = true from hb w (.head _)] at h1
    rw [leftOf_append _ (by simp [hne])] at h2
    have hd := h2.awake.onward (t := { t with spinCount := busy.length }) rfl rfl rfl rfl rfl rfl
    have hs : t.env.status = busy ++ l := h2.status
    have hcfg : t.cfg = s.cfg := h2.cfg
    obtain ⟨u, h3, h4⟩ := ih hd.awake (l := l) hs hne fun x hx => by
      rw [show ({ t with spinCount := busy.length } : State).cfg = s.cfg from hcfg]
      exact hb x (.tail _ hx)
    exact ⟨u, by rw [List.length_cons, spinOn_later h1, h3], hc.trans (h2.trans (hd.trans h4))⟩

theorem smooth_cartSideEffect (code : Byte) (a0 a1 : Word) : Smooth f (cartSideEffect code a0 a1) :=
  have byte : Smooth f nextSectorByte := smooth_draw fun _ _ => ⟨rfl, rfl⟩
  .bind smooth_famParams fun _ => .ite (.bind (.many byte _) fun _ => .upd fun _ => ⟨rfl, rfl, rfl, rfl, rfl⟩) (.pure _)

/-- The first half of the handshake, where its wait ends. -/
theorem cartIssue_awake (h : Awake f s) {w : Word} {l : List Word} (hl : s.env.status = w :: l)
    (hw : statusBusy (s.cfg.fam f) w = false) :
    ∃ t, (do cartIssue code a0 a1; recordCommand code a0 a1 : Op Unit) s = .ok () t ∧
      Onward f (leftOf w l) [(code, a0, a1)] s t := by
  obtain ⟨t, h1, h2⟩ := wait_now h hl hw h.caps.2.1
  obtain ⟨_, u, h3, h4⟩ := (Smooth.bind (smooth_regWrite .arg0 a0) fun _ => .bind (smooth_regWrite .arg1 a1) fun _ =>
    smooth_regWrite .command (code.zeroExtend 32)) t h2.awake
  have hu := h2.trans h4
  rw [h2.status] at hu
  have hi : cartIssue code a0 a1 s = .ok () u := by
    simp only [cartIssue, bind_ok (famParams_run h.owner), bind_ok h1]
    exact h3
  have hrec : recordCommand code a0 a1 u =
      .ok () { u with hist := .cartCmd code a0 a1 (answerOf (cartAnswer code a0 a1 u)) :: u.hist } := rfl
  refine ⟨_, (bind_ok hi).trans hrec, ⟨hu.awake.owner, hu.awake.pi, hu.awake.caps, hu.awake.regs⟩, hu.cfg,
    hu.saved, hu.status, ?_⟩
  rw [commands_cons, hu.issued]
  simp [Event.cartCommand]

/-- The whole handshake, where both waits end. -/
theorem cartHandshake_awake (h : Awake f s) {w w' : Word} {l l' : List Word} (hl : s.env.status = w :: l)
    (hl' : leftOf w l = w' :: l') (hw : statusBusy (s.cfg.fam f) w = false) (hw' : statusBusy (s.cfg.fam f) w' = false) :
    ∃ t, Onward f (leftOf w' l') [(code, a0, a1)] s t ∧ if statusError (s.cfg.fam f) w'
      then cartHandshake code a0 a1 s = .error (.cause .cart) t else ∃ r, cartHandshake code a0 a1 s = .ok r t := by
  obtain ⟨t, h1, h2⟩ := cartIssue_awake (code := code) (a0 := a0) (a1 := a1) h hl hw
  obtain ⟨_, u, h3, h4⟩ := smooth_cartSideEffect code a0 a1 t h2.awake
  have htu := h2.trans h4
  rw [h2.status, hl'] at htu
  obtain ⟨v, h5, h6⟩ := wait_now htu.awake htu.status (by rw [htu.cfg]; exact hw') htu.awake.caps.2.1
  rw [htu.cfg] at h5
  have start : cartHandshake code a0 a1 s = (if statusError (s.cfg.fam f) w' then raise .cart
      else do
        let r0 ← regRead .arg0
        let r1 ← regRead .arg1
        pure (r0, r1) : Op (Word × Word)) v := by
    rw [cartHandshake, ← bind_assoc, bind_ok h1]
    simp only [cartAnswer, bind_ok h3, cartFinish, bind_ok (famParams_run htu.awake.owner), htu.cfg, bind_ok h5]
  have hv := htu.trans h6
  by_cases he : statusError (s.cfg.fam f) w' = true
  · exact ⟨v, by simpa using hv, by rw [if_pos he, start, if_pos he]; rfl⟩
  · obtain ⟨r, x, h7, h8⟩ := (Smooth.bind (smooth_readWord (r := .arg0) rfl) fun r0 =>
      .bind (smooth_readWord (r := .arg1) rfl) fun r1 => .pure (r0, r1)) v h6.awake
    have hx := hv.trans h8
    rw [h6.status] at hx
    refine ⟨x, by simpa using hx, ?_⟩
    rw [if_neg he, start, if_neg he]
    exact ⟨r, h7⟩

/-- A command that fails (R195). -/
theorem cartHandshake_fails (h : Awake f s) {issued : Bool} {ws l : List Word} (hc : CartFails (s.cfg.fam f) c issued ws)
    (hl : s.env.status = ws ++ l) (hne : l ≠ []) :
    ∃ t, cartHandshake code a0 a1 s = .error (.cause c) t ∧ Onward f l (if issued then [(code, a0, a1)] else []) s t := by
  cases hc with
  | unissued _ hlen hb =>
    obtain ⟨t, h1, h2⟩ := wait_out ws h hl hne hb
    rw [hlen] at h1
    exact ⟨t, by simp only [cartHandshake, cartIssue, bind_ok (famParams_run h.owner), bind_assoc, bind_error h1], h2⟩
  | unanswered w busy hw hlen hb =>
    obtain ⟨t, h1, h2⟩ := cartIssue_awake (code := code) (a0 := a0) (a1 := a1) h hl hw
    rw [leftOf_append _ (by simp [hne])] at h2
    obtain ⟨_, u, h3, h4⟩ := smooth_cartSideEffect code a0 a1 t h2.awake
    have htu := h2.trans h4
    rw [h2.status] at htu
    obtain ⟨v, h5, h6⟩ := wait_out busy htu.awake htu.status hne (by rw [htu.cfg]; exact hb)
    refine ⟨v, ?_, by simpa using htu.trans h6⟩
    rw [cartHandshake, ← bind_assoc, bind_ok h1]
    simp only [cartAnswer, bind_ok h3, cartFinish, bind_ok (famParams_run htu.awake.owner)]
    rw [bind_error]
    rw [htu.cfg, ← hlen]
    exact h5
  | error w w' hw hw' he =>
    obtain ⟨t, h1, h2⟩ := cartHandshake_awake (code := code) (a0 := a0) (a1 := a1) h hl (leftOf_cons w w' l) hw hw'
    rw [if_pos he] at h2
    rw [leftOf_append _ hne] at h1
    exact ⟨t, h2, h1⟩

/-! ### The byte swap around a body, by the family's register -/

theorem swapDrive_awake (h : Awake f s) (hv : (s.cfg.fam f).swapViaCfg = false) (on : Bool) :
    ∃ t, swapDrive on s = .ok () t ∧ Onward f s.env.status [] s t := by
  obtain ⟨_, t, h1, h2⟩ := (Smooth.bind (smooth_regWrite .swap (if on then 1 else 0)) fun _ =>
    .upd (g := fun s => { s with byteswap := on }) fun _ => ⟨rfl, rfl, rfl, rfl, rfl⟩) s h
  exact ⟨t, by simp only [swapDrive, bind_ok (famParams_run h.owner), hv, Bool.false_eq_true, if_false]; exact h1, h2⟩

/-- A body that succeeds. -/
theorem swapAround_passes {body : Op α} {wrap : Bool} {l : List Word} (h : Awake f s)
    (hw : (s.cfg.fam f).swapViaCfg = false ∨ wrap = false)
    (hb : ∀ t, Awake f t → t.cfg = s.cfg → t.env.status = s.env.status → ∃ r u, body t = .ok r u ∧ Onward f l C t u) :
    ∃ r t, swapAround wrap body s = .ok r t ∧ Onward f l C s t := by
  cases wrap with
  | false => exact hb s h rfl rfl
  | true =>
    have hv := hw.resolve_right (by simp)
    obtain ⟨t, h1, k1⟩ := swapDrive_awake h hv true
    obtain ⟨r, u, h2, k2⟩ := hb t k1.awake k1.cfg k1.status
    obtain ⟨v, h3, k3⟩ := swapDrive_awake k2.awake (by rw [k2.cfg, k1.cfg]; exact hv) s.byteswap
    rw [k2.status] at k3
    exact ⟨r, v, by simp only [swapAround, if_true, get'_bind, bind_ok h1, bind_ok (attempt_ok h2), bind_ok h3, pure_run],
      by simpa using k1.trans (k2.trans k3)⟩

/-- A body that fails: the restore behind it succeeds and its cause stands. -/
theorem swapAround_fails {body : Op α} {wrap : Bool} {l : List Word} (h : Awake f s)
    (hw : (s.cfg.fam f).swapViaCfg = false ∨ wrap = false)
    (hb : ∀ t, Awake f t → t.cfg = s.cfg → t.env.status = s.env.status →
      ∃ u, body t = .error (.cause c) u ∧ Onward f l C t u) :
    ∃ t, swapAround wrap body s = .error (.cause c) t ∧ Onward f l C s t := by
  cases wrap with
  | false => exact hb s h rfl rfl
  | true =>
    have hv := hw.resolve_right (by simp)
    obtain ⟨t, h1, k1⟩ := swapDrive_awake h hv true
    obtain ⟨u, h2, k2⟩ := hb t k1.awake k1.cfg k1.status
    obtain ⟨v, h3, k3⟩ := swapDrive_awake k2.awake (by rw [k2.cfg, k1.cfg]; exact hv) s.byteswap
    rw [k2.status] at k3
    exact ⟨v, by simp only [swapAround, if_true, get'_bind, bind_ok h1, bind_ok (attempt_cause h2), bind_ok (bestEffort_ok h3),
      raise_run], by simpa using k1.trans (k2.trans k3)⟩

theorem cartCommand_around (hb : s.busOwner = .cart f) :
    cartCommand code a0 a1 s = swapAround (wraps (s.cfg.fam f) code) (cartHandshake code a0 a1) s := by
  simp only [cartCommand, bind_ok (famParams_run hb)]
  rfl

/-- No command is wrapped by commands: a family's control is a register, or the policy does not wrap this one. -/
def PlainFor (q : FamilyParams) (code : Byte) : Prop := q.swapViaCfg = false ∨ wraps q code = false

/-- A command that succeeds. -/
theorem cartCommand_passes (h : Awake f s) (hw : PlainFor (s.cfg.fam f) code) {p : Word × Word} {l : List Word}
    (hg : statusBusy (s.cfg.fam f) p.1 = false ∧ statusBusy (s.cfg.fam f) p.2 = false ∧ statusError (s.cfg.fam f) p.2 = false)
    (hl : s.env.status = p.1 :: p.2 :: l) (hne : l ≠ []) :
    ∃ r t, cartCommand code a0 a1 s = .ok r t ∧ Onward f l [(code, a0, a1)] s t := by
  rw [cartCommand_around h.owner]
  refine swapAround_passes h hw fun t ht hcfg hst => ?_
  obtain ⟨u, h1, h2⟩ := cartHandshake_awake (code := code) (a0 := a0) (a1 := a1) ht (hst.trans hl) (leftOf_cons p.1 p.2 l)
    (by rw [hcfg]; exact hg.1) (by rw [hcfg]; exact hg.2.1)
  rw [hcfg, hg.2.2] at h2
  obtain ⟨r, h2⟩ := h2
  rw [leftOf_append _ hne] at h1
  exact ⟨r, u, h2, h1⟩

/-- A command that fails (R195). -/
theorem cartCommand_fails (h : Awake f s) (hw : PlainFor (s.cfg.fam f) code) {issued : Bool} {ws l : List Word}
    (hc : CartFails (s.cfg.fam f) c issued ws) (hl : s.env.status = ws ++ l) (hne : l ≠ []) :
    ∃ t, cartCommand code a0 a1 s = .error (.cause c) t ∧ Onward f l (if issued then [(code, a0, a1)] else []) s t := by
  rw [cartCommand_around h.owner]
  exact swapAround_fails h hw fun t ht hcfg hst => cartHandshake_fails ht (by rw [hcfg]; exact hc) (hst.trans hl) hne

/-! ### The loops -/

/-- The commands of a transfer's sectors where none is wrapped by commands. -/
theorem sectorCommands_plain {q : FamilyParams} {sw : Bool} {code : Byte} (h49 : PlainFor q 0x49) (hcode : PlainFor q code) (n : Nat) (lba : Word) :
    sectorCommands q sw code (n + 1) lba = (0x49, lba, 0) :: (code, q.cartBuf, 1) :: sectorCommands q sw code n (lba + 1) := by
  have none : ∀ {code}, PlainFor q code → ∀ C, aroundCommands q (wraps q code) sw C = C := fun h C => by
    rcases h with h | h <;> simp [aroundCommands, swapCommands, h]
  rw [sectorCommands, none h49, none hcode]
  rfl

/-- A loop that makes two commands a sector ends at the first one that fails. -/
theorem sectorLoop_fails {loop : Nat → Word → Nat → Op Unit} {pre post : Nat → Op Unit} {q : FamilyParams} {sw : Bool}
    (hstep : ∀ n lba a, loop (n + 1) lba a = (do
      pre a
      let _ ← cartCommand 0x49 lba 0
      let _ ← cartCommand code q.cartBuf 1
      post a
      loop n (lba + 1) (a + sector)))
    (hpre : ∀ a, Smooth f (pre a)) (hpost : ∀ a, Smooth f (post a)) (h49 : PlainFor q 0x49) (hcode : PlainFor q code)
    {issued : Bool} {ws l : List Word} (hc : CartFails q c issued ws) (hne : l ≠ []) (n : Nat) :
    ∀ {s : State} (_ : Awake f s) (_ : s.cfg.fam f = q) {good : List (Word × Word)} (_ : CartGood q good)
      (_ : good.length < 2 * n) (_ : s.env.status = good.flatMap (fun p => [p.1, p.2]) ++ (ws ++ l)) {lba : Word} {a : Nat},
    ∃ t, loop n lba a s = .error (.cause c) t ∧
      Onward f l ((sectorCommands q sw code n lba).take (good.length + if issued then 1 else 0)) s t := by
  induction n with
  | zero => exact fun _ _ _ _ hlen => absurd hlen (by simp)
  | succ n ih =>
    intro s h hq good hg hlen hs lba a
    obtain ⟨_, s1, h1, k1⟩ := hpre a s h
    have q1 : s1.cfg.fam f = q := by rw [k1.cfg, hq]
    have e1 := k1.status.trans hs
    rw [hstep, sectorCommands_plain h49 hcode]
    match good, hg, hlen, e1 with
    | [], _, _, e1 =>
      obtain ⟨t, h2, k2⟩ := cartCommand_fails (code := 0x49) (a0 := lba) (a1 := 0) k1.awake (by rw [q1]; exact h49)
        (by rw [q1]; exact hc) (l := l) (by simpa using e1) hne
      refine ⟨t, by simp only [bind_ok h1, bind_error h2], ?_⟩
      have := k1.trans k2
      cases issued <;> simpa using this
    | [p], hg, _, e1 =>
      obtain ⟨r2, s2, h2, k2⟩ := cartCommand_passes (code := 0x49) (a0 := lba) (a1 := 0) k1.awake (by rw [q1]; exact h49)
        (by rw [q1]; exact hg p (.head _)) (l := ws ++ l) e1 (by simp [hne])
      have q2 : s2.cfg.fam f = q := by rw [k2.cfg, q1]
      obtain ⟨t, h3, k3⟩ := cartCommand_fails (code := code) (a0 := q.cartBuf) (a1 := 1) k2.awake (by rw [q2]; exact hcode)
        (by rw [q2]; exact hc) k2.status hne
      refine ⟨t, by simp only [bind_ok h1, bind_ok h2, bind_error h3], ?_⟩
      have := k1.trans (k2.trans k3)
      cases issued <;> simpa using this
    | p :: p' :: rest, hg, hlen, e1 =>
      obtain ⟨r2, s2, h2, k2⟩ := cartCommand_passes (code := 0x49) (a0 := lba) (a1 := 0) k1.awake (by rw [q1]; exact h49)
        (by rw [q1]; exact hg p (.head _)) (l := p'.1 :: p'.2 :: (rest.flatMap (fun p => [p.1, p.2]) ++ (ws ++ l))) e1 (by simp)
      have q2 : s2.cfg.fam f = q := by rw [k2.cfg, q1]
      obtain ⟨r3, s3, h3, k3⟩ := cartCommand_passes (code := code) (a0 := q.cartBuf) (a1 := 1) k2.awake
        (by rw [q2]; exact hcode) (by rw [q2]; exact hg p' (.tail _ (.head _)))
        (l := rest.flatMap (fun p => [p.1, p.2]) ++ (ws ++ l)) k2.status (by simp [hne])
      obtain ⟨_, s4, h4, k4⟩ := hpost a s3 k3.awake
      obtain ⟨t, h5, k5⟩ := ih (s := s4) k4.awake (by rw [k4.cfg, k3.cfg, q2]) (good := rest)
        (fun x hx => hg x (.tail _ (.tail _ hx))) (by simp only [List.length_cons] at hlen; omega) (k4.status.trans k3.status)
        (lba := lba + 1) (a := a + sector)
      refine ⟨t, by simp only [bind_ok h1, bind_ok h2, bind_ok h3, bind_ok h4, h5], ?_⟩
      have := k1.trans (k2.trans (k3.trans (k4.trans k5)))
      rw [show (p :: p' :: rest).length + (if issued then 1 else 0) = (rest.length + if issued then 1 else 0) + 1 + 1 by
        simp only [List.length_cons]; omega, List.take_succ_cons, List.take_succ_cons]
      simpa using this

/-! ### The bracket, and the abort -/

theorem IdleOffload.plainFor (h : IdleOffload s f) (hc : code = 0x69 ∨ code = 0x49 ∨ code = 0x73 ∨ code = 0x53) :
    PlainFor (s.cfg.fam f) code := h.plain.imp_right fun k => k.2 _ hc

/-- The PI controller's samples stay idle. -/
def KeepsPi (s t : State) : Prop := (s.env.pi ≠ [] ∧ ∀ p ∈ s.env.pi, p.dmaBusy = false ∧ p.ioBusy = false) →
  t.env.pi ≠ [] ∧ ∀ p ∈ t.env.pi, p.dmaBusy = false ∧ p.ioBusy = false

theorem KeepsPi.order : Order KeepsPi := ⟨fun _ h => h, fun h k p => k (h p)⟩

theorem acquireFor_pi (f : Family) : Every KeepsPi (acquireFor f) := by
  have o := KeepsPi.order
  have sample : Every KeepsPi nextPi := .intro
    (fun s a t h hp => by
      obtain ⟨p, l, -, hl, hall, hrun⟩ := draw_listed (get := Env.pi) (put := fun l e => { e with pi := l })
        (free := Config.freePi) (fun _ => rfl) hp.1 hp.2
      rw [show nextPi s = .ok p { s with env := { s.env with pi := l } } from hrun] at h
      cases h
      exact ⟨hl, hall⟩)
    fun s c t h => by unfold nextPi draw at h; split at h <;> cases h
  have wait : Every KeepsPi (piWaitIdle f) := .bind o (.get' o _) fun _ => .spinOn o (fun _ _ h => h)
    (.bind o sample fun _ => .pure o _) _
  refine .bind o (.get' o _) fun w => ?_
  cases w with
  | native =>
    exact .bind o (wait.bestEffort o) fun _ => .bind o (.upd fun s h => by split <;> exact h) fun _ =>
      .bind o (.get' o _) fun _ => .bind o (.upd fun _ h => h) fun _ => .upd fun _ h => h
  | cart _ => exact .refuse _

/-- The port reset of such a family: `'i'(SD_OP_DEINIT, 0)`, its outcome ignored (R178, R199). -/
theorem resetPort_deinit (h : Awake f s) (ho : (s.cfg.fam f).offload = true) (hw : PlainFor (s.cfg.fam f) 0x69)
    (hne : s.env.status ≠ []) (hidle : ∀ w ∈ s.env.status, statusBusy (s.cfg.fam f) w = false) :
    ∃ t st, resetPort s = .ok () t ∧ Onward f st [(0x69, s.cfg.sdOpDeinit, 0)] s t := by
  obtain ⟨w, l, hl⟩ := List.exists_cons_of_ne_nil hne
  obtain ⟨w', l', hl'⟩ := List.exists_cons_of_ne_nil (leftOf_ne w l)
  have hidle' : ∀ x, x = w ∨ x ∈ l → statusBusy (s.cfg.fam f) x = false := fun x hx => hidle x (by rw [hl]; simpa using hx)
  have once : ∀ t, Awake f t → t.cfg = s.cfg → t.env.status = s.env.status →
      ∃ u, Onward f (leftOf w' l') [(0x69, s.cfg.sdOpDeinit, 0)] t u ∧ if statusError (s.cfg.fam f) w'
        then cartHandshake 0x69 s.cfg.sdOpDeinit 0 t = .error (.cause .cart) u
        else ∃ r, cartHandshake 0x69 s.cfg.sdOpDeinit 0 t = .ok r u := fun t ht hcfg hst => by
    have := cartHandshake_awake (code := 0x69) (a0 := s.cfg.sdOpDeinit) (a1 := 0) ht (hst.trans hl) hl'
      (by rw [hcfg]; exact hidle' w (.inl rfl)) (by rw [hcfg]; exact hidle' w' (mem_leftOf (by rw [hl']; exact .head _)))
    rwa [hcfg] at this
  simp only [resetPort, bind_ok (famParams_run h.owner), get'_bind, ho, if_true]
  have around := cartCommand_around (code := 0x69) (a0 := s.cfg.sdOpDeinit) (a1 := 0) h.owner
  cases he : statusError (s.cfg.fam f) w' with
  | true =>
    obtain ⟨t, h1, h2⟩ := swapAround_fails h hw fun t ht hcfg hst => by
      obtain ⟨u, k1, k2⟩ := once t ht hcfg hst
      rw [if_pos he] at k2
      exact ⟨u, k2, k1⟩
    exact ⟨t, _, bestEffort_cause (around.trans h1), h2⟩
  | false =>
    obtain ⟨r, t, h1, h2⟩ := swapAround_passes h hw fun t ht hcfg hst => by
      obtain ⟨u, k1, k2⟩ := once t ht hcfg hst
      rw [he] at k2
      obtain ⟨r, k2⟩ := k2
      exact ⟨r, u, k2, k1⟩
    exact ⟨t, _, bestEffort_ok (around.trans h1), h2⟩

/-- What the clean-up of a failed operation does there. -/
def Deinits (clean : Op Unit) (f : Family) : Prop := ∀ s, Awake f s → (s.cfg.fam f).offload = true →
  PlainFor (s.cfg.fam f) 0x69 → s.env.status ≠ [] → (∀ w ∈ s.env.status, statusBusy (s.cfg.fam f) w = false) →
  ∃ t st, clean s = .ok () t ∧ Onward f st [(0x69, s.cfg.sdOpDeinit, 0)] s t

theorem abortTransfer_deinits : Deinits abortTransfer f := fun s h ho hw hne hidle => by
  have hs := h.onward (t := { s with sess := { s.sess with mode := .none } }) rfl rfl rfl rfl rfl rfl
  obtain ⟨t, st, h1, h2⟩ := resetPort_deinit hs.awake ho hw hne hidle
  refine ⟨t, st, ?_, hs.trans h2⟩
  simp only [abortTransfer, bind_ok (famParams_run h.owner), get'_bind, setSession]
  rw [bind_ok (onlyIf_false (by simp [ho]) _), upd_bind, h1]

theorem failBringUp_deinits : Deinits failBringUp f := fun s h ho hw hne hidle => by
  have hs := h.onward (t := { s with seq := { s.seq with bringUp := .fail } }) rfl rfl rfl rfl rfl rfl
  obtain ⟨t, st, h1, h2⟩ := resetPort_deinit hs.awake ho hw hne hidle
  have ht := hs.trans h2
  have hd := ht.awake.onward (t := { t with sess := { t.sess with ready := false, mode := .none } }) rfl rfl rfl rfl rfl rfl
  rw [ht.status] at hd
  refine ⟨_, st, ?_, by simpa using ht.trans hd⟩
  simp only [failBringUp, setBringUpSeq, upd_bind, bind_ok h1, sessionDown, setSession, upd_run]

/-- A bracket whose body fails at a command. -/
theorem bracket_deinits (h : IdleOffload s f) {clean body : Op Unit} {st l : List Word} (hs : s.env.status = st) (hne : l ≠ [])
    (hidle : ∀ w ∈ l, statusBusy (s.cfg.fam f) w = false) (hclean : Deinits clean f)
    (hbody : ∀ t, Awake f t → t.cfg = s.cfg → t.byteswap = s.byteswap → t.env.status = st →
      ∃ u, body t = .error (.cause c) u ∧ Onward f l C t u) :
    ∃ t, bracketed clean body s = .error (.cause c) t ∧
      commands t.hist = commands s.hist ++ (C ++ [(0x69, s.cfg.sdOpDeinit, 0)]) := by
  obtain ⟨a, hacq, ha⟩ := acquireFor_run f h.bus
  have hcfg : a.cfg = s.cfg := ha.same.cfg
  have hawake : Awake f a := ⟨ha.owner, (acquireFor_pi f).of_ok hacq h.pi, by rw [hcfg]; exact h.caps, by rw [hcfg]; exact h.regs⟩
  have hst : a.env.status = st := ((acquireFor_status f).of_ok hacq).trans hs
  obtain ⟨u, hu, ku⟩ := hbody a hawake hcfg (ha.same.swap rfl) hst
  have hcfgu : u.cfg = s.cfg := ku.cfg.trans hcfg
  obtain ⟨v, st', hv, kv⟩ := hclean u ku.awake (by rw [hcfgu]; exact h.offload) (by rw [hcfgu]; exact h.plainFor (.inl rfl))
    (by rw [ku.status]; exact hne) (by rw [ku.status, hcfgu]; exact hidle)
  obtain ⟨r, hrel, hr⟩ := releaseBus_run kv.awake.owner (kv.saved.trans (ku.saved.trans ha.saved))
  refine ⟨r, ?_, ?_⟩
  · have hacq' : acquireBus s = .ok () a := by simp only [acquireBus, get'_bind, h.cart, hacq]
    simp only [bracketed, bind_ok hacq', bind_ok (attempt_cause hu), errorExit, bind_ok hv, bind_ok hrel, raise_run]
  · rw [hr.hist, commands_cfgEvents, kv.issued, ku.issued, ha.hist, commands_cfgEvents, hcfgu, List.append_assoc]

/-! ### The operations -/

/-- A transfer of such a family whose loop fails at a command. -/
theorem transfer_deinits (h : IdleOffload s f) (hready : s.sess.ready = true) {buf lba count : Word}
    (hop : operandRefusal s.cfg buf lba count = none) (hcode : code = 0x73 ∨ code = 0x53)
    {loop : Word → Nat → Word → Nat → Op Unit} {pre post : Nat → Op Unit}
    (hstep : ∀ b n lba a, loop b (n + 1) lba a = (do
      pre a
      let _ ← cartCommand 0x49 lba 0
      let _ ← cartCommand code b 1
      post a
      loop b n (lba + 1) (a + sector)))
    (hpre : ∀ a, Smooth f (pre a)) (hpost : ∀ a, Smooth f (post a)) {good : List (Word × Word)}
    (hg : CartGood (s.cfg.fam f) good) {issued : Bool} {ws l : List Word} (hc : CartFails (s.cfg.fam f) c issued ws)
    (hlen : good.length < 2 * count.toNat) (hs : s.env.status = good.flatMap (fun p => [p.1, p.2]) ++ (ws ++ l)) (hne : l ≠ [])
    (hidle : ∀ w ∈ l, statusBusy (s.cfg.fam f) w = false) {native : Op Unit} :
    ∃ t, transfer buf lba count (fun b => loop b count.toNat lba buf.toNat) native s = .error (.cause c) t ∧
      commands t.hist = commands s.hist ++
        ((sectorCommands (s.cfg.fam f) s.byteswap code count.toNat lba).take (good.length + if issued then 1 else 0) ++
          [(0x69, s.cfg.sdOpDeinit, 0)]) := by
  have hstart : transfer buf lba count (fun b => loop b count.toNat lba buf.toNat) native s =
      bracketed abortTransfer (swapTransfer (loop (s.cfg.fam f).cartBuf count.toNat lba buf.toNat)) s := by
    rw [transfer, dispatch_known h.probed h.cart]
    simp only [get'_bind, hready, if_true, transferBody, hop, h.offload]
  rw [hstart]
  refine bracket_deinits h hs hne hidle abortTransfer_deinits fun t ht hcfg _ hst => ?_
  have hq : t.cfg.fam f = s.cfg.fam f := by rw [hcfg]
  rw [swapTransfer, bind_ok (famParams_run ht.owner)]
  refine swapAround_fails ht (by rw [hq]; exact h.plain.imp_right And.left) fun u hu hcfgu hstu => ?_
  exact sectorLoop_fails (loop := loop (s.cfg.fam f).cartBuf) (sw := s.byteswap) (hstep _) hpre hpost
    (h.plainFor (.inr (.inl rfl))) (h.plainFor (.inr (.inr hcode))) hc hne count.toNat hu (by rw [hcfgu, hq]) hg hlen
    (hstu.trans hst) (lba := lba) (a := buf.toNat)

/-- `card_read` of such a family whose command fails (R178). -/
theorem cardRead_deinits (h : IdleOffload s f) (hready : s.sess.ready = true) {dest lba count : Word}
    (hop : operandRefusal s.cfg dest lba count = none) {good : List (Word × Word)}
    (hg : CartGood (s.cfg.fam f) good) {issued : Bool} {ws l : List Word} (hc : CartFails (s.cfg.fam f) c issued ws)
    (hlen : good.length < 2 * count.toNat) (hs : s.env.status = good.flatMap (fun p => [p.1, p.2]) ++ (ws ++ l)) (hne : l ≠ [])
    (hidle : ∀ w ∈ l, statusBusy (s.cfg.fam f) w = false) :
    ∃ t, cardRead dest lba count s = .error (.cause c) t ∧
      commands t.hist = commands s.hist ++
        ((sectorCommands (s.cfg.fam f) s.byteswap 0x73 count.toNat lba).take (good.length + if issued then 1 else 0) ++
          [(0x69, s.cfg.sdOpDeinit, 0)]) :=
  transfer_deinits (loop := offloadReadLoop) (pre := fun _ => pure ()) h hready hop (.inl rfl)
    (fun _ _ _ _ => by simp [offloadReadLoop]) (fun _ => .pure _) smooth_moveToRam hg hc hlen hs hne hidle

/-- `card_write` of such a family whose command fails (R178). -/
theorem cardWrite_deinits (h : IdleOffload s f) (hready : s.sess.ready = true) {src lba count : Word}
    (hop : operandRefusal s.cfg src lba count = none) {good : List (Word × Word)}
    (hg : CartGood (s.cfg.fam f) good) {issued : Bool} {ws l : List Word} (hc : CartFails (s.cfg.fam f) c issued ws)
    (hlen : good.length < 2 * count.toNat) (hs : s.env.status = good.flatMap (fun p => [p.1, p.2]) ++ (ws ++ l)) (hne : l ≠ [])
    (hidle : ∀ w ∈ l, statusBusy (s.cfg.fam f) w = false) :
    ∃ t, cardWrite src lba count s = .error (.cause c) t ∧
      commands t.hist = commands s.hist ++
        ((sectorCommands (s.cfg.fam f) s.byteswap 0x53 count.toNat lba).take (good.length + if issued then 1 else 0) ++
          [(0x69, s.cfg.sdOpDeinit, 0)]) :=
  transfer_deinits (loop := offloadWriteLoop) (post := fun _ => pure ()) h hready hop (.inr rfl)
    (fun _ _ _ _ => by simp [offloadWriteLoop]) smooth_moveFromRam (fun _ => .pure _) hg hc hlen hs hne hidle

/-- A bring-up of such a family whose command fails (R178). -/
theorem runBringUp_deinits (h : IdleOffload s f) {issued : Bool} {ws l : List Word} (hc : CartFails (s.cfg.fam f) c issued ws)
    (hs : s.env.status = ws ++ l) (hne : l ≠ []) (hidle : ∀ w ∈ l, statusBusy (s.cfg.fam f) w = false) :
    ∃ t, runBringUp s = .error (.cause c) t ∧ commands t.hist = commands s.hist ++
      ((if issued then [(0x69, s.cfg.sdOpInit, 0)] else []) ++ [(0x69, s.cfg.sdOpDeinit, 0)]) := by
  obtain ⟨t, ht, hcmd⟩ := bracket_deinits (c := c) (body := bringUp) (C := if issued then [(0x69, s.cfg.sdOpInit, 0)] else [])
    h hs hne hidle failBringUp_deinits fun t ht hcfg _ hst => by
      have hclear := ht.onward (t := { t with sess := t.sess.cleared }) rfl rfl rfl rfl rfl rfl
      obtain ⟨u, hu, ku⟩ := cartCommand_fails (code := 0x69) (a0 := t.cfg.sdOpInit) (a1 := 0) hclear.awake
        (by rw [hclear.cfg, hcfg]; exact h.plainFor (.inl rfl)) (by rw [hclear.cfg, hcfg]; exact hc)
        (hclear.status.trans hst) hne
      refine ⟨u, ?_, by rw [← hcfg]; exact hclear.trans ku⟩
      have hoff : (({ t with sess := t.sess.cleared } : State).cfg.fam f).offload = true := by rw [hclear.cfg, hcfg]; exact h.offload
      have hq := famParams_run hclear.awake.owner
      have hb : bringUp t = (do
          let q ← famParams
          familyBringUp q
          setSession fun ss => { ss with ready := true }
          setBringUpSeq .done : Op Unit) { t with sess := t.sess.cleared } := rfl
      rw [hb, bind_ok hq]
      simp only [familyBringUp, hoff, if_true, offloadBringUp, bind_assoc, get'_bind]
      exact bind_error hu
  exact ⟨{ t with seq := { t.seq with bringUp := .rest } }, by
    simp only [runBringUp, bind_ok (attempt_cause ht), setBringUpSeq, upd_bind, rethrow, raise_run], hcmd⟩

end Sys2Proof.Machine
end

