-- ==== Sys2Proof/Laws/PerInstr.lean ====
section
/-! SUPPORT. Facts about an instruction as syntax, one lemma per constructor. -/

set_option autoImplicit false

namespace Sys2Proof.Laws.Length

/-- How many bytes an instruction takes at the host port: a frame six (30_encoding.md R80), a code one byte and its
operands. -/
def bytes : Instr → Nat
  | .cmd0 | .cmd8 | .cmd55 _ _ | .acmd41 _ _ | .cmd2 | .cmd3 | .cmd7 _ _ | .acmd6 | .cmd6 | .cmd58 | .cmd12
  | .cmd18 _ _ | .cmd25 _ _ => 6
  | .ccSdOp _ _ | .ccSectorSet _ _ | .ccRead _ _ | .ccWrite _ _ | .ccConfigSet _ _ | .ccConfigGet _ _ => 9
  | .computeCrc7 _ => 6
  | .computeCrc16 _ => 513
  | .executeCommand _ _ => 6
  | .sendAppCommand _ _ _ => 8
  | .init | .exit | .cardInit | .cardStop | .probe | .acquire | .release => 1
  | .cardRead _ _ _ | .cardWrite _ _ _ => 13
  | .setByteswap _ | .diskInitialize _ | .diskStatus _ | .bind _ => 2
  | .diskRead _ _ _ _ | .diskWrite _ _ _ _ => 14
  | .diskIoctl _ _ _ => 7

/-- A well-formed instruction is encoded in its own number of bytes. -/
def Statement (i : Instr) : Prop := i.wellFormed = true → (encode i).bytes.length = bytes i

theorem cmd0 : Statement .cmd0 := fun _ => rfl

theorem cmd8 : Statement .cmd8 := fun _ => rfl

theorem cmd55 (rca : Half) (crc : BitVec 7) : Statement (.cmd55 rca crc) := fun _ => rfl

theorem acmd41 (arg : Word) (crc : BitVec 7) : Statement (.acmd41 arg crc) := fun _ => rfl

theorem cmd2 : Statement .cmd2 := fun _ => rfl

theorem cmd3 : Statement .cmd3 := fun _ => rfl

theorem cmd7 (rca : Half) (crc : BitVec 7) : Statement (.cmd7 rca crc) := fun _ => rfl

theorem acmd6 : Statement .acmd6 := fun _ => rfl

theorem cmd6 : Statement .cmd6 := fun _ => rfl

theorem cmd58 : Statement .cmd58 := fun _ => rfl

theorem cmd12 : Statement .cmd12 := fun _ => rfl

theorem cmd18 (arg : Word) (crc : BitVec 7) : Statement (.cmd18 arg crc) := fun _ => rfl

theorem cmd25 (arg : Word) (crc : BitVec 7) : Statement (.cmd25 arg crc) := fun _ => rfl

theorem ccSdOp (a0 a1 : Word) : Statement (.ccSdOp a0 a1) := fun _ => rfl

theorem ccSectorSet (a0 a1 : Word) : Statement (.ccSectorSet a0 a1) := fun _ => rfl

theorem ccRead (a0 a1 : Word) : Statement (.ccRead a0 a1) := fun _ => rfl

theorem ccWrite (a0 a1 : Word) : Statement (.ccWrite a0 a1) := fun _ => rfl

theorem ccConfigSet (a0 a1 : Word) : Statement (.ccConfigSet a0 a1) := fun _ => rfl

theorem ccConfigGet (a0 a1 : Word) : Statement (.ccConfigGet a0 a1) := fun _ => rfl

theorem computeCrc7 (five : List Byte) : Statement (.computeCrc7 five) := by
  intro h
  simpa [encode, encodeCode, Length.bytes, Instr.wellFormed] using h

theorem computeCrc16 (block : List Byte) : Statement (.computeCrc16 block) := by
  intro h
  simpa [encode, encodeCode, Length.bytes, Instr.wellFormed] using h

theorem executeCommand (idx : BitVec 6) (arg : Word) : Statement (.executeCommand idx arg) := fun _ => rfl

theorem sendAppCommand (idx : BitVec 6) (rca : Half) (arg : Word) : Statement (.sendAppCommand idx rca arg) := fun _ => rfl

theorem init : Statement .init := fun _ => rfl

theorem exit : Statement .exit := fun _ => rfl

theorem cardInit : Statement .cardInit := fun _ => rfl

theorem cardRead (dest : Word) (lba : Word) (count : Word) : Statement (.cardRead dest lba count) := fun _ => rfl

theorem cardWrite (src : Word) (lba : Word) (count : Word) : Statement (.cardWrite src lba count) := fun _ => rfl

theorem cardStop : Statement .cardStop := fun _ => rfl

theorem setByteswap (on : Bool) : Statement (.setByteswap on) := fun _ => rfl

theorem probe : Statement .probe := fun _ => rfl

theorem diskInitialize (drive : Byte) : Statement (.diskInitialize drive) := fun _ => rfl

theorem diskStatus (drive : Byte) : Statement (.diskStatus drive) := fun _ => rfl

theorem diskRead (drive : Byte) (buffer : Word) (sector : Word) (count : Word) : Statement (.diskRead drive buffer sector count) := fun _ => rfl

theorem diskWrite (drive : Byte) (buffer : Word) (sector : Word) (count : Word) : Statement (.diskWrite drive buffer sector count) := fun _ => rfl

theorem diskIoctl (drive : Byte) (cmd : Byte) (buf : Word) : Statement (.diskIoctl drive cmd buf) := fun _ => rfl

theorem bind (drive : Byte) : Statement (.bind drive) := fun _ => rfl

theorem acquire : Statement .acquire := fun _ => rfl

theorem release : Statement .release := fun _ => rfl

end Sys2Proof.Laws.Length
end

