-- ==== Sys2Proof/Laws/Restart.lean ====
section
/-! SUPPORT. What every bring-up leaves, in every environment: no stream open, the bring-up machine at rest, and the session
ready exactly where it succeeded (43_card_sequencer.md R160, R180, 60_exceptions.md R272); and that it does not depend on
whether the session was ready before it (R160, 46_block_adapter.md R222). -/

namespace Sys2Proof.Machine

variable {α β : Type} {f : Family} {s t : State}

/-! ### The mode during a bring-up -/

/-- The mode is as it was. -/
def SameMode (s t : State) : Prop := t.sess.mode = s.sess.mode

theorem order_mode : Order SameMode := .same fun s => s.sess.mode

theorem mode_touches {F : Foot} {x : Op α} (h : Touches F x) (hF : F.sess = false) : Every SameMode x :=
  .of_touches h fun _ _ hs => by rw [SameMode, hs.session hF]

theorem mode_setSession {g : Session → Session} (h : ∀ ss, (g ss).mode = ss.mode) : Every SameMode (setSession g) :=
  .upd fun s => h s.sess

theorem mode_mark (q : BringUpSeq) : Every SameMode (setBringUpSeq q) := .upd fun _ => rfl

theorem mode_byte (i : Nat) : Every SameMode (respByte i) := mode_touches (F := .access) (touches_respByte i) rfl

theorem mode_command (app : Bool) (idx : BitVec 6) (arg : Word) : Every SameMode (executeCommand app idx arg) :=
  mode_touches (touches_executeCommand app idx arg) rfl

theorem mode_port : Every SameMode sdPort := mode_touches (F := .access) touches_sdPort rfl

theorem mode_reconfigure {g : Session → Session} (h : ∀ ss, (g ss).mode = ss.mode) : Every SameMode (reconfigure g) :=
  .bind order_mode mode_port fun _ => .bind order_mode (.get' order_mode _) fun _ =>
    .bind order_mode (mode_touches (touches_regWrite _ _) rfl) fun _ => mode_setSession h

theorem mode_testReady (wire : Wire) : Every SameMode (testReady wire) := by
  have o := order_mode
  cases wire
  · exact .bind o (mode_byte _) fun _ => .ite (.bind o (mode_setSession fun _ => rfl) fun _ => .pure o _) (.pure o _)
  · exact .bind o (mode_byte _) fun _ => .pure o _

theorem mode_pollLoop {mark : Nat → Op Unit} (hm : ∀ k, Every SameMode (mark k)) (arg : Word) (wire : Wire) (fuel k : Nat) :
    Every SameMode (pollLoop mark arg wire fuel k) := by
  have o := order_mode
  induction fuel generalizing k with
  | zero => exact .raise o _
  | succ n ih =>
    exact .bind o (hm k) fun _ => .bind o (mode_touches (touches_sendAppCommand _ _ _) rfl) fun _ =>
      .bind o (mode_testReady _) fun _ => .ite (.pure o _) (ih _)

theorem mode_pollReady {mark : Nat → Op Unit} (hm : ∀ k, Every SameMode (mark k)) (arg : Word) :
    Every SameMode (pollReady mark arg) :=
  .bind order_mode mode_port fun _ => .bind order_mode (.get' order_mode _) fun _ => mode_pollLoop hm _ _ _ _

theorem mode_publishRca : Every SameMode publishRca := by
  have o := order_mode
  exact .bind o mode_port fun _ => .bind o (.onlyIf o (.faultWith _)) fun _ => .bind o (mode_command _ _ _) fun _ =>
    .bind o (mode_byte _) fun _ => .bind o (mode_byte _) fun _ => mode_setSession fun _ => rfl

theorem mode_widenBus : Every SameMode widenBus :=
  .bind order_mode (.get' order_mode _) fun _ => .bind order_mode (mode_touches (touches_sendAppCommand _ _ _) rfl) fun _ =>
    mode_reconfigure fun _ => rfl

theorem mode_highSpeed : Every SameMode highSpeed := by
  have o := order_mode
  exact .bind o (mode_touches (F := .access) touches_datPort rfl) fun _ => .bind o (mode_command _ _ _) fun _ =>
    .bind o (mode_touches (touches_receiveOther rfl) rfl) fun _ => mode_reconfigure fun _ => rfl

theorem mode_readOcr : Every SameMode readOcr :=
  .bind order_mode (mode_command _ _ _) fun _ => .bind order_mode (mode_byte _) fun _ => mode_setSession fun _ => rfl

theorem mode_nativeBringUp : Every SameMode nativeBringUp := by
  have o := order_mode
  exact .bind o (.get' o _) fun p => .bind o (mode_mark _) fun _ => .bind o (mode_command _ _ _) fun _ =>
    .bind o (mode_mark _) fun _ => .bind o (mode_touches touches_voltageCheck rfl) fun _ =>
    .bind o (mode_pollReady (fun _ => mode_mark _) _) fun _ => .bind o (mode_mark _) fun _ =>
    .bind o (mode_command _ _ _) fun _ => .bind o (mode_mark _) fun _ => .bind o mode_publishRca fun _ =>
    .bind o (.onlyIf o (.bind o (mode_mark _) fun _ => .bind o (.get' o _) fun _ =>
      mode_touches (touches_selectCard _) rfl)) fun _ =>
    .bind o (mode_mark _) fun _ => .bind o mode_widenBus fun _ => .bind o (mode_mark _) fun _ => mode_highSpeed

theorem mode_spiBringUp : Every SameMode spiBringUp := by
  have o := order_mode
  exact .bind o (.get' o _) fun p => .bind o (mode_mark _) fun _ => .bind o (mode_command _ _ _) fun _ =>
    .bind o (mode_byte _) fun _ => .ite (.bind o (mode_mark _) fun _ =>
      .bind o (mode_touches touches_voltageCheck rfl) fun _ => .bind o (mode_pollReady (fun _ => mode_mark _) _) fun _ =>
      .bind o (mode_mark _) fun _ => mode_readOcr) (.raise o _)

theorem mode_familyBringUp (q : FamilyParams) : Every SameMode (familyBringUp q) := by
  have o := order_mode
  refine .ite (mode_touches touches_offloadBringUp rfl) (.bind o (mode_touches touches_portConfig rfl) fun _ => ?_)
  split
  · exact mode_nativeBringUp
  · exact mode_spiBringUp

/-! ### How a bring-up ends -/

/-- The body of a bring-up leaves no stream open, and the session ready where it succeeds (R160). -/
theorem bringUp_ends (s : State) : wp bringUp (fun _ t => t.sess.ready = true ∧ t.sess.mode = .none)
    (fun e t => match e with | .cause _ => t.sess.mode = .none | .refuse _ | .fault _ => True) s := by
  refine wp_intro (fun a t h => ?_) fun e t h => ?_
  · obtain ⟨_, u, h1, h2⟩ := bind_eq_ok.mp h
    cases h1
    obtain ⟨q, v, h3, h4⟩ := bind_eq_ok.mp h2
    obtain ⟨_, w, h5, h6⟩ := bind_eq_ok.mp h4
    cases h6
    exact ⟨rfl, ((mode_familyBringUp q).of_ok h5).trans ((mode_touches (F := .access) touches_famParams rfl).of_ok h3)⟩
  · cases e with
    | cause c =>
      rcases bind_eq_error.mp h with h1 | ⟨_, u, h1, h2⟩
      · cases h1
      · cases h1
        rcases bind_eq_error.mp h2 with h3 | ⟨q, v, h3, h4⟩
        · exact (mode_touches (F := .access) touches_famParams rfl).of_cause h3
        · rcases bind_eq_error.mp h4 with h5 | ⟨_, w, h5, h6⟩
          · exact ((mode_familyBringUp q).of_cause h5).trans
              ((mode_touches (F := .access) touches_famParams rfl).of_ok h3)
          · cases h6
    | refuse _ => trivial
    | fault _ => trivial

theorem noCause_releaseBus : NoCause releaseBus :=
  .bind (.get' _) fun o => by
    cases o
    · exact .refuse _
    · exact .bind (.get' _) fun _ => .ite (.bind (.bind (.attempt _) fun _ => .pure _) fun _ => .bind (.get' _) fun _ =>
        .bind (.upd _) fun _ => .upd _) fun _ _ _ h => by cases h

theorem noCause_acquireBus : NoCause acquireBus :=
  .bind (.get' _) fun o => by
    cases o
    · exact .refuse _
    · exact .bind (.get' _) fun o => by
        cases o
        · exact .bind (.bind (.attempt _) fun _ => .pure _) fun _ => .bind (.upd _) fun _ => .bind (.get' _) fun _ =>
            .bind (.upd _) fun _ => .upd _
        · exact .refuse _

/-- The clean-up of a bring-up always leaves the session down (R160). -/
theorem failBringUp_ends {a : Unit} (h : failBringUp s = .ok a t) : t.sess.ready = false ∧ t.sess.mode = .none := by
  obtain ⟨_, u, -, h2⟩ := bind_eq_ok.mp h
  obtain ⟨_, v, -, h4⟩ := bind_eq_ok.mp h2
  cases h4
  exact ⟨rfl, rfl⟩

theorem noCause_failBringUp : NoCause failBringUp :=
  .bind (.upd _) fun _ => .bind (.bind noCause_famParams fun _ => .bind (.get' _) fun _ =>
    .ite (.bind (.attempt _) fun _ => .pure _) (.bind (.get' _) fun _ => .bind (.bind (.attempt _) fun _ => .pure _) fun _ =>
      .bind (.attempt _) fun _ => .pure _)) fun _ => .upd _

/-- A bring-up leaves no stream open and its machine at rest; the session is ready where it succeeded, and not where it
ended in a cause (R160, R180, R272). -/
theorem runBringUp_ends (s : State) :
    wp runBringUp (fun _ t => t.sess.ready = true ∧ t.sess.mode = .none ∧ t.seq.bringUp = .rest)
      (fun e t => match e with
        | .cause _ => t.sess.ready = false ∧ t.sess.mode = .none ∧ t.seq.bringUp = .rest
        | .refuse _ | .fault _ => True) s := by
  have rel : ∀ {v w : State} {a : Unit}, releaseBus v = .ok a w → w.sess = v.sess := fun h =>
    (touches_releaseBus.of_ok h).session_eq rfl rfl
  have bracket : wp (bracketed failBringUp bringUp) (fun _ t => t.sess.ready = true ∧ t.sess.mode = .none)
      (fun e t => match e with
        | .cause _ => t.sess.ready = false ∧ t.sess.mode = .none
        | .refuse _ | .fault _ => True) s := by
    refine wp_intro (fun a t h => ?_) fun e t h => ?_
    · obtain ⟨_, u, -, h2⟩ := bind_eq_ok.mp h
      obtain ⟨r, v, h3, h4⟩ := bind_eq_ok.mp h2
      cases r with
      | error c =>
        obtain ⟨_, _, -, h6⟩ := bind_eq_ok.mp h4
        obtain ⟨_, _, -, h8⟩ := bind_eq_ok.mp h6
        cases h8
      | ok a =>
        obtain ⟨_, w, h5, h6⟩ := bind_eq_ok.mp h4
        cases h6
        have hb : bringUp u = .ok a v := by
          unfold attempt at h3
          split at h3 <;> cases h3
          assumption
        rw [rel h5]
        exact wp_ok (Q := fun _ t => t.sess.ready = true ∧ t.sess.mode = .none) (bringUp_ends u) hb
    · cases e with
      | refuse _ => trivial
      | fault _ => trivial
      | cause c =>
        rcases bind_eq_error.mp h with h1 | ⟨_, u, h1, h2⟩
        · exact absurd h1 (noCause_acquireBus _ _ _)
        rcases bind_eq_error.mp h2 with h3 | ⟨r, v, h3, h4⟩
        · exact absurd h3 (NoCause.attempt _ _ _ _)
        cases r with
        | ok a =>
          rcases bind_eq_error.mp h4 with h5 | ⟨_, w, -, h6⟩
          · exact absurd h5 (noCause_releaseBus _ _ _)
          · cases h6
        | error c =>
          rcases bind_eq_error.mp h4 with h5 | ⟨_, w, h5, h6⟩
          · exact absurd h5 (noCause_failBringUp _ _ _)
          rcases bind_eq_error.mp h6 with h7 | ⟨_, x, h7, h8⟩
          · exact absurd h7 (noCause_releaseBus _ _ _)
          · cases h8
            have := failBringUp_ends h5
            rw [← rel h7] at this
            exact this
  refine wp_intro (fun a t h => ?_) fun e t h => ?_
  · obtain ⟨r, u, h1, h2⟩ := bind_eq_ok.mp h
    obtain ⟨_, v, h3, h4⟩ := bind_eq_ok.mp h2
    cases h3
    cases r with
    | error c => cases h4
    | ok b =>
      cases h4
      have hb : bracketed failBringUp bringUp s = .ok a u := by
        unfold attempt at h1
        split at h1 <;> cases h1
        assumption
      have := wp_ok (Q := fun _ t => t.sess.ready = true ∧ t.sess.mode = .none) bracket hb
      exact ⟨this.1, this.2, rfl⟩
  · cases e with
    | refuse _ => trivial
    | fault _ => trivial
    | cause c =>
      rcases bind_eq_error.mp h with h1 | ⟨r, u, h1, h2⟩
      · exact absurd h1 (NoCause.attempt _ _ _ _)
      obtain h3 | ⟨_, v, h3, h4⟩ := bind_eq_error.mp h2
      · cases h3
      cases h3
      cases r with
      | ok b => cases h4
      | error d =>
        cases h4
        have hb : bracketed failBringUp bringUp s = .error (.cause c) u := by
          unfold attempt at h1
          split at h1 <;> cases h1
          assumption
        have := wp_error (E := fun e t => match e with
          | .cause _ => t.sess.ready = false ∧ t.sess.mode = .none
          | .refuse _ | .fault _ => True) bracket hb
        exact ⟨this.1, this.2, rfl⟩

/-! ### A bring-up does not ask whether the session is ready -/

/-- The state with the session ready. -/
def State.readied (s : State) : State := { s with sess := { s.sess with ready := true } }

/-- An operation that neither reads nor writes whether the session is ready. -/
def Blind (x : Op α) : Prop := ∀ s, x s.readied = match x s with
  | .ok a t => .ok a t.readied
  | .error e t => .error e t.readied

namespace Blind

theorem bind {x : Op α} {k : α → Op β} (hx : Blind x) (hk : ∀ a, Blind (k a)) : Blind (x >>= k) := fun s => by
  have h := hx s
  cases hr : x s with
  | ok a t => rw [hr] at h; rw [bind_ok hr, bind_ok h, hk a t]
  | error e t => rw [hr] at h; rw [bind_error hr, bind_error h]

theorem pure (a : α) : Blind (Pure.pure a : Op α) := fun _ => rfl
theorem raise (c : Cause) : Blind (Machine.raise c : Op α) := fun _ => rfl
theorem refuse (r : Refusal) : Blind (Machine.refuse r : Op α) := fun _ => rfl
theorem get' {g : State → α} (h : ∀ s, g s.readied = g s) : Blind (Machine.get' g) := fun s => by
  simp only [get'_run, h]
theorem upd {g : State → State} (h : ∀ s, g s.readied = (g s).readied) : Blind (Machine.upd g) := fun s => by
  simp only [upd_run, h]

theorem attempt {x : Op α} (h : Blind x) : Blind (Machine.attempt x) := fun s => by
  have := h s
  unfold Machine.attempt
  cases hr : x s with
  | ok a t => rw [hr] at this; rw [this]
  | error e t => rw [hr] at this; rw [this]; cases e <;> rfl

theorem spinOn {poll : Op (Option α)} (h : Blind poll) (n : Nat) : Blind (Machine.spinOn poll n) := by
  induction n with
  | zero => exact raise _
  | succ n ih =>
    have count : ∀ m, Blind (Machine.upd fun s => { s with spinCount := m }) := fun _ => upd fun _ => rfl
    refine (count _).bind fun _ => h.bind fun r => ?_
    cases r with
    | some a => exact pure _
    | none => exact (count _).bind fun _ => ih

end Blind

theorem blind_acquireBus : Blind acquireBus := by
  have pi : Blind nextPi := fun s => by
    simp only [nextPi, draw, State.readied]
    split <;> rfl
  have wait : ∀ f, Blind (bestEffort (piWaitIdle f)) := fun f =>
    (Blind.attempt (.bind (.get' fun _ => rfl) fun _ => .spinOn (pi.bind fun _ => .pure _) _)).bind fun _ => .pure _
  refine .bind (.get' fun _ => rfl) fun c => ?_
  cases c with
  | none => exact .refuse _
  | some f =>
    refine .bind (.get' fun _ => rfl) fun o => ?_
    cases o with
    | cart _ => exact .refuse _
    | native =>
      exact (wait f).bind fun _ => .bind (.upd fun s => by
          by_cases h : s.nativeSaved = true <;> simp [State.readied, h]) fun _ => .bind (.get' fun _ => rfl) fun _ =>
        .bind (.upd fun _ => rfl) fun _ => .upd fun _ => rfl

/-- A bring-up of a session that is ready goes as that of the same session down: it begins by clearing it (R160). -/
theorem runBringUp_readied (s : State) : runHost (do runBringUp; pure .ok) s.readied = runHost (do runBringUp; pure .ok) s := by
  have hacq := blind_acquireBus s
  cases h : acquireBus s with
  | ok a t =>
    rw [h] at hacq
    have hbody : bringUp t.readied = bringUp t := rfl
    have hatt : attempt bringUp t.readied = attempt bringUp t := by unfold attempt; rw [hbody]
    have hbr : bracketed failBringUp bringUp s.readied = bracketed failBringUp bringUp s := by
      simp only [bracketed, bind_ok h, bind_ok hacq]
      simp only [bind, EStateM.bind, hatt]
    have : runBringUp s.readied = runBringUp s := by
      simp only [runBringUp, bind, EStateM.bind, attempt, hbr]
    unfold runHost
    simp only [bind, EStateM.bind, this]
  | error e t =>
    rw [h] at hacq
    cases e with
    | cause c => exact absurd h (noCause_acquireBus _ _ _)
    | refuse r =>
      have side : ∀ {s t : State}, acquireBus s = .error (.refuse r) t →
          (do runBringUp; pure .ok : Op HostResult) s = .error (.refuse r) t := fun h => by
        simp only [runBringUp, bracketed]
        rw [bind_error]
        rw [bind_error]
        exact attempt_refuse (bind_error h)
      unfold runHost
      rw [side h, side hacq]
    | fault q =>
      have side : ∀ {s t : State}, acquireBus s = .error (.fault q) t →
          (do runBringUp; pure .ok : Op HostResult) s = .error (.fault q) t := fun h => by
        simp only [runBringUp, bracketed]
        rw [bind_error]
        rw [bind_error]
        simp only [attempt, bind_error h]
      unfold runHost
      rw [side h, side hacq]

end Sys2Proof.Machine
end

