-- ==== Sys2Proof/Laws/State.lean ====
section
/-! SUPPORT. One lemma per field for each named update of the state, so that no proof unfolds a record update. -/

set_option autoImplicit false

namespace Sys2Proof.Machine

/-! ### `CacheWb` and `CacheWbInv` touch RAM and the lines alone (20_memory.md R73, R74) -/

@[simp] theorem State.cacheWb_cfg (s : State) (a n : Nat) : (s.cacheWb a n).cfg = s.cfg := rfl
@[simp] theorem State.cacheWb_env (s : State) (a n : Nat) : (s.cacheWb a n).env = s.env := rfl
@[simp] theorem State.cacheWb_freeCount (s : State) (a n : Nat) : (s.cacheWb a n).freeCount = s.freeCount := rfl
@[simp] theorem State.cacheWb_port (s : State) (a n : Nat) : (s.cacheWb a n).port = s.port := rfl
@[simp] theorem State.cacheWb_result (s : State) (a n : Nat) : (s.cacheWb a n).result = s.result := rfl
@[simp] theorem State.cacheWb_hist (s : State) (a n : Nat) : (s.cacheWb a n).hist = s.hist := rfl
@[simp] theorem State.cacheWb_probed (s : State) (a n : Nat) : (s.cacheWb a n).probed = s.probed := rfl
@[simp] theorem State.cacheWb_cartType (s : State) (a n : Nat) : (s.cacheWb a n).cartType = s.cartType := rfl
@[simp] theorem State.cacheWb_seq (s : State) (a n : Nat) : (s.cacheWb a n).seq = s.seq := rfl
@[simp] theorem State.cacheWb_piDom (s : State) (a n : Nat) : (s.cacheWb a n).piDom = s.piDom := rfl
@[simp] theorem State.cacheWb_nativeCfg (s : State) (a n : Nat) : (s.cacheWb a n).nativeCfg = s.nativeCfg := rfl
@[simp] theorem State.cacheWb_nativeSaved (s : State) (a n : Nat) : (s.cacheWb a n).nativeSaved = s.nativeSaved := rfl
@[simp] theorem State.cacheWb_busOwner (s : State) (a n : Nat) : (s.cacheWb a n).busOwner = s.busOwner := rfl
@[simp] theorem State.cacheWb_sess (s : State) (a n : Nat) : (s.cacheWb a n).sess = s.sess := rfl
@[simp] theorem State.cacheWb_initDone (s : State) (a n : Nat) : (s.cacheWb a n).initDone = s.initDone := rfl
@[simp] theorem State.cacheWb_frame (s : State) (a n : Nat) : (s.cacheWb a n).frame = s.frame := rfl
@[simp] theorem State.cacheWb_resp (s : State) (a n : Nat) : (s.cacheWb a n).resp = s.resp := rfl
@[simp] theorem State.cacheWb_app (s : State) (a n : Nat) : (s.cacheWb a n).app = s.app := rfl
@[simp] theorem State.cacheWb_crc7Acc (s : State) (a n : Nat) : (s.cacheWb a n).crc7Acc = s.crc7Acc := rfl
@[simp] theorem State.cacheWb_crc16Acc (s : State) (a n : Nat) : (s.cacheWb a n).crc16Acc = s.crc16Acc := rfl
@[simp] theorem State.cacheWb_spinCount (s : State) (a n : Nat) : (s.cacheWb a n).spinCount = s.spinCount := rfl
@[simp] theorem State.cacheWb_byteswap (s : State) (a n : Nat) : (s.cacheWb a n).byteswap = s.byteswap := rfl
@[simp] theorem State.cacheWb_bound (s : State) (a n : Nat) : (s.cacheWb a n).bound = s.bound := rfl
@[simp] theorem State.cacheWb_noinit (s : State) (a n : Nat) : (s.cacheWb a n).noinit = s.noinit := rfl
@[simp] theorem State.cacheWb_phys (s : State) (a n : Nat) : (s.cacheWb a n).phys =
    writeBackLines (CacheLine.covers s.cfg.cacheLine a n) s.cache s.phys := rfl
@[simp] theorem State.cacheWb_cache (s : State) (a n : Nat) : (s.cacheWb a n).cache =
    cleanLines (CacheLine.covers s.cfg.cacheLine a n) s.cache := rfl
@[simp] theorem State.cacheWb_cb (s : State) (a n : Nat) : (s.cacheWb a n).cb = s.cb := rfl
@[simp] theorem State.cacheWb_dma (s : State) (a n : Nat) : (s.cacheWb a n).dma = s.dma := rfl

@[simp] theorem State.cacheWbInv_cfg (s : State) (a n : Nat) : (s.cacheWbInv a n).cfg = s.cfg := rfl
@[simp] theorem State.cacheWbInv_env (s : State) (a n : Nat) : (s.cacheWbInv a n).env = s.env := rfl
@[simp] theorem State.cacheWbInv_freeCount (s : State) (a n : Nat) : (s.cacheWbInv a n).freeCount = s.freeCount := rfl
@[simp] theorem State.cacheWbInv_port (s : State) (a n : Nat) : (s.cacheWbInv a n).port = s.port := rfl
@[simp] theorem State.cacheWbInv_result (s : State) (a n : Nat) : (s.cacheWbInv a n).result = s.result := rfl
@[simp] theorem State.cacheWbInv_hist (s : State) (a n : Nat) : (s.cacheWbInv a n).hist = s.hist := rfl
@[simp] theorem State.cacheWbInv_probed (s : State) (a n : Nat) : (s.cacheWbInv a n).probed = s.probed := rfl
@[simp] theorem State.cacheWbInv_cartType (s : State) (a n : Nat) : (s.cacheWbInv a n).cartType = s.cartType := rfl
@[simp] theorem State.cacheWbInv_seq (s : State) (a n : Nat) : (s.cacheWbInv a n).seq = s.seq := rfl
@[simp] theorem State.cacheWbInv_piDom (s : State) (a n : Nat) : (s.cacheWbInv a n).piDom = s.piDom := rfl
@[simp] theorem State.cacheWbInv_nativeCfg (s : State) (a n : Nat) : (s.cacheWbInv a n).nativeCfg = s.nativeCfg := rfl
@[simp] theorem State.cacheWbInv_nativeSaved (s : State) (a n : Nat) : (s.cacheWbInv a n).nativeSaved =
    s.nativeSaved := rfl
@[simp] theorem State.cacheWbInv_busOwner (s : State) (a n : Nat) : (s.cacheWbInv a n).busOwner = s.busOwner := rfl
@[simp] theorem State.cacheWbInv_sess (s : State) (a n : Nat) : (s.cacheWbInv a n).sess = s.sess := rfl
@[simp] theorem State.cacheWbInv_initDone (s : State) (a n : Nat) : (s.cacheWbInv a n).initDone = s.initDone := rfl
@[simp] theorem State.cacheWbInv_frame (s : State) (a n : Nat) : (s.cacheWbInv a n).frame = s.frame := rfl
@[simp] theorem State.cacheWbInv_resp (s : State) (a n : Nat) : (s.cacheWbInv a n).resp = s.resp := rfl
@[simp] theorem State.cacheWbInv_app (s : State) (a n : Nat) : (s.cacheWbInv a n).app = s.app := rfl
@[simp] theorem State.cacheWbInv_crc7Acc (s : State) (a n : Nat) : (s.cacheWbInv a n).crc7Acc = s.crc7Acc := rfl
@[simp] theorem State.cacheWbInv_crc16Acc (s : State) (a n : Nat) : (s.cacheWbInv a n).crc16Acc = s.crc16Acc := rfl
@[simp] theorem State.cacheWbInv_spinCount (s : State) (a n : Nat) : (s.cacheWbInv a n).spinCount = s.spinCount := rfl
@[simp] theorem State.cacheWbInv_byteswap (s : State) (a n : Nat) : (s.cacheWbInv a n).byteswap = s.byteswap := rfl
@[simp] theorem State.cacheWbInv_bound (s : State) (a n : Nat) : (s.cacheWbInv a n).bound = s.bound := rfl
@[simp] theorem State.cacheWbInv_noinit (s : State) (a n : Nat) : (s.cacheWbInv a n).noinit = s.noinit := rfl
@[simp] theorem State.cacheWbInv_phys (s : State) (a n : Nat) : (s.cacheWbInv a n).phys =
    writeBackLines (CacheLine.covers s.cfg.cacheLine a n) s.cache s.phys := rfl
@[simp] theorem State.cacheWbInv_cache (s : State) (a n : Nat) : (s.cacheWbInv a n).cache =
    s.cache.filter fun l => !CacheLine.covers s.cfg.cacheLine a n l := rfl
@[simp] theorem State.cacheWbInv_cb (s : State) (a n : Nat) : (s.cacheWbInv a n).cb = s.cb := rfl
@[simp] theorem State.cacheWbInv_dma (s : State) (a n : Nat) : (s.cacheWbInv a n).dma = s.dma := rfl

/-! ### Placing a request changes the queue of requests alone -/

@[simp] theorem State.withFetchWord_cfg (s : State) (nbits w : Nat) : (s.withFetchWord nbits w).cfg = s.cfg := rfl
@[simp] theorem State.withFetchWord_env (s : State) (nbits w : Nat) : (s.withFetchWord nbits w).env = s.env := rfl
@[simp] theorem State.withFetchWord_freeCount (s : State) (nbits w : Nat) : (s.withFetchWord nbits w).freeCount =
    s.freeCount := rfl
@[simp] theorem State.withFetchWord_port (s : State) (nbits w : Nat) : (s.withFetchWord nbits w).port =
    tableRequest nbits w :: s.port := rfl
@[simp] theorem State.withFetchWord_result (s : State) (nbits w : Nat) : (s.withFetchWord nbits w).result =
    s.result := rfl
@[simp] theorem State.withFetchWord_hist (s : State) (nbits w : Nat) : (s.withFetchWord nbits w).hist = s.hist := rfl
@[simp] theorem State.withFetchWord_probed (s : State) (nbits w : Nat) : (s.withFetchWord nbits w).probed =
    s.probed := rfl
@[simp] theorem State.withFetchWord_cartType (s : State) (nbits w : Nat) : (s.withFetchWord nbits w).cartType =
    s.cartType := rfl
@[simp] theorem State.withFetchWord_seq (s : State) (nbits w : Nat) : (s.withFetchWord nbits w).seq = s.seq := rfl
@[simp] theorem State.withFetchWord_piDom (s : State) (nbits w : Nat) : (s.withFetchWord nbits w).piDom =
    s.piDom := rfl
@[simp] theorem State.withFetchWord_nativeCfg (s : State) (nbits w : Nat) : (s.withFetchWord nbits w).nativeCfg =
    s.nativeCfg := rfl
@[simp] theorem State.withFetchWord_nativeSaved (s : State) (nbits w : Nat) : (s.withFetchWord nbits w).nativeSaved =
    s.nativeSaved := rfl
@[simp] theorem State.withFetchWord_busOwner (s : State) (nbits w : Nat) : (s.withFetchWord nbits w).busOwner =
    s.busOwner := rfl
@[simp] theorem State.withFetchWord_sess (s : State) (nbits w : Nat) : (s.withFetchWord nbits w).sess = s.sess := rfl
@[simp] theorem State.withFetchWord_initDone (s : State) (nbits w : Nat) : (s.withFetchWord nbits w).initDone =
    s.initDone := rfl
@[simp] theorem State.withFetchWord_frame (s : State) (nbits w : Nat) : (s.withFetchWord nbits w).frame =
    s.frame := rfl
@[simp] theorem State.withFetchWord_resp (s : State) (nbits w : Nat) : (s.withFetchWord nbits w).resp = s.resp := rfl
@[simp] theorem State.withFetchWord_app (s : State) (nbits w : Nat) : (s.withFetchWord nbits w).app = s.app := rfl
@[simp] theorem State.withFetchWord_crc7Acc (s : State) (nbits w : Nat) : (s.withFetchWord nbits w).crc7Acc =
    s.crc7Acc := rfl
@[simp] theorem State.withFetchWord_crc16Acc (s : State) (nbits w : Nat) : (s.withFetchWord nbits w).crc16Acc =
    s.crc16Acc := rfl
@[simp] theorem State.withFetchWord_spinCount (s : State) (nbits w : Nat) : (s.withFetchWord nbits w).spinCount =
    s.spinCount := rfl
@[simp] theorem State.withFetchWord_byteswap (s : State) (nbits w : Nat) : (s.withFetchWord nbits w).byteswap =
    s.byteswap := rfl
@[simp] theorem State.withFetchWord_bound (s : State) (nbits w : Nat) : (s.withFetchWord nbits w).bound =
    s.bound := rfl
@[simp] theorem State.withFetchWord_noinit (s : State) (nbits w : Nat) : (s.withFetchWord nbits w).noinit =
    s.noinit := rfl
@[simp] theorem State.withFetchWord_phys (s : State) (nbits w : Nat) : (s.withFetchWord nbits w).phys = s.phys := rfl
@[simp] theorem State.withFetchWord_cache (s : State) (nbits w : Nat) : (s.withFetchWord nbits w).cache =
    s.cache := rfl
@[simp] theorem State.withFetchWord_cb (s : State) (nbits w : Nat) : (s.withFetchWord nbits w).cb = s.cb := rfl
@[simp] theorem State.withFetchWord_dma (s : State) (nbits w : Nat) : (s.withFetchWord nbits w).dma = s.dma := rfl

/-! ### A host access brings a line in, and writes nothing but the lines (R72) -/

@[simp] theorem State.fillLine_cfg (s : State) (a : Nat) : (s.fillLine a).cfg = s.cfg := by
  unfold State.fillLine; split <;> rfl
@[simp] theorem State.fillLine_env (s : State) (a : Nat) : (s.fillLine a).env = s.env := by
  unfold State.fillLine; split <;> rfl
@[simp] theorem State.fillLine_freeCount (s : State) (a : Nat) : (s.fillLine a).freeCount = s.freeCount := by
  unfold State.fillLine; split <;> rfl
@[simp] theorem State.fillLine_port (s : State) (a : Nat) : (s.fillLine a).port = s.port := by
  unfold State.fillLine; split <;> rfl
@[simp] theorem State.fillLine_result (s : State) (a : Nat) : (s.fillLine a).result = s.result := by
  unfold State.fillLine; split <;> rfl
@[simp] theorem State.fillLine_hist (s : State) (a : Nat) : (s.fillLine a).hist = s.hist := by
  unfold State.fillLine; split <;> rfl
@[simp] theorem State.fillLine_probed (s : State) (a : Nat) : (s.fillLine a).probed = s.probed := by
  unfold State.fillLine; split <;> rfl
@[simp] theorem State.fillLine_cartType (s : State) (a : Nat) : (s.fillLine a).cartType = s.cartType := by
  unfold State.fillLine; split <;> rfl
@[simp] theorem State.fillLine_seq (s : State) (a : Nat) : (s.fillLine a).seq = s.seq := by
  unfold State.fillLine; split <;> rfl
@[simp] theorem State.fillLine_piDom (s : State) (a : Nat) : (s.fillLine a).piDom = s.piDom := by
  unfold State.fillLine; split <;> rfl
@[simp] theorem State.fillLine_nativeCfg (s : State) (a : Nat) : (s.fillLine a).nativeCfg = s.nativeCfg := by
  unfold State.fillLine; split <;> rfl
@[simp] theorem State.fillLine_nativeSaved (s : State) (a : Nat) : (s.fillLine a).nativeSaved = s.nativeSaved := by
  unfold State.fillLine; split <;> rfl
@[simp] theorem State.fillLine_busOwner (s : State) (a : Nat) : (s.fillLine a).busOwner = s.busOwner := by
  unfold State.fillLine; split <;> rfl
@[simp] theorem State.fillLine_sess (s : State) (a : Nat) : (s.fillLine a).sess = s.sess := by
  unfold State.fillLine; split <;> rfl
@[simp] theorem State.fillLine_initDone (s : State) (a : Nat) : (s.fillLine a).initDone = s.initDone := by
  unfold State.fillLine; split <;> rfl
@[simp] theorem State.fillLine_frame (s : State) (a : Nat) : (s.fillLine a).frame = s.frame := by
  unfold State.fillLine; split <;> rfl
@[simp] theorem State.fillLine_resp (s : State) (a : Nat) : (s.fillLine a).resp = s.resp := by
  unfold State.fillLine; split <;> rfl
@[simp] theorem State.fillLine_app (s : State) (a : Nat) : (s.fillLine a).app = s.app := by
  unfold State.fillLine; split <;> rfl
@[simp] theorem State.fillLine_crc7Acc (s : State) (a : Nat) : (s.fillLine a).crc7Acc = s.crc7Acc := by
  unfold State.fillLine; split <;> rfl
@[simp] theorem State.fillLine_crc16Acc (s : State) (a : Nat) : (s.fillLine a).crc16Acc = s.crc16Acc := by
  unfold State.fillLine; split <;> rfl
@[simp] theorem State.fillLine_spinCount (s : State) (a : Nat) : (s.fillLine a).spinCount = s.spinCount := by
  unfold State.fillLine; split <;> rfl
@[simp] theorem State.fillLine_byteswap (s : State) (a : Nat) : (s.fillLine a).byteswap = s.byteswap := by
  unfold State.fillLine; split <;> rfl
@[simp] theorem State.fillLine_bound (s : State) (a : Nat) : (s.fillLine a).bound = s.bound := by
  unfold State.fillLine; split <;> rfl
@[simp] theorem State.fillLine_noinit (s : State) (a : Nat) : (s.fillLine a).noinit = s.noinit := by
  unfold State.fillLine; split <;> rfl
@[simp] theorem State.fillLine_phys (s : State) (a : Nat) : (s.fillLine a).phys = s.phys := by
  unfold State.fillLine; split <;> rfl
@[simp] theorem State.fillLine_cb (s : State) (a : Nat) : (s.fillLine a).cb = s.cb := by
  unfold State.fillLine; split <;> rfl
@[simp] theorem State.fillLine_dma (s : State) (a : Nat) : (s.fillLine a).dma = s.dma := by
  unfold State.fillLine; split <;> rfl

@[simp] theorem State.hostStore_cfg (s : State) (a : Nat) (v : Byte) : (s.hostStore a v).cfg = s.cfg :=
  State.fillLine_cfg s a
@[simp] theorem State.hostStore_env (s : State) (a : Nat) (v : Byte) : (s.hostStore a v).env = s.env :=
  State.fillLine_env s a
@[simp] theorem State.hostStore_freeCount (s : State) (a : Nat) (v : Byte) : (s.hostStore a v).freeCount = s.freeCount :=
  State.fillLine_freeCount s a
@[simp] theorem State.hostStore_port (s : State) (a : Nat) (v : Byte) : (s.hostStore a v).port = s.port :=
  State.fillLine_port s a
@[simp] theorem State.hostStore_result (s : State) (a : Nat) (v : Byte) : (s.hostStore a v).result = s.result :=
  State.fillLine_result s a
@[simp] theorem State.hostStore_hist (s : State) (a : Nat) (v : Byte) : (s.hostStore a v).hist = s.hist :=
  State.fillLine_hist s a
@[simp] theorem State.hostStore_probed (s : State) (a : Nat) (v : Byte) : (s.hostStore a v).probed = s.probed :=
  State.fillLine_probed s a
@[simp] theorem State.hostStore_cartType (s : State) (a : Nat) (v : Byte) : (s.hostStore a v).cartType = s.cartType :=
  State.fillLine_cartType s a
@[simp] theorem State.hostStore_seq (s : State) (a : Nat) (v : Byte) : (s.hostStore a v).seq = s.seq :=
  State.fillLine_seq s a
@[simp] theorem State.hostStore_piDom (s : State) (a : Nat) (v : Byte) : (s.hostStore a v).piDom = s.piDom :=
  State.fillLine_piDom s a
@[simp] theorem State.hostStore_nativeCfg (s : State) (a : Nat) (v : Byte) : (s.hostStore a v).nativeCfg = s.nativeCfg :=
  State.fillLine_nativeCfg s a
@[simp] theorem State.hostStore_nativeSaved (s : State) (a : Nat) (v : Byte) : (s.hostStore a v).nativeSaved = s.nativeSaved :=
  State.fillLine_nativeSaved s a
@[simp] theorem State.hostStore_busOwner (s : State) (a : Nat) (v : Byte) : (s.hostStore a v).busOwner = s.busOwner :=
  State.fillLine_busOwner s a
@[simp] theorem State.hostStore_sess (s : State) (a : Nat) (v : Byte) : (s.hostStore a v).sess = s.sess :=
  State.fillLine_sess s a
@[simp] theorem State.hostStore_initDone (s : State) (a : Nat) (v : Byte) : (s.hostStore a v).initDone = s.initDone :=
  State.fillLine_initDone s a
@[simp] theorem State.hostStore_frame (s : State) (a : Nat) (v : Byte) : (s.hostStore a v).frame = s.frame :=
  State.fillLine_frame s a
@[simp] theorem State.hostStore_resp (s : State) (a : Nat) (v : Byte) : (s.hostStore a v).resp = s.resp :=
  State.fillLine_resp s a
@[simp] theorem State.hostStore_app (s : State) (a : Nat) (v : Byte) : (s.hostStore a v).app = s.app :=
  State.fillLine_app s a
@[simp] theorem State.hostStore_crc7Acc (s : State) (a : Nat) (v : Byte) : (s.hostStore a v).crc7Acc = s.crc7Acc :=
  State.fillLine_crc7Acc s a
@[simp] theorem State.hostStore_crc16Acc (s : State) (a : Nat) (v : Byte) : (s.hostStore a v).crc16Acc = s.crc16Acc :=
  State.fillLine_crc16Acc s a
@[simp] theorem State.hostStore_spinCount (s : State) (a : Nat) (v : Byte) : (s.hostStore a v).spinCount = s.spinCount :=
  State.fillLine_spinCount s a
@[simp] theorem State.hostStore_byteswap (s : State) (a : Nat) (v : Byte) : (s.hostStore a v).byteswap = s.byteswap :=
  State.fillLine_byteswap s a
@[simp] theorem State.hostStore_bound (s : State) (a : Nat) (v : Byte) : (s.hostStore a v).bound = s.bound :=
  State.fillLine_bound s a
@[simp] theorem State.hostStore_noinit (s : State) (a : Nat) (v : Byte) : (s.hostStore a v).noinit = s.noinit :=
  State.fillLine_noinit s a
@[simp] theorem State.hostStore_phys (s : State) (a : Nat) (v : Byte) : (s.hostStore a v).phys = s.phys :=
  State.fillLine_phys s a
@[simp] theorem State.hostStore_cb (s : State) (a : Nat) (v : Byte) : (s.hostStore a v).cb = s.cb :=
  State.fillLine_cb s a
@[simp] theorem State.hostStore_dma (s : State) (a : Nat) (v : Byte) : (s.hostStore a v).dma = s.dma :=
  State.fillLine_dma s a

/-! ### The session at the start of a bring-up (43_card_sequencer.md R160) -/

@[simp] theorem Session.cleared_ready (ss : Session) : ss.cleared.ready = false := rfl
@[simp] theorem Session.cleared_mode (ss : Session) : ss.cleared.mode = .none := rfl
@[simp] theorem Session.cleared_busWidth (ss : Session) : ss.cleared.busWidth = .w1 := rfl
@[simp] theorem Session.cleared_speed (ss : Session) : ss.cleared.speed = .slow := rfl
@[simp] theorem Session.cleared_bitlen (ss : Session) : ss.cleared.bitlen = .b8 := rfl
@[simp] theorem Session.cleared_rca (ss : Session) : ss.cleared.rca = 0 := rfl
@[simp] theorem Session.cleared_highCapacity (ss : Session) : ss.cleared.highCapacity = false := rfl
@[simp] theorem Session.cleared_lastLba (ss : Session) : ss.cleared.lastLba = ss.lastLba := rfl

/-! ### Parameters at reset -/

/-- An offset brought into range passes the top of no family's space (R7, R52). -/
theorem regFits_low (f : Family) (o : RegOffset) : regFits f o.low = true := by
  have h : o.low.toNat ≤ 0x07FFFFFF := by
    have : o.low.toNat = o.toNat &&& 0x07FFFFFF := by simp [RegOffset.low]
    rw [this]
    exact Nat.and_le_right
  cases f <;> simp [regFits, Family.base] <;> omega

theorem regsFit_family (f : Family) : regsFit f (Config.family f) = true :=
  List.all_eq_true.mpr fun r _ => by cases r <;> exact regFits_low f _

theorem inRange_family (f : Family) : (Config.family f).inRange = true := by
  have h : ((Config.openFamily f).cartBuf &&& 0xFFFFFFF8).toNat % 8 = 0 := by
    rw [BitVec.toNat_and, show (0xFFFFFFF8 : BitVec 32).toNat = 4294967288 from rfl]
    simpa using Nat.and_mod_two_pow (a := (Config.openFamily f).cartBuf.toNat) (b := 4294967288) (n := 3)
  simp only [FamilyParams.inRange, Config.family, WaitCaps.inRange, beq_iff_eq.mpr h]
  simp [Nat.mod_lt]

end Sys2Proof.Machine
end

