-- ==== Sys2Proof/Tests/Slice0.lean ====
section
/-! SUPPORT. Tests. Expected values are from the spec: 30_encoding.md and opcode_table.json (words), 40_crc.md and
95_test_vectors.md sections 2 and 3 (checksums, frames, answers, results). The parameters of the test bench are values in
the ranges of 00_scope.md R6, chosen here. Then one witness for the hypotheses of each statement. -/

set_option autoImplicit false
set_option Elab.async false

namespace Sys2Proof.Tests

open Sys2Proof.Machine

/-! ### The test bench -/

def timing (n : Nat) : BusConfig :=
  ⟨⟨⟨n⟩, ⟨n + 1⟩, ⟨n + 2⟩, ⟨n + 3⟩⟩, ⟨⟨n + 4⟩, ⟨n + 5⟩, ⟨n + 6⟩, ⟨n + 7⟩⟩⟩

/-- A family: busy is bit 0 of `STATUS`, error bit 1. -/
def bench (magic : Word) (wire : Wire) (offload : Bool) : FamilyParams where
  openMagic := magic
  openMask := 0xFFFFFFFF
  off := ⟨0, 1, 2, 3, 4, 5, 6, 7, 8, 9, 10, 11⟩
  keySeq := [0xAA55]
  lockKey := 0x10CC
  cartCfg := timing 100
  waits := ⟨1024, 1024, 1024, 1024, 1024, 1024⟩
  wire := wire
  offload := offload
  swapPolicy := .never
  swapListed := []
  hasSwap := true
  swapViaCfg := false
  swapId := 0
  cfgInit := [(1, 2)]
  cartBuf := 0x1000
  cartBufLen := 512
  busyBit := 0
  errorBit := 1
  wideBits := 1
  fastBits := 2
  oneBits := 4
  resetBits := 8
  hasDma := false
  portLevel := false

/-- 64Drive and SummerCart64 frame the card themselves; EverDrive-X has a native port, EverDrive-V an SPI one. An `init` is
asked for, which at reset it is not (log 35). -/
def params : Params where
  ci := bench 0 .sdNative true
  edx := bench 0x45445830 .sdNative false
  edv := { bench 0x45445631 .spi false with hasSwap := false }
  sc64 := bench 0 .sdNative true
  launch := timing 0
  probeOrder := [.ci, .edx, .edv, .sc64]
  nLeadin := 1
  nTrail := 0
  respSpinMax := 1000
  acmd41Max := 2
  acmd41ArgV1 := 0x00300000
  acmd41ArgV2 := 0x40300000
  useSelect := true
  checkRespCrc7 := true
  checkRespIndex := true
  checkReadCrc16 := true
  checkFixedBits := true
  crcFlagFirst := false
  initRequired := true
  nVolumes := 1
  cacheLine := 16
  stageAddr := 0x8000
  sdOpInit := 1
  sdOpDeinit := 0

/-- The same machine, the swap made by configuration commands: 64Drive wraps each command it lists, EverDrive-X every
transfer; SummerCart64 wraps every transfer by its register. -/
def wrapping : Params := { params with
  ci := { params.ci with
    swapPolicy := .listedCommands, swapListed := [0x43, 0x49, 0x53, 0x69, 0x73], swapViaCfg := true, swapId := 9 }
  edx := { params.edx with swapPolicy := .everyTransfer, swapViaCfg := true, swapId := 9 }
  sc64 := { params.sc64 with swapPolicy := .everyTransfer } }

theorem test_params_in_range : params.inRange = true ∧ wrapping.inRange = true := by decide +kernel

/-- After reset, with these parameters and a PI controller and a cartridge that are never busy. -/
def start : State :=
  { State.reset with
    cfg := params
    piDom := params.launch
    env := { State.reset.env with pi := [⟨false, false⟩], status := [0], cacheActs := [[]] } }

/-- Between operations, the cartridge known and initialised. -/
def idle (f : Family) : State :=
  { start with probed := true, cartType := some f, seq := { probe := .bound f, bringUp := .rest }, initDone := true }

/-- Inside a bracket. -/
def held (f : Family) : State :=
  { idle f with
    nativeCfg := params.launch, nativeSaved := true, piDom := (params.fam f).cartCfg, busOwner := .cart f }

/-- The same with the parameters that wrap. -/
def idleWrapping (f : Family) : State := { idle f with cfg := wrapping }
def heldWrapping (f : Family) : State := { held f with cfg := wrapping }

def withLine (s : State) (bits : List Bool) : State := { s with env := { s.env with cmdLine := bits ++ [true] } }
def withLanes (s : State) (ns : List Nibble) : State := { s with env := { s.env with datLine := ns ++ [0xF] } }
def withWords (s : State) (ws : List Word) : State := { s with env := { s.env with words := ws ++ [0] } }
def withIdent (s : State) (ws : List Word) : State := { s with env := { s.env with ident := ws ++ [0] } }
def withSector (s : State) (bs : List Byte) : State := { s with env := { s.env with sector := bs ++ [0] } }
def withSession (s : State) (f : Session → Session) : State := { s with sess := f s.sess }

/-- A card that is up and selected, its stream closed. -/
def ready : Session → Session := fun ss => { ss with
  ready := true, busWidth := .w4, speed := .fast, rca := 0x1234, highCapacity := true }

/-- What one wants to see of a next state. -/
def see {α : Type} (g : State → α) : Host.Outcome State Fault Refusal → Option α
  | .next t => some (g t)
  | .fault _ => none
  | .refused _ => none

def refusal : Host.Outcome State Fault Refusal → Option Refusal
  | .refused r => some r
  | .next _ => none
  | .fault _ => none

/-- Answers of the reference card (95_test_vectors.md section 2.1). -/
def ansCmd8 : Answer := ⟨3, [0x08, 0x00, 0x00, 0x01, 0xAA, 0x13]⟩
def ansPrefix : Answer := ⟨0, [0x37, 0x00, 0x00, 0x01, 0x20, 0x83]⟩
def ansBusy : Answer := ⟨0, [0x3F, 0x00, 0xFF, 0x80, 0x00, 0xFF]⟩
def ansReady : Answer := ⟨1, [0x3F, 0xC0, 0xFF, 0x80, 0x00, 0xFF]⟩
def ansCid : Answer := ⟨2, 0x3F :: List.replicate 16 0x55⟩
def ansRca : Answer := ⟨0, [0x03, 0x12, 0x34, 0x05, 0x00, 0x21]⟩
def ansSelect : Answer := ⟨0, [0x07, 0x00, 0x00, 0x07, 0x00, 0x75]⟩
def ansWidth : Answer := ⟨0, [0x06, 0x00, 0x00, 0x09, 0x20, 0xB9]⟩
def ansSpeed : Answer := ⟨0, [0x06, 0x00, 0x00, 0x09, 0x00, 0xDD]⟩
def ansOcr : Answer := ⟨0, [0x3F, 0xC0, 0xFF, 0x80, 0x00, 0xFF]⟩
def ansStop : Answer := ⟨0, [0x0C, 0x00, 0x00, 0x0B, 0x00, 0x7F]⟩
def ansRead : Answer := ⟨0, [0x12, 0x00, 0x00, 0x09, 0x00, 0xD3]⟩
def ansWrite : Answer := ⟨0, [0x19, 0x00, 0x00, 0x09, 0x00, 0x31]⟩
def spiIdle : Answer := ⟨0, [0x01]⟩
def spiReady : Answer := ⟨0, [0x00]⟩
def spiEcho : Answer := ⟨0, [0x01, 0x00, 0x00, 0x01, 0xAA]⟩
def spiOcr : Answer := ⟨0, [0x00, 0xC0, 0xFF, 0x80, 0x00]⟩

/-- A sector: a known first pair, zeros behind it. -/
def sectorData : List Byte := 0x12 :: 0x34 :: List.replicate 510 0x00

/-- The data block of these bytes on four lanes, after two clocks of waiting. -/
def blockLanes (d : List Byte) : List Nibble :=
  [0xF, 0xF] ++ 0x0 :: (nibblesOf d ++ nibblesOf (trailerOf (laneCrcs d)) ++ [0xF])

/-- The card's answer to a written block: accepted, then busy for two clocks. -/
def accepted : TokenScript := ⟨0xE, 0xE, 0xF, 0xE, 0xF, [0xE, 0xE, 0xF]⟩

/-! ### Well-formedness: an ill-formed term for each check -/

theorem test_illformed_cmd55 : (Instr.cmd55 0x1234 0x5E).wellFormed = false := by decide +kernel
theorem test_illformed_acmd41 : (Instr.acmd41 0x40300000 0x54).wellFormed = false := by decide +kernel
theorem test_illformed_cmd7 : (Instr.cmd7 0x1234 0x2D).wellFormed = false := by decide +kernel
theorem test_illformed_cmd18 : (Instr.cmd18 0x1000 0x48).wellFormed = false := by decide +kernel
theorem test_illformed_cmd25 : (Instr.cmd25 0x1000 0x39).wellFormed = false := by decide +kernel
theorem test_illformed_crc7 : (Instr.computeCrc7 [0, 0, 0, 0]).wellFormed = false := by decide +kernel
theorem test_illformed_crc16 : (Instr.computeCrc16 [0]).wellFormed = false := by decide +kernel
theorem test_wellformed_frames :
    [Instr.cmd55 0x1234 0x5F, .acmd41 0x40300000 0x55, .cmd7 0x1234 0x2C, .cmd18 0x1000 0x49, .cmd25 0x1000 0x38].all
      Instr.wellFormed = true := by decide +kernel

/-! ### Decoding: a word of the opcode table for every constructor, bit 47 of a frame first -/

theorem test_decode_cmd0 : decodeTableWord 48 0x400000000095 = some .cmd0 := by decide +kernel
theorem test_decode_cmd8 : decodeTableWord 48 0x48000001AA87 = some .cmd8 := by decide +kernel
theorem test_decode_cmd55 : decodeTableWord 48 0x7712340000BF = some (.cmd55 0x1234 0x5F) := by decide +kernel
theorem test_decode_acmd41 : decodeTableWord 48 0x6940300000AB = some (.acmd41 0x40300000 0x55) := by decide +kernel
theorem test_decode_cmd2 : decodeTableWord 48 0x42000000004D = some .cmd2 := by decide +kernel
theorem test_decode_cmd3 : decodeTableWord 48 0x430000000021 = some .cmd3 := by decide +kernel
theorem test_decode_cmd7 : decodeTableWord 48 0x471234000059 = some (.cmd7 0x1234 0x2C) := by decide +kernel
theorem test_decode_acmd6 : decodeTableWord 48 0x4600000002CB = some .acmd6 := by decide +kernel
theorem test_decode_cmd6 : decodeTableWord 48 0x4680FFFFF129 = some .cmd6 := by decide +kernel
theorem test_decode_cmd58 : decodeTableWord 48 0x7A00000000FD = some .cmd58 := by decide +kernel
theorem test_decode_cmd12 : decodeTableWord 48 0x4C0000000061 = some .cmd12 := by decide +kernel
theorem test_decode_cmd18 : decodeTableWord 48 0x520000100093 = some (.cmd18 0x1000 0x49) := by decide +kernel
theorem test_decode_cmd25 : decodeTableWord 48 0x590000100071 = some (.cmd25 0x1000 0x38) := by decide +kernel
theorem test_decode_other_index : decodeTableWord 48 0x510000000055 = none := by decide +kernel
theorem test_decode_other_argument : decodeTableWord 48 0x420000000100 = none := by decide +kernel
theorem test_decode_no_stop_bit : decodeTableWord 48 0x400000000094 = none := by decide +kernel

/-- Operand bytes of the code tests. -/
def ops : List Byte := [0x00, 0x00, 0x20, 0x03, 0x00, 0x00, 0x00, 0x05, 0x00, 0x00, 0x00, 0x02]

theorem test_decode_cc_i : decode ⟨.code, 0x69 :: ops⟩ = .ok (.ccSdOp 0x2003 5) := by decide +kernel
theorem test_decode_cc_I : decode ⟨.code, 0x49 :: ops⟩ = .ok (.ccSectorSet 0x2003 5) := by decide +kernel
theorem test_decode_cc_s : decode ⟨.code, 0x73 :: ops⟩ = .ok (.ccRead 0x2003 5) := by decide +kernel
theorem test_decode_cc_S : decode ⟨.code, 0x53 :: ops⟩ = .ok (.ccWrite 0x2003 5) := by decide +kernel
theorem test_decode_cc_C : decode ⟨.code, 0x43 :: ops⟩ = .ok (.ccConfigSet 0x2003 5) := by decide +kernel
theorem test_decode_cc_c : decode ⟨.code, 0x63 :: ops⟩ = .ok (.ccConfigGet 0x2003 5) := by decide +kernel
theorem test_decode_compute_crc7 : decode ⟨.code, [0x01, 0x40, 0, 0, 0, 0]⟩ = .ok (.computeCrc7 [0x40, 0, 0, 0, 0]) := by
  decide +kernel
theorem test_decode_compute_crc16 :
    decode ⟨.code, 0x02 :: sectorData⟩ = .ok (.computeCrc16 sectorData) := by decide +kernel
theorem test_decode_execute_command : decode ⟨.code, [0x03, 0x08, 0, 0, 1, 0xAA]⟩ = .ok (.executeCommand 8 0x1AA) := by
  decide +kernel
theorem test_decode_send_app_command :
    decode ⟨.code, [0x04, 0x29, 0x12, 0x34, 0x40, 0x30, 0, 0]⟩ = .ok (.sendAppCommand 41 0x1234 0x40300000) := by decide +kernel
theorem test_decode_init : decodeTableWord 8 0x10 = some .init := by decide +kernel
theorem test_decode_exit : decodeTableWord 8 0x11 = some .exit := by decide +kernel
theorem test_decode_card_init : decodeTableWord 8 0x12 = some .cardInit := by decide +kernel
theorem test_decode_card_read : decode ⟨.code, 0x13 :: ops⟩ = .ok (.cardRead 0x2003 5 2) := by decide +kernel
theorem test_decode_card_write : decode ⟨.code, 0x14 :: ops⟩ = .ok (.cardWrite 0x2003 5 2) := by decide +kernel
theorem test_decode_card_stop : decodeTableWord 8 0x15 = some .cardStop := by decide +kernel
theorem test_decode_set_byteswap : decode ⟨.code, [0x16, 0x01]⟩ = .ok (.setByteswap true) := by decide +kernel
theorem test_decode_probe : decodeTableWord 8 0x20 = some .probe := by decide +kernel
theorem test_decode_disk_initialize : decode ⟨.code, [0x30, 0x01]⟩ = .ok (.diskInitialize 1) := by decide +kernel
theorem test_decode_disk_status : decode ⟨.code, [0x31, 0x01]⟩ = .ok (.diskStatus 1) := by decide +kernel
theorem test_decode_disk_read : decode ⟨.code, 0x32 :: 0x01 :: ops⟩ = .ok (.diskRead 1 0x2003 5 2) := by decide +kernel
theorem test_decode_disk_write : decode ⟨.code, 0x33 :: 0x01 :: ops⟩ = .ok (.diskWrite 1 0x2003 5 2) := by decide +kernel
theorem test_decode_disk_ioctl : decode ⟨.code, 0x34 :: 0x01 :: 0x00 :: ops⟩ = .ok (.diskIoctl 1 0 0x2003) := by decide +kernel
theorem test_decode_bind : decode ⟨.code, [0x35, 0x01]⟩ = .ok (.bind 1) := by decide +kernel
theorem test_decode_acquire : decodeTableWord 8 0x40 = some .acquire := by decide +kernel
theorem test_decode_release : decodeTableWord 8 0x41 = some .release := by decide +kernel
theorem test_decode_other_code : decodeTableWord 8 0x17 = none := by decide +kernel

/-! ### Checksums (95_test_vectors.md 2.1, 2.2) -/

theorem test_crc7_vectors :
    [crc7 [0x80, 0, 0, 0, 0], crc7 [0xFF, 0xFF, 0xFF, 0xFF, 0xFF], crc7 [0, 0, 0, 0, 1], crc7 []] =
      [0x1D, 0x11, 0x09, 0x00] := by decide +kernel

theorem test_crc16_serial : crc16Bytes [0x31, 0x32, 0x33, 0x34, 0x35, 0x36, 0x37, 0x38, 0x39] = 0x31C3 := by decide +kernel

theorem test_crc16_lanes_short :
    laneCrcs [0x12, 0x34] = ⟨0xA14A, 0x60C6, 0x1021, 0x0000⟩ ∧
      trailerOf (laneCrcs [0x12, 0x34]) = [0x12, 0x34, 0x00, 0x01, 0x23, 0x40, 0x12, 0x34] := by decide +kernel

/-- Row I: byte `i` is `i` modulo 256. -/
def rowI : List Byte := (List.range 512).map (BitVec.ofNat 8)

set_option maxRecDepth 20000 in
theorem test_crc16_row_I :
    laneCrcs rowI = ⟨0x6AA3, 0xA97D, 0x10B5, 0x7357⟩ ∧
      trailerOf (laneCrcs rowI) = [0x29, 0xBC, 0x30, 0x9A, 0x5A, 0x7E, 0x2E, 0x9F] ∧
      slicedTrailer rowI = [0x29, 0xBC, 0x30, 0x9A, 0x5A, 0x7E, 0x2E, 0x9F] := by decide +kernel

set_option maxRecDepth 20000 in
/-- Row G: the last byte `80`, the rest zero. -/
theorem test_crc16_row_G :
    trailerOf (laneCrcs (List.replicate 511 0x00 ++ [0x80])) = [0x00, 0x80, 0x00, 0x00, 0x08, 0x00, 0x00, 0x80] := by
  decide +kernel

/-! ### One step of each instruction -/

/-- E1: CMD0 sends the lead-in and its frame and reads nothing. -/
theorem test_cmd0 : see (fun t => (cmdBytes t.hist, t.resp, t.result)) (exec .cmd0 (held .edx)) =
    some ([0xFF, 0x40, 0x00, 0x00, 0x00, 0x00, 0x95], [], .ok) := by decide +kernel

/-- E2: CMD8 answered after three idle bits. -/
theorem test_cmd8 : see (fun t => (cmdBytes t.hist, t.resp, t.result)) (exec .cmd8 (withLine (held .edx) ansCmd8.wire)) =
    some ([0xFF, 0x48, 0x00, 0x00, 0x01, 0xAA, 0x87], [0x08, 0x00, 0x00, 0x01, 0xAA, 0x13], .version true) := by
  decide +kernel

/-- C5: silence is version 1. -/
theorem test_cmd8_silent : see State.result (exec .cmd8 (withLine (held .edx) [])) = some (.version false) := by
  decide +kernel

/-- E7: the prefix answered with the illegal-command flag. -/
theorem test_cmd55_illegal : see (fun t => (t.result, t.app))
    (exec (.cmd55 0 0x32) (withLine (held .edx) (⟨0, [0x37, 0x00, 0x40, 0x01, 0x20, 0x4F]⟩ : Answer).wire)) =
    some (.error .illegal, true) := by decide +kernel

/-- R138: not ready once, then ready with the capacity bit. -/
theorem test_acmd41 : see (fun t => (t.result, t.sess.highCapacity, (cmdBytes t.hist).length))
    (exec (.acmd41 0x40300000 0x55) (withLine (held .edx)
      (ansPrefix.wire ++ ansBusy.wire ++ ansPrefix.wire ++ ansReady.wire))) = some (.ok, true, 28) := by decide +kernel

/-- C10: not ready within the cap. -/
theorem test_acmd41_absent : see (fun t => (t.result, t.sess.highCapacity))
    (exec (.acmd41 0x40300000 0x55) (withLine (held .edx)
      (ansPrefix.wire ++ ansBusy.wire ++ ansPrefix.wire ++ ansBusy.wire))) = some (.error .absent, false) := by
  decide +kernel

/-- E5: a long response has 17 bytes. -/
theorem test_cmd2 : see (fun t => t.resp.length) (exec .cmd2 (withLine (held .edx) ansCid.wire)) = some 17 := by
  decide +kernel

/-- C11. -/
theorem test_cmd3 : see (fun t => t.sess.rca) (exec .cmd3 (withLine (held .edx) ansRca.wire)) = some 0x1234 := by
  decide +kernel

theorem test_cmd7 : see (fun t => (t.result, cmdBytes t.hist))
    (exec (.cmd7 0x1234 0x2C) (withLanes (withLine (held .edx) ansSelect.wire) [0xE, 0xF])) =
    some (.ok, [0xFF, 0x47, 0x12, 0x34, 0x00, 0x00, 0x59]) := by decide +kernel

theorem test_acmd6 : see (fun t => (t.sess.busWidth, cmdBytes t.hist))
    (exec .acmd6 (withLine (withSession (held .edx) ready) (ansPrefix.wire ++ ansWidth.wire))) =
    some (.w4, [0xFF, 0x77, 0x12, 0x34, 0x00, 0x00, 0xBF, 0xFF, 0x46, 0x00, 0x00, 0x00, 0x02, 0xCB]) := by decide +kernel

/-- R135, R143: the write of SD_CFG times out, the width stays. -/
theorem test_acmd6_timeout : see (fun t => (t.result, t.sess.busWidth)) (exec .acmd6
    { withLine (held .edx) (ansPrefix.wire ++ ansWidth.wire) with env := { start.env with
        pi := [⟨false, true⟩], cmdLine := ansPrefix.wire ++ ansWidth.wire ++ [true] } }) =
    some (.error .timeout, .w1) := by decide +kernel

theorem test_cmd6 : see (fun t => (t.sess.speed, t.cb.length))
    (exec .cmd6 (withLanes (withLine (withSession (held .edx) fun ss => { ss with busWidth := .w4 }) ansSpeed.wire)
      (blockLanes (List.replicate 64 0x80)))) = some (.fast, 0) := by decide +kernel

/-- C13, on the native table's row. -/
theorem test_cmd58 : see (fun t => t.sess.highCapacity) (exec .cmd58 (withLine (held .edx) ansOcr.wire)) = some true := by
  decide +kernel

/-- C15. -/
theorem test_cmd12 : see (fun t => (t.result, t.sess.mode))
    (exec .cmd12 (withLine (withSession (held .edx) fun ss => { ss with mode := .blockRead }) [])) =
    some (.error .timeout, .none) := by decide +kernel

/-- C16. -/
theorem test_cmd18 : see (fun t => (t.sess.mode, t.sess.lastLba))
    (exec (.cmd18 0 0x70) (withLine (withSession (held .edx) ready) ansRead.wire)) =
    some (.blockRead, 0xFFFFFFFF) := by decide +kernel

/-- C17: on a standard card the argument `C800` is LBA 100. -/
theorem test_cmd25 : see (fun t => (t.sess.mode, t.sess.lastLba))
    (exec (.cmd25 0xC800 0) (withLine (held .edx) ansWrite.wire)) = some (.blockWrite, 99) := by decide +kernel

/-- T4. -/
theorem test_cc_I : see (fun t => (t.result, writes t.hist))
    (exec (.ccSectorSet 0x1000 0) (withWords (held .ci) [7, 8])) =
    some (.cart 7 8, [(0x18000010, 0x1000), (0x18000014, 0), (0x1800000C, 0x49)]) := by decide +kernel

/-- T5: busy stuck, no write. -/
theorem test_cc_I_stuck : see (fun t => (t.result, writes t.hist))
    (exec (.ccSectorSet 0x1000 0) { held .ci with env := { (held .ci).env with status := [1] } }) =
    some (.error .timeout, []) := by decide +kernel

/-- T6: the command ends with the error bit. -/
theorem test_cc_i_error : see State.result
    (exec (.ccSdOp 1 0) { held .ci with env := { (held .ci).env with status := [0, 2] } }) = some (.error .cart) := by
  decide +kernel

/-- R178: 's' brings a sector into the buffer. -/
theorem test_cc_s : see (fun t => (t.result, t.cb))
    (exec (.ccRead 0x1000 1) (withSector (withWords (held .ci) [0, 0]) sectorData)) =
    some (.cart 0 0, [(0, 0x12), (1, 0x34)]) := by decide +kernel

/-- R198: while the swap is on each pair is exchanged. -/
theorem test_cc_s_swapped : see State.cb
    (exec (.ccRead 0x1000 1) { withSector (withWords (held .ci) [0, 0]) sectorData with byteswap := true }) =
    some [(0, 0x34), (1, 0x12)] := by decide +kernel

theorem test_cc_S : see (fun t => commands t.hist) (exec (.ccWrite 0x1000 1) (withWords (held .sc64) [0, 0])) =
    some [(0x53, 0x1000, 1)] := by decide +kernel

theorem test_cc_C : see (fun t => writes t.hist) (exec (.ccConfigSet 1 2) (withWords (held .sc64) [0, 0])) =
    some [(0x1FFF0010, 1), (0x1FFF0014, 2), (0x1FFF000C, 0x43)] := by decide +kernel

theorem test_cc_c : see State.result (exec (.ccConfigGet 1 0) (withWords (held .sc64) [0, 42])) = some (.cart 0 42) := by
  decide +kernel

theorem test_compute_crc7 : see State.result (exec (.computeCrc7 [0x40, 0, 0, 0, 0]) start) = some (.crc7 0x95) := by
  decide +kernel

/-- The lane split on a short stream. -/
theorem test_compute_crc16 : see State.result (exec (.computeCrc16 [0x12, 0x34]) start) =
    some (.crc16 ⟨0xA14A, 0x60C6, 0x1021, 0x0000⟩ [0x12, 0x34, 0x00, 0x01, 0x23, 0x40, 0x12, 0x34]) := by decide +kernel

/-- E11: a wrong index in the answer. -/
theorem test_execute_command_index : see State.result (exec (.executeCommand 8 0x1AA)
    (withLine (held .edx) (⟨0, [0x09, 0x00, 0x00, 0x01, 0xAA, 0x13]⟩ : Answer).wire)) = some (.error .malformed) := by
  decide +kernel

/-- E12: an index without a row. -/
theorem test_execute_command_refused : refusal (exec (.executeCommand 5 0) (held .edx)) = some .noResponseKind := by
  decide +kernel

/-- E6: the prefix times out, the target is not sent. -/
theorem test_send_app_command : see (fun t => (t.result, cmdBytes t.hist))
    (exec (.sendAppCommand 41 0 0x40300000) (withLine (held .edx) [])) =
    some (.error .timeout, [0xFF, 0x77, 0x00, 0x00, 0x00, 0x00, 0x65]) := by decide +kernel

/-- T7, T9. -/
theorem test_init : see (fun t => (t.result, writes t.hist))
    (exec .init (withWords (withIdent (idle .sc64) [0x53437632]) [0, 0])) =
    some (.bufferSize 512,
      [(0x1FFF0004, 0xAA55), (0x1FFF0010, 1), (0x1FFF0014, 2), (0x1FFF000C, 0x43)]) := by decide +kernel

/-- T8. -/
theorem test_init_probe : see State.result (exec .init (withIdent (idle .ci) [0x55444557])) = some (.error .probe) := by
  decide +kernel

theorem test_exit : see (fun t => (t.result, writes t.hist, t.byteswap))
    (exec .exit { withSession (idle .sc64) ready with byteswap := true }) =
    some (.ok, [(0x1FFF002C, 0), (0x1FFF0004, 0x10CC)], false) := by decide +kernel

/-- P5 (b), with the parameter of `init` as it is at reset: a probe and then `card_init`, with no `init` before it. -/
theorem test_card_init_probed :
    let s := withWords (withIdent { start with cfg := { params with initRequired := false } } [0x55444556]) [0, 0]
    see (fun t => (t.result, t.initDone)) (exec .probe s) = some (.family .ci, false) ∧
      (see id (exec .probe s)).bind (fun t => see (fun u => (u.result, u.sess.ready, commands u.hist)) (exec .cardInit t)) =
        some (.ok, true, [(0x69, 1, 0)]) := by decide +kernel

/-- Where an `init` is asked for (log 35), R160, R189, R222: after `exit` the session is not brought up by `card_init`, but it is by `disk_initialize` (T 2.8);
once ready, `card_init` starts it again (R160), and one that fails leaves it down (R272). -/
theorem test_card_init_after_exit :
    let s := { withWords (idle .ci) [0, 0] with initDone := false, bound := [true] }
    let r := withSession s fun ss => { ready ss with mode := .blockRead }
    see (fun t => (t.result, t.hist.length)) (exec .cardInit s) = some (.error .notReady, 0) ∧
      see (fun t => (t.result, t.sess.ready)) (exec (.diskInitialize 0) s) = some (.status 0, true) ∧
      see (fun t => (t.result, t.sess.ready, t.sess.mode, (commands t.hist).length)) (exec .cardInit r) =
        some (.ok, true, .none, 1) ∧
      see (fun t => (t.result, t.sess.ready, t.sess.mode))
        (exec .cardInit { r with env := { r.env with status := [1] } }) = some (.error .timeout, false, .none) ∧
      see State.initDone (exec .exit (idle .sc64)) = some false ∧
      see State.initDone (exec .init (withIdent { idle .ci with initDone := false } [0x55444556])) = some true := by
  decide +kernel

/-- The SPI bring-up: CMD0, CMD8, CMD55 and CMD41, CMD58. -/
theorem test_card_init_spi : see (fun t => (t.result, t.sess.ready, t.sess.highCapacity, t.sess.busWidth))
    (exec .cardInit (withLine (idle .edv)
      (spiIdle.wire ++ spiEcho.wire ++ spiReady.wire ++ spiReady.wire ++ spiOcr.wire))) = some (.ok, true, true, .w1) := by
  decide +kernel

/-- P2: the native bring-up. -/
theorem test_card_init : see (fun t => (t.result, t.sess.ready, t.sess.rca, t.sess.highCapacity))
    (exec .cardInit (withLanes (withLine (idle .edx)
      (ansCmd8.wire ++ ansPrefix.wire ++ ansReady.wire ++ ansCid.wire ++ ansRca.wire ++ ansSelect.wire ++ ansPrefix.wire ++
        ansWidth.wire ++ ansSpeed.wire)) ([0xF] ++ blockLanes (List.replicate 64 0x80)))) =
    some (.ok, true, 0x1234, true) := by decide +kernel

set_option maxRecDepth 20000 in
/-- 2.5: `NONE`, then `card_read(_, 5, 1)`, to a buffer that is not 8-byte aligned: the staged path. -/
theorem test_card_read : see (fun t => (t.result, t.sess.lastLba, cmdBytes t.hist, t.hostBytes 0x2002 4, t.dma))
    (exec (.cardRead 0x2003 5 1) (withLanes (withLine (withSession (idle .edx) ready) ansRead.wire)
      (blockLanes sectorData))) =
    some (.ok, 5, [0xFF, 0x52, 0x00, 0x00, 0x00, 0x05, 0xBB], [0x00, 0x12, 0x34, 0x00], ⟨0x8000, 0x1000, 511, 0⟩) := by
  decide +kernel

/-- 2.5: a session that is not ready. -/
theorem test_card_read_not_ready : see (fun t => (t.result, t.hist)) (exec (.cardRead 0x2000 0 1) (idle .edx)) =
    some (.error .notReady, []) := by decide +kernel

set_option maxRecDepth 20000 in
/-- 2.5: `BLOCK_WRITE`, 10, then `card_write(_, 11, 1)`: no frame. -/
theorem test_card_write : see (fun t => (t.result, t.sess.lastLba, cmdBytes t.hist))
    (exec (.cardWrite 0x2000 11 1) (withLanes
      (withSession (idle .edx) fun ss => { ready ss with mode := .blockWrite, lastLba := 10 }) accepted.nibbles)) =
    some (.ok, 11, []) := by decide +kernel

/-- R97: past the last LBA. -/
theorem test_card_write_refused : refusal (exec (.cardWrite 0x2000 0xFFFFFFFF 2) (withSession (idle .edx) ready)) =
    some .lbaOverflow := by decide +kernel

/-- R198: while the swap is on each pair of a sector going to the card is exchanged; the buffer holds it as it came. -/
theorem test_card_write_swapped :
    let s := { withLanes (withSession (idle .edx) fun ss => { ready ss with mode := .blockWrite, lastLba := 10 })
      accepted.nibbles with byteswap := true, phys := [(0x2000, 0x12), (0x2001, 0x34)] }
    let sent : Event → Option (List Byte) := fun e => match e with
      | .datTx (.bytes d) => some (d.take 2)
      | _ => none
    see (fun t => (t.result, (t.hist.filterMap sent).getLast?, t.cb)) (exec (.cardWrite 0x2000 11 1) s) =
      some (.ok, some [0x34, 0x12], [(0, 0x12), (1, 0x34)]) := by decide +kernel

theorem test_card_stop : see (fun t => (t.result, t.sess.mode, t.busOwner))
    (exec .cardStop (withLanes (withLine (withSession (idle .edx) fun ss => { ready ss with mode := .blockWrite })
      ansStop.wire) [0xE, 0xF])) = some (.ok, .none, .native) := by decide +kernel

theorem test_set_byteswap : see (fun t => (t.byteswap, writes t.hist)) (exec (.setByteswap true) (idle .sc64)) =
    some (true, [(0x1FFF002C, 1)]) := by decide +kernel

theorem test_set_byteswap_refused : refusal (exec (.setByteswap true) (idle .edv)) = some .noSwapControl := by
  decide +kernel

/-- R217: the perturbed order, `FFFFFFFF` everywhere but at the last family's identifier. -/
theorem test_probe : see (fun t => (t.result, t.seq.probe, t.piDom == params.launch))
    (exec .probe (withIdent { start with cfg := { params with probeOrder := [.sc64, .edv, .edx, .ci] } }
      [0xFFFFFFFF, 0xFFFFFFFF, 0xFFFFFFFF, 0x55444556])) = some (.family .ci, .bound .ci, true) := by decide +kernel

/-- 2.7: `FFFFFFFF` everywhere. -/
theorem test_probe_none : see (fun t => (t.result, t.probed, t.cartType))
    (exec .probe { start with env := { start.env with ident := [0xFFFFFFFF] } }) =
    some (.error .noCartridge, true, none) := by decide +kernel

/-- A drive that is bound, with a session that is ready. -/
def bound : State := { withSession (idle .edx) ready with bound := [true], noinit := [false] }

theorem test_disk_initialize : see State.result (exec (.diskInitialize 0) { bound with noinit := [true] }) =
    some (.status 0) := by decide +kernel

/-- R231 (a). -/
theorem test_disk_status : see State.result (exec (.diskStatus 0) start) = some (.status 1) := by decide +kernel

/-- R231 (b), (c). -/
theorem test_disk_read : [see State.result (exec (.diskRead 1 0x2000 0 1) bound),
    see State.result (exec (.diskRead 0 0x2000 5 0) bound), see State.result (exec (.diskRead 0 0x2000 0xFFFFFFFF 2) bound),
    see State.result (exec (.diskRead 0 0x2000 0 1) start)] =
    [some (.disk .paramError), some (.disk .paramError), some (.disk .paramError), some (.disk .notReady)] := by
  decide +kernel

/-- R224 for writes: a session put down since then marks the drive. -/
theorem test_disk_write : see (fun t => (t.result, t.noinit))
    (exec (.diskWrite 0 0x2000 0 1) (withSession bound fun ss => { ss with ready := false })) =
    some (.disk .notReady, [true]) := by decide +kernel

/-- R226. -/
theorem test_disk_ioctl : [see State.result (exec (.diskIoctl 0 0 0) bound), see State.result (exec (.diskIoctl 0 1 0) bound),
    see State.result (exec (.diskIoctl 0 0 0) start)] =
    [some (.disk .ok), some (.disk .paramError), some (.disk .notReady)] := by decide +kernel

theorem test_bind : see (fun t => (t.result, t.bound, t.noinit)) (exec (.bind 0) (withSession (idle .edx) ready)) =
    some (.ok, [true], [false]) := by decide +kernel

/-- R220: binding again changes nothing, also with the session down and the drive marked. -/
theorem test_bind_again : see (fun t => (t.result, t.bound, t.noinit)) (exec (.bind 0) { bound with
    noinit := [true], sess := { bound.sess with ready := false } }) = some (.ok, [true], [true]) := by decide +kernel

/-- R270, R271: a restore of the swap that times out is the cause behind a body that succeeded, and not behind one that
failed. -/
theorem test_swap_restore :
    let s : State := { held .edx with env := { start.env with pi := [⟨false, false⟩, ⟨true, true⟩] } }
    let cause (x : Op Unit) : Option Cause := match swapAround true x s with
      | .error (.cause c) _ => some c
      | _ => none
    [cause (pure ()), cause (raise .crc)] = [some .timeout, some .crc] := by decide +kernel

/-- R252: the capture, and the eight writes in order. -/
theorem test_acquire : see (fun t => (t.nativeCfg == params.launch, t.busOwner, t.hist))
    (exec .acquire (idle .edx)) = some (true, .cart .edx,
      [.piCfgWrite .d2 .rls ⟨107⟩, .piCfgWrite .d2 .pgs ⟨106⟩, .piCfgWrite .d2 .pwd ⟨105⟩, .piCfgWrite .d2 .lat ⟨104⟩,
        .piCfgWrite .d1 .rls ⟨103⟩, .piCfgWrite .d1 .pgs ⟨102⟩, .piCfgWrite .d1 .pwd ⟨101⟩, .piCfgWrite .d1 .lat ⟨100⟩]) := by
  decide +kernel

theorem test_release : see (fun t => (t.piDom == params.launch, t.busOwner, t.nativeSaved)) (exec .release (held .edx)) =
    some (true, .native, true) := by decide +kernel

/-- R7: a register address past the top of the space. -/
theorem test_register_past_top : refusal (exec (.ccConfigSet 1 2) { withWords (held .sc64) [0, 0] with
    cfg := { params with sc64 := { params.sc64 with off := { params.sc64.off with arg0 := 0x3FFFFFFF } } } }) =
    some .regAddrOverflow := by decide +kernel

/-- R122 without the fixed bits, R269: a transmission bit of 1 alone passes, a wrong checksum is `crc`. -/
theorem test_response_checks :
    let p := { params with checkFixedBits := false }
    [responseFault p .sdNative .sdr7 8 [0x48, 0x00, 0x00, 0x01, 0xAA, 0x87],
      responseFault p .sdNative .sdr7 8 [0x08, 0x00, 0x00, 0x01, 0xAA, 0x12],
      responseFault params .sdNative .sdr7 8 [0x48, 0x00, 0x00, 0x01, 0xAA, 0x87],
      responseFault p .sdNative .sdr1 55 [0x37, 0x00, 0xC0, 0x01, 0x20, computeCrc7 [0x37, 0x00, 0xC0, 0x01, 0x20]],
      responseFault { p with crcFlagFirst := true } .sdNative .sdr1 55
        [0x37, 0x00, 0xC0, 0x01, 0x20, computeCrc7 [0x37, 0x00, 0xC0, 0x01, 0x20]]] =
      [none, some .crc, some .malformed, some .illegal, some .crc] := by decide +kernel

/-- R72: between operations the cache may write a dirty line back. -/
theorem test_step_idle :
    let s : State := { start with
      cache := [⟨0x2000, true, List.replicate 16 0x7⟩]
      env := { start.env with cacheActs := [[.writeBack 0x2000], []] } }
    see (fun t => (t.phys.read 0x200F, t.cache.map CacheLine.dirty, t.hostByte 0x200F, t.hist)) (step s) =
      some (0x7, [false], 0x7, []) := by decide +kernel

/-- R72: and so it may where an operation follows that touches no RAM. -/
theorem test_step_settles :
    let s : State := { start.withFetchWord 8 0x31 with
      cache := [⟨0x2000, true, List.replicate 16 0x7⟩]
      env := { start.env with cacheActs := [[.writeBack 0x2000], []] } }
    see (fun t => (t.result, t.phys.read 0x200F, t.cache.map CacheLine.dirty, t.hostByte 0x200F)) (step s) =
      some (.status 1, 0x7, [false], 0x7) := by decide +kernel

/-- R71: a step with a request runs it. -/
theorem test_step : see (fun t => (t.result, t.port)) (step (start.withFetchWord 8 0x31)) = some (.status 1, []) := by
  decide +kernel

/-! ### Witnesses: a state and operands that meet the hypotheses of each statement, one for each of its clauses -/

/-- A bench family, whatever its swap, with a controller and a cartridge that are never busy. -/
theorem quiet_of {s : State} {f : Family} (hq : (s.cfg.fam f).busyBit = 0 ∧ (s.cfg.fam f).errorBit = 1 ∧
    (s.cfg.fam f).waits = ⟨1024, 1024, 1024, 1024, 1024, 1024⟩ ∧ regsFit f (s.cfg.fam f) = true)
    (hp : s.env.pi = [⟨false, false⟩]) (hs : s.env.status = [0]) : Quiet s f := by
  obtain ⟨h1, h2, h3, h4⟩ := hq
  refine ⟨⟨⟨by rw [hp]; decide, by rw [hp]; decide⟩, by rw [hs]; decide, ?_⟩, ?_, h4⟩
  · rw [hs]; intro w hw; obtain rfl := List.mem_singleton.mp hw; simp [statusBusy, statusError, h1, h2]
  · rw [h3]; exact ⟨by decide, by decide, by decide, by decide, by decide, by decide⟩

theorem quiet_bench {s : State} (f : Family) (hc : s.cfg = params) (hp : s.env.pi = [⟨false, false⟩])
    (hs : s.env.status = [0]) : Quiet s f :=
  quiet_of (by rw [hc]; cases f <;> decide +kernel) hp hs

theorem good_of {p : Params} {wire : Wire} {app : Bool} {idx : BitVec 6} {a : Answer} (kind : SdKind)
    (h1 : respKind idx app = some kind) (h2 : a.bytes.length = respLength wire idx kind)
    (h3 : respLength wire idx kind ≠ 0) (h4 : a.idle < p.respSpinMax) (h5 : (a.bytes.getD 0 0).getLsbD 7 = false)
    (h6 : responseFault p wire kind idx a.bytes = none) : a.good p wire app idx :=
  ⟨kind, h1, ⟨h2, by rw [if_neg h3]; exact ⟨h4, h5⟩⟩, h6⟩

theorem good_none : (⟨0, []⟩ : Answer).good params .sdNative false 0 := ⟨.none, rfl, ⟨rfl, rfl⟩, by decide +kernel⟩
theorem good_cmd8 : ansCmd8.good params .sdNative false 8 :=
  good_of .sdr7 rfl rfl (by decide) (by decide) (by decide) (by decide +kernel)
theorem good_prefix : ansPrefix.good params .sdNative false 55 :=
  good_of .sdr1 rfl rfl (by decide) (by decide) (by decide) (by decide +kernel)
theorem good_busy : ansBusy.good params .sdNative true 41 :=
  good_of .sdr3 rfl rfl (by decide) (by decide) (by decide) (by decide +kernel)
theorem good_ready : ansReady.good params .sdNative true 41 :=
  good_of .sdr3 rfl rfl (by decide) (by decide) (by decide) (by decide +kernel)
theorem good_cid : ansCid.good params .sdNative false 2 :=
  good_of .sdr2 rfl rfl (by decide) (by decide) (by decide) (by decide +kernel)
theorem good_rca : ansRca.good params .sdNative false 3 :=
  good_of .sdr6 rfl rfl (by decide) (by decide) (by decide) (by decide +kernel)
theorem good_select : ansSelect.good params .sdNative false 7 :=
  good_of .sdr1b rfl rfl (by decide) (by decide) (by decide) (by decide +kernel)
theorem good_width : ansWidth.good params .sdNative true 6 :=
  good_of .sdr1 rfl rfl (by decide) (by decide) (by decide) (by decide +kernel)
theorem good_speed : ansSpeed.good params .sdNative false 6 :=
  good_of .sdr1 rfl rfl (by decide) (by decide) (by decide) (by decide +kernel)
theorem good_ocr : ansOcr.good params .sdNative false 58 :=
  good_of .sdr3 rfl rfl (by decide) (by decide) (by decide) (by decide +kernel)
theorem good_stop : ansStop.good params .sdNative false 12 :=
  good_of .sdr1b rfl rfl (by decide) (by decide) (by decide) (by decide +kernel)
theorem good_read : ansRead.good params .sdNative false 18 :=
  good_of .sdr1 rfl rfl (by decide) (by decide) (by decide) (by decide +kernel)
theorem good_write : ansWrite.good params .sdNative false 25 :=
  good_of .sdr1 rfl rfl (by decide) (by decide) (by decide) (by decide +kernel)

/-- An SPI answer of one byte, or of five to CMD8 and CMD58. -/
theorem good_spi {app : Bool} {idx : BitVec 6} {a : Answer} (kind : SdKind) (h1 : respKind idx app = some kind)
    (h2 : a.bytes.length = spiLength idx) (h3 : spiLength idx ≠ 0) (h4 : a.idle = 0)
    (h5 : (a.bytes.getD 0 0).getLsbD 7 = false) : a.good params .spi app idx :=
  good_of kind h1 h2 h3 (by rw [h4]; decide) h5 rfl

theorem port_edx {s : State} (hb : s.busOwner = .cart .edx) (hc : s.cfg = params) (hp : s.env.pi = [⟨false, false⟩])
    (hs : s.env.status = [0]) : OnPort s .edx := ⟨hb, by rw [hc]; rfl, quiet_bench _ hc hp hs⟩

theorem idle_bench {s : State} {f : Family} (h1 : s.probed = true) (h2 : s.cartType = some f) (hb : s.busOwner = .native)
    (hc : s.cfg = params) (hp : s.env.pi = [⟨false, false⟩]) (hs : s.env.status = [0]) : Idle s f :=
  ⟨h1, h2, hb, quiet_bench _ hc hp hs⟩

theorem idle_wrapping {s : State} {f : Family} (h1 : s.probed = true) (h2 : s.cartType = some f)
    (hb : s.busOwner = .native) (hc : s.cfg = wrapping) (hp : s.env.pi = [⟨false, false⟩]) (hs : s.env.status = [0]) :
    Idle s f := ⟨h1, h2, hb, quiet_of (by rw [hc]; cases f <;> decide +kernel) hp hs⟩

theorem ram_bench {s : State} (hc : s.cfg.cacheLine = 16) (hp : s.phys = []) (hl : s.cache = []) : Ram s := by
  refine ⟨by rw [hc]; decide, ⟨by rw [hl]; exact .nil, ?_, ?_, ?_⟩, by rw [hp]; rfl⟩ <;> rw [hl] <;>
    exact fun _ h => absurd h (by simp)

/-- Two busy clocks, then free. -/
def twoBusy : List Nibble := [0xE, 0xE, 0xF]

theorem busy_two : BusyOnLanes (params.fam .edx) twoBusy := ⟨[0xE, 0xE], 0xF, rfl, by decide, by decide, by decide⟩

theorem block_on_lanes (d : List Byte) : BlockOnLanes (params.fam .edx) .w4 d (trailerOf (laneCrcs d)) (blockLanes d) :=
  ⟨[0xF, 0xF], 0x0, nibblesOf d, nibblesOf (trailerOf (laneCrcs d)), 0xF, rfl, by decide, by decide, by decide, rfl, rfl,
    rfl⟩

/-- EncodeOfDecode, StepRunsDecoded, RequestsWithoutMeaning. -/
theorem witness_decode : decode ⟨.code, [0x12]⟩ = .ok .cardInit ∧ decodeTableWord 8 0x12 = some .cardInit ∧
    Instr.cardInit.wellFormed = true ∧ (5#6).toNat ∉ [0, 2, 3, 6, 7, 8, 12, 18, 25, 41, 55, 58] ∧
    decode ⟨.code, [0x17]⟩ = .error .noSuchCode := by decide +kernel

/-- StepRunsDecoded: nothing asked of the block, and no line present. -/
theorem witness_StepRunsDecoded_idle : start.port = [] ∧ start.cache = [] ∧ Ram start := ⟨rfl, rfl, ram_bench rfl rfl rfl⟩

/-- BoundedWait: one poll of the PI status that misses, then one that answers. -/
theorem witness_BoundedWait :
    let s : State := { start with env := { start.env with status := [1, 0] } }
    let poll : Op (Option Word) := do
      let w ← nextStatus
      pure (if statusBusy (params.fam .ci) w then none else some w)
    let t : State := { start with env := { start.env with status := [0] }, spinCount := 1 }
    misses poll 2 1 s t ∧ poll { t with spinCount := 1 } = .ok (some 0) t :=
  ⟨⟨_, rfl, rfl⟩, rfl⟩

theorem witness_BoundedWait_never : misses (fun s => .ok (none : Option Word) s) 1 1 start { start with spinCount := 0 } :=
  ⟨_, rfl, rfl⟩

theorem witness_ExecuteCommandDecides :
    OnPort (withLine (held .edx) ansCmd8.wire) .edx ∧ respKind 8 (held .edx).app = some .sdr7 ∧
      ansCmd8.fits params .sdNative 8 .sdr7 ∧ (withLine (held .edx) ansCmd8.wire).env.cmdLine = ansCmd8.wire ++ [true] :=
  ⟨port_edx rfl rfl rfl rfl, rfl, ⟨rfl, by decide +kernel⟩, rfl⟩

/-- The silent clauses of ExecuteCommandDecides, SendAppCommand, VoltageCheck and BusyFrames. -/
theorem witness_silent : OnPort (withLine (held .edx) (List.replicate params.respSpinMax true)) .edx ∧
    respLength (params.fam .edx).wire 8 .sdr7 ≠ 0 ∧
    (withLine (held .edx) (List.replicate params.respSpinMax true)).env.cmdLine =
      List.replicate params.respSpinMax true ++ [true] :=
  ⟨port_edx rfl rfl rfl rfl, by decide, rfl⟩

/-- E7, a prefix answered with the illegal-command flag: SendAppCommand. -/
def ansIllegal : Answer := ⟨0, [0x37, 0x00, 0x40, 0x01, 0x20, 0x4F]⟩

theorem witness_SendAppCommand_fails : OnPort (withLine (held .edx) ansIllegal.wire) .edx ∧
    ansIllegal.fits params .sdNative 55 .sdr1 ∧ responseFault params .sdNative .sdr1 55 ansIllegal.bytes = some .illegal ∧
    (withLine (held .edx) ansIllegal.wire).env.cmdLine = ansIllegal.wire ++ [true] :=
  ⟨port_edx rfl rfl rfl rfl, ⟨rfl, by decide +kernel⟩, by decide +kernel, rfl⟩

theorem witness_SimpleFrames_cmd0 : OnPort (withLine (held .edx) (⟨0, []⟩ : Answer).wire) .edx ∧
    (⟨0, []⟩ : Answer).good params .sdNative false 0 := ⟨port_edx rfl rfl rfl rfl, good_none⟩

theorem witness_SimpleFrames_cmd2 : OnPort (withLine (held .edx) ansCid.wire) .edx ∧
    ansCid.good params .sdNative false 2 := ⟨port_edx rfl rfl rfl rfl, good_cid⟩

theorem witness_SimpleFrames_cmd55 : OnPort (withLine (held .edx) ansPrefix.wire) .edx ∧
    ansPrefix.good params .sdNative false 55 := ⟨port_edx rfl rfl rfl rfl, good_prefix⟩

/-- SendAppCommand and WidenBus. -/
theorem witness_SendAppCommand :
    let s := withLine (held .edx) (ansPrefix.wire ++ ansWidth.wire)
    OnPort s .edx ∧ ansPrefix.good params .sdNative false 55 ∧ ansWidth.good params .sdNative true 6 ∧
      s.env.cmdLine = ansPrefix.wire ++ (ansWidth.wire ++ [true]) :=
  ⟨port_edx rfl rfl rfl rfl, good_prefix, good_width, List.append_assoc _ _ _⟩

theorem witness_VoltageCheck : OnPort (withLine (held .edx) ansCmd8.wire) .edx ∧ ansCmd8.good params .sdNative false 8 ∧
    ((params.fam .edx).wire = .spi → spiIllegal (ansCmd8.bytes.getD 0 0) = false) :=
  ⟨port_edx rfl rfl rfl rfl, good_cmd8, fun h => by cases h⟩

/-- An SPI card that does not know CMD8. -/
theorem witness_VoltageCheck_illegal :
    let a : Answer := ⟨0, [0x05, 0xFF, 0xFF, 0xFF, 0xFF]⟩
    OnPort (withLine (held .edv) a.wire) .edv ∧ a.fits params .spi 8 .sdr7 ∧ (params.fam .edv).wire = .spi ∧
      spiIllegal (a.bytes.getD 0 0) = true :=
  ⟨⟨rfl, rfl, quiet_bench _ rfl rfl rfl⟩, ⟨rfl, by decide +kernel⟩, rfl, rfl⟩

/-- A poll that is told to wait once. -/
def poll : PollScript := ⟨[(ansPrefix, ansBusy)], (ansPrefix, ansReady)⟩

theorem good_poll : poll.good params .sdNative := by
  refine ⟨by decide, ?_, ⟨good_prefix, good_ready⟩, by decide⟩
  intro r hr
  obtain rfl := List.mem_singleton.mp hr
  exact ⟨⟨good_prefix, good_busy⟩, by decide⟩

theorem witness_OperatingConditionPoll : OnPort (withLine (held .edx) poll.bits) .edx ∧ poll.good params .sdNative ∧
    (withLine (held .edx) poll.bits).env.cmdLine = poll.bits ++ [true] := ⟨port_edx rfl rfl rfl rfl, good_poll, rfl⟩

theorem witness_OperatingConditionPoll_absent :
    let rounds := [(ansPrefix, ansBusy), (ansPrefix, ansBusy)]
    OnPort (withLine (held .edx) (rounds.flatMap fun r => r.1.wire ++ r.2.wire)) .edx ∧
      rounds.length = params.acmd41Max ∧ 1 ≤ params.acmd41Max ∧
      ∀ r ∈ rounds, roundGood params .sdNative r ∧ saysReady .sdNative r.2 = false := by
  refine ⟨port_edx rfl rfl rfl rfl, rfl, by decide, fun r hr => ?_⟩
  simp only [List.mem_cons, List.not_mem_nil, or_false, or_self] at hr
  subst hr
  exact ⟨⟨good_prefix, good_busy⟩, by decide⟩

/-- PublishedValues and OpenStream: commands that do not return ok, with a session to keep. -/
theorem witness_PublishedValues_fails :
    let s := withLine (withSession (held .edx) ready) []
    usesEngine .cmd3 = true ∧ [see State.result (exec .cmd3 s), see State.result (exec .cmd58 s),
      see State.result (exec (.cmd18 0x1000 0x49) s), see State.result (exec (.cmd25 0x1000 0x38) s)] =
      List.replicate 4 (some (.error .timeout)) ∧ see State.sess (exec .cmd3 s) = some s.sess := by decide +kernel

theorem witness_PublishedValues_cmd3 : OnPort (withLine (held .edx) ansRca.wire) .edx ∧
    (params.fam .edx).wire = .sdNative ∧ ansRca.good params .sdNative false 3 := ⟨port_edx rfl rfl rfl rfl, rfl, good_rca⟩

theorem witness_PublishedValues_cmd58 : OnPort (withLine (held .edx) ansOcr.wire) .edx ∧
    ansOcr.good params .sdNative false 58 := ⟨port_edx rfl rfl rfl rfl, good_ocr⟩

theorem witness_BusyFrames_cmd7 :
    let s := withLanes (withLine (held .edx) ansSelect.wire) twoBusy
    OnLanes s .edx ∧ ansSelect.good params .sdNative false 7 ∧ BusyOnLanes (params.fam .edx) twoBusy ∧
      s.env.cmdLine = ansSelect.wire ++ [true] ∧ s.env.datLine = twoBusy ++ [0xF] :=
  ⟨⟨port_edx rfl rfl rfl rfl, rfl⟩, good_select, busy_two, rfl, rfl⟩

theorem witness_BusyFrames_cmd12 : OnLanes (withLanes (withLine (held .edx) ansStop.wire) twoBusy) .edx ∧
    ansStop.good params .sdNative false 12 := ⟨⟨port_edx rfl rfl rfl rfl, rfl⟩, good_stop⟩

/-- CMD12 answered with the illegal-command flag. -/
def ansStopIllegal : Answer := ⟨0, [0x0C, 0x00, 0x40, 0x0B, 0x00, 0xB3]⟩

/-- BusyFrames: a busy period that outlasts its wait, and an answered CMD12 that fails a response check. -/
theorem witness_BusyFrames_fails :
    let stuck := List.replicate 1024 (0xE : Nibble)
    OnLanes (withLanes (withLine (held .edx) ansStop.wire) stuck) .edx ∧
      OnLanes (withLanes (withLine (held .edx) ansSelect.wire) stuck) .edx ∧
      stuck.length = (params.fam .edx).waits.busy ∧ (∀ n ∈ stuck, n.getLsbD 0 = false) ∧
      OnLanes (withLine (held .edx) ansStopIllegal.wire) .edx ∧ ansStopIllegal.fits params .sdNative 12 .sdr1b ∧
      responseFault params .sdNative .sdr1b 12 ansStopIllegal.bytes = some .illegal :=
  ⟨⟨port_edx rfl rfl rfl rfl, rfl⟩, ⟨port_edx rfl rfl rfl rfl, rfl⟩, List.length_replicate,
    fun n hn => by rw [List.eq_of_mem_replicate hn]; rfl, ⟨port_edx rfl rfl rfl rfl, rfl⟩, ⟨rfl, by decide +kernel⟩,
    by decide +kernel⟩

theorem witness_HighSpeed :
    let s := withLanes (withLine (withSession (held .edx) fun ss => { ss with busWidth := .w4 }) ansSpeed.wire)
      (blockLanes (List.replicate 64 0x80))
    OnLanes s .edx ∧ ansSpeed.good params .sdNative false 6 ∧ (List.replicate 64 (0x80 : Byte)).length = 64 ∧
      BlockOnLanes (params.fam .edx) s.sess.busWidth (List.replicate 64 0x80)
        (trailerOf (laneCrcs (List.replicate 64 0x80))) (blockLanes (List.replicate 64 0x80)) :=
  ⟨⟨port_edx rfl rfl rfl rfl, rfl⟩, good_speed, List.length_replicate, block_on_lanes _⟩

/-- OpenStream: an argument some LBA has, and one that none has (standard capacity, no multiple of 512). -/
theorem witness_OpenStream : OnPort (withLine (held .edx) ansRead.wire) .edx ∧ ansRead.good params .sdNative false 18 ∧
    OnPort (withLine (held .edx) ansWrite.wire) .edx ∧ ansWrite.good params .sdNative false 25 ∧
    blockArg false 0x007FFFFF = some 0xFFFFFE00 ∧ ∀ lba, blockArg false lba ≠ some 1 := by
  refine ⟨port_edx rfl rfl rfl rfl, good_read, port_edx rfl rfl rfl rfl, good_write, by decide, fun lba h => ?_⟩
  unfold blockArg at h
  simp only [Bool.false_eq_true, if_false] at h
  split at h
  · simp only [Option.some.injEq] at h
    have := congrArg BitVec.toNat h
    rw [BitVec.toNat_shiftLeft, Nat.shiftLeft_eq] at this
    simp at this
    omega
  · cases h

theorem witness_EngineRefusals : usesEngine .cmd0 = true ∧ start.busOwner = .native ∧
    (held .ci).busOwner = .cart .ci ∧ (params.fam .ci).offload = true ∧ (held .edx).busOwner = .cart .edx ∧
    (params.fam .edx).offload = false ∧ respKind 5 (held .edx).app = none := by decide +kernel

/-- EngineRefusals and SendAppCommand: what is stopped before its frame, with a card that says nothing (R9). -/
theorem witness_EngineRefusals_spi :
    let s := withLine (held .edv) []
    s.busOwner = .cart .edv ∧ (params.fam .edv).offload = false ∧ (params.fam .edv).wire = .spi ∧
      [refusal (exec .cmd6 s), refusal (exec .cmd12 s), refusal (exec (.cmd7 0x1234 0x2C) s),
        refusal (exec (.sendAppCommand 5 0 0) s)] =
        [some .spiDataPath, some .spiDataPath, some .spiDataPath, some .noResponseKind] ∧
      (match exec .cmd3 s with | .fault .respBeyondLength => true | _ => false) = true ∧
      respKind 5 true = none ∧ respKind 41 true ≠ none := by decide +kernel

set_option maxRecDepth 20000 in
/-- CartCommands: a read of one sector. -/
theorem witness_CartCommands :
    let s := withSector (withWords (held .ci) [7, 8]) sectorData
    Held s .ci ∧ cartOperands (.ccRead 0x1000 1) = some (0x73, 0x1000, 1) ∧
      ([] : List Word).length = aroundWords (params.fam .ci) (wraps (params.fam .ci) 0x73) ∧
      s.env.words = [] ++ 7 :: 8 :: ([] ++ [0]) ∧ s.env.sector = sectorData ++ [0] ∧
      sectorData.length = broughtBytes (params.fam .ci) 0x73 0x1000 1 :=
  ⟨⟨rfl, quiet_bench _ rfl rfl rfl⟩, rfl, rfl, rfl, rfl, by decide +kernel⟩

/-- CartCommands: the wrap, by configuration commands before and after. -/
theorem witness_CartCommands_wrapped :
    let s := withWords (heldWrapping .ci) [0, 0, 7, 8, 0, 0]
    Held s .ci ∧ cartOperands (.ccSectorSet 0x1000 0) = some (0x49, 0x1000, 0) ∧
      wraps (wrapping.fam .ci) 0x49 = true ∧ ([0, 0] : List Word).length = aroundWords (wrapping.fam .ci) true ∧
      s.env.words = [0, 0] ++ 7 :: 8 :: ([0, 0] ++ [0]) ∧ ([] : List Byte).length = broughtBytes (wrapping.fam .ci) 0x49 0x1000 0 ∧
      see (fun t => (t.result, commands t.hist)) (exec (.ccSectorSet 0x1000 0) s) =
        some (.cart 7 8, [(0x43, 9, 1), (0x49, 0x1000, 0), (0x43, 9, 0)]) :=
  ⟨⟨rfl, quiet_of (by decide +kernel) rfl rfl⟩, rfl, rfl, rfl, rfl, rfl, by decide +kernel⟩

/-- CartCommandFailures: busy for ever, and not busy but with the error bit at the end. -/
theorem witness_CartCommandFailures : (held .ci).busOwner = .cart .ci ∧ wraps (params.fam .ci) 0x49 = false ∧
    regsFit .ci (params.fam .ci) = true ∧ (∀ w ∈ [(1 : Word)], statusBusy (params.fam .ci) w = true) ∧
    statusBusy (params.fam .ci) 0 = false ∧ statusBusy (params.fam .ci) 2 = false ∧
    statusError (params.fam .ci) 2 = true ∧ start.env.pi = [⟨false, false⟩] ∧ positiveCaps (params.fam .ci).waits :=
  ⟨rfl, rfl, by decide +kernel, fun w hw => by obtain rfl := List.mem_singleton.mp hw; rfl, rfl, rfl, rfl, rfl,
    (quiet_bench (s := start) .ci rfl rfl rfl).2.1⟩

/-- CartCommandFailures, outside a bracket: nothing is written. -/
theorem witness_CartCommandFailures_native : (idle .ci).busOwner = .native ∧
    cartOperands (.ccConfigSet 1 2) = some (0x43, 1, 2) ∧
    [Instr.ccSdOp 1 0, .ccSectorSet 5 0, .ccRead 0x1000 1, .ccWrite 0x1000 1, .ccConfigSet 1 2, .ccConfigGet 1 0].map
      (fun i => refusal (exec i (idle .ci))) = List.replicate 6 (some .busNotOwned) := by decide +kernel

theorem witness_SetByteswap : Idle (withWords (idle .sc64) []) .sc64 ∧ (params.fam .sc64).hasSwap = true ∧
    ([] : List Word).length = swapWords (params.fam .sc64) ∧ (idle .edv).cartType = some .edv ∧
    (idle .edv).busOwner = .native ∧ (params.fam .edv).hasSwap = false :=
  ⟨idle_bench rfl rfl rfl rfl rfl rfl, rfl, rfl, rfl, rfl, rfl⟩

/-- SetByteswap: by a configuration command, and where that command times out. -/
theorem witness_SetByteswap_wrapped :
    let s := withWords (idleWrapping .ci) [0, 0]
    Idle s .ci ∧ (wrapping.fam .ci).hasSwap = true ∧ ([0, 0] : List Word).length = swapWords (wrapping.fam .ci) ∧
      (wrapping.fam .ci).swapViaCfg = true ∧ s.env.words = [0, 0] ++ [0] ∧
      see (fun t => (t.result, t.byteswap, commands t.hist))
        (exec (.setByteswap true) { s with env := { s.env with status := [1] } }) = some (.ok, true, []) :=
  ⟨idle_wrapping rfl rfl rfl rfl rfl rfl, rfl, rfl, rfl, rfl, by decide +kernel⟩

/-- InitCompletes: the settings wrapped. -/
theorem witness_InitCompletes_wrapped :
    let s := withWords (withIdent (idleWrapping .ci) [0x55444556]) [0, 0, 0, 0, 0, 0]
    Idle s .ci ∧ s.env.ident = 0x55444556 :: [0] ∧ identifierMatches wrapping .ci 0x55444556 = true ∧
      (wrapping.fam .ci).cfgInit.length * commandWords (wrapping.fam .ci) 0x43 < s.env.words.length ∧
      wraps (wrapping.fam .ci) 0x43 = true :=
  ⟨idle_wrapping rfl rfl rfl rfl rfl rfl, rfl, by decide +kernel, by decide +kernel, rfl⟩

theorem witness_InitCompletes :
    let s := withWords (withIdent (idle .ci) [0x55444556]) [0, 0]
    Idle s .ci ∧ s.env.ident = 0x55444556 :: [0] ∧ identifierMatches params .ci 0x55444556 = true ∧
      (params.fam .ci).cfgInit.length * commandWords (params.fam .ci) 0x43 < s.env.words.length ∧
      identifierMatches params .ci 0x55444557 = false :=
  ⟨idle_bench rfl rfl rfl rfl rfl rfl, rfl, by decide +kernel, by decide +kernel, by decide +kernel⟩

/-- A session up, its read stream open at LBA 6. -/
def streaming : State := withSession (idle .edx) fun ss => { ready ss with mode := .blockRead, lastLba := 6 }

/-- The open-stream clauses of ExitCompletes and CardStop. -/
theorem witness_ExitCompletes_open :
    let s := withLanes (withLine streaming ansStop.wire) twoBusy
    Idle s .edx ∧ s.sess.mode ≠ .none ∧ (params.fam .edx).offload = false ∧ (params.fam .edx).wire = .sdNative ∧
      ansStop.good params .sdNative false 12 ∧ BusyOnLanes (params.fam .edx) twoBusy ∧ s.byteswap = false ∧
      s.env.cmdLine = ansStop.wire ++ [true] ∧ s.env.datLine = twoBusy ++ [0xF] ∧ s.env.words = [] ++ [] ∧
      (params.fam .edx).portLevel = false :=
  ⟨idle_bench rfl rfl rfl rfl rfl rfl, by decide +kernel, rfl, rfl, good_stop, busy_two, rfl, rfl, rfl, rfl, rfl⟩

/-- The SPI clauses of ExitCompletes and CardStop. -/
theorem witness_ExitCompletes_spi :
    let s := withSession (idle .edv) fun ss => { ready ss with mode := .blockRead }
    s.probed = true ∧ s.cartType = some .edv ∧ s.busOwner = .native ∧ s.sess.mode ≠ .none ∧
      (s.cfg.fam .edv).offload = false ∧ (s.cfg.fam .edv).wire = .spi ∧
      [refusal (exec .cardStop s), refusal (exec .exit s)] = [some .spiDataPath, some .spiDataPath] := by decide +kernel

theorem witness_ExitCompletes_closed : Idle { withSession (idle .sc64) ready with byteswap := true } .sc64 ∧
    ([] : List Word).length = swapWords (params.fam .sc64) ∧ (params.fam .sc64).swapViaCfg = false :=
  ⟨idle_bench rfl rfl rfl rfl rfl rfl, rfl, rfl⟩

/-- ExitCompletes: the swap cleared by a configuration command. -/
theorem witness_ExitCompletes_wrapped :
    let s := { withWords (idleWrapping .ci) [0, 0] with byteswap := true }
    Idle s .ci ∧ ([0, 0] : List Word).length = swapWords (wrapping.fam .ci) ∧ s.env.words = [0, 0] ++ [0] ∧
      (wrapping.fam .ci).swapViaCfg = true ∧ s.sess.mode = .none :=
  ⟨idle_wrapping rfl rfl rfl rfl rfl rfl, rfl, rfl, rfl, rfl⟩

/-- ProbeFinds, ProbeExclusive and DispatchProbesFirst. -/
theorem witness_ProbeFinds :
    let s := withIdent start [0xFFFFFFFF, 0x45445830]
    s.probed = false ∧ s.busOwner = .native ∧ (∀ g, Quiet s g) ∧ s.cfg.probeOrder = [.ci] ++ .edx :: [.edv, .sc64] ∧
      (∀ gv ∈ [Family.ci].zip [(0xFFFFFFFF : Word)], identifierMatches s.cfg gv.1 gv.2 = false) ∧
      identifierMatches s.cfg .edx 0x45445830 = true ∧ s.env.ident = [0xFFFFFFFF] ++ 0x45445830 :: [0] :=
  ⟨rfl, rfl, fun g => quiet_bench g rfl rfl rfl, rfl, by decide +kernel, by decide +kernel, rfl⟩

theorem witness_ProbeFinds_again : (idle .edx).probed = true ∧ (idle .edx).cartType = some .edx := ⟨rfl, rfl⟩

theorem witness_ProbeNone :
    let vals := List.replicate 4 (0xFFFFFFFF : Word)
    let s := withIdent start vals
    s.probed = false ∧ s.busOwner = .native ∧ (∀ g, Quiet s g) ∧ vals.length = s.cfg.probeOrder.length ∧
      (∀ gv ∈ s.cfg.probeOrder.zip vals, identifierMatches s.cfg gv.1 gv.2 = false) ∧ s.env.ident = vals ++ [0] :=
  ⟨rfl, rfl, fun g => quiet_bench g rfl rfl rfl, rfl, by decide +kernel, rfl⟩

theorem witness_ProbeExclusive :
    let val : Family → Word := fun g => if g = .sc64 then 0x53437632 else 0
    (∀ g, identifierMatches params g (val g) = decide (g = .sc64)) ∧ Family.sc64 ∈ params.probeOrder ∧
      (withIdent start (params.probeOrder.map val)).env.ident = params.probeOrder.map val ++ [0] := by
  refine ⟨fun g => ?_, by decide +kernel, rfl⟩
  cases g <;> decide +kernel

/-- A native bring-up: the reference card. -/
def bringUp : NativeScript where
  volt := some ansCmd8
  poll := poll
  cid := ansCid
  rca := ansRca
  select := ansSelect
  busy := twoBusy
  widthPrefix := ansPrefix
  width := ansWidth
  speed := ansSpeed
  data := List.replicate 64 0x80
  trailer := trailerOf (laneCrcs (List.replicate 64 0x80))
  lanes := blockLanes (List.replicate 64 0x80)

theorem good_bringUp : bringUp.good params (params.fam .edx) true :=
  ⟨fun a ha => by cases ha; exact good_cmd8, by decide +kernel, good_poll, good_cid, good_rca,
    fun _ => ⟨good_select, busy_two⟩, good_prefix, good_width, good_speed, ⟨List.length_replicate, block_on_lanes _⟩⟩

theorem witness_CardInitNative :
    let s := withLanes (withLine (idle .edx) (bringUp.bits params)) (bringUp.nibbles params)
    Idle s .edx ∧ s.initDone = true ∧ (params.fam .edx).offload = false ∧ (params.fam .edx).wire = .sdNative ∧
      bringUp.good params (params.fam .edx) true ∧ s.env.cmdLine = bringUp.bits params ++ [true] ∧
      s.env.datLine = bringUp.nibbles params ++ [0xF] ∧ (params.fam .edx).portLevel = false :=
  ⟨idle_bench rfl rfl rfl rfl rfl rfl, rfl, rfl, rfl, good_bringUp, rfl, rfl, rfl⟩

/-- The reference card up to a step, then what it answers to that step. -/
def failingAt (x : NativeStep) (bits : List Bool) (nibs : List Nibble) : State :=
  withLanes (withLine (idle .edx) (bringUp.bitsBefore params x ++ bits)) (bringUp.nibblesBefore params x ++ nibs)

/-- The hypotheses of the failing clause of CardInitNative on such a state. -/
theorem meets_failingAt (x : NativeStep) (bits : List Bool) (nibs : List Nibble) : Idle (failingAt x bits nibs) .edx ∧
    (failingAt x bits nibs).env.cmdLine = bringUp.bitsBefore params x ++ (bits ++ [true]) ∧
    (failingAt x bits nibs).env.datLine = bringUp.nibblesBefore params x ++ (nibs ++ [0xF]) :=
  ⟨idle_bench rfl rfl rfl rfl rfl rfl, List.append_assoc _ _ _, List.append_assoc _ _ _⟩

/-- An echo of CMD8 that is another's. -/
def ansEcho : Answer := ⟨3, [0x08, 0x00, 0x00, 0x01, 0x55, computeCrc7 [0x08, 0x00, 0x00, 0x01, 0x55]]⟩

theorem good_echo : ansEcho.good params .sdNative false 8 :=
  good_of .sdr7 rfl rfl (by decide) (by decide) (by decide) (by decide +kernel)

theorem fails_volt : bringUp.FailsAt params (params.fam .edx) true .volt .mismatch ansEcho.wire []
    (commandSent params 8 argCmd8) := .volt _ _ _ (.echo _ good_echo rfl)

theorem fails_poll : PollFails params .sdNative (params.acmd41Arg true) .absent
    ([(ansPrefix, ansBusy), (ansPrefix, ansBusy)].flatMap fun r => r.1.wire ++ r.2.wire)
    (List.replicate 2 (roundSent params (params.acmd41Arg true))).flatten := by
  refine .absent [(ansPrefix, ansBusy), (ansPrefix, ansBusy)] rfl fun r hr => ?_
  simp only [List.mem_cons, List.not_mem_nil, or_false, or_self] at hr
  subst hr
  exact ⟨⟨good_prefix, good_busy⟩, by decide⟩

theorem fails_select : bringUp.FailsAt params (params.fam .edx) true .select .timeout ansSelect.wire
    (List.replicate 1024 0xE) (commandSent params 7 (rcaArg bringUp.rcaValue)) :=
  .busy _ rfl List.length_replicate fun n hn => by rw [List.eq_of_mem_replicate hn]; rfl

theorem fails_speed : bringUp.FailsAt params (params.fam .edx) true .speed .timeout ansSpeed.wire
    (List.replicate 1024 0xF) (commandSent params 6 argCmd6) :=
  .block _ List.length_replicate fun n hn => by rw [List.eq_of_mem_replicate hn]; rfl

/-- CardInitNative: a step that fails, for each cause R160 names, and an answer that fails a response check. -/
theorem witness_CardInitNative_fails :
    bringUp.FailsAt params (params.fam .edx) true .volt .mismatch ansEcho.wire [] (commandSent params 8 argCmd8) ∧
      (∃ bits out, bringUp.FailsAt params (params.fam .edx) true .poll .absent bits [] out) ∧
      (∃ bits, bringUp.FailsAt params (params.fam .edx) true .cid .timeout bits [] (frameSent params 2 0)) ∧
      (∃ out, bringUp.FailsAt params (params.fam .edx) true .width .illegal ansIllegal.wire [] out) ∧
      Idle (failingAt .volt ansEcho.wire []) .edx ∧ (failingAt .volt ansEcho.wire []).initDone = true ∧
      see (fun t => (t.result, t.sess.ready, cmdBytes t.hist, writes t.hist))
        (exec .cardInit (failingAt .volt ansEcho.wire [])) =
        some (.error .mismatch, false, [0xFF, 0x40, 0x00, 0x00, 0x00, 0x00, 0x95, 0xFF, 0x48, 0x00, 0x00, 0x01, 0xAA, 0x87],
          configWrite params .edx .w1 .slow :: resetWrites params .edx Session.reset) :=
  ⟨fails_volt, ⟨_, _, .poll _ _ _ fails_poll⟩, ⟨_, .cid _ _ _ (.silent .sdr2 rfl (by decide))⟩,
    ⟨_, .width _ _ _ (.atPrefix _ _ _ (.check .sdr1 _ _ rfl ⟨rfl, by decide +kernel⟩ (by decide +kernel)))⟩,
    (meets_failingAt _ _ _).1, rfl, by decide +kernel⟩

/-- CardInitNative: a later step that fails, the port of four lanes then. -/
theorem witness_CardInitNative_fails_late :
    let s := failingAt .speed ansSpeed.wire (List.replicate 1024 0xF)
    Idle s .edx ∧ s.env.datLine = bringUp.nibblesBefore params .speed ++ (List.replicate 1024 0xF ++ [0xF]) ∧
      see (fun t => (t.result, t.sess, writes t.hist)) (exec .cardInit s) =
        some (.error .timeout, { Session.reset with busWidth := .w4, rca := 0x1234, highCapacity := true },
          [configWrite params .edx .w1 .slow, configWrite params .edx .w4 .slow] ++
            resetWrites params .edx { Session.reset with busWidth := .w4 }) :=
  ⟨(meets_failingAt _ _ _).1, (meets_failingAt _ _ _).2.2, by decide +kernel⟩

/-- CardInitNative, CardInitSpi and CardInitOffload: neither `init` nor a ready session; a ready session after `exit`. -/
theorem witness_CardInit_after_exit :
    let s := { withSession (idle .edx) ready with initDone := false }
    (params.initRequired = true ∧ start.initDone = false ∧ start.sess.ready = false) ∧ Idle s .edx ∧ s.initDone = false ∧ s.sess.ready = true :=
  ⟨⟨rfl, rfl, rfl⟩, idle_bench rfl rfl rfl rfl rfl rfl, rfl, rfl⟩

/-- An SPI bring-up. -/
def spiBringUp : SpiScript := ⟨spiIdle, some spiEcho, ⟨[], (spiReady, spiReady)⟩, spiOcr⟩

theorem witness_CardInitSpi :
    let s := withLine (idle .edv) (spiBringUp.bits params)
    Idle s .edv ∧ s.initDone = true ∧ (params.fam .edv).offload = false ∧ (params.fam .edv).wire = .spi ∧
      spiBringUp.good params true ∧
      s.env.cmdLine = spiBringUp.bits params ++ [true] := by
  refine ⟨idle_bench rfl rfl rfl rfl rfl rfl, rfl, rfl, rfl, ⟨⟨?_, rfl⟩, fun a ha => ?_, by decide +kernel, ?_, ?_⟩, rfl⟩
  · exact good_spi .none rfl rfl (by decide) rfl rfl
  · cases ha; exact good_spi .sdr7 rfl rfl (by decide) rfl rfl
  · exact ⟨by decide, fun r hr => absurd hr (by simp [spiBringUp]),
      ⟨good_spi .sdr1 rfl rfl (by decide) rfl rfl, good_spi .sdr3 rfl rfl (by decide) rfl rfl⟩, by decide +kernel⟩
  · exact good_spi .sdr3 rfl rfl (by decide) rfl rfl

/-- CardInitSpi: CMD0 met by silence and by an answer that does not say idle, CMD58 by silence. -/
theorem witness_CardInitSpi_fails :
    (∃ bits, SpiScript.FailsAt params true .idle .timeout bits (frameSent params 0 0)) ∧
      SpiScript.FailsAt params true .idle .malformed spiReady.wire (commandSent params 0 0) ∧
      (∃ bits out, SpiScript.FailsAt params true .ocr .timeout bits out) ∧
      Idle (withLine (idle .edv) spiReady.wire) .edv ∧
      see (fun t => (t.result, t.sess.ready, cmdBytes t.hist, writes t.hist))
        (exec .cardInit (withLine (idle .edv) spiReady.wire)) =
        some (.error .malformed, false, [0xFF, 0x40, 0x00, 0x00, 0x00, 0x00, 0x95],
          configWrite params .edv .w1 .slow :: resetWrites params .edv Session.reset) :=
  ⟨⟨_, .silent _ _ _ (.silent .none rfl (by decide))⟩,
    .notIdle _ (good_spi .none rfl rfl (by decide) rfl rfl) (by decide),
    ⟨_, _, .ocr _ _ _ (.silent .sdr3 rfl (by decide))⟩, idle_bench rfl rfl rfl rfl rfl rfl, by decide +kernel⟩

/-- Between operations, the cartridge's status as listed. -/
def withStatus (s : State) (ws : List Word) : State := { s with env := { s.env with status := ws } }

theorem offload_bench {s : State} (h1 : s.probed = true) (h2 : s.cartType = some .ci) (hb : s.busOwner = .native)
    (hc : s.cfg = params) (hp : s.env.pi = [⟨false, false⟩]) : IdleOffload s .ci :=
  ⟨h1, h2, hb, by rw [hc]; rfl, by rw [hp]; decide, by rw [hc]; exact (quiet_bench (s := start) .ci rfl rfl rfl).2.1,
    by rw [hc]; decide +kernel, .inl (by rw [hc]; rfl)⟩

/-- A family that wraps each transfer in the swap, by its register. -/
theorem witness_IdleOffload_wrapped : IdleOffload (withSession (idleWrapping .sc64) ready) .sc64 ∧
    wrapsTransfer (wrapping.fam .sc64) = true :=
  ⟨⟨rfl, rfl, rfl, rfl, by decide, (quiet_bench (s := start) .sc64 rfl rfl rfl).2.1, by decide +kernel, .inl rfl⟩, rfl⟩

/-- A command that ends with the error bit; one that is never issued; one that never ends. -/
theorem cart_fails : CartFails (params.fam .ci) .cart true [0, 2] ∧
    CartFails (params.fam .ci) .timeout false (List.replicate 1024 1) ∧
    CartFails (params.fam .ci) .timeout true (0 :: List.replicate 1024 1) :=
  ⟨.error _ _ rfl rfl rfl, .unissued _ List.length_replicate fun w hw => by rw [List.eq_of_mem_replicate hw]; rfl,
    .unanswered _ _ rfl List.length_replicate fun w hw => by rw [List.eq_of_mem_replicate hw]; rfl⟩

/-- CardInitOffload: the command fails, and the one that puts the card down is issued behind it. -/
theorem witness_CardInitOffload_fails :
    let s := withStatus (idle .ci) ([0, 2] ++ [0])
    IdleOffload s .ci ∧ s.initDone = true ∧ CartFails (params.fam .ci) .cart true [0, 2] ∧
      (∀ w ∈ [(0 : Word)], statusBusy (params.fam .ci) w = false) ∧
      see (fun t => (t.result, t.sess.ready, commands t.hist)) (exec .cardInit s) =
        some (.error .cart, false, [(0x69, 1, 0), (0x69, 0, 0)]) :=
  ⟨offload_bench rfl rfl rfl rfl rfl, rfl, cart_fails.1,
    fun w hw => by obtain rfl := List.mem_singleton.mp hw; rfl, by decide +kernel⟩

theorem witness_CardInitOffload : Idle (withWords (idle .ci) [0, 0]) .ci ∧ (idle .ci).initDone = true ∧
    (params.fam .ci).offload = true ∧
    ([] : List Word).length = aroundWords (params.fam .ci) (wraps (params.fam .ci) 0x69) ∧
    (withWords (idle .ci) [0, 0]).env.words = [] ++ 0 :: 0 :: ([] ++ [0]) :=
  ⟨idle_bench rfl rfl rfl rfl rfl rfl, rfl, rfl, rfl, rfl⟩

theorem witness_CardInitOffload_wrapped :
    let s := withWords (idleWrapping .ci) [0, 0, 7, 8, 0, 0]
    Idle s .ci ∧ (wrapping.fam .ci).offload = true ∧ wraps (wrapping.fam .ci) 0x69 = true ∧
      ([0, 0] : List Word).length = aroundWords (wrapping.fam .ci) (wraps (wrapping.fam .ci) 0x69) ∧
      s.env.words = [0, 0] ++ 7 :: 8 :: ([0, 0] ++ [0]) :=
  ⟨idle_wrapping rfl rfl rfl rfl rfl rfl, rfl, rfl, rfl, rfl⟩

/-- A read of one sector by a session with no stream open. -/
def oneRead : State := withLanes (withLine (withSession (idle .edx) ready) ansRead.wire) (blockLanes sectorData)

set_option maxRecDepth 20000 in
theorem witness_CardReadNative :
    let b : SwitchScript := ⟨ansStop, [], ansRead⟩
    let blocks : List BlockScript := [⟨sectorData, trailerOf (laneCrcs sectorData), blockLanes sectorData⟩]
    CanTransfer oneRead .edx 0x2003 5 1 ∧ blockArg oneRead.sess.highCapacity 5 = some 5 ∧
      b.good params (params.fam .edx) oneRead.sess .blockRead 5 ∧ blocks.length = (1 : Word).toNat ∧
      (∀ b ∈ blocks, b.good params (params.fam .edx) oneRead.sess.busWidth) ∧
      oneRead.env.cmdLine = b.bits oneRead.sess .blockRead 5 ++ [true] ∧
      oneRead.env.datLine = b.nibbles oneRead.sess .blockRead 5 ++ (blocks.flatMap BlockScript.lanes ++ [0xF]) ∧
      WrapWords oneRead .edx [] [] [] := by
  refine ⟨⟨idle_bench rfl rfl rfl rfl rfl rfl, rfl, by decide +kernel, ram_bench rfl rfl rfl, rfl⟩, rfl,
    ⟨fun h => ?_, fun _ => good_read⟩, rfl, fun x hx => ?_, rfl, ?_, ⟨rfl, rfl, rfl, fun h => ?_⟩⟩
  · exact absurd h (by decide +kernel)
  · obtain rfl := List.mem_singleton.mp hx
    exact ⟨rfl, block_on_lanes _, fun _ => rfl⟩
  · show blockLanes sectorData ++ [0xF] = [] ++ ((blockLanes sectorData ++ []) ++ [0xF])
    rw [List.append_nil, List.nil_append]
  · exact absurd h (by decide +kernel)

set_option maxRecDepth 20000 in
/-- CardReadNative: the wrap around the transfer, by configuration commands. -/
theorem witness_CardReadNative_wrapped :
    let b : SwitchScript := ⟨ansStop, [], ansRead⟩
    let s := { withWords oneRead [0, 0, 0, 0] with cfg := wrapping }
    CanTransfer s .edx 0x2003 5 1 ∧ b.good wrapping (wrapping.fam .edx) s.sess .blockRead 5 ∧
      wrapsTransfer (wrapping.fam .edx) = true ∧ WrapWords s .edx [0, 0] [0, 0] [0] := by
  refine ⟨⟨idle_wrapping rfl rfl rfl rfl rfl rfl, rfl, by decide +kernel, ram_bench rfl rfl rfl, rfl⟩,
    ⟨fun h => ?_, fun _ => good_read⟩, rfl, ⟨rfl, rfl, rfl, fun _ _ => by decide⟩⟩
  exact absurd h (by decide +kernel)

/-- BlockArgument: a standard-capacity transfer past the last byte address is refused though it goes on with the open
stream, and no CMD12 goes out for one that does not. -/
theorem witness_CardNative_beyond :
    let s := withSession (idle .edx) fun ss =>
      { ready ss with highCapacity := false, mode := .blockRead, lastLba := 0x007FFFFF }
    CanTransfer s .edx 0x2003 0x00800000 1 ∧ needsSwitch s.sess .blockRead 0x00800000 = false ∧
      blockArg s.sess.highCapacity 0x00800000 = none ∧
      [refusal (exec (.cardRead 0x2003 0x00800000 1) s), refusal (exec (.cardWrite 0x2003 0x00800000 1) s)] =
        [some .lbaBeyondByteAddress, some .lbaBeyondByteAddress] :=
  ⟨⟨idle_bench rfl rfl rfl rfl rfl rfl, rfl, by decide +kernel, ram_bench rfl rfl rfl, rfl⟩, by decide +kernel, rfl,
    by decide +kernel⟩

/-- A write of one sector that goes on with the open stream. -/
def oneWrite : State :=
  withLanes (withLine (withSession (idle .edx) fun ss => { ready ss with mode := .blockWrite, lastLba := 10 }) [])
    accepted.nibbles

theorem witness_CardWriteNative :
    let b : SwitchScript := ⟨ansStop, [], ansWrite⟩
    CanTransfer oneWrite .edx 0x2000 11 1 ∧ blockArg oneWrite.sess.highCapacity 11 = some 11 ∧
      b.good params (params.fam .edx) oneWrite.sess .blockWrite 11 ∧ [accepted].length = (1 : Word).toNat ∧
      (∀ b ∈ [accepted], b.good (params.fam .edx)) ∧
      oneWrite.env.cmdLine = b.bits oneWrite.sess .blockWrite 11 ++ [true] ∧
      oneWrite.env.datLine = b.nibbles oneWrite.sess .blockWrite 11 ++ ([accepted].flatMap TokenScript.nibbles ++ [0xF]) ∧
      WrapWords oneWrite .edx [] [] [] := by
  refine ⟨⟨idle_bench rfl rfl rfl rfl rfl rfl, rfl, by decide +kernel, ram_bench rfl rfl rfl, rfl⟩, rfl,
    ⟨fun h => ?_, fun h => ?_⟩, rfl, fun x hx => ?_, by decide +kernel, by decide +kernel, ⟨rfl, rfl, rfl, fun h => ?_⟩⟩
  · exact absurd h (by decide +kernel)
  · exact absurd h (by decide +kernel)
  · obtain rfl := List.mem_singleton.mp hx
    exact ⟨by decide, busy_two⟩
  · exact absurd h (by decide +kernel)

/-- CardWriteNative: the wrap around the transfer. -/
theorem witness_CardWriteNative_wrapped :
    let b : SwitchScript := ⟨ansStop, [], ansWrite⟩
    let s := { withWords oneWrite [0, 0, 0, 0] with cfg := wrapping }
    CanTransfer s .edx 0x2000 11 1 ∧ b.good wrapping (wrapping.fam .edx) s.sess .blockWrite 11 ∧
      WrapWords s .edx [0, 0] [0, 0] [0] := by
  refine ⟨⟨idle_wrapping rfl rfl rfl rfl rfl rfl, rfl, by decide +kernel, ram_bench rfl rfl rfl, rfl⟩,
    ⟨fun h => ?_, fun h => ?_⟩, ⟨rfl, rfl, rfl, fun _ _ => by decide⟩⟩
  · exact absurd h (by decide +kernel)
  · exact absurd h (by decide +kernel)

/-- The adapter's clause of the four transfer statements. -/
theorem witness_disk_transfer : diskCheck { oneRead with bound := [true], noinit := [false] } 0 5 1 = none := by
  decide +kernel

set_option maxRecDepth 20000 in
theorem witness_CardReadOffload :
    let s := withSector (withWords (withSession (idle .ci) ready) [0, 0, 0, 0]) sectorData
    CanTransfer s .ci 0x2000 5 1 ∧ (params.fam .ci).offload = true ∧ sector ≤ (params.fam .ci).cartBufLen ∧
      [sectorData].length = (1 : Word).toNat ∧ (∀ d ∈ [sectorData], d.length = sector) ∧
      s.env.sector = [sectorData].flatten ++ [0] ∧ transferWords (params.fam .ci) 0x73 1 < s.env.words.length := by
  refine ⟨⟨idle_bench rfl rfl rfl rfl rfl rfl, rfl, by decide +kernel, ram_bench rfl rfl rfl, rfl⟩, rfl, by decide, rfl,
    fun d hd => ?_, ?_, by decide +kernel⟩
  · obtain rfl := List.mem_singleton.mp hd
    rfl
  · show sectorData ++ [0] = (sectorData ++ []) ++ [0]
    rw [List.append_nil]

/-- CardReadOffload and CardWriteOffload: each command wrapped, and the whole transfer wrapped. -/
theorem witness_CardOffload_wrapped :
    let s := withWords (withSession (idleWrapping .ci) ready) (List.replicate 12 0)
    let u := withWords (withSession (idleWrapping .sc64) ready) (List.replicate 4 0)
    CanTransfer s .ci 0x2003 5 1 ∧ wraps (wrapping.fam .ci) 0x73 = true ∧ wraps (wrapping.fam .ci) 0x53 = true ∧
      transferWords (wrapping.fam .ci) 0x73 1 < s.env.words.length ∧
      transferWords (wrapping.fam .ci) 0x53 1 < s.env.words.length ∧ CanTransfer u .sc64 0x2003 5 1 ∧
      wrapsTransfer (wrapping.fam .sc64) = true ∧ transferWords (wrapping.fam .sc64) 0x73 1 < u.env.words.length :=
  ⟨⟨idle_wrapping rfl rfl rfl rfl rfl rfl, rfl, by decide +kernel, ram_bench rfl rfl rfl, rfl⟩, rfl, rfl,
    by decide +kernel, by decide +kernel,
    ⟨idle_wrapping rfl rfl rfl rfl rfl rfl, rfl, by decide +kernel, ram_bench rfl rfl rfl, rfl⟩, rfl, by decide +kernel⟩

theorem witness_CardWriteOffload :
    let s := withWords (withSession (idle .ci) ready) [0, 0, 0, 0]
    CanTransfer s .ci 0x2003 5 1 ∧ (params.fam .ci).offload = true ∧
      transferWords (params.fam .ci) 0x53 1 < s.env.words.length :=
  ⟨⟨idle_bench rfl rfl rfl rfl rfl rfl, rfl, by decide +kernel, ram_bench rfl rfl rfl, rfl⟩, rfl, by decide +kernel⟩

/-- R178: two sectors, each moved to the cartridge before its two commands. -/
theorem test_card_write_offload_order :
    see (fun t => traffic t.hist)
      (exec (.cardWrite 0x2000 5 2) (withWords (withSession (idle .ci) ready) (List.replicate 9 0))) =
      some [.toCart 0x2000, .command (0x49, 5, 0), .command (0x53, (params.fam .ci).cartBuf, 1),
        .toCart 0x2200, .command (0x49, 6, 0), .command (0x53, (params.fam .ci).cartBuf, 1)] := by decide +kernel

/-- ModeSwitchTest, at the wrap of the LBA. -/
theorem witness_ModeSwitchTest :
    needsSwitch { ready Session.reset with mode := .blockRead, lastLba := 0xFFFFFFFF } .blockRead 0 = false := by
  decide +kernel

/-- Two sectors on the lanes, one after the other. -/
def twoReads : State :=
  withLanes (withLine (withSession (idle .edx) ready) ansRead.wire)
    (blockLanes (List.replicate 512 0) ++ blockLanes (List.replicate 512 0))

set_option maxRecDepth 20000 in
/-- ContiguousTransfers: two reads that both return ok. -/
theorem witness_ContiguousTransfers :
    see (fun t => (t.result, see State.result (exec (.cardRead 0x3000 6 1) t))) (exec (.cardRead 0x2000 5 1) twoReads) =
      some (.ok, some .ok) := by decide +kernel

set_option maxRecDepth 20000 in
theorem witness_ContiguousTransfers_write :
    see (fun t => (t.result, see State.result (exec (.cardWrite 0x3000 6 1) t)))
      (exec (.cardWrite 0x2000 5 1)
        (withLanes (withLine (withSession (idle .edx) ready) ansWrite.wire) (accepted.nibbles ++ accepted.nibbles))) =
      some (.ok, some .ok) := by decide +kernel

/-- TransferPreChecks: the boundaries of each clause, a cartridge that is not there, the SPI flavour. The staging buffer
stands at 8000. -/
theorem witness_TransferPreChecks :
    [operandRefusal params 0x2000 5 0, operandRefusal params 0x2000 0xFFFFFFFF 1, operandRefusal params 0x2000 0xFFFFFFFF 2,
      operandRefusal params 0xFFFFFE00 5 1, operandRefusal params 0xFFFFFE01 5 1, operandRefusal params 0x7E00 5 1,
      operandRefusal params 0x7E01 5 1, operandRefusal params 0x81FF 5 1, operandRefusal params 0x8200 5 1] =
      [some .countZero, none, some .lbaOverflow, none, some .bufferWraps, none, some .bufferOverlapsStage,
        some .bufferOverlapsStage, none] ∧
      { idle .ci with cartType := none }.probed = true ∧ (idle .edx).sess.ready = false ∧
      (withSession (idle .edv) ready).sess.ready = true ∧ (params.fam .edv).wire = .spi := by decide +kernel

theorem witness_BlockArgument :
    let s := withSession (idle .edx) fun ss => { ready ss with highCapacity := false }
    Idle s .edx ∧ s.sess.ready = true ∧ operandRefusal params 0x2000 0x00800000 1 = none ∧ s.sess.mode = .none ∧
      s.sess.highCapacity = false :=
  ⟨idle_bench rfl rfl rfl rfl rfl rfl, rfl, by decide +kernel, rfl, rfl⟩

/-- AfterHardwareErrors: a card that never answers (program P4's kind of failure), and an `exit` whose write never ends. -/
theorem witness_AfterHardwareErrors :
    see (fun t => (t.result, t.sess.mode)) (exec (.cardRead 0x2000 5 1) (withLanes (withLine streaming []) [])) =
      some (.error .timeout, .none) ∧
    see (fun t => (t.result, t.sess.ready, t.seq.bringUp)) (exec .cardInit (withLine (idle .edx) [])) =
      some (.error .timeout, false, .rest) ∧
    see (fun t => (t.result, t.sess.ready))
      (exec .exit { withSession (idle .edx) ready with env := { start.env with pi := [⟨false, true⟩] } }) =
      some (.error .timeout, false) := by decide +kernel

/-- A trailer with its first bit wrong. -/
def wrongTrailer : List Byte := 0x92 :: (trailerOf (laneCrcs sectorData)).tail

/-- The lanes of a sector with that trailer. -/
def wrongLanes : List Nibble := 0x0 :: (nibblesOf sectorData ++ nibblesOf wrongTrailer ++ [0xF])

set_option maxRecDepth 20000 in
/-- AfterHardwareErrors, a failing read: a start that never comes, a wrong trailer. -/
theorem witness_BadBlock :
    BadBlock params (params.fam .edx) .w4 .timeout (List.replicate 1024 0xF) ∧
      BadBlock params (params.fam .edx) .w4 .crc wrongLanes ∧
      see State.result (exec (.cardRead 0x2003 5 1) (withLanes oneRead wrongLanes)) = some (.error .crc) := by
  refine ⟨⟨List.length_replicate, fun n hn => by rw [List.eq_of_mem_replicate hn]; rfl⟩, ⟨rfl, sectorData, wrongTrailer, rfl,
    ⟨[], 0x0, nibblesOf sectorData, nibblesOf wrongTrailer, 0xF, rfl, by decide, by simp, by decide, rfl, rfl,
      by decide +kernel⟩, by decide +kernel⟩, by decide +kernel⟩

/-- A status token of three bits, the card free at once. -/
def token (a b c : Nibble) : TokenScript := ⟨0xE, a, b, c, 0xF, []⟩

set_option maxRecDepth 20000 in
/-- AfterHardwareErrors, a failing write: each status, and a busy period that outlasts its wait. -/
theorem witness_BadToken :
    BadToken (params.fam .edx) .crc (token 0xF 0xE 0xF).nibbles ∧
      BadToken (params.fam .edx) .write (token 0xF 0xF 0xE).nibbles ∧
      BadToken (params.fam .edx) .malformed (token 0xF 0xF 0xF).nibbles ∧
      BadToken (params.fam .edx) .timeout ({ token 0xE 0xF 0xE with busy := List.replicate 1024 0xE } : TokenScript).nibbles ∧
      see State.result (exec (.cardWrite 0x2000 11 1) (withLanes oneWrite (token 0xF 0xF 0xE).nibbles)) =
        some (.error .write) :=
  ⟨⟨_, rfl, .inl ⟨rfl, .inl ⟨by decide, rfl⟩⟩⟩, ⟨_, rfl, .inl ⟨rfl, .inr (.inl ⟨by decide, rfl⟩)⟩⟩,
    ⟨_, rfl, .inl ⟨rfl, .inr (.inr ⟨by decide, by decide, by decide, rfl⟩)⟩⟩,
    ⟨_, rfl, .inr ⟨by decide, rfl, List.length_replicate, fun n hn => by rw [List.eq_of_mem_replicate hn]; rfl⟩⟩,
    by decide +kernel⟩

/-- What a card that answers nothing more is sent behind CMD18: CMD12. -/
def readThenStop : List Byte :=
  [0xFF, 0x52, 0x00, 0x00, 0x00, 0x05, 0xBB, 0xFF, 0x4C, 0x00, 0x00, 0x00, 0x00, 0x61]

set_option maxRecDepth 20000 in
/-- AfterHardwareErrors, the first block of a read is bad: its hypotheses, and what is sent and written behind it. -/
theorem witness_AfterHardwareErrors_read :
    let b : SwitchScript := ⟨ansStop, [], ansRead⟩
    let s := withLanes oneRead wrongLanes
    CanTransfer s .edx 0x2003 5 1 ∧ s.sess.bitlen = .b8 ∧ blockArg s.sess.highCapacity 5 = some 5 ∧
      b.good params (params.fam .edx) s.sess .blockRead 5 ∧ ([] : List BlockScript).length < (1 : Word).toNat ∧
      s.env.cmdLine = b.bits s.sess .blockRead 5 ++ [true] ∧
      s.env.datLine = b.nibbles s.sess .blockRead 5 ++ (([] : List BlockScript).flatMap BlockScript.lanes ++
        (wrongLanes ++ [0xF])) ∧
      WrapWords s .edx [] [] [] ∧
      see (fun t => (t.result, cmdBytes t.hist, writes t.hist)) (exec (.cardRead 0x2003 5 1) s) =
        some (.error .crc, readThenStop, resetWrites params .edx s.sess) := by
  refine ⟨⟨idle_bench rfl rfl rfl rfl rfl rfl, rfl, by decide +kernel, ram_bench rfl rfl rfl, rfl⟩, rfl, rfl,
    ⟨fun h => ?_, fun _ => good_read⟩, by decide, rfl, rfl, ⟨rfl, rfl, rfl, fun h => ?_⟩, by decide +kernel⟩
  · exact absurd h (by decide +kernel)
  · exact absurd h (by decide +kernel)

set_option maxRecDepth 20000 in
/-- AfterHardwareErrors, the first block of a write is not accepted. -/
theorem witness_AfterHardwareErrors_write :
    let b : SwitchScript := ⟨ansStop, [], ansWrite⟩
    let bad := (token 0xF 0xF 0xE).nibbles
    let s := withLanes oneWrite bad
    CanTransfer s .edx 0x2000 11 1 ∧ s.sess.bitlen = .b8 ∧ blockArg s.sess.highCapacity 11 = some 11 ∧
      b.good params (params.fam .edx) s.sess .blockWrite 11 ∧ ([] : List TokenScript).length < (1 : Word).toNat ∧
      s.env.cmdLine = b.bits s.sess .blockWrite 11 ++ [true] ∧
      s.env.datLine = b.nibbles s.sess .blockWrite 11 ++ (([] : List TokenScript).flatMap TokenScript.nibbles ++
        (bad ++ [0xF])) ∧
      WrapWords s .edx [] [] [] ∧
      see (fun t => (t.result, cmdBytes t.hist, writes t.hist)) (exec (.cardWrite 0x2000 11 1) s) =
        some (.error .write, [0xFF, 0x4C, 0x00, 0x00, 0x00, 0x00, 0x61], resetWrites params .edx s.sess) := by
  refine ⟨⟨idle_bench rfl rfl rfl rfl rfl rfl, rfl, by decide +kernel, ram_bench rfl rfl rfl, rfl⟩, rfl, rfl,
    ⟨fun h => ?_, fun h => ?_⟩, by decide, rfl, rfl, ⟨rfl, rfl, rfl, fun h => ?_⟩, by decide +kernel⟩
  all_goals exact absurd h (by decide +kernel)

/-- AfterHardwareErrors, the command that opens a stream fails: with another stream to stop first, and with none. -/
theorem witness_AfterHardwareErrors_unopened :
    let quiet := List.replicate params.respSpinMax true
    let s := withLanes (withLine streaming (ansStop.wire ++ quiet)) twoBusy
    let u := withLine (withSession (idle .edx) ready) quiet
    CanTransfer s .edx 0x2000 5 1 ∧ stopsFirst s.sess .blockRead 5 = true ∧ ansStop.good params .sdNative false 12 ∧
      BusyOnLanes (params.fam .edx) twoBusy ∧
      CommandFails params .sdNative false (openIndex .blockRead) 5 .timeout quiet (frameSent params 18 5) ∧
      s.env.cmdLine = ansStop.wire ++ (quiet ++ [true]) ∧ s.env.datLine = twoBusy ++ [0xF] ∧
      CanTransfer u .edx 0x2000 5 1 ∧ needsSwitch u.sess .blockRead 5 = true ∧ stopsFirst u.sess .blockRead 5 = false ∧
      see (fun t => (t.result, t.sess.mode, cmdBytes t.hist, writes t.hist)) (exec (.cardRead 0x2000 5 1) u) =
        some (.error .timeout, .none, readThenStop.take 7, resetWrites params .edx u.sess) :=
  ⟨⟨idle_bench rfl rfl rfl rfl rfl rfl, rfl, by decide +kernel, ram_bench rfl rfl rfl, rfl⟩, by decide, good_stop, busy_two,
    .silent .sdr1 rfl (by decide), List.append_assoc _ _ _, rfl,
    ⟨idle_bench rfl rfl rfl rfl rfl rfl, rfl, by decide +kernel, ram_bench rfl rfl rfl, rfl⟩, by decide, by decide,
    by decide +kernel⟩

/-- AfterHardwareErrors, a family whose cartridge does the framing: sector-set ends well, the read with the error bit. -/
theorem witness_AfterHardwareErrors_offload :
    let s := withStatus (withSession (idle .ci) ready) ([0, 0] ++ ([0, 2] ++ [0]))
    IdleOffload s .ci ∧ s.sess.ready = true ∧ operandRefusal params 0x2000 5 1 = none ∧
      CartGood (params.fam .ci) [(0, 0)] ∧ CartFails (params.fam .ci) .cart true [0, 2] ∧
      [((0 : Word), (0 : Word))].length < 2 * (1 : Word).toNat ∧
      see (fun t => (t.result, commands t.hist)) (exec (.cardRead 0x2000 5 1) s) =
        some (.error .cart, [(0x49, 5, 0), (0x73, 0x1000, 1), (0x69, 0, 0)]) :=
  ⟨offload_bench rfl rfl rfl rfl rfl, rfl, by decide +kernel,
    fun p hp => by obtain rfl := List.mem_singleton.mp hp; exact ⟨rfl, rfl, rfl⟩, cart_fails.1, by decide, by decide +kernel⟩

/-- DiskInitialize: a bound drive whose session is down, a `card_init` that ends, and a bring-up after `exit`. -/
theorem witness_DiskInitialize :
    see State.result (Machine.runHost (do Machine.bringUpAgain; pure .ok) { start with probed := true }) =
      some (.error .noCartridge) ∧
    see State.result (Machine.runHost (do Machine.bringUpAgain; pure .ok)
      { withWords (idle .ci) [0, 0] with initDone := false, bound := [true] }) = some .ok ∧
    (1 : Byte).toNat ≥ params.nVolumes ∧ (0 : Byte).toNat < params.nVolumes ∧ bound.bound.getD 0 false = true ∧
      bound.sess.ready = true ∧
      see State.result (exec .cardInit { withWords (idle .ci) [0, 0] with bound := [true] }) = some .ok ∧
      see State.result (exec .cardInit { idle .ci with bound := [true], env := { start.env with status := [1] } }) =
        some (.error .timeout) := by decide +kernel

/-- DiskTransfers: a drive for each check, and one that passes them. -/
theorem witness_DiskTransfers :
    [diskCheck bound 1 0 1, diskCheck bound 0 0xFFFFFFFF 2, diskCheck start 0 0 1, diskCheck bound 0 0xFFFFFFFF 1] =
      [some .paramError, some .paramError, some .notReady, none] := by decide +kernel

/-- ParameterErrorsTouchNothing and PreChecksEmitNothing. -/
theorem witness_ParameterErrors : (idle .edx).probed = true ∧
    see State.result (exec (.bind 1) (idle .edx)) = some (.error .param) ∧
    see State.result (exec (.bind 0) (idle .edx)) = some (.error .notReady) := by decide +kernel

theorem witness_AcquireRelease : (idle .edx).cartType = some .edx ∧ (idle .edx).busOwner = .native ∧
    (held .edx).busOwner = .cart .edx ∧ (held .edx).nativeSaved = true ∧ start.cartType = none := by decide +kernel

/-- AcquireEffect: every operation that takes a bracket of its own, in an open one. -/
theorem witness_AcquireEffect_nested :
    let s := { withSession (held .edx) fun ss => { ready ss with mode := .blockRead } with bound := [true], noinit := [false] }
    let u := { withSession (held .ci) ready with bound := [true], noinit := [false] }
    let d := withSession s fun ss => { ss with ready := false }
    (s.probed = true ∧ s.cartType = some .edx ∧ s.busOwner = .cart .edx ∧ params.probeOrder ≠ [] ∧
      diskCheck s 0 5 1 = none ∧ operandRefusal params 0x2000 5 1 = none ∧ blockArg s.sess.highCapacity 5 ≠ none ∧
      s.bound.getD 0 false = true ∧ (0 : Byte).toNat < params.nVolumes ∧ (params.fam .ci).offload = true) ∧
      ([Instr.acquire, .setByteswap true, .cardStop, .init, .exit, .cardInit, .cardRead 0x2000 5 1, .cardWrite 0x2000 5 1,
          .diskRead 0 0x2000 5 1, .diskWrite 0 0x2000 5 1].map (fun i => refusal (exec i s)) ++
        [Instr.cardRead 0x2000 5 1, .diskWrite 0 0x2000 5 1].map (fun i => refusal (exec i u)) ++
        [refusal (exec (.diskInitialize 0) d)] ++
        [Instr.probe, .init, .exit, .cardInit, .cardRead 0x2000 5 1, .cardWrite 0x2000 5 1].map fun i =>
          refusal (exec i { s with probed := false })) = List.replicate 19 (some .nestedAcquire) := by decide +kernel

/-- MoveToRam and MoveFromRam, on both paths. -/
theorem witness_Moves : Held (held .edx) .edx ∧ Ram (held .edx) ∧ (held .edx).cb.wf = true ∧ direct 0x2000 = true ∧
    direct 0x2003 = false ∧ 0x2003 + sector ≤ (held .edx).cfg.stageAddr :=
  ⟨⟨rfl, quiet_bench _ rfl rfl rfl⟩, ram_bench rfl rfl rfl, rfl, rfl, rfl, by decide +kernel⟩

/-- StepKeepsMemory, StepKeepsBracket, NativeBetweenOperations: a step from a state that meets the invariants. -/
theorem witness_invariants :
    Ram (idle .edx) ∧ (idle .edx).cb.wf = true ∧ BusInv (idle .edx) ∧ TableInv (idle .edx) ∧ SeqInv (idle .edx) ∧
      (idle .edx).sess.bitlen = .b8 ∧ see State.result (exec .cardStop (idle .edx)) = some .ok :=
  ⟨ram_bench rfl rfl rfl, rfl, ⟨(fun h => by cases h), (fun _ => ⟨rfl, rfl⟩), (fun _ h => by cases h), (fun _ h => by cases h)⟩,
    ⟨rfl, rfl⟩, ⟨(fun h => by cases h), (fun f _ h => by cases h; rfl), (fun _ h => by cases h), rfl⟩, rfl, by decide +kernel⟩

end Sys2Proof.Tests
end

section
/-! PROOFS. The bus bracket: what `acquire` and `release` do, and that no bracket opens inside a bracket (47_bus_dma.md R235 to
R238). -/

namespace Sys2Proof.Machine

variable {α : Type} {s w : State} {f g : Family}

/-! ### A host operation of one step -/

/-- A host operation that runs one operation to a value and returns a fixed result. -/
theorem runHost_then {x : Op Unit} {r : HostResult} (h : x s = .ok () w) :
    runHost (do x; pure r) s = .next { w with result := r } := runHost_ok (bind_ok h)

/-- A host operation whose first part is refused. -/
theorem runHost_bind_refuse {x : Op α} {k : α → Op HostResult} {r : Refusal} (h : x s = .error (.refuse r) w) :
    runHost (x >>= k) s = .refused r := runHost_refuse (bind_error h)

/-! ### Acquire and release, field by field -/

/-- The capture takes the live timing only where none was saved (R237). -/
theorem captureNative_run (s : State) :
    captureNative s = .ok () { s with nativeCfg := captured s, nativeSaved := true } := by
  unfold captureNative captured
  rw [upd_run]
  cases hsv : s.nativeSaved
  · rw [if_neg Bool.false_ne_true, if_neg Bool.false_ne_true]
  · rw [if_pos rfl, if_pos rfl, ← hsv]

/-- What the next capture leaves does not depend on what an access writes. -/
theorem captured_of_same {F : Foot} (h : SameOn F s w) (hF : F.bus = false) : captured w = captured s := by
  obtain ⟨hdom, hcfg, hsaved, -⟩ := h.bus hF
  rw [captured, captured, hdom, hcfg, hsaved]

/-- An acquire from the native bus, from the state its wait leaves (R237). -/
theorem acquireFor_after_wait (hb : s.busOwner = .native) (hrun : bestEffort (piWaitIdle f) s = .ok () w)
    (hsame : SameOn .access s w) (hh : w.hist = s.hist) :
    acquireFor f s = .ok () { w with
      nativeCfg := captured s, nativeSaved := true, piDom := (s.cfg.fam f).cartCfg, busOwner := .cart f,
      hist := (cfgEvents (s.cfg.fam f).cartCfg).reverse ++ s.hist } := by
  simp only [acquireFor, get'_bind, hb, bind_ok hrun, bind_ok (captureNative_run w), captured_of_same hsame rfl,
    applyConfig, upd_bind, upd_run, hsame.cfg, hh]

/-- A release inside a bracket, from the state its wait leaves (R236). -/
theorem releaseBus_after_wait (hb : s.busOwner = .cart f) (hn : s.nativeSaved = true)
    (hrun : bestEffort (piWaitIdle f) s = .ok () w) (hsame : SameOn .access s w) (hh : w.hist = s.hist) :
    releaseBus s = .ok () { w with
      piDom := s.nativeCfg, busOwner := .native, hist := (cfgEvents s.nativeCfg).reverse ++ s.hist } := by
  obtain ⟨-, hcfg, -, -⟩ := hsame.bus rfl
  simp only [releaseBus, get'_bind, hb, hn, if_true, bind_ok hrun, hcfg, applyConfig, upd_bind, upd_run, hh]

/-! ### No bracket inside a bracket (R238) -/

theorem acquireFor_nested (hb : s.busOwner = .cart g) : acquireFor f s = .error (.refuse .nestedAcquire) s := by
  simp only [acquireFor, get'_bind, hb, refuse_run]

theorem acquireBus_nested (hc : s.cartType = some f) (hb : s.busOwner = .cart g) :
    acquireBus s = .error (.refuse .nestedAcquire) s := by
  simp only [acquireBus, get'_bind, hc, acquireFor_nested hb]

theorem bracketed_nested (clean : Op Unit) (body : Op α) (hc : s.cartType = some f) (hb : s.busOwner = .cart g) :
    bracketed clean body s = .error (.refuse .nestedAcquire) s :=
  bind_error (acquireBus_nested hc hb)

/-- A stop of an open stream takes a bracket (R167, R179). -/
theorem cardStop_nested (hc : s.cartType = some f) (hb : s.busOwner = .cart g) (hm : s.sess.mode ≠ .none) :
    cardStop s = .error (.refuse .nestedAcquire) s := by
  simp only [cardStop, get'_bind, onlyIf_true (show (s.sess.mode != .none) = true by simpa using hm)]
  exact bracketed_nested _ _ hc hb

/-- A probe that is not over takes a bracket for its first family (R210). -/
theorem probeOp_nested (hp : s.probed = false) (ho : s.cfg.probeOrder ≠ []) (hb : s.busOwner = .cart g) :
    ∃ t, probeOp s = .error (.refuse .nestedAcquire) t := by
  obtain ⟨h, rest, hl⟩ := List.exists_cons_of_ne_nil ho
  refine ⟨{ s with seq := { s.seq with probe := .probing 0 } }, ?_⟩
  simp only [probeOp, get'_bind, hp, Bool.false_eq_true, if_false, hl, probeLoop, setProbeSeq, upd_bind]
  exact bind_error (bind_error (acquireFor_nested (g := g) hb))

/-- So does every host operation dispatched by it (R214). -/
theorem runHost_dispatch_nested {handler : Family → Op α} {k : α → Op HostResult} (hp : s.probed = false)
    (ho : s.cfg.probeOrder ≠ []) (hb : s.busOwner = .cart g) :
    runHost (dispatch handler >>= k) s = .refused .nestedAcquire := by
  obtain ⟨t, ht⟩ := probeOp_nested hp ho hb
  exact runHost_bind_refuse (bind_error ht)

section Probed
/-! An open bracket of a machine whose probe has found a cartridge: each operation that takes a bracket, once it gets
there. -/

variable (hp : s.probed = true) (hc : s.cartType = some f) (hb : s.busOwner = .cart g)
include hp hc hb

theorem initOp_nested : initOp s = .error (.refuse .nestedAcquire) s := by
  rw [initOp, dispatch_known hp hc]
  exact bind_error (bracketed_nested _ _ hc hb)

/-- `exit` is refused by its own bracket, or, with a stream open, by the bracket of the stop before it (R189). -/
theorem exitOp_nested : exitOp s = .error (.refuse .nestedAcquire) s := by
  rw [exitOp, dispatch_known hp hc, get'_bind]
  by_cases hm : s.sess.mode = .none
  · rw [bind_ok (onlyIf_false (by simp [hm]) _)]
    exact bracketed_nested _ _ hc hb
  · have hstop : bestEffort cardStop s = .error (.refuse .nestedAcquire) s :=
      bind_error (attempt_refuse (cardStop_nested hc hb hm))
    exact bind_error ((onlyIf_true (by simpa using hm) _).trans hstop)

omit hp in
theorem runBringUp_nested : runBringUp s = .error (.refuse .nestedAcquire) s :=
  bind_error (attempt_refuse (bracketed_nested _ _ hc hb))

theorem cardInit_nested (hm : s.mayInit = true) : cardInit s = .error (.refuse .nestedAcquire) s := by
  rw [cardInit, dispatch_known hp hc, get'_bind, if_pos hm]
  exact runBringUp_nested hc hb

theorem bringUpAgain_nested : bringUpAgain s = .error (.refuse .nestedAcquire) s := by
  rw [bringUpAgain, dispatch_known hp hc]
  exact runBringUp_nested hc hb

theorem diskInitialize_nested {drive : Byte} (hd : driveInRange s drive = true) (hbound : s.isBound drive = true)
    (hr : s.sess.ready = false) : diskInitialize drive s = .error (.refuse .nestedAcquire) s := by
  simp only [diskInitialize, get'_bind, id, hd, hbound, hr, Bool.not_true, Bool.false_eq_true, if_false]
  exact bind_error (attempt_refuse (bringUpAgain_nested hp hc hb))

/-- A transfer that passes its checks takes a bracket, on an offloaded family or on the native wire (R165, R166, R178). -/
theorem transfer_nested {buf lba count : Word} {offloaded : Word → Op Unit} {native : Op Unit} (hr : s.sess.ready = true)
    (ho : operandRefusal s.cfg buf lba count = none)
    (hw : (s.cfg.fam f).offload = true ∨ (s.cfg.fam f).wire = .sdNative ∧ blockArg s.sess.highCapacity lba ≠ none) :
    transfer buf lba count offloaded native s = .error (.refuse .nestedAcquire) s := by
  rw [transfer, dispatch_known hp hc, get'_bind, get'_bind, if_pos hr]
  simp only [transferBody, ho]
  by_cases hoff : (s.cfg.fam f).offload = true
  · rw [if_pos hoff]
    exact bracketed_nested _ _ hc hb
  · obtain ⟨hwire, harg⟩ := hw.resolve_left hoff
    obtain ⟨arg, harg⟩ := Option.ne_none_iff_exists'.mp harg
    simp only [hoff, Bool.false_eq_true, if_false, hwire, reduceCtorEq, nativeTransfer, get'_bind, harg]
    exact bracketed_nested _ _ hc hb

omit hp hc hb in
/-- A disk transfer that passes the adapter's checks goes on to the card operation (R224, R225). -/
theorem diskTransfer_refused {drive : Byte} {lba count : Word} {op : Op Unit} {r : Refusal} {t : State}
    (hck : diskCheck s drive lba count = none) (hop : op s = .error (.refuse r) t) :
    diskTransfer drive lba count op s = .error (.refuse r) t := by
  simp only [diskTransfer, get'_bind, id, hck]
  exact bind_error (attempt_refuse hop)

end Probed

end Sys2Proof.Machine

namespace Sys2Proof.Proofs

open Sys2Proof.Machine

/-- Settles O53: the release from the state its wait leaves (`releaseBus_after_wait`). -/
theorem releaseEffect : Obligations.ReleaseEffect := by
  refine ⟨fun s f hb hn => ?_, fun s hb => ?_⟩
  · obtain ⟨w, hrun, hsame, hhist, -⟩ := quietenPi f s
    exact ⟨w, hrun, hsame, hhist, runHost_then (releaseBus_after_wait hb hn hrun hsame hhist)⟩
  · have hrel : releaseBus s = .error (.refuse .releaseWithoutAcquire) s := by
      simp only [releaseBus, get'_bind, hb, refuse_run]
    exact runHost_bind_refuse hrel

/-- Settles O52: the acquire from the state its wait leaves (`acquireFor_after_wait`), and the refusal of each operation
once it gets to its own `acquire`. -/
theorem acquireEffect : Obligations.AcquireEffect := by
  refine ⟨fun s f hc hb => ?_, fun s f g i hc hb hi => ?_, fun s g i hp ho hb hi => ?_, fun s f g i hp hc hb hi => ?_,
    fun s hc => ?_⟩
  · obtain ⟨w, hrun, hsame, hhist, -⟩ := quietenPi f s
    have hacq : acquireBus s = acquireFor f s := by rw [acquireBus, get'_bind, hc]
    exact ⟨w, hrun, hsame, hhist, runHost_then (hacq.trans (acquireFor_after_wait hb hrun hsame hhist))⟩
  · rcases hi with rfl | ⟨on, rfl⟩ | ⟨rfl, hm⟩
    · exact runHost_bind_refuse (acquireBus_nested hc hb)
    · exact runHost_bind_refuse (bracketed_nested _ _ hc hb)
    · exact runHost_bind_refuse (cardStop_nested hc hb hm)
  · rcases hi with rfl | rfl | rfl | rfl | ⟨d, l, c, rfl | rfl⟩
    · obtain ⟨t, ht⟩ := probeOp_nested hp ho hb
      exact runHost_bind_refuse ht
    · exact runHost_dispatch_nested hp ho hb
    · exact runHost_dispatch_nested hp ho hb
    · exact runHost_dispatch_nested hp ho hb
    · exact runHost_dispatch_nested hp ho hb
    · exact runHost_dispatch_nested hp ho hb
  · rcases hi with rfl | rfl | ⟨rfl, hm⟩ | ⟨drive, rfl, hd, hbound, hr⟩ | ⟨buf, lba, count, hi, hr, hop, hw⟩
    · exact runHost_bind_refuse (initOp_nested hp hc hb)
    · exact runHost_bind_refuse (exitOp_nested hp hc hb)
    · have hmay : s.mayInit = true := by
        rcases hm with h | h | h <;> simp [State.mayInit, h]
      exact runHost_bind_refuse (cardInit_nested hp hc hb hmay)
    · exact runHost_bind_refuse (diskInitialize_nested hp hc hb (decide_eq_true hd) hbound hr)
    · rcases hi with rfl | rfl | ⟨drive, rfl | rfl, hck⟩
      · exact runHost_bind_refuse (transfer_nested hp hc hb hr hop hw)
      · exact runHost_bind_refuse (transfer_nested hp hc hb hr hop hw)
      · exact runHost_bind_refuse (diskTransfer_refused hck (transfer_nested hp hc hb hr hop hw))
      · exact runHost_bind_refuse (diskTransfer_refused hck (transfer_nested hp hc hb hr hop hw))
  · have hacq : acquireBus s = .error (.refuse .acquireWithoutCartridge) s := by
      simp only [acquireBus, get'_bind, hc, refuse_run]
    exact runHost_bind_refuse hacq

end Sys2Proof.Proofs
end

section
/-! PROOFS. The two sector moves (47_bus_dma.md R242, R243) and the shape of a step (00_scope.md R9). -/

namespace Sys2Proof.Machine

/-! ### The host view of a range -/

theorem length_hostBytes (s : State) (a n : Nat) : (s.hostBytes a n).length = n := by simp [State.hostBytes]

theorem getD_hostBytes (s : State) (a : Nat) {n j : Nat} (hj : j < n) :
    (s.hostBytes a n).getD j blankByte = s.hostByte (a + j) := by
  simp [State.hostBytes, List.getD, hj]

/-- A byte outside the staging buffer, or any byte of a direct move, is none of those a staged move writes. -/
theorem not_staged {buf stage b : Nat} (h : direct buf = true ∨ b < stage ∨ stage + sector ≤ b) :
    ¬(direct buf = false ∧ stage ≤ b ∧ b < stage + sector) := by
  rintro ⟨hdir, hlo, hhi⟩
  rcases h with hd | hb | hb
  · exact Bool.false_ne_true (hdir.symm.trans hd)
  · omega
  · omega

end Sys2Proof.Machine

namespace Sys2Proof.Proofs

open Sys2Proof.Machine

/-- Settles O54: what a quiet `move_to_ram` does (`moveToRam_quiet`), what it leaves in the DMA engine
(`moveToRam_dma`), and its host view read byte by byte. -/
theorem moveToRam : Obligations.MoveToRam := by
  intro s f dest hheld hram hplace
  obtain ⟨t, hrun, hwent, hhist, hramt, hcb, hview⟩ := moveToRam_quiet hheld.owner hheld.quiet hram hplace
  refine ⟨t, hrun, hwent, hramt, hcb, moveToRam_dma hheld.owner hrun, hhist, fun j hj => ?_, fun b hout hstage => ?_⟩
  · rw [Memory.length_readBytes] at hj
    rw [hview, if_pos (by omega), Memory.getD_readBytes _ hj, Nat.add_sub_cancel_left, Nat.zero_add]
  · rw [Memory.length_readBytes] at hout
    rw [hview, if_neg (by omega), if_neg (not_staged hstage)]

/-- Settles O55: what a quiet `move_from_ram` does (`moveFromRam_quiet`), what it leaves in the DMA engine
(`moveFromRam_dma`), and the cartridge's buffer read inside and outside the bytes written. -/
theorem moveFromRam : Obligations.MoveFromRam := by
  intro s f src hheld hram hcb hplace
  obtain ⟨t, hrun, hwent, hhist, hramt, hcbt, hview⟩ := moveFromRam_quiet hheld.owner hheld.quiet hram hplace
  refine ⟨t, hrun, hwent, hramt, moveFromRam_dma hheld.owner hrun, hhist, fun j hj => ?_, fun a ha => ?_,
    fun b hstage => by rw [hview, if_neg (not_staged hstage)]⟩
  · have hread := Memory.read_writeBytes_inside (s.hostBytes src sector) hcb 0 (j := j) (by rwa [length_hostBytes])
    rwa [Nat.zero_add, getD_hostBytes s src hj, ← hcbt] at hread
  · rw [hcbt, Memory.read_writeBytes_outside _ _ _ (.inr (by rw [length_hostBytes]; omega))]

end Sys2Proof.Proofs

namespace Sys2Proof.Machine

/-! ### The step -/

/-- The step of a state whose next request decodes to an instruction (R9, R80). -/
theorem step_of_decode {s : State} {r : Request} {rest : List Request} {i : Instr} (hport : s.port = r :: rest)
    (hdec : decode r = .ok i) :
    step s = if i.wellFormed then exec i (settle { s with port := rest }) else .refused .illFormed := by
  simp only [step, hport, runRequest, hdec]

/-- The step of a state in which no request waits (R9, R72). -/
theorem step_of_no_request {s : State} (hport : s.port = []) : step s = .next (settle s) := by
  simp only [step, hport]

/-- A word of the opcode table that reads as an instruction is a request that decodes to it. -/
theorem decode_tableRequest {nbits w : Nat} {i : Instr} (h : decodeTableWord nbits w = some i) :
    decode (tableRequest nbits w) = .ok i := by
  unfold decodeTableWord at h
  cases hd : decode (tableRequest nbits w) with
  | ok j => rw [hd] at h; exact congrArg _ (Option.some.inj h)
  | error e => rw [hd] at h; exact absurd h (by simp [Except.toOption])

/-- The step of a state in which an instruction of the opcode table was placed: the queue behind it is the one before. -/
theorem step_withFetchWord {s : State} {nbits w : Nat} {i : Instr} (h : decodeTableWord nbits w = some i)
    (hwf : i.wellFormed = true) : step (s.withFetchWord nbits w) = exec i (settle s) := by
  rw [step_of_decode (State.withFetchWord_port s nbits w) (decode_tableRequest h), if_pos hwf]
  rfl

end Sys2Proof.Machine

namespace Sys2Proof.Proofs

open Sys2Proof.Machine

/-- Settles O5: the three shapes of a step (`step_of_decode`, `step_of_no_request`, `step_withFetchWord`), and what
settling does (`settle_spec`). -/
theorem stepRunsDecoded : Obligations.StepRunsDecoded := by
  refine ⟨fun _ _ _ _ hport hdec => step_of_decode hport hdec, fun _ hport => step_of_no_request hport,
    fun s nbits w i hdec hwf => ⟨step_withFetchWord hdec hwf, fun hc => ?_⟩, fun s => ?_⟩
  · rw [step_withFetchWord hdec hwf, settle_nil hc]
  · obtain ⟨hsame, hdma, hhist, hspin, hram⟩ := settle_spec s
    exact ⟨hsame, hdma, hhist, hspin, settle_nil, hram⟩

end Sys2Proof.Proofs
end

section
/-! PROOFS. Where the command engine is refused (41_command_engine.md R125 to R127, R191). -/

namespace Sys2Proof.Machine

variable {α : Type} {s t w : State} {f : Family} {q : FamilyParams} {r : Refusal}

/-- A host operation whose first part is a fault. -/
theorem runHost_bind_fault {x : Op α} {k : α → Op HostResult} {q : Fault} (h : x s = .error (.fault q) w) :
    runHost (x >>= k) s = .fault q := by
  simp only [runHost, bind_error h]

/-! ### The SD port -/

/-- Why a state has no SD port to drive: no bracket (R125), or the bracket of a family whose cartridge does the framing
(R126, R191). -/
inductive NoPort (s : State) : Refusal → Prop where
  | native (h : s.busOwner = .native) : NoPort s .busNotOwned
  | offloaded (f : Family) (h : s.busOwner = .cart f) (ho : (s.cfg.fam f).offload = true) : NoPort s .engineOffloaded

/-- Whether there is a port is a matter of the bus and the parameters alone. -/
theorem NoPort.of_same {F : Foot} (h : NoPort s r) (hs : SameOn F s t) (hF : F.bus = false) : NoPort t r := by
  cases h with
  | native h => exact .native ((hs.owner hF).trans h)
  | offloaded f h ho => exact .offloaded f ((hs.owner hF).trans h) (by rw [hs.cfg]; exact ho)

theorem sdPort_refused (h : NoPort s r) : sdPort s = .error (.refuse r) s := by
  cases h with
  | native h =>
    have hfam : busFamily s = .error (.refuse .busNotOwned) s := by simp only [busFamily, get'_bind, h, refuse_run]
    exact bind_error (bind_error hfam)
  | offloaded f h ho => simp only [sdPort, bind_ok (famParams_run h), ho, if_true, refuse_run]

theorem sdPort_bitLevel (hb : s.busOwner = .cart f) (ho : (s.cfg.fam f).offload = false) :
    sdPort s = .ok (s.cfg.fam f) s := by
  simp only [sdPort, bind_ok (famParams_run hb), ho, Bool.false_eq_true, if_false, pure_run]

/-! ### Operations that begin at the port -/

theorem datPort_refused (h : NoPort s r) : datPort s = .error (.refuse r) s := bind_error (sdPort_refused h)

theorem executeCommand_refused (h : NoPort s r) (app : Bool) (idx : BitVec 6) (arg : Word) :
    executeCommand app idx arg s = .error (.refuse r) s := bind_error (sdPort_refused h)

theorem sendAppCommand_refused (h : NoPort s r) (idx : BitVec 6) (rca : Half) (arg : Word) :
    sendAppCommand idx rca arg s = .error (.refuse r) s := bind_error (sdPort_refused h)

theorem widenBus_refused (h : NoPort s r) : widenBus s = .error (.refuse r) s := by
  rw [widenBus, get'_bind]
  exact bind_error (sendAppCommand_refused h _ _ _)

/-- A frame that opens a stream may take a free value before it gets to the port (log 17). -/
theorem openAtArg_refused (h : NoPort s r) (m : AccessMode) (idx : BitVec 6) (arg : Word) :
    ∃ t, openAtArg m idx arg s = .error (.refuse r) t := by
  cases hl : lbaOfArg s.sess.highCapacity arg with
  | some lba =>
    simp only [openAtArg, get'_bind, hl]
    exact ⟨s, bind_error (executeCommand_refused h _ _ _)⟩
  | none =>
    have hfree : NoPort { s with freeCount := s.freeCount + 1 } r :=
      h.of_same (touches_freshWord.of_ok (freshWord_run s)) rfl
    simp only [openAtArg, get'_bind, hl, freshWord_bind]
    exact ⟨_, bind_error (executeCommand_refused hfree _ _ _)⟩

/-- `execute_command` as an instruction, with the `app` input the state holds (R115). -/
theorem exec_executeCommand (idx : BitVec 6) (arg : Word) (s : State) :
    exec (.executeCommand idx arg) s = runHost (do executeCommand s.app idx arg; pure .ok) s := rfl

/-- Every instruction of the command engine begins at the port. -/
theorem exec_of_noPort {i : Instr} (hi : usesEngine i = true) (h : NoPort s r) : exec i s = .refused r := by
  have frame : ∀ app idx arg, executeCommand app idx arg s = .error (.refuse r) s := executeCommand_refused h
  have stream : ∀ m idx arg, runHost (do openAtArg m idx arg; pure .ok) s = .refused r := fun m idx arg => by
    obtain ⟨t, ht⟩ := openAtArg_refused h m idx arg
    exact runHost_bind_refuse ht
  cases i with
  | cmd0 => exact runHost_bind_refuse (frame false 0 0)
  | cmd8 => exact runHost_bind_refuse (bind_error (sdPort_refused h))
  | cmd55 rca crc => exact runHost_bind_refuse (frame false 55 (rcaArg rca))
  | acmd41 arg crc => exact runHost_bind_refuse (bind_error (sdPort_refused h))
  | cmd2 => exact runHost_bind_refuse (frame false 2 0)
  | cmd3 => exact runHost_bind_refuse (bind_error (sdPort_refused h))
  | cmd7 rca crc => exact runHost_bind_refuse (bind_error (datPort_refused h))
  | acmd6 => exact runHost_bind_refuse (widenBus_refused h)
  | cmd6 => exact runHost_bind_refuse (bind_error (datPort_refused h))
  | cmd58 => exact runHost_bind_refuse (bind_error (frame false 58 0))
  | cmd12 => exact runHost_bind_refuse (bind_error (datPort_refused h))
  | cmd18 arg crc => exact stream .blockRead 18 arg
  | cmd25 arg crc => exact stream .blockWrite 25 arg
  | executeCommand idx arg => exact (exec_executeCommand idx arg s).trans (runHost_bind_refuse (frame s.app idx arg))
  | sendAppCommand idx rca arg => exact runHost_bind_refuse (sendAppCommand_refused h idx rca arg)
  | _ => cases hi

/-! ### A port of its own -/

/-- A command without a row in the response-kind table (R91, R127). -/
theorem executeCommand_noKind {app : Bool} {idx : BitVec 6} {arg : Word} (hp : sdPort s = .ok q s)
    (hk : respKind idx app = none) : executeCommand app idx arg s = .error (.refuse .noResponseKind) s := by
  simp only [executeCommand, bind_ok hp, get'_bind, hk, refuse_run]

/-- The answer to CMD3 has no address byte on the SPI flavour (U11). -/
theorem publishRca_spi (hp : sdPort s = .ok q s) (hw : q.wire = .spi) :
    publishRca s = .error (.fault .respBeyondLength) s := by
  have hlen : decide (respLength q.wire 3 .sdr6 ≤ 2) = true := by rw [hw]; rfl
  rw [publishRca, bind_ok hp, bind_error]
  exact (onlyIf_true hlen _).trans (faultWith_run _ s)

end Sys2Proof.Machine

namespace Sys2Proof.Proofs

open Sys2Proof.Machine

/-- Settles O22: the engine begins at the port (`exec_of_noPort`), and on a port of its own the commands that end on the
data lanes stop at the lanes (`datPort_spi`), before their frame. -/
theorem engineRefusals : Obligations.EngineRefusals := by
  refine ⟨fun i s hi hb => exec_of_noPort hi (.native hb), fun i s f hi hb ho => exec_of_noPort hi (.offloaded f hb ho),
    fun s f idx arg hb ho hk => ?_, fun s f hb ho hw => ⟨fun i hi => ?_, ?_⟩⟩
  · rw [exec_executeCommand]
    exact runHost_bind_refuse (executeCommand_noKind (sdPort_bitLevel hb ho) hk)
  · have lanes := datPort_spi hb ho hw
    rcases hi with rfl | rfl | ⟨rca, crc, rfl⟩
    · exact runHost_bind_refuse (bind_error lanes)
    · exact runHost_bind_refuse (bind_error lanes)
    · exact runHost_bind_refuse (bind_error lanes)
  · exact runHost_bind_fault (publishRca_spi (sdPort_bitLevel hb ho) hw)

end Sys2Proof.Proofs
end

section
/-! PROOFS. What no step undoes (00_scope.md R10, R47, 10_state.md R20 to R40), in every environment. `Lasts` says it of one
operation, one lemma for each; the probe and the bring-up, inside which two of its facts do not hold, are closed on their
own. -/

namespace Sys2Proof.Machine

variable {α β : Type} {s t u : State}

/-! ### The relation -/

/-- The facts that hold between two operations and not at every point inside one: which of them a run may leave broken. -/
structure Loose where
  /-- The bit length of the port is whole bytes (R118). -/
  bytes : Bool := false
  /-- The bring-up machine is at rest (log 39). -/
  rest : Bool := false
  /-- The identity is as it was, and the probe machine with it (R20, R40). -/
  ident : Bool := false

/-- What a run keeps, but for the facts it may leave broken. -/
structure Lasting (w : Loose) (s t : State) : Prop where
  cfg : t.cfg = s.cfg
  capture : s.nativeSaved = true → t.nativeSaved = true ∧ t.nativeCfg = s.nativeCfg
  drives : ∀ d, s.bound.getD d false = true → t.bound.getD d false = true
  table : t.bound.length = s.bound.length ∧ t.noinit.length = s.noinit.length
  hist : Extends s t
  bytes : w.bytes = false → s.sess.bitlen = .b8 → t.sess.bitlen = .b8
  rest : w.rest = false → s.seq.bringUp = .rest → t.seq.bringUp = .rest
  ident : w.ident = false → t.probed = s.probed ∧ t.cartType = s.cartType ∧ t.seq.probe = s.seq.probe

theorem Extends.refl (s : State) : Extends s s := ⟨[], rfl⟩

theorem Extends.of_eq (h : t.hist = s.hist) : Extends s t := ⟨[], h⟩

theorem Extends.trans (h : Extends s t) (k : Extends t u) : Extends s u := by
  obtain ⟨l, hl⟩ := h
  obtain ⟨m, hm⟩ := k
  exact ⟨m ++ l, by rw [hm, hl, List.append_assoc]⟩

theorem order_lasting (w : Loose) : Order (Lasting w) where
  refl s := ⟨rfl, fun h => ⟨h, rfl⟩, fun _ h => h, ⟨rfl, rfl⟩, .refl s, fun _ h => h, fun _ h => h, fun _ => ⟨rfl, rfl, rfl⟩⟩
  trans h k :=
    { cfg := k.cfg.trans h.cfg
      capture := fun hs => ⟨(k.capture (h.capture hs).1).1, (k.capture (h.capture hs).1).2.trans (h.capture hs).2⟩
      drives := fun d hd => k.drives d (h.drives d hd)
      table := ⟨k.table.1.trans h.table.1, k.table.2.trans h.table.2⟩
      hist := h.hist.trans k.hist
      bytes := fun hw hs => k.bytes hw (h.bytes hw hs)
      rest := fun hw hs => k.rest hw (h.rest hw hs)
      ident := fun hw => by
        obtain ⟨p, c, q⟩ := h.ident hw
        obtain ⟨p', c', q'⟩ := k.ident hw
        exact ⟨p'.trans p, c'.trans c, q'.trans q⟩ }

variable {w : Loose}

/-- All that may change without touching what the relation speaks of, the history apart. -/
def Foot.passing : Foot :=
  { log := true, engine := true, lanes := true, sess := true, ram := true, buffer := true, swap := true, init := true }

theorem Lasting.of_same (h : SameOn .passing s t) (hh : Extends s t) : Lasting w s t := by
  obtain ⟨-, hncfg, hsaved, -⟩ := h.bus rfl
  obtain ⟨hp, hc⟩ := h.ident rfl
  obtain ⟨hbound, hnoinit⟩ := h.disk rfl
  have hseq := h.seq rfl
  exact ⟨h.cfg, fun hs => ⟨hsaved.trans hs, hncfg⟩, fun d hd => by rw [hbound]; exact hd, ⟨by rw [hbound], by rw [hnoinit]⟩,
    hh, fun _ hb => (h.line rfl).trans hb, fun _ hr => by rw [hseq]; exact hr, fun _ => ⟨hp, hc, by rw [hseq]⟩⟩

/-- A write of the session (R26). -/
theorem lasting_session {ss : Session} (h : w.bytes = false → s.sess.bitlen = .b8 → ss.bitlen = .b8) :
    Lasting w s { s with sess := ss } :=
  ⟨rfl, fun hs => ⟨hs, rfl⟩, fun _ hd => hd, ⟨rfl, rfl⟩, .refl s, h, fun _ hr => hr, fun _ => ⟨rfl, rfl, rfl⟩⟩

/-- A mark of the bring-up machine (R40). -/
theorem lasting_mark {q : BringUpSeq} (h : w.rest = false → q = .rest) :
    Lasting w s { s with seq := { s.seq with bringUp := q } } :=
  ⟨rfl, fun hs => ⟨hs, rfl⟩, fun _ hd => hd, ⟨rfl, rfl⟩, .refl s, fun _ hb => hb, fun hw _ => h hw,
    fun _ => ⟨rfl, rfl, rfl⟩⟩

/-- A run that keeps the bit length is one that need not. -/
theorem Lasting.loosenBytes (h : Lasting w s t) : Lasting { w with bytes := true } s t := { h with bytes := nofun }

/-! ### Operations -/

/-- Every run of the operation keeps it, however it ends. -/
def Lasts (w : Loose) (x : Op α) : Prop := Every (Lasting w) x

namespace Lasts

theorem pure (a : α) : Lasts w (Pure.pure a : Op α) := Every.pure (order_lasting w) a
theorem get' (g : State → α) : Lasts w (Machine.get' g) := Every.get' (order_lasting w) g
theorem raise (c : Cause) : Lasts w (Machine.raise c : Op α) := Every.raise (order_lasting w) c
theorem refuse (r : Refusal) : Lasts w (Machine.refuse r : Op α) := Every.refuse r
theorem faultWith (f : Fault) : Lasts w (Machine.faultWith f : Op α) := Every.faultWith f

theorem bind {x : Op α} {k : α → Op β} (hx : Lasts w x) (hk : ∀ a, Lasts w (k a)) : Lasts w (x >>= k) :=
  Every.bind (order_lasting w) hx hk

theorem attempt {x : Op α} (hx : Lasts w x) : Lasts w (Machine.attempt x) := Every.attempt hx
theorem bestEffort {x : Op α} (hx : Lasts w x) : Lasts w (Machine.bestEffort x) := Every.bestEffort (order_lasting w) hx
theorem rethrow (r : Except Cause α) : Lasts w (Machine.rethrow r) := Every.rethrow (order_lasting w) r

theorem ite {c : Prop} [Decidable c] {x y : Op α} (hx : Lasts w x) (hy : Lasts w y) : Lasts w (if c then x else y) :=
  Every.ite hx hy

theorem onlyIf {c : Bool} {x : Op Unit} (hx : Lasts w x) : Lasts w (Machine.onlyIf c x) := Every.onlyIf (order_lasting w) hx
theorem many {one : Op α} (h : Lasts w one) (n : Nat) : Lasts w (Machine.many one n) := Every.many (order_lasting w) h n

theorem forEach {act : α → Op Unit} (h : ∀ a, Lasts w (act a)) (l : List α) : Lasts w (Machine.forEach act l) :=
  Every.forEach (order_lasting w) h l

/-- An operation that records nothing and writes nothing the relation speaks of. -/
theorem silent {F : Foot} {x : Op α} (h : Touches F x) (hF : F.le { Foot.passing with log := false } = true) :
    Lasts w x :=
  .of_touches (h.mono hF) fun _ _ hs => .of_same (hs.mono rfl) (.of_eq (hs.log rfl).2.2.1)

/-- An operation of such a footprint whose values all leave the history as it was. -/
theorem unrecorded {F : Foot} {x : Op α} (h : Touches F x) (hF : F.le .passing = true)
    (hx : ∀ s, ∃ a t, x s = .ok a t ∧ t.hist = s.hist) : Lasts w x := by
  refine .intro (fun s a t hr => .of_same ((h.of_ok hr).mono hF) ?_) fun s c t hr => ?_
  · obtain ⟨b, v, hv, hh⟩ := hx s
    rw [hv] at hr
    cases hr
    exact .of_eq hh
  · obtain ⟨b, v, hv, -⟩ := hx s
    rw [hv] at hr
    cases hr

theorem update {g : State → State} (h : ∀ s, SameOn .passing s (g s)) (hh : ∀ s, Extends s (g s)) :
    Lasts w (Machine.upd g) := .upd fun s => .of_same (h s) (hh s)

theorem spinOn {poll : Op (Option α)} (h : Lasts w poll) (n : Nat) : Lasts w (Machine.spinOn poll n) :=
  Every.spinOn (order_lasting w)
    (fun s n => .of_same (t := { s with spinCount := n }) (by constructor <;> simp [Foot.passing]) (.refl s)) h n

end Lasts

/-! ### Putting a broken fact right -/

/-- What is run first ends in no cause; the relations of the two parts make up the one of the whole. -/
theorem Every.after {R S T : State → State → Prop} {x : Op α} {k : α → Op β} (hc : NoCause x)
    (hcomp : ∀ s t u, R s t → S t u → T s u) (hx : Every R x) (hk : ∀ a, Every S (k a)) : Every T (x >>= k) := by
  refine .intro (fun s b u h => ?_) fun s c u h => ?_
  · obtain ⟨a, t, h1, h2⟩ := bind_eq_ok.mp h
    exact hcomp _ _ _ (hx.of_ok h1) ((hk a).of_ok h2)
  · rcases bind_eq_error.mp h with h1 | ⟨a, t, h1, h2⟩
    · exact absurd h1 (hc _ _ _)
    · exact hcomp _ _ _ (hx.of_ok h1) ((hk a).of_cause h2)

/-- What is run last takes nothing back of what the first part did. -/
theorem Every.andThen {R S : State → State → Prop} {x : Op α} {k : α → Op β} (hcomp : ∀ s t u, R s t → S t u → R s u)
    (hx : Every R x) (hk : ∀ a, Every S (k a)) : Every R (x >>= k) := by
  refine .intro (fun s b u h => ?_) fun s c u h => ?_
  · obtain ⟨a, t, h1, h2⟩ := bind_eq_ok.mp h
    exact hcomp _ _ _ (hx.of_ok h1) ((hk a).of_ok h2)
  · rcases bind_eq_error.mp h with h1 | ⟨a, t, h1, h2⟩
    · exact hx.of_cause h1
    · exact hcomp _ _ _ (hx.of_ok h1) ((hk a).of_cause h2)

/-! ### Answers, events, waits and the bracket -/

theorem lasts_emit (e : Event) : Lasts w (emit e) :=
  .update (fun s => by constructor <;> simp [Foot.passing]) fun _ => ⟨[e], rfl⟩

theorem lasts_draw (get : Env → List α) (put : List α → Env → Env) (free : Nat → α) : Lasts w (draw get put free) :=
  .unrecorded (touches_draw get put free) rfl fun s => by
    unfold draw
    split <;> exact ⟨_, _, rfl, rfl⟩

theorem lasts_freshWord : Lasts w freshWord := .unrecorded touches_freshWord rfl fun _ => ⟨_, _, rfl, rfl⟩

theorem lasts_pollPi (y : PiStatus → Option Unit) : Lasts w (do let p ← nextPi; pure (y p)) :=
  .bind (lasts_draw _ _ _) fun _ => .pure _

theorem lasts_piWaitIdle (f : Family) : Lasts w (piWaitIdle f) := .bind (.get' _) fun _ => .spinOn (lasts_pollPi _) _

theorem lasts_setSession {g : Session → Session} (h : ∀ ss : Session, ss.bitlen = .b8 → (g ss).bitlen = .b8) :
    Lasts w (setSession g) := .upd fun s => lasting_session fun _ hb => h s.sess hb

/-- A change of the bus that undoes no capture. -/
theorem lasts_bus {g : State → State} (h : ∀ s, SameOn .bracket s (g s)) (hh : ∀ s, Extends s (g s))
    (hcap : ∀ s, s.nativeSaved = true → (g s).nativeSaved = true ∧ (g s).nativeCfg = s.nativeCfg) : Lasts w (upd g) :=
  .upd fun s => by
    obtain ⟨hp, hc⟩ := (h s).ident rfl
    obtain ⟨hbound, hnoinit⟩ := (h s).disk rfl
    have hseq := (h s).seq rfl
    exact ⟨(h s).cfg, hcap s, fun d hd => by rw [hbound]; exact hd, ⟨by rw [hbound], by rw [hnoinit]⟩, hh s,
      fun _ hb => ((h s).line rfl).trans hb, fun _ hr => by rw [hseq]; exact hr, fun _ => ⟨hp, hc, by rw [hseq]⟩⟩

theorem lasts_applyConfig (c : BusConfig) : Lasts w (applyConfig c) :=
  lasts_bus (fun s => by constructor <;> simp [Foot.bracket, Foot.access]) (fun _ => ⟨_, rfl⟩) fun _ h => ⟨h, rfl⟩

theorem lasts_owner (b : BusOwner) : Lasts w (upd fun s => { s with busOwner := b }) :=
  lasts_bus (fun s => by constructor <;> simp [Foot.bracket]) .refl fun _ h => ⟨h, rfl⟩

/-- The capture is made once (R23, R237). -/
theorem lasts_captureNative : Lasts w captureNative := by
  refine lasts_bus (fun s => ?_) (fun s => ?_) fun s hs => ?_
  · split <;> constructor <;> simp [Foot.bracket]
  · split <;> exact .refl _
  · rw [if_pos hs]; exact ⟨hs, rfl⟩

theorem lasts_acquireFor (f : Family) : Lasts w (acquireFor f) := by
  refine .bind (.get' _) fun o => ?_
  cases o with
  | cart => exact .refuse _
  | native =>
    exact .bind (lasts_piWaitIdle f).bestEffort fun _ => .bind lasts_captureNative fun _ => .bind (.get' _) fun _ =>
      .bind (lasts_applyConfig _) fun _ => lasts_owner _

theorem lasts_acquireBus : Lasts w acquireBus := by
  refine .bind (.get' _) fun c => ?_
  cases c with
  | none => exact .refuse _
  | some f => exact lasts_acquireFor f

theorem lasts_releaseBus : Lasts w releaseBus := by
  refine .bind (.get' _) fun o => ?_
  cases o with
  | native => exact .refuse _
  | cart f =>
    exact .bind (.get' _) fun _ => .ite (.bind (lasts_piWaitIdle f).bestEffort fun _ => .bind (.get' _) fun _ =>
      .bind (lasts_applyConfig _) fun _ => lasts_owner _) (.faultWith _)

theorem lasts_bracketed {clean : Op Unit} {body : Op α} (hc : Lasts w clean) (hb : Lasts w body) :
    Lasts w (bracketed clean body) := by
  refine .bind lasts_acquireBus fun _ => .bind hb.attempt fun r => ?_
  cases r with
  | ok a => exact .bind lasts_releaseBus fun _ => .pure _
  | error c => exact .bind hc fun _ => .bind lasts_releaseBus fun _ => .raise _

/-! ### Registers, cartridge commands, the byte swap -/

theorem lasts_famParams : Lasts w famParams := .silent (F := {}) touches_famParams rfl
theorem lasts_sdPort : Lasts w sdPort := .silent (F := {}) touches_sdPort rfl
theorem lasts_datPort : Lasts w datPort := .silent (F := {}) touches_datPort rfl
theorem lasts_regAt (r : Reg) : Lasts w (regAt r) := .silent (F := {}) (touches_regAt r) rfl
theorem lasts_respByte (i : Nat) : Lasts w (respByte i) := .silent (F := {}) (touches_respByte i) rfl

theorem lasts_nextRegValue (r : Reg) : Lasts w (nextRegValue r) := by
  have word : Lasts w nextWord := lasts_draw _ _ _
  cases r with
  | status => exact (lasts_draw _ _ _ : Lasts w nextStatus)
  | id => exact (lasts_draw _ _ _ : Lasts w nextIdent)
  | _ => exact word

theorem lasts_regRead (r : Reg) : Lasts w (regRead r) :=
  .bind (lasts_regAt r) fun _ => .bind (lasts_nextRegValue r) fun _ => .bind (lasts_emit _) fun _ => .pure _

theorem lasts_regWrite (r : Reg) (v : Word) : Lasts w (regWrite r v) :=
  .bind (lasts_regAt r) fun _ => .bind (lasts_emit _) fun _ => .bind lasts_famParams fun _ => .spinOn (lasts_pollPi _) _

theorem lasts_waitStatus (n : Nat) : Lasts w (spinOn pollStatus n) :=
  .spinOn (.bind lasts_famParams fun _ => .bind (lasts_regRead _) fun _ => .pure _) n

theorem lasts_placeInBuffer (offset : Nat) (bs : List Byte) : Lasts w (placeInBuffer offset bs) :=
  .silent (touches_placeInBuffer offset bs) rfl

theorem lasts_cartSideEffect (code : Byte) (a0 a1 : Word) : Lasts w (cartSideEffect code a0 a1) :=
  .bind lasts_famParams fun _ => .onlyIf (.bind (.many (lasts_draw _ _ _) _) fun _ => lasts_placeInBuffer _ _)

theorem lasts_cartIssue (code : Byte) (a0 a1 : Word) : Lasts w (cartIssue code a0 a1) :=
  .bind lasts_famParams fun _ => .bind (lasts_waitStatus _) fun _ => .bind (lasts_regWrite _ _) fun _ =>
    .bind (lasts_regWrite _ _) fun _ => lasts_regWrite _ _

theorem lasts_cartFinish : Lasts w cartFinish :=
  .bind lasts_famParams fun _ => .bind (lasts_waitStatus _) fun _ => .ite (.raise _)
    (.bind (lasts_regRead _) fun _ => .bind (lasts_regRead _) fun _ => .pure _)

theorem lasts_recordCommand (code : Byte) (a0 a1 : Word) : Lasts w (recordCommand code a0 a1) := fun s => lasts_emit _ s

theorem lasts_cartHandshake (code : Byte) (a0 a1 : Word) : Lasts w (cartHandshake code a0 a1) :=
  .bind (lasts_cartIssue _ _ _) fun _ => .bind (lasts_recordCommand _ _ _) fun _ =>
    .bind (lasts_cartSideEffect _ _ _) fun _ => lasts_cartFinish

theorem lasts_swapDrive (on : Bool) : Lasts w (swapDrive on) := by
  have mirror : Lasts w (upd fun s => { s with byteswap := on }) :=
    .update (fun s => by constructor <;> simp [Foot.passing]) .refl
  exact .bind lasts_famParams fun _ => .ite (.bind (lasts_cartHandshake _ _ _) fun _ => mirror)
    (.bind (lasts_regWrite _ _) fun _ => mirror)

theorem lasts_swapAround {wrap : Bool} {body : Op α} (h : Lasts w body) : Lasts w (swapAround wrap body) := by
  refine .ite (.bind (.get' _) fun _ => .bind (lasts_swapDrive _) fun _ => .bind h.attempt fun r => ?_) h
  cases r with
  | ok a => exact .bind (lasts_swapDrive _) fun _ => .pure _
  | error c => exact .bind (lasts_swapDrive _).bestEffort fun _ => .raise _

theorem lasts_cartCommand (code : Byte) (a0 a1 : Word) : Lasts w (cartCommand code a0 a1) :=
  .bind lasts_famParams fun _ => lasts_swapAround (lasts_cartHandshake _ _ _)

theorem lasts_swapTransfer {body : Op α} (h : Lasts w body) : Lasts w (swapTransfer body) :=
  .bind lasts_famParams fun _ => lasts_swapAround h

/-! ### The SD port: the bit length is whole bytes again after each access (R118) -/

theorem lasts_portConfig : Lasts w portConfig :=
  .bind lasts_sdPort fun _ => .bind (.get' _) fun _ => lasts_regWrite _ _

theorem lasts_reconfigure {g : Session → Session} (h : ∀ ss : Session, ss.bitlen = .b8 → (g ss).bitlen = .b8) :
    Lasts w (reconfigure g) :=
  .bind lasts_sdPort fun _ => .bind (.get' _) fun _ => .bind (lasts_regWrite _ _) fun _ => lasts_setSession h

/-- A switch of the bit length keeps all but the bit length. -/
theorem lasts_switch (len : BitLen) : Lasts { w with bytes := true } (setBitLen len) := by
  have set : Lasts { w with bytes := true } (setSession fun ss => { ss with bitlen := len }) :=
    .upd fun _ => lasting_session nofun
  exact .bind lasts_sdPort fun _ => .bind (.get' _) fun _ => .bind set fun _ => .onlyIf lasts_portConfig

theorem lasts_wholeBytes : Lasts w (setBitLen .b8) :=
  .bind lasts_sdPort fun _ => .bind (.get' _) fun _ => .bind (lasts_setSession fun _ _ => rfl) fun _ =>
    .onlyIf lasts_portConfig

/-- The port is at whole bytes, and nothing else of what a run keeps was lost on the way there. -/
structure WholeBytes (w : Loose) (s t : State) : Prop where
  other : Lasting { w with bytes := true } s t
  bytes : w.bytes = false → t.sess.bitlen = .b8

theorem WholeBytes.lasting (h : WholeBytes w s t) : Lasting w s t := { h.other with bytes := fun hw _ => h.bytes hw }

theorem WholeBytes.andThen (h : WholeBytes w s t) (k : Lasting w t u) : WholeBytes w s u :=
  ⟨(order_lasting _).trans h.other k.loosenBytes, fun hw => k.bytes hw (h.bytes hw)⟩

theorem WholeBytes.after (h : Lasting { w with bytes := true } s t) (k : WholeBytes w t u) : WholeBytes w s u :=
  ⟨(order_lasting _).trans h k.other, k.bytes⟩

theorem noCause_sdPort : NoCause sdPort := .bind noCause_famParams fun _ => .ite (.refuse _) (.pure _)

/-- However a switch to whole bytes ends, the bit length is whole bytes. -/
theorem wholeBytes_setBitLen : Every (WholeBytes w) (setBitLen .b8) := by
  have set : Every (WholeBytes w) (setSession fun ss => { ss with bitlen := .b8 }) :=
    .upd fun _ => ⟨lasting_session nofun, fun _ => rfl⟩
  exact .after (R := Lasting { w with bytes := true }) noCause_sdPort (fun _ _ _ => .after) lasts_sdPort fun _ =>
    .after (R := Lasting { w with bytes := true }) (.get' _) (fun _ _ _ => .after) (Lasts.get' _) fun _ =>
      .andThen (S := Lasting w) (fun _ _ _ => .andThen) set fun _ => Lasts.onlyIf lasts_portConfig

theorem lasts_atSingleBit {body : Op α} (h : Lasts w body) : Lasts w (atSingleBit body) := by
  have inner : Lasts { w with bytes := true } (setBitLen .b1 >>= fun _ => body) :=
    .bind (lasts_switch _) fun _ => h.mono fun _ _ => Lasting.loosenBytes
  have back : Every (WholeBytes w) (bestEffort (setBitLen .b8)) :=
    .andThen (S := Lasting w) (fun _ _ _ => .andThen) wholeBytes_setBitLen.attempt fun _ => Lasts.pure _
  refine .after (R := Lasting { w with bytes := true }) (S := WholeBytes w) (.attempt _)
    (fun _ _ _ hs hk => (WholeBytes.after hs hk).lasting) inner.attempt fun r => ?_
  cases r with
  | ok a => exact .andThen (S := Lasting w) (fun _ _ _ => .andThen) wholeBytes_setBitLen fun _ => Lasts.pure _
  | error c => exact .andThen (S := Lasting w) (fun _ _ _ => .andThen) back fun _ => Lasts.raise _

theorem lasts_portWrite (r : Reg) (v : Word) : Lasts w (portWrite r v) :=
  .bind lasts_sdPort fun _ => .onlyIf (.bind (lasts_regWrite _ _) fun _ => .bind (lasts_waitStatus _) fun _ => .pure _)

theorem lasts_portRead (r : Reg) (mask v : Word) : Lasts w (portRead r mask v) :=
  .bind lasts_sdPort fun _ => .onlyIf (.bind (lasts_regAt r) fun _ => .bind lasts_freshWord fun _ => lasts_emit _)

theorem lasts_cmdTx (b : Byte) : Lasts w (cmdTx b) :=
  .bind lasts_sdPort fun _ => .bind (lasts_emit _) fun _ => lasts_portWrite _ _

theorem lasts_cmdRxBit : Lasts w cmdRxBit :=
  .bind lasts_sdPort fun _ => .bind (lasts_portWrite _ _) fun _ => .bind (lasts_draw _ _ _) fun _ =>
    .bind (lasts_portRead _ _ _) fun _ => .bind (lasts_emit _) fun _ => .pure _

theorem lasts_cmdRx : Lasts w cmdRx :=
  .bind lasts_sdPort fun _ => .bind (lasts_portWrite _ _) fun _ => .bind (.many (lasts_draw _ _ _) 8) fun _ =>
    .bind (lasts_portRead _ _ _) fun _ => .bind (lasts_emit _) fun _ => .pure _

theorem lasts_laneClock : Lasts w laneClock :=
  .bind (lasts_portWrite _ _) fun _ => .bind (lasts_draw _ _ _) fun _ => .bind (lasts_portRead _ _ _) fun _ => .pure _

theorem lasts_datRxBit : Lasts w datRxBit :=
  .bind lasts_datPort fun _ => .bind (.ite (lasts_atSingleBit lasts_laneClock) lasts_laneClock) fun _ =>
    .bind (lasts_emit _) fun _ => .pure _

theorem lasts_clockByte (width : BusWidth) : Lasts w (clockByte width) := by
  have nibble : Lasts w nextNibble := lasts_draw _ _ _
  cases width with
  | w1 => exact .bind (.many nibble 8) fun _ => .pure _
  | w4 => exact .bind nibble fun _ => .bind nibble fun _ => .pure _

theorem lasts_datBytes (q : FamilyParams) (width : BusWidth) (n : Nat) : Lasts w (datBytes q width n) :=
  .ite (.bind (lasts_regWrite _ _) fun _ => .bind (lasts_regWrite _ _) fun _ => .bind (lasts_waitStatus _) fun _ =>
    .many (lasts_clockByte _) _)
    (.many (.bind (lasts_portWrite _ _) fun _ => .bind (lasts_clockByte _) fun _ => .bind (lasts_portRead _ _ _) fun _ =>
      .pure _) _)

theorem lasts_datRx (n : Nat) : Lasts w (datRx n) :=
  .bind lasts_datPort fun _ => .bind (.get' _) fun _ => .bind (lasts_datBytes _ _ _) fun _ =>
    .bind (lasts_emit _) fun _ => .pure _

theorem lasts_datTx (d : TxData) : Lasts w (datTx d) := by
  refine .bind lasts_datPort fun _ => .bind (lasts_emit _) fun _ => .onlyIf ?_
  cases d with
  | bytes bs => exact .forEach (fun _ => lasts_portWrite _ _) _
  | nibble n => exact lasts_atSingleBit (lasts_portWrite _ _)

theorem lasts_resetPort : Lasts w resetPort :=
  .bind lasts_famParams fun _ => .bind (.get' _) fun _ => .ite (lasts_cartCommand _ _ _).bestEffort
    (.bind (.get' _) fun _ => .bind (lasts_regWrite _ _).bestEffort fun _ => (lasts_regWrite _ _).bestEffort)

/-! ### Sector moves -/

theorem lasts_cacheMayAct : Lasts w cacheMayAct :=
  .unrecorded touches_cacheMayAct rfl fun s => by
    obtain ⟨t, hrun, -, -, hhist, -⟩ := cacheMayAct_spec s
    exact ⟨(), t, hrun, hhist⟩

theorem lasts_memory {g : State → State} (h : ∀ s, SameOn { Foot.passing with log := false } s (g s)) : Lasts w (upd g) :=
  .silent (.upd h) rfl

theorem lasts_opCacheWbInv (a n : Nat) : Lasts w (opCacheWbInv a n) :=
  .bind lasts_cacheMayAct fun _ => .bind (lasts_emit _) fun _ => lasts_memory fun s => (sameOn_cacheWbInv s a n).mono rfl

theorem lasts_opCacheWb (a n : Nat) : Lasts w (opCacheWb a n) :=
  .bind lasts_cacheMayAct fun _ => .bind (lasts_emit _) fun _ => lasts_memory fun s => (sameOn_cacheWb s a n).mono rfl

theorem lasts_dmaFromCart (ram : Nat) : Lasts w (dmaFromCart ram) := by
  refine .bind (.silent (F := {}) touches_busFamily rfl) fun f => .bind lasts_famParams fun _ =>
    .bind (lasts_piWaitIdle f) fun _ => .bind (lasts_memory fun s => ?_) fun _ => .bind (lasts_emit _) fun _ =>
    .bind lasts_cacheMayAct fun _ => .bind (lasts_piWaitIdle f).attempt fun r => ?_
  · constructor <;> simp [Foot.passing]
  cases r with
  | ok => exact lasts_memory fun s => by constructor <;> simp [Foot.passing]
  | error c =>
    exact .bind (.many (lasts_draw _ _ _) _) fun _ =>
      .bind (lasts_memory fun s => by constructor <;> simp [Foot.passing]) fun _ => .raise _

theorem lasts_dmaToCart (ram : Nat) : Lasts w (dmaToCart ram) := by
  refine .bind (.silent (F := {}) touches_busFamily rfl) fun f => .bind lasts_famParams fun _ =>
    .bind (lasts_piWaitIdle f) fun _ => .bind (lasts_memory fun s => ?_) fun _ => .bind (lasts_emit _) fun _ =>
    .bind lasts_cacheMayAct fun _ => .bind (lasts_piWaitIdle f).attempt fun r => ?_
  · constructor <;> simp [Foot.passing]
  cases r with
  | ok => exact lasts_memory fun s => by constructor <;> simp [Foot.passing]
  | error c =>
    exact .bind (.many (lasts_draw _ _ _) _) fun _ =>
      .bind (lasts_memory fun s => by constructor <;> simp [Foot.passing]) fun _ => .raise _

theorem lasts_copyMoves (n src dst : Nat) : Lasts w (copyMoves n src dst) := by
  induction n generalizing src dst with
  | zero => exact .pure _
  | succ n ih =>
    exact .bind lasts_cacheMayAct fun _ => .bind (lasts_memory fun s => (sameOn_move8 s src dst).mono rfl) fun _ => ih _ _

theorem lasts_moveToRam (dest : Nat) : Lasts w (moveToRam dest) :=
  .bind (.bind (.get' _) fun _ => .ite (.bind (lasts_opCacheWbInv _ _) fun _ => lasts_dmaFromCart _)
    (.bind (lasts_opCacheWbInv _ _) fun _ => .bind (lasts_dmaFromCart _) fun _ => lasts_copyMoves _ _ _)) fun _ =>
    lasts_cacheMayAct

theorem lasts_moveFromRam (src : Nat) : Lasts w (moveFromRam src) :=
  .bind (.bind (.get' _) fun _ => .ite (.bind (lasts_opCacheWb _ _) fun _ => lasts_dmaToCart _)
    (.bind (lasts_copyMoves _ _ _) fun _ => .bind (lasts_opCacheWb _ _) fun _ => lasts_dmaToCart _)) fun _ =>
    lasts_cacheMayAct

/-! ### The command engine and the data blocks -/

theorem lasts_collectResponse (spinMax len : Nat) : Lasts w (collectResponse spinMax len) := by
  refine .bind (lasts_atSingleBit ?_) fun _ => .bind (.many lasts_cmdRx _) fun _ => .pure _
  exact .bind (.spinOn (.bind lasts_cmdRxBit fun _ => .pure _) _) fun _ => .bind (.many lasts_cmdRxBit 7) fun _ => .pure _

/-- A write of the engine's own registers. -/
theorem lasts_engine {g : State → State} (h : ∀ s, SameOn { engine := true } s (g s)) : Lasts w (upd g) :=
  .silent (.upd h) rfl

theorem lasts_crc7 (c : BitVec 7) : Lasts w (upd fun s => { s with crc7Acc := c }) :=
  lasts_engine fun s => by constructor <;> simp

theorem lasts_transmitFrame (leadin : Nat) (idx : BitVec 6) (arg : Word) : Lasts w (transmitFrame leadin idx arg) :=
  .bind (lasts_engine fun s => by constructor <;> simp) fun _ => .bind lasts_wholeBytes fun _ =>
    .bind (.forEach lasts_cmdTx _) fun _ => .bind (.forEach lasts_cmdTx _) fun _ =>
    lasts_engine fun s => by constructor <;> simp

theorem lasts_receiveResponse (p : Params) (q : FamilyParams) (kind : SdKind) (idx : BitVec 6) :
    Lasts w (receiveResponse p q kind idx) := by
  have store : ∀ l, Lasts w (upd fun s => { s with resp := l }) := fun l =>
    lasts_engine fun s => by constructor <;> simp
  have trail : Lasts w (trailClocks p.nTrail) := .forEach lasts_cmdTx _
  unfold receiveResponse
  refine .ite (.bind (store _) fun _ => trail) (.bind (lasts_collectResponse _ _).attempt fun r => ?_)
  cases r with
  | error c => exact .bind (store _) fun _ => .raise _
  | ok bytes =>
    refine .bind (store _) fun _ => .bind trail fun _ => ?_
    cases responseFault p q.wire kind idx bytes with
    | some c => exact .raise _
    | none => exact .pure _

theorem lasts_executeCommand (app : Bool) (idx : BitVec 6) (arg : Word) : Lasts w (executeCommand app idx arg) := by
  refine .bind lasts_sdPort fun _ => .bind (.get' _) fun _ => ?_
  cases respKind idx app with
  | none => exact .refuse _
  | some kind => exact .bind (lasts_transmitFrame _ _ _) fun _ => lasts_receiveResponse _ _ _ _

theorem lasts_sendAppCommand (idx : BitVec 6) (rca : Half) (arg : Word) : Lasts w (sendAppCommand idx rca arg) :=
  .bind lasts_sdPort fun _ => .bind (.onlyIf (.refuse _)) fun _ => .bind (lasts_executeCommand _ _ _) fun _ =>
    lasts_executeCommand _ _ _

theorem lasts_waitNotBusy : Lasts w waitNotBusy :=
  .bind lasts_datPort fun _ => .spinOn (.bind lasts_datRxBit fun _ => .pure _) _

/-- A write of the checksum registers. -/
theorem lasts_lanes (c : Lanes) : Lasts w (upd fun s => { s with crc16Acc := c }) :=
  .silent (F := { lanes := true }) (.upd fun s => by constructor <;> simp) rfl

theorem lasts_receiveBlock (n : Nat) : Lasts w (receiveBlock n) :=
  .bind (.bind lasts_datPort fun _ => .spinOn (.bind lasts_datRxBit fun _ => .pure _) _) fun _ =>
    .bind (lasts_datRx _) fun _ => .bind (.get' _) fun _ => .bind (lasts_datRx _) fun _ => .bind lasts_datRxBit fun _ =>
    .bind (.get' _) fun _ => .bind (.onlyIf (.bind (lasts_lanes _) fun _ => .ite (.pure _) (.raise _))) fun _ =>
    .onlyIf (lasts_placeInBuffer _ _)

theorem lasts_readToken : Lasts w readToken :=
  .bind lasts_datRxBit fun _ => .bind lasts_datRxBit fun _ => .bind lasts_datRxBit fun _ => .bind lasts_datRxBit fun _ =>
    .bind lasts_datRxBit fun _ => .pure _

theorem lasts_sendBlock (d : List Byte) : Lasts w (sendBlock d) := by
  refine .bind (.get' _) fun _ => .bind (lasts_lanes _) fun _ => .bind (lasts_datTx _) fun _ => .bind (lasts_datTx _) fun _ =>
    .bind (lasts_datTx _) fun _ => .bind (lasts_datTx _) fun _ => .bind lasts_readToken fun tok => ?_
  cases tokenFault tok with
  | some c => exact .raise _
  | none => exact lasts_waitNotBusy

/-! ### SD commands -/

theorem lasts_checkEcho : Lasts w checkEcho := .silent (F := {}) touches_checkEcho rfl

theorem lasts_voltageCheck : Lasts w voltageCheck := by
  refine .bind lasts_sdPort fun q => .bind (lasts_executeCommand _ _ _).attempt fun r => ?_
  split
  · exact .pure _
  · exact .pure _
  · exact .raise _
  · cases q.wire with
    | sdNative => exact lasts_checkEcho
    | spi => exact .bind (lasts_respByte _) fun _ => .ite (.pure _) lasts_checkEcho

/-- A write of the session that leaves the bit length alone. -/
theorem lasts_session {g : Session → Session} (h : ∀ ss : Session, (g ss).bitlen = ss.bitlen) : Lasts w (setSession g) :=
  lasts_setSession fun ss hb => (h ss).trans hb

theorem lasts_testReady (wire : Wire) : Lasts w (testReady wire) := by
  cases wire with
  | sdNative =>
    exact .bind (lasts_respByte _) fun _ => .ite (.bind (lasts_session fun _ => rfl) fun _ => .pure _) (.pure _)
  | spi => exact .bind (lasts_respByte _) fun _ => .pure _

theorem lasts_pollLoop {mark : Nat → Op Unit} (hm : ∀ k, Lasts w (mark k)) (arg : Word) (wire : Wire) (fuel k : Nat) :
    Lasts w (pollLoop mark arg wire fuel k) := by
  induction fuel generalizing k with
  | zero => exact .raise _
  | succ n ih =>
    exact .bind (hm k) fun _ => .bind (lasts_sendAppCommand _ _ _) fun _ => .bind (lasts_testReady _) fun _ =>
      .ite (.pure _) (ih _)

theorem lasts_pollReady {mark : Nat → Op Unit} (hm : ∀ k, Lasts w (mark k)) (arg : Word) : Lasts w (pollReady mark arg) :=
  .bind lasts_sdPort fun _ => .bind (.get' _) fun _ => lasts_pollLoop hm _ _ _ _

theorem lasts_publishRca : Lasts w publishRca :=
  .bind lasts_sdPort fun _ => .bind (.onlyIf (.faultWith _)) fun _ => .bind (lasts_executeCommand _ _ _) fun _ =>
    .bind (lasts_respByte _) fun _ => .bind (lasts_respByte _) fun _ => lasts_session fun _ => rfl

theorem lasts_selectCard (rca : Half) : Lasts w (selectCard rca) :=
  .bind lasts_datPort fun _ => .bind (lasts_executeCommand _ _ _) fun _ => lasts_waitNotBusy

theorem lasts_widenBus : Lasts w widenBus :=
  .bind (.get' _) fun _ => .bind (lasts_sendAppCommand _ _ _) fun _ => lasts_reconfigure fun _ hb => hb

theorem lasts_highSpeed : Lasts w highSpeed :=
  .bind lasts_datPort fun _ => .bind (lasts_executeCommand _ _ _) fun _ => .bind (lasts_receiveBlock _) fun _ =>
    lasts_reconfigure fun _ hb => hb

theorem lasts_readOcr : Lasts w readOcr :=
  .bind (lasts_executeCommand _ _ _) fun _ => .bind (lasts_respByte _) fun _ => lasts_session fun _ => rfl

theorem lasts_stopStream : Lasts w stopStream :=
  .bind lasts_datPort fun _ => .bind (lasts_executeCommand _ _ _).attempt fun _ => .bind (lasts_session fun _ => rfl) fun _ =>
    .bind (.rethrow _) fun _ => lasts_waitNotBusy

theorem lasts_openStream (m : AccessMode) (idx : BitVec 6) (arg last : Word) : Lasts w (openStream m idx arg last) :=
  .bind (lasts_executeCommand _ _ _) fun _ => lasts_session fun _ => rfl

theorem lasts_openAt (m : AccessMode) (idx : BitVec 6) (lba : Word) : Lasts w (openAt m idx lba) := by
  refine .bind (.get' _) fun hc => ?_
  cases blockArg hc lba with
  | none => exact .refuse _
  | some arg => exact lasts_openStream _ _ _ _

theorem lasts_openAtArg (m : AccessMode) (idx : BitVec 6) (arg : Word) : Lasts w (openAtArg m idx arg) := by
  refine .bind (.get' _) fun hc => ?_
  cases lbaOfArg hc arg with
  | some lba => exact lasts_openStream _ _ _ _
  | none => exact .bind lasts_freshWord fun _ => lasts_openStream _ _ _ _

/-! ### The bring-up: its machine is at rest again behind it (log 39) -/

section BringUp

variable (hw : w.rest = true)
include hw

theorem lasts_mark (q : BringUpSeq) : Lasts w (setBringUpSeq q) :=
  .upd fun _ => lasting_mark fun h => Bool.noConfusion (hw.symm.trans h)

theorem lasts_nativeBringUp : Lasts w nativeBringUp := by
  have mark := lasts_mark hw
  refine .bind (.get' _) fun _ => .bind (mark _) fun _ => .bind (lasts_executeCommand _ _ _) fun _ =>
    .bind (mark _) fun _ => .bind lasts_voltageCheck fun _ => .bind (lasts_pollReady (fun _ => mark _) _) fun _ =>
    .bind (mark _) fun _ => .bind (lasts_executeCommand _ _ _) fun _ => .bind (mark _) fun _ =>
    .bind lasts_publishRca fun _ => .bind (.onlyIf ?_) fun _ => .bind (mark _) fun _ => .bind lasts_widenBus fun _ =>
    .bind (mark _) fun _ => lasts_highSpeed
  exact .bind (mark _) fun _ => .bind (.get' _) fun _ => lasts_selectCard _

theorem lasts_spiBringUp : Lasts w spiBringUp := by
  have mark := lasts_mark hw
  exact .bind (.get' _) fun _ => .bind (mark _) fun _ => .bind (lasts_executeCommand _ _ _) fun _ =>
    .bind (lasts_respByte _) fun _ => .ite (.bind (mark _) fun _ => .bind lasts_voltageCheck fun _ =>
      .bind (lasts_pollReady (fun _ => mark _) _) fun _ => .bind (mark _) fun _ => lasts_readOcr) (.raise _)

theorem lasts_familyBringUp (q : FamilyParams) : Lasts w (familyBringUp q) := by
  refine .ite (.bind (.get' _) fun _ => .bind (lasts_cartCommand _ _ _) fun _ => .pure _)
    (.bind lasts_portConfig fun _ => ?_)
  cases q.wire with
  | sdNative => exact lasts_nativeBringUp hw
  | spi => exact lasts_spiBringUp hw

theorem lasts_bringUp : Lasts w bringUp :=
  .bind (lasts_setSession fun _ _ => rfl) fun _ => .bind lasts_famParams fun _ => .bind (lasts_familyBringUp hw _) fun _ =>
    .bind (lasts_session fun _ => rfl) fun _ => lasts_mark hw _

theorem lasts_failBringUp : Lasts w failBringUp :=
  .bind (lasts_mark hw _) fun _ => .bind lasts_resetPort fun _ => lasts_session fun _ => rfl

end BringUp

/-- However a bring-up ends, its machine is at rest behind it (R40; log 39). -/
theorem lasts_runBringUp : Lasts w runBringUp := by
  have loose : Lasts { w with rest := true } runBringUp :=
    .bind (lasts_bracketed (lasts_failBringUp rfl) (lasts_bringUp rfl)).attempt fun r =>
      .bind (lasts_mark rfl _) fun _ => .rethrow r
  refine .intro (fun s a t h => ?_) fun s c t h => ?_
  · obtain ⟨-, -, hrest⟩ := wp_ok (runBringUp_ends s) h
    exact { loose.of_ok h with rest := fun _ _ => hrest }
  · obtain ⟨-, -, hrest⟩ := wp_error (runBringUp_ends s) h
    exact { loose.of_cause h with rest := fun _ _ => hrest }

/-! ### The card sequencer -/

theorem lasts_ensureMode (m : AccessMode) (lba : Word) : Lasts w (ensureMode m lba) :=
  .bind (.get' _) fun _ => .onlyIf (.bind (.onlyIf lasts_stopStream) fun _ => lasts_openAt _ _ _)

theorem lasts_abortTransfer : Lasts w abortTransfer :=
  .bind lasts_famParams fun _ => .bind (.get' _) fun _ => .bind (.onlyIf lasts_stopStream.bestEffort) fun _ =>
    .bind (lasts_session fun _ => rfl) fun _ => lasts_resetPort

theorem lasts_readLoop (n dest : Nat) : Lasts w (readLoop n dest) := by
  induction n generalizing dest with
  | zero => exact .pure _
  | succ n ih =>
    exact .bind (lasts_receiveBlock _) fun _ => .bind (lasts_moveToRam _) fun _ => .bind (lasts_session fun _ => rfl) fun _ =>
      ih _

theorem lasts_writeLoop (n src : Nat) : Lasts w (writeLoop n src) := by
  induction n generalizing src with
  | zero => exact .pure _
  | succ n ih =>
    exact .bind (lasts_moveFromRam _) fun _ => .bind (.get' _) fun _ => .bind (lasts_sendBlock _) fun _ =>
      .bind (lasts_session fun _ => rfl) fun _ => ih _

theorem lasts_offloadReadLoop (buf : Word) (n : Nat) (lba : Word) (dest : Nat) :
    Lasts w (offloadReadLoop buf n lba dest) := by
  induction n generalizing lba dest with
  | zero => exact .pure _
  | succ n ih =>
    exact .bind (lasts_cartCommand _ _ _) fun _ => .bind (lasts_cartCommand _ _ _) fun _ =>
      .bind (lasts_moveToRam _) fun _ => ih _ _

theorem lasts_offloadWriteLoop (buf : Word) (n : Nat) (lba : Word) (src : Nat) :
    Lasts w (offloadWriteLoop buf n lba src) := by
  induction n generalizing lba src with
  | zero => exact .pure _
  | succ n ih =>
    exact .bind (lasts_moveFromRam _) fun _ => .bind (lasts_cartCommand _ _ _) fun _ =>
      .bind (lasts_cartCommand _ _ _) fun _ => ih _ _

theorem lasts_transferBody (p : Params) (f : Family) (buf lba count : Word) {offloaded : Word → Op Unit}
    {native : Op Unit} (ho : ∀ b, Lasts w (offloaded b)) (hn : Lasts w native) :
    Lasts w (transferBody p f buf lba count offloaded native) := by
  unfold transferBody
  cases operandRefusal p buf lba count with
  | some r => exact .refuse _
  | none =>
    refine .ite (lasts_bracketed lasts_abortTransfer (lasts_swapTransfer (ho _))) (.ite (.refuse _) (.bind (.get' _) fun hc => ?_))
    cases blockArg hc lba with
    | none => exact .refuse _
    | some arg => exact lasts_bracketed lasts_abortTransfer hn

theorem lasts_cardStop : Lasts w cardStop :=
  .bind (.get' _) fun _ => .onlyIf (lasts_bracketed (.pure _) lasts_stopStream)

/-! ### The transport contract and the drive table -/

theorem lasts_matchFamily (f : Family) : Lasts w (matchFamily f) :=
  .bind (.get' _) fun _ => .bind (.forEach (fun _ => lasts_regWrite _ _) _) fun _ => .bind (lasts_regRead _) fun _ =>
    .pure _

theorem lasts_setInitDone (v : Bool) : Lasts w (setInitDone v) := .silent (touches_setInitDone v) rfl

theorem lasts_putDown : Lasts w putDown := .bind (lasts_session fun _ => rfl) fun _ => lasts_setInitDone _

theorem lasts_initBody (f : Family) : Lasts w (initBody f) :=
  .bind lasts_putDown fun _ => .bind (lasts_matchFamily f) fun _ => .ite
    (.bind lasts_famParams fun _ => .bind (.onlyIf lasts_resetPort) fun _ =>
      .bind (.forEach (fun _ => .bind (lasts_cartCommand _ _ _) fun _ => .pure _) _) fun _ => lasts_setInitDone _)
    (.raise _)

theorem lasts_exitBody (f : Family) : Lasts w (exitBody f) :=
  .bind (.get' _) fun _ => .bind (.onlyIf (lasts_swapDrive _)) fun _ => .bind (.get' _) fun _ =>
    .bind (lasts_regWrite _ _) fun _ => lasts_putDown

theorem lasts_setByteswap (on : Bool) : Lasts w (setByteswap on) :=
  lasts_bracketed (.pure _) (.bind lasts_famParams fun _ => .ite
    (.bind (lasts_swapDrive _).bestEffort fun _ => .silent (F := { swap := true })
      (.upd fun s => by constructor <;> simp) rfl) (.refuse _))

/-- A change of the drive table that unbinds no drive and keeps its two columns as long (R38, R39). -/
theorem lasting_table {b n : List Bool} (hb : ∀ d, s.bound.getD d false = true → b.getD d false = true)
    (hl : b.length = s.bound.length ∧ n.length = s.noinit.length) : Lasting w s { s with bound := b, noinit := n } :=
  ⟨rfl, fun hs => ⟨hs, rfl⟩, hb, hl, .refl s, fun _ h => h, fun _ h => h, fun _ => ⟨rfl, rfl, rfl⟩⟩

theorem lasts_setNoinit (drive : Byte) (v : Bool) : Lasts w (setNoinit drive v) :=
  .upd fun _ => lasting_table (fun _ h => h) ⟨rfl, List.length_set⟩

/-- Marking a drive bound unmarks none. -/
theorem getD_set_true {l : List Bool} (i : Nat) {d : Nat} (h : l.getD d false = true) : (l.set i true).getD d false = true := by
  simp only [List.getD, List.getElem?_set] at h ⊢
  split
  · split
    · rfl
    · simp_all
  · exact h

theorem lasts_bindOp (drive : Byte) : Lasts w (bindOp drive) :=
  .bind (.get' _) fun _ => .ite (.raise _) (.ite (.pure _) (.ite (.raise _) (.ite (.raise _)
    (.upd fun _ => lasting_table (fun _ h => getD_set_true _ h) ⟨List.length_set, List.length_set⟩))))

/-! ### The probe: it decides the identity once -/

/-- What the probe machine says of an identity that is decided (R40, R215). -/
def probeVerdict : Option Family → ProbeSeq
  | some f => .bound f
  | none => .noCart

/-- The probe is over, and its machine says what it found. -/
structure Probed (w : Loose) (s t : State) : Prop where
  other : Lasting { w with ident := true } s t
  probed : t.probed = true
  verdict : t.seq.probe = probeVerdict t.cartType

theorem Probed.after (h : Lasting { w with ident := true } s t) (k : Probed w t u) : Probed w s u :=
  ⟨(order_lasting _).trans h k.other, k.probed, k.verdict⟩

theorem noCause_acquireFor (f : Family) : NoCause (acquireFor f) := by
  refine .bind (.get' _) fun o => ?_
  cases o with
  | native =>
    exact .bind (.bind (.attempt _) fun _ => .pure _) fun _ => .bind (.upd _) fun _ => .bind (.get' _) fun _ =>
      .bind (.upd _) fun _ => .upd _
  | cart => exact .refuse _

/-- A family that does not answer is no match: one bracket of the probe ends in no cause (R210). -/
theorem noCause_probeOne (f : Family) : NoCause (probeOne f) := by
  refine .bind (noCause_acquireFor f) fun _ => .bind (.attempt _) fun r => .bind noCause_releaseBus fun _ => ?_
  cases r <;> exact .pure _

theorem lasts_probeOne (f : Family) : Lasts w (probeOne f) := by
  refine .bind (lasts_acquireFor f) fun _ => .bind (lasts_matchFamily f).attempt fun r => .bind lasts_releaseBus fun _ => ?_
  cases r <;> exact .pure _

/-- The probe writes down what it found. -/
theorem probed_found (c : Option Family) : Every (Probed w) (do
    upd fun s => { s with cartType := c, probed := true }
    setProbeSeq (probeVerdict c)
    pure c) := fun s =>
  ⟨⟨rfl, fun hs => ⟨hs, rfl⟩, fun _ hd => hd, ⟨rfl, rfl⟩, .refl s, fun _ hb => hb, fun _ hr => hr, nofun⟩, rfl, rfl⟩

theorem probed_probeLoop (l : List Family) (i : Nat) : Every (Probed w) (probeLoop l i) := by
  induction l generalizing i with
  | nil => exact probed_found none
  | cons f l ih =>
    have mark : Lasts { w with ident := true } (setProbeSeq (.probing i)) := .upd fun s =>
      ⟨rfl, fun hs => ⟨hs, rfl⟩, fun _ hd => hd, ⟨rfl, rfl⟩, .refl s, fun _ hb => hb, fun _ hr => hr, nofun⟩
    exact .after (R := Lasting { w with ident := true }) (.upd _) (fun _ _ _ => .after) mark fun _ =>
      .after (R := Lasting { w with ident := true }) (noCause_probeOne f) (fun _ _ _ => .after) (lasts_probeOne f) fun _ =>
        .ite (probed_found (some f)) (ih _)

/-! ### What no step undoes -/

/-- What a whole host operation keeps. -/
structure Fixed (s t : State) : Prop where
  cfg : t.cfg = s.cfg
  ident : s.probed = true → t.probed = true ∧ t.cartType = s.cartType ∧ t.seq.probe = s.seq.probe
  capture : s.nativeSaved = true → t.nativeSaved = true ∧ t.nativeCfg = s.nativeCfg
  drives : ∀ d, s.bound.getD d false = true → t.bound.getD d false = true
  bytes : s.sess.bitlen = .b8 → t.sess.bitlen = .b8
  table : TableInv s → TableInv t
  seq : SeqInv s → SeqInv t
  hist : Extends s t

theorem order_fixed : Order Fixed where
  refl s := ⟨rfl, fun h => ⟨h, rfl, rfl⟩, fun h => ⟨h, rfl⟩, fun _ h => h, fun h => h, fun h => h, fun h => h, .refl s⟩
  trans h k :=
    { cfg := k.cfg.trans h.cfg
      ident := fun hs => by
        obtain ⟨p, c, q⟩ := h.ident hs
        obtain ⟨p', c', q'⟩ := k.ident p
        exact ⟨p', c'.trans c, q'.trans q⟩
      capture := fun hs => ⟨(k.capture (h.capture hs).1).1, (k.capture (h.capture hs).1).2.trans (h.capture hs).2⟩
      drives := fun d hd => k.drives d (h.drives d hd)
      bytes := fun hs => k.bytes (h.bytes hs)
      table := fun hs => k.table (h.table hs)
      seq := fun hs => k.seq (h.seq hs)
      hist := h.hist.trans k.hist }

theorem TableInv.of_lasting (hs : TableInv s) (h : Lasting w s t) : TableInv t :=
  ⟨by rw [h.table.1, h.cfg]; exact hs.bound, by rw [h.table.2, h.cfg]; exact hs.noinit⟩

/-- An operation that leaves nothing broken. -/
theorem Lasting.fixed (h : Lasting {} s t) : Fixed s t := by
  obtain ⟨hp, hc, hq⟩ := h.ident rfl
  refine ⟨h.cfg, fun hs => ⟨hp.trans hs, hc, hq⟩, h.capture, h.drives, h.bytes rfl, fun hs => hs.of_lasting h, fun hs => ?_,
    h.hist⟩
  exact ⟨fun g => hq.trans (hs.unprobed (hp.symm.trans g)),
    fun f g k => hq.trans (hs.bound f (hp.symm.trans g) (hc.symm.trans k)),
    fun g k => hq.trans (hs.noCart (hp.symm.trans g) (hc.symm.trans k)), h.rest rfl hs.bringUp⟩

/-- A probe that was not over before. -/
theorem Probed.fixed (h : Probed {} s t) (hs : s.probed = false) : Fixed s t := by
  refine ⟨h.other.cfg, fun k => Bool.noConfusion (hs.symm.trans k), h.other.capture, h.other.drives, h.other.bytes rfl,
    fun k => k.of_lasting h.other, fun k => ?_, h.other.hist⟩
  refine ⟨fun g => Bool.noConfusion (h.probed.symm.trans g), fun f _ hc => ?_, fun _ hc => ?_, h.other.rest rfl k.bringUp⟩
  · rw [h.verdict, hc]; rfl
  · rw [h.verdict, hc]; rfl

theorem Lasts.fixed {x : Op α} (h : Lasts {} x) : Every Fixed x := Every.mono h fun _ _ => Lasting.fixed

/-- A probe keeps an identity that is decided, and decides it once (R20, R210). -/
theorem fixed_probeOp : Every Fixed probeOp := by
  have known : ∀ {s : State}, s.probed = true → probeOp s = .ok s.cartType s := fun hp => by
    simp only [probeOp, get'_bind, hp, if_true, get'_run]
  have fresh : ∀ {s : State}, s.probed = false → probeOp s = probeLoop s.cfg.probeOrder 0 s := fun hp => by
    simp only [probeOp, get'_bind, hp, Bool.false_eq_true, if_false]
  refine .intro (fun s a t h => ?_) fun s c t h => ?_
  · cases hp : s.probed with
    | true => rw [known hp] at h; cases h; exact order_fixed.refl s
    | false => rw [fresh hp] at h; exact ((probed_probeLoop _ _).of_ok h).fixed hp
  · cases hp : s.probed with
    | true => rw [known hp] at h; cases h
    | false => rw [fresh hp] at h; exact ((probed_probeLoop _ _).of_cause h).fixed hp

/-! ### Dispatched operations and the adapter -/

theorem fixed_dispatch {handler : Family → Op α} (h : ∀ f, Lasts {} (handler f)) : Every Fixed (dispatch handler) := by
  refine .bind order_fixed fixed_probeOp fun c => ?_
  cases c with
  | none => exact .raise order_fixed _
  | some f => exact (h f).fixed

theorem fixed_cardInit : Every Fixed cardInit :=
  fixed_dispatch fun _ => .bind (.get' _) fun _ => .ite lasts_runBringUp (.bind (lasts_session fun _ => rfl) fun _ => .raise _)

theorem fixed_transfer (buf lba count : Word) {offloaded : Word → Op Unit} {native : Op Unit}
    (ho : ∀ b, Lasts {} (offloaded b)) (hn : Lasts {} native) : Every Fixed (transfer buf lba count offloaded native) :=
  fixed_dispatch fun f => .bind (.get' _) fun p => .bind (.get' _) fun _ =>
    .ite (lasts_transferBody p f buf lba count ho hn) (.raise _)

theorem fixed_cardRead (dest lba count : Word) : Every Fixed (cardRead dest lba count) :=
  fixed_transfer _ _ _ (fun _ => lasts_offloadReadLoop _ _ _ _)
    (.bind (lasts_ensureMode _ _) fun _ => lasts_swapTransfer (lasts_readLoop _ _))

theorem fixed_cardWrite (src lba count : Word) : Every Fixed (cardWrite src lba count) :=
  fixed_transfer _ _ _ (fun _ => lasts_offloadWriteLoop _ _ _ _)
    (.bind (lasts_ensureMode _ _) fun _ => lasts_swapTransfer (lasts_writeLoop _ _))

theorem fixed_initOp : Every Fixed initOp :=
  fixed_dispatch fun f => .bind (lasts_bracketed (.pure _) (lasts_initBody f)) fun _ => .get' _

theorem fixed_exitOp : Every Fixed exitOp :=
  fixed_dispatch fun f => .bind (.get' _) fun _ => .bind (.onlyIf lasts_cardStop.bestEffort) fun _ =>
    lasts_bracketed lasts_putDown (lasts_exitBody f)

theorem fixed_diskInitialize (drive : Byte) : Every Fixed (diskInitialize drive) := by
  have o := order_fixed
  have flag : ∀ v b, Every Fixed (do setNoinit drive v; pure b : Op Byte) := fun v b =>
    .bind o (lasts_setNoinit drive v).fixed fun _ => .pure o _
  have again : Every Fixed bringUpAgain := fixed_dispatch fun _ => lasts_runBringUp
  refine .bind o (.get' o _) fun _ => .ite (.pure o _) (.ite (.pure o _) (.ite (flag _ _) (.bind o again.attempt fun r => ?_)))
  cases r <;> exact flag _ _

theorem fixed_diskTransfer (drive : Byte) (lba count : Word) {op : Op Unit} (h : Every Fixed op) :
    Every Fixed (diskTransfer drive lba count op) := by
  have o := order_fixed
  refine .bind o (.get' o _) fun s => ?_
  cases diskCheck s drive lba count with
  | some r => exact .pure o _
  | none =>
    refine .bind o h.attempt fun r => ?_
    split
    · exact .pure o _
    · exact .bind o (lasts_setNoinit drive true).fixed fun _ => .pure o _
    · exact .pure o _

/-! ### Every step -/

/-- The result of a step and the queue of requests are none of it. -/
theorem fixed_result (s : State) (r : HostResult) : Fixed s { s with result := r } :=
  Lasting.fixed ⟨rfl, fun h => ⟨h, rfl⟩, fun _ h => h, ⟨rfl, rfl⟩, .refl s, fun _ h => h, fun _ h => h,
    fun _ => ⟨rfl, rfl, rfl⟩⟩

theorem fixed_port (s : State) (l : List Request) : Fixed s { s with port := l } :=
  Lasting.fixed ⟨rfl, fun h => ⟨h, rfl⟩, fun _ h => h, ⟨rfl, rfl⟩, .refl s, fun _ h => h, fun _ h => h,
    fun _ => ⟨rfl, rfl, rfl⟩⟩

theorem fixed_settle (s : State) : Fixed s (settle s) := by
  obtain ⟨hsame, -, hhist, -⟩ := settle_spec s
  exact Lasting.fixed (.of_same (hsame.mono rfl) (.of_eq hhist))

theorem runHost_fixed {x : Op HostResult} (h : Every Fixed x) (hx : runHost x s = .next t) : Fixed s t := by
  obtain ⟨u, hu, ht⟩ := runHost_every h hx
  rw [ht]
  exact order_fixed.trans hu (fixed_result u t.result)

/-- A host operation that ends with a fixed result, or with one of its value. -/
theorem runHost_fixed_then {x : Op α} {y : α → HostResult} (h : Every Fixed x)
    (hx : runHost (do let a ← x; pure (y a)) s = .next t) : Fixed s t :=
  runHost_fixed (.bind order_fixed h fun _ => .pure order_fixed _) hx

theorem exec_fixed {i : Instr} (h : exec i s = .next t) : Fixed s t := by
  have command : ∀ {app idx arg}, runHost (do executeCommand app idx arg; pure .ok) s = .next t → Fixed s t := fun h =>
    runHost_fixed_then (lasts_executeCommand _ _ _).fixed h
  have cart : ∀ {code a0 a1}, runHost (cartOperation code a0 a1) s = .next t → Fixed s t := fun h =>
    runHost_fixed_then (lasts_cartCommand _ _ _).fixed h
  cases i with
  | cmd0 => exact command h
  | cmd8 => exact runHost_fixed_then lasts_voltageCheck.fixed h
  | cmd55 rca crc => exact command h
  | acmd41 arg crc => exact runHost_fixed_then (lasts_pollReady (fun _ => .pure _) arg).fixed h
  | cmd2 => exact command h
  | cmd3 => exact runHost_fixed_then lasts_publishRca.fixed h
  | cmd7 rca crc => exact runHost_fixed_then (lasts_selectCard rca).fixed h
  | acmd6 => exact runHost_fixed_then lasts_widenBus.fixed h
  | cmd6 => exact runHost_fixed_then lasts_highSpeed.fixed h
  | cmd58 => exact runHost_fixed_then lasts_readOcr.fixed h
  | cmd12 => exact runHost_fixed_then lasts_stopStream.fixed h
  | cmd18 arg crc => exact runHost_fixed_then (lasts_openAtArg _ _ _).fixed h
  | cmd25 arg crc => exact runHost_fixed_then (lasts_openAtArg _ _ _).fixed h
  | ccSdOp a0 a1 => exact cart h
  | ccSectorSet a0 a1 => exact cart h
  | ccRead a0 a1 => exact cart h
  | ccWrite a0 a1 => exact cart h
  | ccConfigSet a0 a1 => exact cart h
  | ccConfigGet a0 a1 => exact cart h
  | computeCrc7 bytes =>
    simp only [exec, execComputeCrc7] at h
    exact runHost_fixed_then (lasts_crc7 _).fixed h
  | computeCrc16 block =>
    simp only [exec, execComputeCrc16] at h
    exact runHost_fixed_then (lasts_lanes _).fixed h
  | executeCommand idx arg => exact command ((exec_executeCommand idx arg s).symm.trans h)
  | sendAppCommand idx rca arg => exact runHost_fixed_then (lasts_sendAppCommand idx rca arg).fixed h
  | init => exact runHost_fixed_then fixed_initOp h
  | exit => exact runHost_fixed_then fixed_exitOp h
  | cardInit => exact runHost_fixed_then fixed_cardInit h
  | cardRead dest lba count => exact runHost_fixed_then (fixed_cardRead dest lba count) h
  | cardWrite src lba count => exact runHost_fixed_then (fixed_cardWrite src lba count) h
  | cardStop => exact runHost_fixed_then lasts_cardStop.fixed h
  | setByteswap on => exact runHost_fixed_then (lasts_setByteswap on).fixed h
  | probe =>
    refine runHost_fixed (.bind order_fixed fixed_probeOp fun c => ?_) h
    cases c with
    | none => exact .raise order_fixed _
    | some f => exact .pure order_fixed _
  | diskInitialize drive => exact runHost_fixed_then (fixed_diskInitialize drive) h
  | diskStatus drive =>
    simp only [exec, execDiskStatus] at h
    exact runHost_fixed_then (.get' order_fixed _) h
  | diskRead drive buffer lba count =>
    exact runHost_fixed_then (fixed_diskTransfer drive lba count (fixed_cardRead _ _ _)) h
  | diskWrite drive buffer lba count =>
    exact runHost_fixed_then (fixed_diskTransfer drive lba count (fixed_cardWrite _ _ _)) h
  | diskIoctl drive cmd buf =>
    simp only [exec, execDiskIoctl] at h
    exact runHost_fixed_then (.get' order_fixed _) h
  | bind drive => exact runHost_fixed_then (lasts_bindOp drive).fixed h
  | acquire => exact runHost_fixed_then lasts_acquireBus.fixed h
  | release => exact runHost_fixed_then lasts_releaseBus.fixed h

theorem runRequest_fixed {r : Request} (h : runRequest r s = .next t) : Fixed s t := by
  unfold runRequest at h
  split at h
  · cases h
  · split at h
    · exact exec_fixed h
    · cases h

theorem step_fixed (h : step s = .next t) : Fixed s t := by
  unfold step at h
  split at h
  · cases h
    exact fixed_settle s
  · rename_i r rest _
    exact order_fixed.trans (fixed_port s rest) (order_fixed.trans (fixed_settle _) (runRequest_fixed h))

end Sys2Proof.Machine

namespace Sys2Proof.Proofs

open Sys2Proof.Machine

/-- Settles O58: every step keeps all of it (`step_fixed`). -/
theorem stepKeepsWhatIsFixed : Obligations.StepKeepsWhatIsFixed := by
  intro s t h
  obtain ⟨hcfg, hident, hcapture, hdrives, hbytes, htable, hseq, hhist⟩ := step_fixed h
  exact ⟨hcfg, hident, hcapture, hdrives, hbytes, htable, hseq, hhist⟩

end Sys2Proof.Proofs
end

section
/-! PROOFS. The state after reset (10_state.md R46, 70_reset_and_hazards.md R285, R286): each invariant of `Safety.lean`
where it begins, and the parameters in their ranges. -/

namespace Sys2Proof.Machine

variable {s : State}

/-! ### Memory with nothing in it -/

/-- With no line present there is nothing for the cache invariant to hold of. -/
theorem CacheInv.of_empty (h : s.cache = []) : CacheInv s where
  distinct := h ▸ .nil
  aligned := h ▸ List.forall_mem_nil _
  full := h ▸ List.forall_mem_nil _
  clean := h ▸ List.forall_mem_nil _

theorem ram_reset : Ram State.reset where
  pos := Nat.succ_pos 15
  cache := .of_empty rfl
  phys := rfl

/-! ### The other invariants -/

/-- Nothing is captured and no bracket is open: of the bracket invariant only the launch timing is left to hold. -/
theorem busInv_reset : BusInv State.reset where
  saved h := absurd h Bool.false_ne_true
  fresh _ := ⟨rfl, rfl⟩
  native _ h := absurd h Bool.false_ne_true
  cart _ h := nomatch h

theorem tableInv_reset : TableInv State.reset := ⟨rfl, rfl⟩

/-- Before the probe only the two machines at rest are left to hold. -/
theorem seqInv_reset : SeqInv State.reset where
  unprobed _ := rfl
  bound _ h := absurd h Bool.false_ne_true
  noCart h := absurd h Bool.false_ne_true
  bringUp := rfl

/-! ### Parameters -/

/-- The staging buffer begins at a multiple of 16 that leaves room for a sector below the top of RAM, whichever value the
spec leaves open (R59, R248). -/
theorem stageAddr_params : Config.params.stageAddr % 16 = 0 ∧ Config.params.stageAddr % 8 = 0 ∧
    Config.params.stageAddr + sector ≤ 2 ^ 32 := by
  have hline : Config.openStageLine % 0x0FFFFFE1 < 0x0FFFFFE1 := Nat.mod_lt _ (by decide)
  simp only [Config.params, sector]
  omega

/-- The families are in their ranges whatever the spec leaves open, and so is the staging buffer (`stageAddr_params`); the
other ranges are facts about the defaults (R6, R211). -/
theorem inRange_params : Config.params.inRange = true := by
  obtain ⟨hline, height, hroom⟩ := stageAddr_params
  simp only [Params.inRange, Bool.and_eq_true, decide_eq_true_eq, beq_iff_eq, and_assoc]
  refine ⟨inRange_family .ci, inRange_family .edx, inRange_family .edv, inRange_family .sc64, regsFit_family .ci,
    regsFit_family .edx, regsFit_family .edv, regsFit_family .sc64, ?_, ?_, ?_, ?_, ?_, ?_, ?_, ?_, hline, height, hroom⟩
  all_goals decide

end Sys2Proof.Machine

namespace Sys2Proof.Proofs

open Sys2Proof.Machine

/-- Settles O60: the invariants where they begin, the parameters in their ranges (`inRange_params`), and a drive table
that reads alike inside and beyond its one entry; every other value is the one `State.reset` writes down. -/
theorem resetState : Obligations.ResetState := by
  have hbound (d : Nat) : State.reset.bound.getD d false = false := List.getElem?_getD_singleton_default_eq _ d
  have hnoinit (d : Nat) : State.reset.noinit.getD d true = true := List.getElem?_getD_singleton_default_eq _ d
  exact ⟨ram_reset, rfl, busInv_reset, rfl, tableInv_reset, seqInv_reset, inRange_params, rfl, rfl, rfl, rfl, rfl, rfl,
    rfl, rfl, rfl, rfl, rfl, rfl, rfl, rfl, rfl, rfl, rfl, rfl, hbound, hnoinit, rfl⟩

end Sys2Proof.Proofs
end

section
/-! PROOFS. Every step keeps both memories in canonical form and the cache coherent, in every environment (20_memory.md R72 to
R74). What the operations that write a memory keep is in `Laws/Keeps.lean`; here the operations made of them, up to a whole
step. -/

namespace Sys2Proof.Machine

variable {α : Type} {s t : State}

/-! ### Cartridge commands and the byte swap -/

/-- An operation that takes answers and records events alone. -/
theorem access_keeps {x : Op α} (h : Touches .access x) : Every KeepsStored x := keepsStored_touches h rfl rfl

theorem cartHandshake_keeps (code : Byte) (a0 a1 : Word) : Every KeepsStored (cartHandshake code a0 a1) := by
  have o := order_keepsStored
  have wait : ∀ n, Touches .access (spinOn pollStatus n) := touches_spinOn rfl touches_pollStatus
  have issue : Touches .access (cartIssue code a0 a1) :=
    touches_famParams.bind fun _ => (wait _).bind fun _ => (touches_regWrite _ _).bind fun _ =>
      (touches_regWrite _ _).bind fun _ => touches_regWrite _ _
  have side : Every KeepsStored (cartSideEffect code a0 a1) :=
    .bind o (access_keeps touches_famParams) fun _ =>
      .onlyIf o (.bind o (access_keeps (touches_nextSectorByte.many _)) fun _ => placeInBuffer_keeps _ _)
  have finish : Touches .access cartFinish :=
    touches_famParams.bind fun _ => (wait _).bind fun _ => .ite (.raise _)
      ((touches_regRead _).bind fun _ => (touches_regRead _).bind fun _ => .pure _)
  exact .bind o (access_keeps issue) fun _ => .bind o (access_keeps (touches_recordCommand _ _ _)) fun _ =>
    .bind o side fun _ => access_keeps finish

theorem byteswap_keeps (on : Bool) : Every KeepsStored (upd fun s => { s with byteswap := on }) :=
  keepsStored_touches (F := { swap := true }) (.upd fun s => by constructor <;> simp) rfl rfl

theorem swapDrive_keeps (on : Bool) : Every KeepsStored (swapDrive on) := by
  have o := order_keepsStored
  exact .bind o (access_keeps touches_famParams) fun _ =>
    .ite (.bind o (cartHandshake_keeps _ _ _) fun _ => byteswap_keeps on)
      (.bind o (access_keeps (touches_regWrite _ _)) fun _ => byteswap_keeps on)

theorem swapTransfer_keeps {body : Op α} (h : Every KeepsStored body) : Every KeepsStored (swapTransfer body) := by
  have o := order_keepsStored
  refine .bind o (access_keeps touches_famParams) fun _ =>
    .ite (.bind o (.get' o _) fun old => .bind o (swapDrive_keeps true) fun _ => .bind o h.attempt fun r => ?_) h
  cases r with
  | ok a => exact .bind o (swapDrive_keeps old) fun _ => .pure o a
  | error c => exact .bind o ((swapDrive_keeps old).bestEffort o) fun _ => .raise o c

/-! ### The bracket and the port -/

theorem bracketed_keeps {clean : Op Unit} {body : Op α} (hc : Every KeepsStored clean) (hb : Every KeepsStored body) :
    Every KeepsStored (bracketed clean body) := by
  have o := order_keepsStored
  have release : Every KeepsStored releaseBus := keepsStored_touches touches_releaseBus rfl rfl
  refine .bind o (keepsStored_touches touches_acquireBus rfl rfl) fun _ => .bind o hb.attempt fun r => ?_
  cases r with
  | ok a => exact .bind o release fun _ => .pure o a
  | error c => exact .bind o hc fun _ => .bind o release fun _ => .raise o c

theorem setSession_keeps (g : Session → Session) : Every KeepsStored (setSession g) :=
  keepsStored_touches (touches_session g) rfl rfl

theorem resetPort_keeps : Every KeepsStored resetPort := by
  have o := order_keepsStored
  have write : ∀ v, Every KeepsStored (bestEffort (regWrite .sdCfg v)) := fun v =>
    access_keeps (touches_regWrite _ v).bestEffort
  exact .bind o (access_keeps touches_famParams) fun _ => .bind o (.get' o _) fun _ =>
    .ite ((cartCommand_keeps _ _ _).bestEffort o) (.bind o (.get' o _) fun _ => .bind o (write _) fun _ => write _)

/-! ### Bring-up -/

theorem bringUp_keeps : Every KeepsStored bringUp := by
  have o := order_keepsStored
  have offloaded : Every KeepsStored offloadBringUp :=
    .bind o (.get' o _) fun _ => .bind o (cartCommand_keeps _ _ _) fun _ => .pure o _
  exact .bind o (setSession_keeps _) fun _ => .bind o (access_keeps touches_famParams) fun _ =>
    .bind o (.ite offloaded (keepsStored_touches (touches_wireBringUp _) rfl rfl)) fun _ =>
    .bind o (setSession_keeps _) fun _ => keepsStored_touches (touches_setBringUpSeq _) rfl rfl

theorem runBringUp_keeps : Every KeepsStored runBringUp := by
  have o := order_keepsStored
  have mark : ∀ q, Every KeepsStored (setBringUpSeq q) := fun q => keepsStored_touches (touches_setBringUpSeq q) rfl rfl
  have fail : Every KeepsStored failBringUp :=
    .bind o (mark _) fun _ => .bind o resetPort_keeps fun _ => setSession_keeps _
  exact .bind o (bracketed_keeps fail bringUp_keeps).attempt fun r => .bind o (mark _) fun _ => .rethrow o r

/-! ### Transfers -/

theorem receiveBlock_keeps (n : Nat) : Every KeepsStored (receiveBlock n) := by
  have o := order_keepsStored
  have check : ∀ w d t, Touches { lanes := true } (checkTrailer w d t) := fun w d t =>
    .bind (.upd fun s => by constructor <;> simp) fun _ => .ite (.pure _) (.raise _)
  exact .bind o (keepsStored_touches touches_waitDataStart rfl rfl) fun _ =>
    .bind o (access_keeps (touches_datRx _)) fun _ => .bind o (.get' o _) fun _ =>
    .bind o (access_keeps (touches_datRx _)) fun _ => .bind o (keepsStored_touches touches_datRxBit rfl rfl) fun _ =>
    .bind o (.get' o _) fun _ => .bind o (.onlyIf o (keepsStored_touches (check _ _ _) rfl rfl)) fun _ =>
    .onlyIf o (placeInBuffer_keeps _ _)

theorem abortTransfer_keeps : Every KeepsStored abortTransfer := by
  have o := order_keepsStored
  exact .bind o (access_keeps touches_famParams) fun _ => .bind o (.get' o _) fun _ =>
    .bind o (.onlyIf o (keepsStored_touches touches_stopStream.bestEffort rfl rfl)) fun _ =>
    .bind o (setSession_keeps _) fun _ => resetPort_keeps

theorem readLoop_keeps (n dest : Nat) : Every KeepsStored (readLoop n dest) := by
  have o := order_keepsStored
  induction n generalizing dest with
  | zero => exact .pure o ()
  | succ n ih =>
    exact .bind o (receiveBlock_keeps _) fun _ => .bind o (moveToRam_keeps _) fun _ =>
      .bind o (setSession_keeps _) fun _ => ih _

theorem writeLoop_keeps (n src : Nat) : Every KeepsStored (writeLoop n src) := by
  have o := order_keepsStored
  induction n generalizing src with
  | zero => exact .pure o ()
  | succ n ih =>
    exact .bind o (moveFromRam_keeps _) fun _ => .bind o (.get' o _) fun _ =>
      .bind o (keepsStored_touches (touches_sendBlock _) rfl rfl) fun _ => .bind o (setSession_keeps _) fun _ => ih _

theorem offloadReadLoop_keeps (buf : Word) (n : Nat) (lba : Word) (dest : Nat) :
    Every KeepsStored (offloadReadLoop buf n lba dest) := by
  have o := order_keepsStored
  induction n generalizing lba dest with
  | zero => exact .pure o ()
  | succ n ih =>
    exact .bind o (cartCommand_keeps _ _ _) fun _ => .bind o (cartCommand_keeps _ _ _) fun _ =>
      .bind o (moveToRam_keeps _) fun _ => ih _ _

theorem offloadWriteLoop_keeps (buf : Word) (n : Nat) (lba : Word) (src : Nat) :
    Every KeepsStored (offloadWriteLoop buf n lba src) := by
  have o := order_keepsStored
  induction n generalizing lba src with
  | zero => exact .pure o ()
  | succ n ih =>
    exact .bind o (moveFromRam_keeps _) fun _ => .bind o (cartCommand_keeps _ _ _) fun _ =>
      .bind o (cartCommand_keeps _ _ _) fun _ => ih _ _

theorem nativeTransfer_keeps (lba : Word) {body : Op Unit} (h : Every KeepsStored body) :
    Every KeepsStored (nativeTransfer lba body) := by
  have o := order_keepsStored
  refine .bind o (.get' o _) fun hc => ?_
  cases blockArg hc lba with
  | none => exact .refuse _
  | some _ => exact bracketed_keeps abortTransfer_keeps h

theorem transferBody_keeps (p : Params) (f : Family) (buf lba count : Word) {offloaded : Word → Op Unit} {native : Op Unit}
    (ho : ∀ b, Every KeepsStored (offloaded b)) (hn : Every KeepsStored native) :
    Every KeepsStored (transferBody p f buf lba count offloaded native) := by
  unfold transferBody
  cases operandRefusal p buf lba count with
  | some r => exact .refuse r
  | none =>
    exact .ite (bracketed_keeps abortTransfer_keeps (swapTransfer_keeps (ho _)))
      (.ite (.refuse _) (nativeTransfer_keeps lba hn))

/-! ### Dispatched operations and the adapter -/

theorem dispatch_keeps {handler : Family → Op α} (h : ∀ f, Every KeepsStored (handler f)) :
    Every KeepsStored (dispatch handler) := by
  have o := order_keepsStored
  refine .bind o (keepsStored_touches touches_probeOp rfl rfl) fun c => ?_
  cases c with
  | none => exact .raise o _
  | some f => exact h f

theorem transfer_keeps (buf lba count : Word) {offloaded : Word → Op Unit} {native : Op Unit}
    (ho : ∀ b, Every KeepsStored (offloaded b)) (hn : Every KeepsStored native) :
    Every KeepsStored (transfer buf lba count offloaded native) := by
  have o := order_keepsStored
  exact dispatch_keeps fun f => .bind o (.get' o _) fun p => .bind o (.get' o _) fun _ =>
    .ite (transferBody_keeps p f buf lba count ho hn) (.raise o _)

theorem ensureMode_keeps (m : AccessMode) (lba : Word) : Every KeepsStored (ensureMode m lba) :=
  keepsStored_touches (touches_ensureMode m lba) rfl rfl

theorem cardRead_keeps (dest lba count : Word) : Every KeepsStored (cardRead dest lba count) :=
  transfer_keeps _ _ _ (fun _ => offloadReadLoop_keeps _ _ _ _)
    (.bind order_keepsStored (ensureMode_keeps _ _) fun _ => swapTransfer_keeps (readLoop_keeps _ _))

theorem cardWrite_keeps (src lba count : Word) : Every KeepsStored (cardWrite src lba count) :=
  transfer_keeps _ _ _ (fun _ => offloadWriteLoop_keeps _ _ _ _)
    (.bind order_keepsStored (ensureMode_keeps _ _) fun _ => swapTransfer_keeps (writeLoop_keeps _ _))

theorem cardInit_keeps : Every KeepsStored cardInit := by
  have o := order_keepsStored
  exact dispatch_keeps fun _ => .bind o (.get' o _) fun _ =>
    .ite runBringUp_keeps (.bind o (setSession_keeps _) fun _ => .raise o _)

theorem putDown_keeps : Every KeepsStored putDown :=
  .bind order_keepsStored (setSession_keeps _) fun _ => keepsStored_touches (touches_setInitDone _) rfl rfl

theorem initOp_keeps : Every KeepsStored initOp := by
  have o := order_keepsStored
  have body : ∀ f, Every KeepsStored (initBody f) := fun f =>
    .bind o putDown_keeps fun _ => .bind o (access_keeps (touches_matchFamily f)) fun _ => .ite
      (.bind o (access_keeps touches_famParams) fun _ => .bind o (.onlyIf o resetPort_keeps) fun _ =>
        .bind o (.forEach o (fun _ => .bind o (cartCommand_keeps _ _ _) fun _ => .pure o _) _) fun _ =>
        keepsStored_touches (touches_setInitDone _) rfl rfl)
      (.raise o _)
  exact dispatch_keeps fun f => .bind o (bracketed_keeps (.pure o _) (body f)) fun _ => .get' o _

theorem cardStop_keeps : Every KeepsStored cardStop := keepsStored_touches touches_cardStop rfl rfl

theorem exitOp_keeps : Every KeepsStored exitOp := by
  have o := order_keepsStored
  have body : ∀ f, Every KeepsStored (exitBody f) := fun f =>
    .bind o (.get' o _) fun _ => .bind o (.onlyIf o (swapDrive_keeps _)) fun _ => .bind o (.get' o _) fun _ =>
      .bind o (access_keeps (touches_regWrite _ _)) fun _ => putDown_keeps
  exact dispatch_keeps fun f => .bind o (.get' o _) fun _ => .bind o (.onlyIf o (cardStop_keeps.bestEffort o)) fun _ =>
    bracketed_keeps putDown_keeps (body f)

theorem setByteswap_keeps (on : Bool) : Every KeepsStored (setByteswap on) := by
  have o := order_keepsStored
  exact bracketed_keeps (.pure o _) (.bind o (access_keeps touches_famParams) fun _ =>
    .ite (.bind o ((swapDrive_keeps on).bestEffort o) fun _ => byteswap_keeps on) (.refuse _))

theorem setNoinit_keeps (drive : Byte) (v : Bool) : Every KeepsStored (setNoinit drive v) :=
  keepsStored_touches (touches_setNoinit drive v) rfl rfl

theorem diskInitialize_keeps (drive : Byte) : Every KeepsStored (diskInitialize drive) := by
  have o := order_keepsStored
  have flag : ∀ v b, Every KeepsStored (do setNoinit drive v; pure b : Op Byte) := fun v b =>
    .bind o (setNoinit_keeps drive v) fun _ => .pure o b
  have again : Every KeepsStored bringUpAgain := dispatch_keeps fun _ => runBringUp_keeps
  refine .bind o (.get' o _) fun _ => .ite (.pure o _) (.ite (.pure o _) (.ite (flag _ _) (.bind o again.attempt fun r => ?_)))
  cases r with
  | ok _ => exact flag _ _
  | error _ => exact flag _ _

theorem diskTransfer_keeps (drive : Byte) (lba count : Word) {op : Op Unit} (h : Every KeepsStored op) :
    Every KeepsStored (diskTransfer drive lba count op) := by
  have o := order_keepsStored
  refine .bind o (.get' o _) fun s => ?_
  cases diskCheck s drive lba count with
  | some r => exact .pure o r
  | none =>
    refine .bind o h.attempt fun r => ?_
    split
    · exact .pure o _
    · exact .bind o (setNoinit_keeps drive true) fun _ => .pure o _
    · exact .pure o _

/-! ### Every step -/

/-- The queue of requests and the result of a step are no memory. -/
theorem Stored.host (h : Stored s) (l : List Request) (r : HostResult) : Stored { s with port := l, result := r } :=
  ⟨⟨h.ram.pos, ⟨h.ram.cache.distinct, h.ram.cache.aligned, h.ram.cache.full, h.ram.cache.clean⟩, h.ram.phys⟩, h.cb⟩

theorem Stored.settle (h : Stored s) : Stored (settle s) := by
  obtain ⟨hsame, -, -, -, hram⟩ := settle_spec s
  exact ⟨(hram h.ram).1, by rw [hsame.buffer rfl]; exact h.cb⟩

theorem runHost_keepsStored {x : Op HostResult} (h : Every KeepsStored x) (hx : runHost x s = .next t) :
    KeepsStored s t := fun hs => by
  obtain ⟨u, hu, ht⟩ := runHost_every h hx
  rw [ht]
  exact (hu hs).host u.port t.result

/-- A host operation that ends with a fixed result, or with one of its value. -/
theorem runHost_keepsStored_then {x : Op α} {y : α → HostResult} (h : Every KeepsStored x)
    (hx : runHost (do let a ← x; pure (y a)) s = .next t) : KeepsStored s t :=
  runHost_keepsStored (.bind order_keepsStored h fun _ => .pure order_keepsStored _) hx

/-- The same of one with neither memory in its footprint. -/
theorem runHost_outside {F : Foot} {x : Op α} {y : α → HostResult} (h : Touches F x) (hr : F.ram = false)
    (hb : F.buffer = false) (hx : runHost (do let a ← x; pure (y a)) s = .next t) : KeepsStored s t :=
  runHost_keepsStored_then (keepsStored_touches h hr hb) hx

theorem exec_keepsStored {i : Instr} (h : exec i s = .next t) : KeepsStored s t := by
  have o := order_keepsStored
  have command : ∀ {app idx arg}, runHost (do executeCommand app idx arg; pure .ok) s = .next t → KeepsStored s t :=
    runHost_outside (touches_executeCommand _ _ _) rfl rfl
  have cart : ∀ {code a0 a1}, runHost (cartOperation code a0 a1) s = .next t → KeepsStored s t :=
    runHost_keepsStored_then (cartCommand_keeps _ _ _)
  cases i with
  | cmd0 => exact command h
  | cmd8 => exact runHost_outside touches_voltageCheck rfl rfl h
  | cmd55 rca crc => exact command h
  | acmd41 arg crc => exact runHost_outside (touches_pollReady (F := .command) rfl (fun _ => .pure _) arg) rfl rfl h
  | cmd2 => exact command h
  | cmd3 => exact runHost_outside touches_publishRca rfl rfl h
  | cmd7 rca crc => exact runHost_outside (touches_selectCard rca) rfl rfl h
  | acmd6 => exact runHost_outside touches_widenBus rfl rfl h
  | cmd6 => exact runHost_outside touches_highSpeed rfl rfl h
  | cmd58 => exact runHost_outside touches_readOcr rfl rfl h
  | cmd12 => exact runHost_outside touches_stopStream rfl rfl h
  | cmd18 arg crc => exact runHost_outside (touches_openAtArg _ _ _) rfl rfl h
  | cmd25 arg crc => exact runHost_outside (touches_openAtArg _ _ _) rfl rfl h
  | ccSdOp a0 a1 => exact cart h
  | ccSectorSet a0 a1 => exact cart h
  | ccRead a0 a1 => exact cart h
  | ccWrite a0 a1 => exact cart h
  | ccConfigSet a0 a1 => exact cart h
  | ccConfigGet a0 a1 => exact cart h
  | computeCrc7 bytes =>
    simp only [exec, execComputeCrc7] at h
    exact runHost_outside (F := { engine := true }) (.upd fun s => by constructor <;> simp) rfl rfl h
  | computeCrc16 block =>
    simp only [exec, execComputeCrc16] at h
    exact runHost_outside (F := { lanes := true }) (.upd fun s => by constructor <;> simp) rfl rfl h
  | executeCommand idx arg => exact command ((exec_executeCommand idx arg s).symm.trans h)
  | sendAppCommand idx rca arg => exact runHost_outside (touches_sendAppCommand idx rca arg) rfl rfl h
  | init => exact runHost_keepsStored_then initOp_keeps h
  | exit => exact runHost_keepsStored_then exitOp_keeps h
  | cardInit => exact runHost_keepsStored_then cardInit_keeps h
  | cardRead dest lba count => exact runHost_keepsStored_then (cardRead_keeps dest lba count) h
  | cardWrite src lba count => exact runHost_keepsStored_then (cardWrite_keeps src lba count) h
  | cardStop => exact runHost_keepsStored_then cardStop_keeps h
  | setByteswap on => exact runHost_keepsStored_then (setByteswap_keeps on) h
  | probe =>
    refine runHost_keepsStored (.bind o (keepsStored_touches touches_probeOp rfl rfl) fun c => ?_) h
    cases c with
    | none => exact .raise o _
    | some f => exact .pure o _
  | diskInitialize drive => exact runHost_keepsStored_then (diskInitialize_keeps drive) h
  | diskStatus drive =>
    simp only [exec, execDiskStatus] at h
    exact runHost_keepsStored_then (.get' o _) h
  | diskRead drive buffer lba count =>
    exact runHost_keepsStored_then (diskTransfer_keeps drive lba count (cardRead_keeps _ _ _)) h
  | diskWrite drive buffer lba count =>
    exact runHost_keepsStored_then (diskTransfer_keeps drive lba count (cardWrite_keeps _ _ _)) h
  | diskIoctl drive cmd buf =>
    simp only [exec, execDiskIoctl] at h
    exact runHost_keepsStored_then (.get' o _) h
  | bind drive => exact runHost_outside (touches_bindOp drive) rfl rfl h
  | acquire => exact runHost_outside touches_acquireBus rfl rfl h
  | release => exact runHost_outside touches_releaseBus rfl rfl h

theorem runRequest_keepsStored {r : Request} (h : runRequest r s = .next t) : KeepsStored s t := by
  unfold runRequest at h
  split at h
  · cases h
  · split at h
    · exact exec_keepsStored h
    · cases h

theorem step_keepsStored (h : step s = .next t) : KeepsStored s t := fun hs => by
  unfold step at h
  split at h
  · cases h
    exact hs.settle
  · rename_i r rest _
    exact runRequest_keepsStored h (hs.host rest s.result).settle

end Sys2Proof.Machine

namespace Sys2Proof.Proofs

open Sys2Proof.Machine

/-- Settles O56: every step keeps both memories and the cache (`step_keepsStored`). -/
theorem stepKeepsMemory : Obligations.StepKeepsMemory := by
  intro s t hram hcb h
  obtain ⟨hram', hcb'⟩ := step_keepsStored h ⟨hram, hcb⟩
  exact ⟨hram', hcb'⟩

end Sys2Proof.Proofs
end

section
/-! PROOFS. What stops a transfer before it touches the bus (43_card_sequencer.md R162, R165, R178, 45_autodetect_dispatch.md
R214). -/

namespace Sys2Proof.Machine

variable {s : State} {f : Family} {i : Instr} {buf lba count : Word} {offloaded : Word → Op Unit} {native : Op Unit}

/-- The refusals of a transfer's operands in numbers, in their order (R51, R97, R165; U6, U7; log 29). -/
theorem operandRefusal_eq (p : Params) (buf lba count : Word) : operandRefusal p buf lba count =
    if count = 0 then some .countZero
    else if 2 ^ 32 < lba.toNat + count.toNat then some .lbaOverflow
    else if 2 ^ 32 < buf.toNat + 512 * count.toNat then some .bufferWraps
    else if p.stageAddr < buf.toNat + 512 * count.toNat ∧ buf.toNat < p.stageAddr + 512 then some .bufferOverlapsStage
    else none := by
  have hcount : (!countOk count) = true ↔ count = 0 := by simp [countOk]
  have hlba : (!rangeOk lba count) = true ↔ 2 ^ 32 < lba.toNat + count.toNat := by simp [rangeOk]
  have hwrap : (!noWrap buf count) = true ↔ 2 ^ 32 < buf.toNat + sector * count.toNat := by simp [noWrap]
  have hstage : (!noOverlap p.stageAddr buf count) = true ↔
      p.stageAddr < buf.toNat + sector * count.toNat ∧ buf.toNat < p.stageAddr + sector := by simp [noOverlap]
  exact if_congr hcount rfl (if_congr hlba rfl (if_congr hwrap rfl (if_congr hstage rfl rfl)))

/-- Operands have a meaning where none of the four tests fails. -/
theorem operandRefusal_eq_none {p : Params} : operandRefusal p buf lba count = none ↔
    count ≠ 0 ∧ lba.toNat + count.toNat ≤ 2 ^ 32 ∧ buf.toNat + 512 * count.toNat ≤ 2 ^ 32 ∧
      (buf.toNat + 512 * count.toNat ≤ p.stageAddr ∨ p.stageAddr + 512 ≤ buf.toNat) := by
  rw [operandRefusal_eq]
  refine ⟨fun h => ?_, fun ⟨hcount, hlba, hwrap, hstage⟩ => ?_⟩
  · split_ifs at h with hcount hlba hwrap hstage
    exact ⟨hcount, by omega, by omega, by omega⟩
  · rw [if_neg hcount, if_neg hlba.not_gt, if_neg hwrap.not_gt, if_neg (by omega)]

/-- Both transfers are a `transfer` in front of the result `ok` (R165, R166). -/
theorem exec_transfer (hi : i = .cardRead buf lba count ∨ i = .cardWrite buf lba count) : ∃ offloaded native,
    exec i = runHost (do transfer buf lba count offloaded native; pure .ok) := by
  rcases hi with rfl | rfl
  · exact ⟨_, _, rfl⟩
  · exact ⟨_, _, rfl⟩

theorem transfer_noCartridge (hp : s.probed = true) (hc : s.cartType = none) :
    transfer buf lba count offloaded native s = .error (.cause .noCartridge) s := dispatch_none hp hc

/-- With a known cartridge a transfer asks for a ready session before it looks at its operands (R165, R214; log 29). -/
theorem transfer_known (hp : s.probed = true) (hc : s.cartType = some f) : transfer buf lba count offloaded native s =
    if s.sess.ready then transferBody s.cfg f buf lba count offloaded native s else .error (.cause .notReady) s := by
  rw [transfer, dispatch_known hp hc, get'_bind, get'_bind]
  cases s.sess.ready with
  | true => rfl
  | false => rfl

theorem transferBody_refused {r : Refusal} (h : operandRefusal s.cfg buf lba count = some r) :
    transferBody s.cfg f buf lba count offloaded native s = .error (.refuse r) s := by
  simp only [transferBody, h, refuse_run]

theorem transferBody_spi (h : operandRefusal s.cfg buf lba count = none) (ho : (s.cfg.fam f).offload = false)
    (hw : (s.cfg.fam f).wire = .spi) :
    transferBody s.cfg f buf lba count offloaded native s = .error (.refuse .spiDataPath) s := by
  simp only [transferBody, h, ho, hw, Bool.false_eq_true, if_false, if_true, refuse_run]

/-- What its body refuses, a transfer with a ready session is refused. -/
theorem runHost_transfer_refused {r : Refusal} (hp : s.probed = true) (hc : s.cartType = some f) (hr : s.sess.ready = true)
    (h : transferBody s.cfg f buf lba count offloaded native s = .error (.refuse r) s) :
    runHost (do transfer buf lba count offloaded native; pure .ok) s = .refused r :=
  runHost_bind_refuse ((transfer_known hp hc).trans ((if_pos hr).trans h))

/-- Operands without a meaning are refused whatever the family. -/
theorem runHost_transfer_operands {r : Refusal} (hp : s.probed = true) (hc : s.cartType ≠ none) (hr : s.sess.ready = true)
    (h : operandRefusal s.cfg buf lba count = some r) :
    runHost (do transfer buf lba count offloaded native; pure .ok) s = .refused r := by
  obtain ⟨f, hc⟩ := Option.ne_none_iff_exists'.mp hc
  exact runHost_transfer_refused hp hc hr (transferBody_refused h)

end Sys2Proof.Machine

namespace Sys2Proof.Proofs

open Sys2Proof.Machine

/-- Settles O42: the dispatch and the session come first (`transfer_known`), then the operands in the order of
`operandRefusal_eq`, then the wire (`transferBody_spi`). -/
theorem transferPreChecks : Obligations.TransferPreChecks := by
  intro s buf lba count i hi hp
  obtain ⟨offloaded, native, hexec⟩ := exec_transfer hi
  rw [hexec]
  have order := operandRefusal_eq s.cfg buf lba count
  refine ⟨fun hc => runHost_cause (bind_error (transfer_noCartridge hp hc)), fun hc hr => ?_, operandRefusal_eq_none,
    fun hc hr => ⟨fun h0 => ?_, fun h0 hlba => ?_, fun h0 hlba hwrap => ?_, fun h0 hlba hwrap hlo hhi => ?_,
      fun f hop hc ho hw => runHost_transfer_refused hp hc hr (transferBody_spi hop ho hw)⟩⟩
  · obtain ⟨f, hc⟩ := Option.ne_none_iff_exists'.mp hc
    exact runHost_cause (bind_error ((transfer_known hp hc).trans (if_neg (by simp [hr]))))
  · exact runHost_transfer_operands hp hc hr (by rw [order, if_pos h0])
  · exact runHost_transfer_operands hp hc hr (by rw [order, if_neg h0, if_pos hlba])
  · exact runHost_transfer_operands hp hc hr (by rw [order, if_neg h0, if_neg hlba.not_gt, if_pos hwrap])
  · exact runHost_transfer_operands hp hc hr
      (by rw [order, if_neg h0, if_neg hlba.not_gt, if_neg hwrap.not_gt, if_pos ⟨hlo, hhi⟩])

end Sys2Proof.Proofs
end

section
/-! PROOFS. The encoder and the decoder of requests (30_encoding.md R80, R88, R90): what each part of the decoder reads from
the bytes the encoder writes, and that it accepts no others. -/

namespace Sys2Proof

variable {i : Instr} {idx : BitVec 6} {arg : Word} {crc : BitVec 7} {bs rest : List Byte} {code : Byte}

/-! ### Bytes of a word, of a half and of a field -/

/-- A vector is its upper part and its lower part behind it. -/
theorem upper_append_lower {m n : Nat} (x : BitVec (m + n)) : x.extractLsb' n m ++ x.extractLsb' 0 n = x := by
  rw [BitVec.extractLsb'_append_extractLsb'_eq_extractLsb' (Nat.zero_add n).symm, BitVec.extractLsb'_eq_self]

theorem append_lower_of_upper {m n : Nat} {x : BitVec (m + n)} {p : BitVec m} (h : x.extractLsb' n m = p) :
    p ++ x.extractLsb' 0 n = x := by
  rw [← h, upper_append_lower]

theorem upper_append_of_lower {m n : Nat} {x : BitVec (m + n)} {p : BitVec n} (h : x.extractLsb' 0 n = p) :
    x.extractLsb' n m ++ p = x := by
  rw [← h, upper_append_lower]

theorem wordOf_wordBytes (w : Word) :
    wordOf (w.extractLsb' 24 8) (w.extractLsb' 16 8) (w.extractLsb' 8 8) (w.extractLsb' 0 8) = w := by
  rw [wordOf, BitVec.extractLsb'_append_extractLsb'_eq_extractLsb' (by rfl),
    BitVec.extractLsb'_append_extractLsb'_eq_extractLsb' (by rfl)]
  exact upper_append_lower (m := 24) (n := 8) w

theorem wordBytes_wordOf (a b c d : Byte) : wordBytes (wordOf a b c d) = [a, b, c, d] := by
  have ha : (wordOf a b c d).extractLsb' 24 8 = a := by
    rw [wordOf, BitVec.extractLsb'_append_eq_of_le (by decide), BitVec.extractLsb'_append_eq_of_le (by decide)]
    exact BitVec.extractLsb'_append_eq_left
  have hb : (wordOf a b c d).extractLsb' 16 8 = b := by
    rw [wordOf, BitVec.extractLsb'_append_eq_of_le (by decide), BitVec.extractLsb'_append_eq_of_le (by decide)]
    exact BitVec.extractLsb'_append_eq_right
  have hc : (wordOf a b c d).extractLsb' 8 8 = c := by
    rw [wordOf, BitVec.extractLsb'_append_eq_of_le (by decide)]
    exact BitVec.extractLsb'_append_eq_right
  rw [wordBytes, ha, hb, hc, wordOf, BitVec.extractLsb'_append_eq_right]

theorem halfBytes_append (r t : Byte) : halfBytes (r ++ t) = [r, t] := by
  rw [halfBytes, BitVec.extractLsb'_append_eq_left, BitVec.extractLsb'_append_eq_right]

/-! ### Frames (R80) -/

/-- The decoder takes a frame apart as the encoder put it together. -/
theorem decode_encodeFrame (idx : BitVec 6) (arg : Word) (crc : BitVec 7) :
    decode (encodeFrame idx arg crc) = decodeFields idx arg crc := by
  show decodeFrame [1#2 ++ idx, _, _, _, _, crc ++ 1#1] = _
  rw [decodeFrame, BitVec.extractLsb'_append_eq_left, BitVec.extractLsb'_append_eq_right,
    BitVec.extractLsb'_append_eq_right, BitVec.extractLsb'_append_eq_left, wordOf_wordBytes]
  rfl

theorem fixedRow_row (i : Instr) (arg : Word) (crc : BitVec 7) : fixedRow i arg crc arg crc = .ok i := by
  simp [fixedRow]

theorem rcaRow_rcaArg (mk : Half → BitVec 7 → Instr) (rca : Half) (crc : BitVec 7) :
    rcaRow mk (rcaArg rca) crc = .ok (mk rca crc) := by
  rw [rcaRow, rcaArg, BitVec.extractLsb'_append_eq_right, BitVec.extractLsb'_append_eq_left]
  rfl

/-- A row of fixed bits is read from those bits alone. -/
theorem fixedRow_eq_ok {j : Instr} {arg' : Word} {crc' : BitVec 7} (h : fixedRow j arg crc arg' crc' = .ok i) :
    i = j ∧ arg' = arg ∧ crc' = crc := by
  unfold fixedRow at h
  split_ifs at h with ha hc
  exact ⟨(Except.ok.inj h).symm, not_not.mp ha, not_not.mp hc⟩

/-- The row of an addressed command is read from an argument of its own. -/
theorem rcaRow_eq_ok {mk : Half → BitVec 7 → Instr} (h : rcaRow mk arg crc = .ok i) :
    ∃ rca, arg = rcaArg rca ∧ i = mk rca crc := by
  unfold rcaRow at h
  split_ifs at h with hz
  exact ⟨_, (upper_append_of_lower (m := 16) (n := 16) (not_not.mp hz)).symm, (Except.ok.inj h).symm⟩

/-- The index or the code of a row, from its number. -/
theorem eq_ofNat_of_toNat {w n : Nat} {x : BitVec w} (h : x.toNat = n) : x = BitVec.ofNat w n := by
  rw [← h, BitVec.ofNat_toNat, BitVec.setWidth_eq]

/-- The fields of a frame that read as an instruction are those of its encoding (R80, R87). -/
theorem encode_of_decodeFields (h : decodeFields idx arg crc = .ok i) : encode i = encodeFrame idx arg crc := by
  have fixed : ∀ {j : Instr} {arg' : Word} {crc' : BitVec 7}, fixedRow j arg' crc' arg crc = .ok i →
      encode j = encodeFrame idx arg' crc' → encode i = encodeFrame idx arg crc := by
    intro j arg' crc' hrow henc
    obtain ⟨rfl, rfl, rfl⟩ := fixedRow_eq_ok hrow
    exact henc
  have addressed : ∀ {mk : Half → BitVec 7 → Instr}, rcaRow mk arg crc = .ok i →
      (∀ rca, encode (mk rca crc) = encodeFrame idx (rcaArg rca) crc) → encode i = encodeFrame idx arg crc := by
    intro mk hrow henc
    obtain ⟨rca, rfl, rfl⟩ := rcaRow_eq_ok hrow
    exact henc rca
  unfold decodeFields at h
  split at h <;> rename_i hidx
  case h_13 => cases h
  all_goals obtain rfl := eq_ofNat_of_toNat hidx
  · exact fixed h rfl
  · exact fixed h rfl
  · exact fixed h rfl
  · split_ifs at h
    · exact fixed h rfl
    · exact fixed h rfl
  · exact addressed h fun _ => rfl
  · exact fixed h rfl
  · exact fixed h rfl
  · cases h; rfl
  · cases h; rfl
  · cases h; rfl
  · exact addressed h fun _ => rfl
  · exact fixed h rfl

/-- An index that none of the twelve rows has (R91). -/
theorem decodeFields_noRow (h : idx.toNat ∉ [0, 2, 3, 6, 7, 8, 12, 18, 25, 41, 55, 58]) :
    decodeFields idx arg crc = .error .noSuchIndex := by
  unfold decodeFields
  split
  case h_13 => rfl
  all_goals
    rename_i hidx
    rw [hidx] at h
    exact absurd (by decide) h

/-- Six bytes that read as a frame are the frame of the fields read from them (R80). -/
theorem decodeFrame_eq_ok (h : decodeFrame bs = .ok i) :
    ∃ idx arg crc rest, bs = (encodeFrame idx arg crc).bytes ++ rest ∧ decodeFields idx arg crc = .ok i := by
  match bs, h with
  | b0 :: b1 :: b2 :: b3 :: b4 :: b5 :: rest, h =>
    rw [decodeFrame] at h
    split_ifs at h with hstart hstop
    refine ⟨_, _, _, rest, ?_, h⟩
    have h0 : 1#2 ++ b0.extractLsb' 0 6 = b0 := append_lower_of_upper (m := 2) (n := 6) (not_not.mp hstart)
    have h5 : b5.extractLsb' 1 7 ++ 1#1 = b5 := upper_append_of_lower (m := 7) (n := 1) (not_not.mp hstop)
    simp only [encodeFrame, headBytes, wordBytes_wordOf, h0, h5, List.cons_append, List.nil_append]

/-! ### Operands of a code (log 5) -/

theorem decodeTwoWords_wordBytes (mk : Word → Word → Instr) (a b : Word) :
    decodeTwoWords mk (wordBytes a ++ wordBytes b) = .ok (mk a b) := by
  simp only [wordBytes, List.cons_append, List.nil_append, decodeTwoWords, wordOf_wordBytes]

theorem decodeTransfer_wordBytes (mk : Word → Word → Word → Instr) (a b c : Word) :
    decodeTransfer mk (wordBytes a ++ wordBytes b ++ wordBytes c) = .ok (mk a b c) := by
  simp only [wordBytes, List.cons_append, List.nil_append, decodeTransfer, wordOf_wordBytes]

theorem decodeBytes_all {n : Nat} (mk : List Byte → Instr) (h : bs.length = n) : decodeBytes n mk bs = .ok (mk bs) := by
  rw [decodeBytes, if_neg h.not_lt, List.take_of_length_le h.le]

theorem decodeExecute_operands (idx : BitVec 6) (arg : Word) :
    decodeExecute ((0#2 ++ idx) :: wordBytes arg) = .ok (.executeCommand idx arg) := by
  rw [wordBytes, decodeExecute, BitVec.extractLsb'_append_eq_left, BitVec.extractLsb'_append_eq_right, wordOf_wordBytes]
  rfl

theorem decodeSendApp_operands (idx : BitVec 6) (rca : Half) (arg : Word) :
    decodeSendApp ((0#2 ++ idx) :: (halfBytes rca ++ wordBytes arg)) = .ok (.sendAppCommand idx rca arg) := by
  show decodeSendApp [0#2 ++ idx, rca.extractLsb' 8 8, rca.extractLsb' 0 8, _, _, _, _] = _
  rw [decodeSendApp, BitVec.extractLsb'_append_eq_left, BitVec.extractLsb'_append_eq_right, wordOf_wordBytes,
    upper_append_lower (m := 8) (n := 8) rca]
  rfl

theorem decodeBit_ofBool (mk : Bool → Instr) (b : Bool) : decodeBit mk [0#7 ++ BitVec.ofBool b] = .ok (mk b) := by
  cases b with
  | false => rfl
  | true => rfl

theorem decodeIoctl_operands (drive cmd : Byte) (buf : Word) :
    decodeIoctl (drive :: cmd :: wordBytes buf) = .ok (.diskIoctl drive cmd buf) := by
  rw [wordBytes, decodeIoctl, wordOf_wordBytes]

/-- What a reader of operands accepts is the operands of a code's instruction, with some rest behind them. -/
def Inverts (code : Byte) (dec : List Byte → Except DecodeError Instr) : Prop :=
  ∀ {bs i}, dec bs = .ok i → ∃ operands rest, encode i = encodeCode code operands ∧ bs = operands ++ rest

theorem inverts_nothing (h : encode i = encodeCode code []) : Inverts code fun _ => .ok i := by
  rintro bs _ ⟨⟩
  exact ⟨[], bs, h, rfl⟩

theorem inverts_twoWords {mk : Word → Word → Instr}
    (henc : ∀ a b, encode (mk a b) = encodeCode code (wordBytes a ++ wordBytes b)) : Inverts code (decodeTwoWords mk) := by
  intro bs i h
  match bs, h with
  | a :: b :: c :: d :: e :: f :: g :: h :: rest, rfl =>
    exact ⟨_, rest, henc _ _, by simp only [wordBytes_wordOf, List.cons_append, List.nil_append]⟩

theorem inverts_transfer {mk : Word → Word → Word → Instr}
    (henc : ∀ a b c, encode (mk a b c) = encodeCode code (wordBytes a ++ wordBytes b ++ wordBytes c)) :
    Inverts code (decodeTransfer mk) := by
  intro bs i h
  match bs, h with
  | a :: b :: c :: d :: e :: f :: g :: h :: j :: k :: l :: m :: rest, rfl =>
    exact ⟨_, rest, henc _ _ _, by simp only [wordBytes_wordOf, List.cons_append, List.nil_append]⟩

theorem inverts_drive {mk : Byte → Instr} (henc : ∀ d, encode (mk d) = encodeCode code [d]) :
    Inverts code (decodeDrive mk) := by
  intro bs i h
  match bs, h with
  | d :: rest, rfl => exact ⟨[d], rest, henc d, rfl⟩

theorem inverts_diskTransfer {mk : Byte → Word → Word → Word → Instr}
    (henc : ∀ d a b c, encode (mk d a b c) = encodeCode code (d :: (wordBytes a ++ wordBytes b ++ wordBytes c))) :
    Inverts code (decodeDiskTransfer mk) := by
  intro bs i h
  match bs, h with
  | d :: a :: b :: c :: e :: f :: g :: h :: j :: k :: l :: m :: n :: rest, rfl =>
    exact ⟨_, rest, henc _ _ _ _, by simp only [wordBytes_wordOf, List.cons_append, List.nil_append]⟩

theorem inverts_bytes {n : Nat} {mk : List Byte → Instr} (henc : ∀ l, encode (mk l) = encodeCode code l) :
    Inverts code (decodeBytes n mk) := by
  intro bs i h
  unfold decodeBytes at h
  split_ifs at h
  cases h
  exact ⟨bs.take n, bs.drop n, henc _, (List.take_append_drop n bs).symm⟩

/-- A field of six bits fills its byte: the two bits above it are zero. -/
theorem zero_append_index {b : Byte} (h : b.extractLsb' 6 2 = 0) : 0#2 ++ b.extractLsb' 0 6 = b :=
  append_lower_of_upper (m := 2) (n := 6) h

theorem inverts_execute : Inverts 0x03 decodeExecute := by
  intro bs i h
  match bs, h with
  | x :: a :: b :: c :: d :: rest, h =>
    rw [decodeExecute] at h
    split_ifs at h with hx
    cases h
    exact ⟨_, rest, rfl, by
      simp only [wordBytes_wordOf, zero_append_index (not_not.mp hx), List.cons_append, List.nil_append]⟩

theorem inverts_sendApp : Inverts 0x04 decodeSendApp := by
  intro bs i h
  match bs, h with
  | x :: r :: t :: a :: b :: c :: d :: rest, h =>
    rw [decodeSendApp] at h
    split_ifs at h with hx
    cases h
    exact ⟨_, rest, rfl, by
      simp only [wordBytes_wordOf, halfBytes_append, zero_append_index (not_not.mp hx), List.cons_append, List.nil_append]⟩

theorem inverts_bit {mk : Bool → Instr} (henc : ∀ b, encode (mk b) = encodeCode code [0#7 ++ BitVec.ofBool b]) :
    Inverts code (decodeBit mk) := by
  intro bs i h
  match bs, h with
  | x :: rest, h =>
    rw [decodeBit] at h
    split_ifs at h with hx
    cases h
    have hbit : BitVec.ofBool (x.getLsbD 0) = x.extractLsb' 0 1 := by
      ext k hk
      obtain rfl := Nat.lt_one_iff.mp hk
      simp
    have hbyte : 0#7 ++ x.extractLsb' 0 1 = x := append_lower_of_upper (m := 7) (n := 1) (not_not.mp hx)
    exact ⟨_, rest, henc _, by rw [hbit, hbyte]; rfl⟩

theorem inverts_ioctl : Inverts 0x34 decodeIoctl := by
  intro bs i h
  match bs, h with
  | d :: m :: a :: b :: c :: e :: rest, rfl =>
    exact ⟨_, rest, rfl, by simp only [wordBytes_wordOf, List.cons_append, List.nil_append]⟩

/-- The operands of each code are read as the encoder writes them (R88, R90; log 5). -/
theorem inverts_decodeCodeOperands (code : Byte) : Inverts code (decodeCodeOperands code) := by
  intro bs i h
  unfold decodeCodeOperands at h
  split at h <;> rename_i hcode
  case h_27 => cases h
  all_goals rw [eq_ofNat_of_toNat hcode]
  · exact inverts_bytes (fun _ => rfl) h
  · exact inverts_bytes (fun _ => rfl) h
  · exact inverts_execute h
  · exact inverts_sendApp h
  · exact inverts_nothing rfl h
  · exact inverts_nothing rfl h
  · exact inverts_nothing rfl h
  · exact inverts_transfer (fun _ _ _ => rfl) h
  · exact inverts_transfer (fun _ _ _ => rfl) h
  · exact inverts_nothing rfl h
  · exact inverts_bit (fun _ => rfl) h
  · exact inverts_nothing rfl h
  · exact inverts_drive (fun _ => rfl) h
  · exact inverts_drive (fun _ => rfl) h
  · exact inverts_diskTransfer (fun _ _ _ _ => rfl) h
  · exact inverts_diskTransfer (fun _ _ _ _ => rfl) h
  · exact inverts_ioctl h
  · exact inverts_drive (fun _ => rfl) h
  · exact inverts_nothing rfl h
  · exact inverts_nothing rfl h
  · exact inverts_twoWords (fun _ _ => rfl) h
  · exact inverts_twoWords (fun _ _ => rfl) h
  · exact inverts_twoWords (fun _ _ => rfl) h
  · exact inverts_twoWords (fun _ _ => rfl) h
  · exact inverts_twoWords (fun _ _ => rfl) h
  · exact inverts_twoWords (fun _ _ => rfl) h

/-- A code that is none of the twenty-six (R92, R93). -/
theorem decodeCodeOperands_noRow (h : code.toNat ∉ [0x01, 0x02, 0x03, 0x04, 0x10, 0x11, 0x12, 0x13, 0x14, 0x15, 0x16, 0x20,
    0x30, 0x31, 0x32, 0x33, 0x34, 0x35, 0x40, 0x41, 0x43, 0x49, 0x53, 0x63, 0x69, 0x73]) :
    decodeCodeOperands code rest = .error .noSuchCode := by
  unfold decodeCodeOperands
  split
  case h_27 => rfl
  all_goals
    rename_i hcode
    rw [hcode] at h
    exact absurd (by decide) h

/-! ### The first byte of a frame -/

/-- The start bit, the transmission bit and the index make the byte that `0x40` or'ed with the index is (R81). -/
theorem start_append_index (idx : BitVec 6) : 1#2 ++ idx = 0x40 ||| idx.zeroExtend 8 := by
  revert idx; decide

end Sys2Proof

namespace Sys2Proof.Proofs

/-- Settles O1: a frame is read as its fields (`decode_encodeFrame`), a code as its operands, format by format. -/
theorem decodeOfEncode : Obligations.DecodeOfEncode := by
  intro i hwf
  cases i with
  | cmd0 => exact (decode_encodeFrame _ _ _).trans (fixedRow_row _ _ _)
  | cmd8 => exact (decode_encodeFrame _ _ _).trans (fixedRow_row _ _ _)
  | cmd55 rca crc => exact (decode_encodeFrame _ _ _).trans (rcaRow_rcaArg _ rca crc)
  | acmd41 arg crc => exact decode_encodeFrame _ arg crc
  | cmd2 => exact (decode_encodeFrame _ _ _).trans (fixedRow_row _ _ _)
  | cmd3 => exact (decode_encodeFrame _ _ _).trans (fixedRow_row _ _ _)
  | cmd7 rca crc => exact (decode_encodeFrame _ _ _).trans (rcaRow_rcaArg _ rca crc)
  | acmd6 => exact (decode_encodeFrame _ _ _).trans rfl
  | cmd6 => exact (decode_encodeFrame _ _ _).trans rfl
  | cmd58 => exact (decode_encodeFrame _ _ _).trans (fixedRow_row _ _ _)
  | cmd12 => exact (decode_encodeFrame _ _ _).trans (fixedRow_row _ _ _)
  | cmd18 arg crc => exact decode_encodeFrame _ arg crc
  | cmd25 arg crc => exact decode_encodeFrame _ arg crc
  | ccSdOp a0 a1 => exact decodeTwoWords_wordBytes _ a0 a1
  | ccSectorSet a0 a1 => exact decodeTwoWords_wordBytes _ a0 a1
  | ccRead a0 a1 => exact decodeTwoWords_wordBytes _ a0 a1
  | ccWrite a0 a1 => exact decodeTwoWords_wordBytes _ a0 a1
  | ccConfigSet a0 a1 => exact decodeTwoWords_wordBytes _ a0 a1
  | ccConfigGet a0 a1 => exact decodeTwoWords_wordBytes _ a0 a1
  | computeCrc7 bytes => exact decodeBytes_all _ (beq_iff_eq.mp hwf)
  | computeCrc16 block => exact decodeBytes_all _ (beq_iff_eq.mp hwf)
  | executeCommand idx arg => exact decodeExecute_operands idx arg
  | sendAppCommand idx rca arg => exact decodeSendApp_operands idx rca arg
  | cardRead dest lba count => exact decodeTransfer_wordBytes _ dest lba count
  | cardWrite src lba count => exact decodeTransfer_wordBytes _ src lba count
  | setByteswap on => exact decodeBit_ofBool _ on
  | diskRead drive buffer sector count => exact decodeTransfer_wordBytes _ buffer sector count
  | diskWrite drive buffer sector count => exact decodeTransfer_wordBytes _ buffer sector count
  | diskIoctl drive cmd buf => exact decodeIoctl_operands drive cmd buf
  | diskInitialize _ | diskStatus _ | bind _ => rfl
  | init | exit | cardInit | cardStop | probe | acquire | release => rfl

/-- Settles O2: the fields of a frame (`decodeFrame_eq_ok`, `encode_of_decodeFields`) and the operands of a code
(`inverts_decodeCodeOperands`) determine the bytes. -/
theorem encodeOfDecode : Obligations.EncodeOfDecode := by
  rintro ⟨fmt, bs⟩ i h
  cases fmt with
  | frame =>
    obtain ⟨idx, arg, crc, rest, rfl, hrow⟩ := decodeFrame_eq_ok h
    exact ⟨rest, by rw [encode_of_decodeFields hrow]; rfl⟩
  | code =>
    match bs, h with
    | code :: bs, h =>
      obtain ⟨operands, rest, henc, rfl⟩ := inverts_decodeCodeOperands code h
      exact ⟨rest, by rw [henc]; rfl⟩

/-- Settles O3: the first byte is the only one written in another form (`start_append_index`); each word is decoded. -/
theorem specWords : Obligations.SpecWords := by
  refine ⟨fun idx arg => ?_, rfl, rfl, rfl, rfl, rfl, rfl, rfl, rfl, rfl, rfl⟩
  rw [frameBytes, headBytes, start_append_index]
  rfl

/-- Settles O4: no row of the frames (`decodeFields_noRow`) or of the codes (`decodeCodeOperands_noRow`) answers, and the
step hands the decoder's error on. -/
theorem requestsWithoutMeaning : Obligations.RequestsWithoutMeaning := by
  refine ⟨fun idx arg crc h => ?_, fun c rest h => decodeCodeOperands_noRow h, fun s r rest e hport hdec => ?_⟩
  · rw [decode_encodeFrame, decodeFields_noRow h]
  · simp only [Machine.step, hport, Machine.runRequest, hdec]

end Sys2Proof.Proofs
end

section
/-! PROOFS. CMD55 in front of an application command (41_command_engine.md R123) and the block arguments of CMD18, CMD25
and the transfers (30_encoding.md R89, 42_sd_commands.md R147, R148). -/

namespace Sys2Proof.Machine

variable {f : Family} {s t : State} {idx : BitVec 6} {rca : Half} {arg lba : Word} {l : List Bool} {h : Halt}

/-! ### CMD55 in front of a command -/

/-- `send_app_command` as an instruction (R123). -/
theorem exec_sendAppCommand (idx : BitVec 6) (rca : Half) (arg : Word) (s : State) :
    exec (.sendAppCommand idx rca arg) s = runHost (do sendAppCommand idx rca arg; pure .ok) s := rfl

/-- An index without a row is refused before CMD55 goes out (R91; U13). -/
theorem sendAppCommand_noKind (hp : OnPort s f) (hk : respKind idx true = none) :
    sendAppCommand idx rca arg s = .error (.refuse .noResponseKind) s := by
  have hstop : onlyIf (respKind idx true).isNone (refuse .noResponseKind) s = .error (.refuse .noResponseKind) s :=
    onlyIf_true (by rw [hk]; rfl) _
  simp only [sendAppCommand, bind_ok (sdPort_run hp), bind_error hstop]

/-- Where CMD55 does not return, the command behind it is not sent (R123). -/
theorem sendAppCommand_stops (hp : OnPort s f) (hk : respKind idx true ≠ none)
    (hx : executeCommand false 55 (rcaArg rca) s = .error h t) : sendAppCommand idx rca arg s = .error h t := by
  have hrow : (respKind idx true).isNone = false := Option.isNone_eq_false_iff.mpr (Option.isSome_iff_ne_none.mpr hk)
  simp only [sendAppCommand, bind_ok (sdPort_run hp), bind_ok (onlyIf_false hrow _), bind_error hx]

/-- An answer of kind SDR1 has bytes on either wire (R83, R126). -/
theorem respLength_sdr1 (wire : Wire) (idx : BitVec 6) : respLength wire idx .sdr1 ≠ 0 := by
  cases wire with
  | sdNative => exact Nat.succ_ne_zero 5
  | spi => rw [respLength, spiLength]; split <;> exact Nat.succ_ne_zero _

/-! ### Block arguments (R89) -/

/-- A byte address below the limit is the LBA times 512. -/
theorem shiftLeft_nine_toNat (h : lba.toNat < 0x00800000) : (lba <<< 9).toNat = lba.toNat * 512 := by
  rw [BitVec.toNat_shiftLeft, Nat.shiftLeft_eq]
  omega

/-- The LBA read back from an argument is the one whose block argument it is (log 17). -/
theorem lbaOfArg_eq_some {hc : Bool} : lbaOfArg hc arg = some lba ↔ blockArg hc lba = some arg := by
  cases hc with
  | true => exact ⟨fun h => congrArg some (Option.some.inj h).symm, fun h => congrArg some (Option.some.inj h).symm⟩
  | false =>
    simp only [lbaOfArg, blockArg, Bool.false_eq_true, if_false, Option.ite_none_right_eq_some, Option.some.injEq]
    refine ⟨?_, ?_⟩
    · rintro ⟨hmod, rfl⟩
      have hlt : (arg >>> 9).toNat < 0x00800000 := by rw [BitVec.toNat_ushiftRight, Nat.shiftRight_eq_div_pow]; omega
      refine ⟨hlt, BitVec.eq_of_toNat_eq ?_⟩
      rw [shiftLeft_nine_toNat hlt, BitVec.toNat_ushiftRight, Nat.shiftRight_eq_div_pow]
      omega
    · rintro ⟨hlt, rfl⟩
      have hval := shiftLeft_nine_toNat hlt
      refine ⟨by omega, BitVec.eq_of_toNat_eq ?_⟩
      rw [BitVec.toNat_ushiftRight, hval, Nat.shiftRight_eq_div_pow]
      omega

/-- A transfer on the native wire at an LBA without a block argument (U7; log 29, 47). -/
theorem transferBody_noArg {buf count : Word} {offloaded : Word → Op Unit} {native : Op Unit}
    (hop : operandRefusal s.cfg buf lba count = none) (ho : (s.cfg.fam f).offload = false)
    (hw : (s.cfg.fam f).wire = .sdNative) (ha : blockArg s.sess.highCapacity lba = none) :
    transferBody s.cfg f buf lba count offloaded native s = .error (.refuse .lbaBeyondByteAddress) s := by
  simp only [transferBody, hop, ho, hw, Bool.false_eq_true, reduceCtorEq, if_false, nativeTransfer, get'_bind, ha,
    refuse_run]

/-! ### Opening a stream -/

/-- CMD18 and CMD25 as instructions are a frame that opens a stream (R147, R148). -/
theorem exec_openAtArg {i : Instr} {mode : AccessMode} {crc : BitVec 7}
    (hi : (i, idx, mode) = (Instr.cmd18 arg crc, 18, AccessMode.blockRead) ∨
      (i, idx, mode) = (Instr.cmd25 arg crc, 25, AccessMode.blockWrite)) (s : State) :
    exec i s = runHost (do openAtArg mode idx arg; pure .ok) s := by
  simp only [Prod.mk.injEq] at hi
  obtain ⟨rfl, rfl, rfl⟩ | ⟨rfl, rfl, rfl⟩ := hi
  · rfl
  · rfl

/-- At an argument that some LBA has, the LBA before it is recorded (R147, R148). -/
theorem openAtArg_some (mode : AccessMode) (idx : BitVec 6) (h : blockArg s.sess.highCapacity lba = some arg) :
    openAtArg mode idx arg s = openStream mode idx arg (lba - 1) s := by
  simp only [openAtArg, get'_bind, lbaOfArg_eq_some.mpr h]

/-- At an argument that no LBA has, a free value is recorded (log 17). -/
theorem openAtArg_none (mode : AccessMode) (idx : BitVec 6) (h : ∀ lba, blockArg s.sess.highCapacity lba ≠ some arg) :
    openAtArg mode idx arg s =
      openStream mode idx arg (Config.freeWord s.freeCount) { s with freeCount := s.freeCount + 1 } := by
  have hl : lbaOfArg s.sess.highCapacity arg = none :=
    Option.eq_none_iff_forall_ne_some.mpr fun lba hlba => h lba (lbaOfArg_eq_some.mp hlba)
  simp only [openAtArg, get'_bind, hl, freshWord_bind]

/-- A free value is taken from no answer of the environment. -/
theorem freshWord_went (hq : Quiet s f) :
    Went f .access s.env.core [] s { s with freeCount := s.freeCount + 1 } :=
  .of_same hq (touches_freshWord.of_ok (freshWord_run s)) rfl rfl

end Sys2Proof.Machine

namespace Sys2Proof.Proofs

open Sys2Proof.Machine

/-- Settles O14: both exchanges (`sendAppCommand_quiet`), or what stops before the second (`sendAppCommand_noKind`,
`sendAppCommand_stops`). -/
theorem sendAppCommand : Obligations.SendAppCommand := by
  intro s f idx rca arg l hp hne
  simp only [exec_sendAppCommand]
  refine ⟨fun a b ha hb hl => ?_, fun hk => runHost_bind_refuse (sendAppCommand_noKind hp hk),
    fun a c hk hfit hfault hl => ?_, fun hk hl => ?_⟩
  · obtain ⟨t, hrun, ht⟩ := sendAppCommand_quiet hp (rca := rca) (arg := arg) ha hb hl hne
    exact ⟨_, runHost_then hrun, ht.did .ok⟩
  · obtain ⟨t, ht, hrun⟩ := executeCommand_answered hp (app := false) (arg := rcaArg rca) rfl hfit hl hne
    rw [if_neg (respLength_sdr1 _ _), hfault] at hrun
    exact ⟨_, runHost_cause (bind_error (sendAppCommand_stops hp hk hrun)), ht.did _⟩
  · obtain ⟨t, hrun, ht⟩ := executeCommand_silent hp (app := false) (arg := rcaArg rca) rfl (respLength_sdr1 _ 55) hl
      hne
    exact ⟨_, runHost_cause (bind_error (sendAppCommand_stops hp hk hrun)), ht.did _⟩

/-- Settles O21: the frame runs `openStream` (`openStream_quiet`) with the LBA before the one that has its argument, or,
where none has it, with a free value drawn before. -/
theorem openStream : Obligations.OpenStream := by
  intro s f a l arg crc hp hne hl i idx mode hi hgood
  rw [exec_openAtArg hi]
  by_cases hex : ∃ lba, blockArg s.sess.highCapacity lba = some arg
  · obtain ⟨lba, hlba⟩ := hex
    obtain ⟨t, hrun, ht, hsess, -⟩ := openStream_quiet hp (arg := arg) mode (lba - 1) hgood hl hne
    refine ⟨_, runHost_then ((openAtArg_some mode idx hlba).trans hrun), ht.did .ok, fun lba' hlba' => ?_,
      fun hno => absurd hlba (hno lba)⟩
    have huniq : lba' = lba :=
      Option.some.inj ((lbaOfArg_eq_some.mpr hlba').symm.trans (lbaOfArg_eq_some.mpr hlba))
    rw [huniq]
    exact hsess
  · rw [not_exists] at hex
    have hfree := freshWord_went hp.quiet
    obtain ⟨t, hrun, ht, hsess, -⟩ := openStream_quiet (hp.went hfree rfl) (arg := arg) mode
      (Config.freeWord s.freeCount) hgood hl hne
    exact ⟨_, runHost_then ((openAtArg_none mode idx hex).trans hrun),
      ((hfree.mono rfl).trans ht).did .ok, fun lba hlba => absurd hlba (hex lba), fun _ => hsess⟩

/-- Settles O43: the shift is the multiplication below the limit (`shiftLeft_nine_toNat`), and a transfer at an LBA without
an argument is refused by its body (`transferBody_noArg`). -/
theorem blockArgument : Obligations.BlockArgument := by
  have beyond : ∀ lba : Word, 0x00800000 ≤ lba.toNat → blockArg false lba = none := fun lba h => if_neg h.not_gt
  refine ⟨fun lba => rfl, fun lba h => ⟨lba <<< 9, if_pos h, shiftLeft_nine_toNat h⟩, beyond, ?_⟩
  intro s f buf lba count i hp hc hr ho hw hop hcap hlba hi
  obtain ⟨offloaded, native, hexec⟩ := exec_transfer hi
  rw [hexec]
  exact runHost_transfer_refused hp hc hr (transferBody_noArg hop ho hw (by rw [hcap, beyond lba hlba]))

end Sys2Proof.Proofs
end

section
/-! PROOFS. The two checksum generators (40_crc.md): the laws of the raw CRC7, the trailer of the four lanes and back, and the
bit-sliced form as a simulation of the four lane registers. -/

namespace Sys2Proof

/-! ### The CRC7 register (R100, R102) -/

/-- The taps that a fed-back bit inverts. -/
def crc7Feedback (b : Bool) : BitVec 7 := bif b then 0x09 else 0

theorem crc7Feedback_xor (a b : Bool) : crc7Feedback (a ^^ b) = crc7Feedback a ^^^ crc7Feedback b := by
  cases a <;> cases b <;> rfl

theorem crc7Bit_eq (acc : BitVec 7) (b : Bool) :
    crc7Bit acc b = (acc <<< 1) ^^^ crc7Feedback (acc.getLsbD 6 ^^ b) := by
  rw [crc7Bit]
  cases acc.getLsbD 6 ^^ b
  · exact BitVec.xor_zero.symm
  · rfl

/-- Shifting and feeding back are both linear, so a step of the register is. -/
theorem crc7Bit_xor (x y : BitVec 7) (a b : Bool) :
    crc7Bit (x ^^^ y) (a ^^ b) = crc7Bit x a ^^^ crc7Bit y b := by
  have htop : ((x ^^^ y).getLsbD 6 ^^ (a ^^ b)) = ((x.getLsbD 6 ^^ a) ^^ (y.getLsbD 6 ^^ b)) := by
    rw [BitVec.getLsbD_xor, Bool.xor_assoc, Bool.xor_assoc, Bool.xor_left_comm a]
  rw [crc7Bit_eq, crc7Bit_eq, crc7Bit_eq, htop, crc7Feedback_xor, BitVec.shiftLeft_xor_distrib]
  ac_rfl

theorem crc7Run_append (acc : BitVec 7) (as bs : List Bool) :
    crc7Run acc (as ++ bs) = crc7Run (crc7Run acc as) bs := List.foldl_append

theorem crc7Run_xor (x y : BitVec 7) {as bs : List Bool} (h : as.length = bs.length) :
    crc7Run (x ^^^ y) (List.zipWith (· ^^ ·) as bs) = crc7Run x as ^^^ crc7Run y bs := by
  induction as generalizing x y bs with
  | nil =>
    cases bs with
    | nil => rfl
    | cons => cases h
  | cons a as ih =>
    cases bs with
    | nil => cases h
    | cons b bs =>
      have hstep := ih (crc7Bit x a) (crc7Bit y b) (Nat.succ.inj h)
      rwa [← crc7Bit_xor] at hstep

theorem byteBits_xor (a b : Byte) : byteBits (a ^^^ b) = List.zipWith (· ^^ ·) (byteBits a) (byteBits b) := by
  simp only [byteBits, BitVec.getLsbD_xor, List.zipWith_cons_cons, List.zipWith_nil_left]

/-- The bits of two messages of equal length, added bit by bit. -/
theorem flatMap_byteBits_xor {a b : List Byte} (h : a.length = b.length) :
    (List.zipWith (· ^^^ ·) a b).flatMap byteBits =
      List.zipWith (· ^^ ·) (a.flatMap byteBits) (b.flatMap byteBits) := by
  induction a generalizing b with
  | nil => rfl
  | cons x a ih =>
    cases b with
    | nil => cases h
    | cons y b =>
      rw [List.zipWith_cons_cons, List.flatMap_cons, List.flatMap_cons, List.flatMap_cons, ih (Nat.succ.inj h),
        byteBits_xor]
      exact (List.zipWith_append (show (byteBits x).length = (byteBits y).length from rfl)).symm

theorem length_flatMap_byteBits (a : List Byte) : (a.flatMap byteBits).length = 8 * a.length := by
  rw [List.length_flatMap, List.map_congr_left fun b _ => Machine.byteBits_length b, List.map_const',
    List.sum_replicate_nat, Nat.mul_comm]

theorem crc7_xor {a b : List Byte} (h : a.length = b.length) :
    crc7 (List.zipWith (· ^^^ ·) a b) = crc7 a ^^^ crc7 b := by
  have hlen : (a.flatMap byteBits).length = (b.flatMap byteBits).length := by
    rw [length_flatMap_byteBits, length_flatMap_byteBits, h]
  rw [crc7, flatMap_byteBits_xor h]
  exact crc7Run_xor 0 0 hlen

/-- A register at 0 stays at 0 over a zero byte. -/
theorem crc7_zero_cons (m : List Byte) : crc7 (0x00 :: m) = crc7 m := by
  have hzero : crc7Run 0 (byteBits 0x00) = 0 := by decide
  rw [crc7, List.flatMap_cons, crc7Run_append, hzero, crc7]

/-- Fed its own top bit, the register only shifts. -/
theorem crc7Bit_top (acc : BitVec 7) : crc7Bit acc (acc.getLsbD 6) = acc <<< 1 := by
  rw [crc7Bit, Bool.xor_self, cond_false]

/-- Fed its own bits from the top, the register is shifted out. -/
theorem crc7Run_self (c : BitVec 7) {n : Nat} (hn : n ≤ 7) :
    crc7Run c ((List.range n).map fun j => c.getLsbD (6 - j)) = c <<< n := by
  induction n with
  | zero => exact (BitVec.shiftLeft_zero c).symm
  | succ n ih =>
    have htop : c.getLsbD (6 - n) = (c <<< n).getLsbD 6 := by
      rw [BitVec.getLsbD_shiftLeft, decide_eq_true (by omega), decide_eq_false (show ¬6 < n by omega)]
      rfl
    rw [List.range_succ, List.map_append, crc7Run_append, ih (by omega), List.map_singleton, htop]
    exact (crc7Bit_top _).trans (BitVec.shiftLeft_add c n 1).symm

/-- The residue: a message and then its checksum empty the register (R102). -/
theorem crc7Run_residue (m : List Byte) :
    crc7Run 0 (m.flatMap byteBits ++ (List.range 7).map fun j => (crc7 m).getLsbD (6 - j)) = 0 := by
  rw [crc7Run_append, ← crc7, crc7Run_self _ (Nat.le_refl 7), BitVec.shiftLeft_eq_zero (Nat.le_refl 7)]
  rfl

/-- The stop bit behind a checksum: shift and set bit 0 (R101). -/
theorem append_stopBit (c : BitVec 7) : c ++ 1#1 = ((c.zeroExtend 8 <<< 1) ||| 1 : Byte) := by
  rw [BitVec.append_def, BitVec.shiftLeftZeroExtend_eq]
  rfl

/-! ### Lanes, nibbles and the trailer (R106, R108) -/

/-- The value of lane `DATk`. -/
def Lanes.lane (l : Lanes) : Fin 4 → Half := ![l.l0, l.l1, l.l2, l.l3]

theorem laneCrcs_lane (block : List Byte) (k : Fin 4) : (laneCrcs block).lane k = crc16 (laneStream k block) := by
  fin_cases k <;> rfl

theorem bits_getLsbD (a b c d : Bool) (k : Fin 4) :
    (bitOf a ++ bitOf b ++ bitOf c ++ bitOf d : Nibble).getLsbD k = ![d, c, b, a] k := by
  revert a b c d k
  decide

/-- Bit `k` of a trailer nibble is lane `k`'s (R108). -/
theorem trailerNibble_getLsbD (l : Lanes) (i : Nat) (k : Fin 4) :
    (trailerNibble l i).getLsbD k = (l.lane k).getLsbD (15 - i) := by
  rw [trailerNibble, bits_getLsbD]
  fin_cases k <;> rfl

theorem nibblesOf_cons (b : Byte) (bs : List Byte) :
    nibblesOf (b :: bs) = b.extractLsb' 4 4 :: b.extractLsb' 0 4 :: nibblesOf bs := rfl

theorem nibblesOf_append (as bs : List Byte) : nibblesOf (as ++ bs) = nibblesOf as ++ nibblesOf bs :=
  List.flatMap_append

/-- Nibbles packed in pairs, read back in wire order. -/
theorem nibblesOf_pairs (t : Nat → Nibble) (n : Nat) :
    nibblesOf ((List.range n).map fun j => t (2 * j) ++ t (2 * j + 1)) = (List.range (2 * n)).map t := by
  induction n with
  | zero => rfl
  | succ n ih =>
    have hpair : nibblesOf [t (2 * n) ++ t (2 * n + 1)] = [t (2 * n), t (2 * n + 1)] := by
      rw [nibblesOf_cons, BitVec.extractLsb'_append_eq_left, BitVec.extractLsb'_append_eq_right]
      rfl
    rw [List.range_succ, List.map_append, List.map_singleton, nibblesOf_append, ih, hpair, Nat.mul_succ, List.range_succ,
      List.range_succ, List.map_append, List.map_append, List.append_assoc]
    rfl

theorem nibblesOf_trailerOf (l : Lanes) : nibblesOf (trailerOf l) = (List.range 16).map (trailerNibble l) :=
  nibblesOf_pairs (trailerNibble l) 8

/-- One bit of a value shifted in behind those above it. -/
theorem shiftRight_succ_push (h : Half) (m : Nat) :
    ((h >>> (m + 1)) <<< 1) ||| (bitOf (h.getLsbD m)).zeroExtend 16 = h >>> m := by
  refine BitVec.eq_of_getLsbD_eq fun i hi => ?_
  cases i with
  | zero => simp [bitOf]
  | succ i => simp [bitOf, hi, show m + 1 + i = m + (i + 1) by omega]

/-- A value shifted in bit by bit from the top: after `n` bits, its upper `n` bits. -/
theorem foldl_push_bits (h : Half) {n : Nat} (hn : n ≤ 16) :
    (List.range n).foldl (fun (acc : Half) i => (acc <<< 1) ||| (bitOf (h.getLsbD (15 - i))).zeroExtend 16) 0 =
      h >>> (16 - n) := by
  induction n with
  | zero => exact (BitVec.ushiftRight_eq_zero (Nat.le_refl 16)).symm
  | succ n ih =>
    rw [List.range_succ, List.foldl_append, ih (by omega), show 16 - n = 15 - n + 1 by omega,
      show 16 - (n + 1) = 15 - n by omega]
    exact shiftRight_succ_push h (15 - n)

/-- Un-interleaving inverts interleaving (R108, R110). -/
theorem laneOfTrailer_trailerOf (l : Lanes) (k : Fin 4) : laneOfTrailer k (trailerOf l) = l.lane k := by
  rw [laneOfTrailer, nibblesOf_trailerOf, List.foldl_map]
  simp only [trailerNibble_getLsbD]
  rw [foldl_push_bits _ (Nat.le_refl 16), Nat.sub_self, BitVec.ushiftRight_zero]

theorem laneOfTrailer_laneCrcs (block : List Byte) (k : Fin 4) :
    laneOfTrailer k (trailerOf (laneCrcs block)) = crc16 (laneStream k block) := by
  rw [laneOfTrailer_trailerOf, laneCrcs_lane]

/-! ### Blocks of one byte repeated (R110) -/

/-- Every lane of a block of one byte whose bits are all equal carries that bit. -/
theorem laneStream_replicate {b : Byte} {v : Bool} (hb : ∀ j < 8, b.getLsbD j = v) (n : Nat) {k : Nat}
    (hk : k < 4) : laneStream k (List.replicate n b) = List.replicate (2 * n) v := by
  have hhigh : b.getLsbD (4 + k) = v := hb _ (by omega)
  have hlow : b.getLsbD k = v := hb _ (by omega)
  induction n with
  | zero => rfl
  | succ n ih =>
    rw [List.replicate_succ, laneStream, List.flatMap_cons, ← laneStream, ih, hhigh, hlow]
    rfl

theorem laneCrcs_replicate {b : Byte} {v : Bool} (hb : ∀ j < 8, b.getLsbD j = v) (n : Nat) :
    laneCrcs (List.replicate n b) =
      let c := crc16 (List.replicate (2 * n) v)
      ⟨c, c, c, c⟩ := by
  rw [laneCrcs, laneStream_replicate hb n (show 0 < 4 by decide), laneStream_replicate hb n (show 1 < 4 by decide),
    laneStream_replicate hb n (show 2 < 4 by decide), laneStream_replicate hb n (show 3 < 4 by decide)]

theorem crc16_replicate_false (n : Nat) : crc16 (List.replicate n false) = 0 := by
  induction n with
  | zero => rfl
  | succ n ih => exact ih

theorem crc16_append (as bs : List Bool) : crc16 (as ++ bs) = bs.foldl crc16Bit (crc16 as) := List.foldl_append

/-- The checksum of 1024 one bits, by quarters. -/
theorem crc16_ones : crc16 (List.replicate 1024 true) = 0xEDA9 := by
  have quarter (n : Nat) : crc16 (List.replicate (n + 256) true) =
      (List.replicate 256 true).foldl crc16Bit (crc16 (List.replicate n true)) := by
    rw [← List.replicate_append_replicate, crc16_append]
  have h256 : crc16 (List.replicate 256 true) = 0x84B4 := by decide +kernel
  have h512 : crc16 (List.replicate 512 true) = 0x278E := by
    rw [quarter 256, h256]
    decide +kernel
  have h768 : crc16 (List.replicate 768 true) = 0x8A16 := by
    rw [quarter 512, h512]
    decide +kernel
  rw [quarter 768, h768]
  decide +kernel

theorem laneCrcs_zeros (n : Nat) : laneCrcs (List.replicate n 0x00) = ⟨0, 0, 0, 0⟩ := by
  rw [laneCrcs_replicate (v := false) (by decide), crc16_replicate_false]

theorem laneCrcs_ones : laneCrcs (List.replicate 512 0xFF) = ⟨0xEDA9, 0xEDA9, 0xEDA9, 0xEDA9⟩ := by
  rw [laneCrcs_replicate (v := true) (by decide), crc16_ones]

/-! ### The bit-sliced form (R109) -/

/-- Lane `k` carries bit `k` of the block's nibbles in wire order (R106). -/
theorem laneStream_eq_map (block : List Byte) (k : Fin 4) :
    laneStream k block = (nibblesOf block).map fun d => d.getLsbD k := by
  induction block with
  | nil => rfl
  | cons b bs ih =>
    have hhigh : (b.extractLsb' 4 4).getLsbD k = b.getLsbD (4 + k) := by simp
    have hlow : (b.extractLsb' 0 4).getLsbD k = b.getLsbD k := by simp
    rw [nibblesOf_cons, List.map_cons, List.map_cons, ← ih, hhigh, hlow]
    rfl

/-- The places at which a register takes the bit that is fed back. -/
def isTap (j : Nat) : Bool := j == 0 || j == 5 || j == 12

/-- Bit `j` of a lane's register after a step (R104). -/
theorem crc16Bit_getLsbD (acc : Half) (b : Bool) {j : Nat} (hj : j < 16) :
    (crc16Bit acc b).getLsbD j = ((!decide (j < 1) && acc.getLsbD (j - 1)) ^^ (isTap j && (acc.getLsbD 15 ^^ b))) := by
  have htaps : (0x1021#16).getLsbD j = isTap j := by
    revert j
    decide
  have hshift : (acc <<< 1).getLsbD j = (!decide (j < 1) && acc.getLsbD (j - 1)) := by
    rw [BitVec.getLsbD_shiftLeft, decide_eq_true hj, Bool.true_and]
  rw [crc16Bit]
  cases acc.getLsbD 15 ^^ b
  · rw [cond_false, hshift, Bool.and_false, Bool.xor_false]
  · rw [cond_true, BitVec.getLsbD_xor, hshift, htaps, Bool.and_true]

/-- Nibble `j` of the bit-sliced register after a step (R109). -/
theorem slicedStep_getD {s : List Nibble} (hs : s.length = 16) (d : Nibble) {j : Nat} (hj : j < 16) :
    (slicedStep s d).getD j 0 =
      (if j < 1 then 0 else s.getD (j - 1) 0) ^^^ (if isTap j then s.getD 15 0 ^^^ d else 0) := by
  cases j with
  | zero => simp [slicedStep, isTap]
  | succ j =>
    have hmoved : (s.take 15)[j]? = some (s.getD j 0) := by
      rw [List.getElem?_take_of_lt (by omega), List.getD_eq_getElem _ _ (by omega), List.getElem?_eq_getElem]
    obtain rfl | h4 := eq_or_ne j 4
    · simp [slicedStep, isTap, hmoved]
    obtain rfl | h11 := eq_or_ne j 11
    · simp [slicedStep, isTap, hmoved]
    · simp [slicedStep, isTap, hmoved, h4, h11, h4.symm, h11.symm]

theorem slicedStep_length {s : List Nibble} (hs : s.length = 16) (d : Nibble) : (slicedStep s d).length = 16 := by
  simp [slicedStep, hs]

/-- The bit-sliced register holds four lane registers: bit `k` of nibble `j` is bit `j` of lane `k`'s (R109). -/
structure Slices (s : List Nibble) (regs : Fin 4 → Half) : Prop where
  length : s.length = 16
  bit : ∀ j < 16, ∀ k : Fin 4, (s.getD j 0).getLsbD k = (regs k).getLsbD j

theorem slices_zero : Slices (List.replicate 16 0) fun _ => 0 where
  length := rfl
  bit := by decide

/-- One nibble through the bit-sliced register is one bit through every lane's. -/
theorem Slices.step {s : List Nibble} {regs : Fin 4 → Half} (h : Slices s regs) (d : Nibble) :
    Slices (slicedStep s d) fun k => crc16Bit (regs k) (d.getLsbD k) where
  length := slicedStep_length h.length d
  bit := by
    intro j hj k
    have hshift : (if j < 1 then 0 else s.getD (j - 1) 0 : Nibble).getLsbD k =
        (!decide (j < 1) && (regs k).getLsbD (j - 1)) := by
      by_cases h1 : j < 1
      · rw [if_pos h1, decide_eq_true h1, Bool.not_true, Bool.false_and]
        exact BitVec.getLsbD_zero
      · rw [if_neg h1, decide_eq_false h1, Bool.not_false, Bool.true_and, h.bit (j - 1) (by omega) k]
    have hback : (if isTap j then s.getD 15 0 ^^^ d else 0 : Nibble).getLsbD k =
        (isTap j && ((regs k).getLsbD 15 ^^ d.getLsbD k)) := by
      cases isTap j
      · rw [if_neg Bool.false_ne_true, Bool.false_and]
        exact BitVec.getLsbD_zero
      · rw [if_pos rfl, Bool.true_and, BitVec.getLsbD_xor, h.bit 15 (by decide) k]
    rw [slicedStep_getD h.length d hj, BitVec.getLsbD_xor, hshift, hback, crc16Bit_getLsbD _ _ hj]

theorem Slices.run {s : List Nibble} {regs : Fin 4 → Half} (h : Slices s regs) (ns : List Nibble) :
    Slices (ns.foldl slicedStep s) fun k => (ns.map fun d => d.getLsbD k).foldl crc16Bit (regs k) := by
  induction ns generalizing s regs with
  | nil => exact h
  | cons d ns ih => exact ih (h.step d)

/-- The register after a block holds the four lane checksums (R107). -/
theorem slices_block (block : List Byte) :
    Slices ((nibblesOf block).foldl slicedStep (List.replicate 16 0)) (laneCrcs block).lane := by
  have hregs : (laneCrcs block).lane = fun k : Fin 4 =>
      ((nibblesOf block).map fun d => d.getLsbD k).foldl crc16Bit 0 := by
    funext k
    rw [laneCrcs_lane, laneStream_eq_map, crc16]
  rw [hregs]
  exact slices_zero.run _

/-- Read from the top, a bit-sliced register gives the trailer's nibbles (R108, R109). -/
theorem Slices.nibble {s : List Nibble} {l : Lanes} (h : Slices s l.lane) {i : Nat} (hi : i < 16) :
    s.getD (15 - i) 0 = trailerNibble l i := by
  refine BitVec.eq_of_getLsbD_eq fun k hk => ?_
  rw [h.bit (15 - i) (by omega) ⟨k, hk⟩]
  exact (trailerNibble_getLsbD l i ⟨k, hk⟩).symm

theorem slicedTrailer_eq (block : List Byte) : slicedTrailer block = trailerOf (laneCrcs block) := by
  have h := slices_block block
  refine List.map_congr_left fun j hj => ?_
  have hj8 : j < 8 := List.mem_range.mp hj
  have hhigh := h.nibble (i := 2 * j) (by omega)
  have hlow := h.nibble (i := 2 * j + 1) (by omega)
  rw [← hhigh, ← hlow, show 15 - (2 * j + 1) = 14 - 2 * j by omega]

end Sys2Proof

namespace Sys2Proof.Proofs

/-- Settles O6: the laws hold for every message (`crc7_xor`, `crc7_zero_cons`, `crc7Run_residue`); the worked examples run
the register. -/
theorem crc7Laws : Obligations.Crc7Laws :=
  ⟨fun _ _ h => crc7_xor h, crc7_zero_cons, crc7Run_residue, by decide +kernel⟩

/-- Settles O9: un-interleaving inverts the interleaving of any four values (`laneOfTrailer_laneCrcs`). -/
theorem trailerRoundTrip : Obligations.TrailerRoundTrip := by
  refine ⟨fun block _ => ?_, laneCrcs_zeros 512, ?_, laneCrcs_ones, ?_⟩
  · have h := laneOfTrailer_laneCrcs block
    exact ⟨h 0, h 1, h 2, h 3⟩
  · rw [laneCrcs_zeros]
    decide
  · rw [laneCrcs_ones]
    decide

/-- Settles O10, by the simulation of the four lane registers (`slices_block`). -/
theorem slicedTrailer : Obligations.SlicedTrailer := slicedTrailer_eq

/-- Settles O7: one write of the accumulator, and the stop bit behind the checksum (`append_stopBit`). -/
theorem computeCrc7Result : Obligations.ComputeCrc7Result := by
  refine ⟨fun bytes s _ => ⟨?_, ?_, ?_⟩, by decide +kernel⟩
  · rw [← append_stopBit]
    rfl
  · rw [computeCrc7, append_stopBit]
    simp
  · exact BitVec.extractLsb'_append_eq_left

/-- Settles O8: the lanes are those of the block, and the trailer's nibbles are read back as they were packed
(`nibblesOf_trailerOf`). -/
theorem computeCrc16Result : Obligations.ComputeCrc16Result := by
  intro block s _
  refine ⟨laneCrcs block, rfl, rfl, rfl, rfl, rfl, rfl, fun i hi => ?_⟩
  rw [nibblesOf_trailerOf]
  simp [hi, trailerNibble]

end Sys2Proof.Proofs
end

section
/-! PROOFS. The bounded wait (41_command_engine.md R124), what `execute_command` sends, holds and returns (R115 to R122), and
the two commands that wait while the card is busy (42_sd_commands.md R142, R146). -/

namespace Sys2Proof.Machine

variable {α : Type} {f : Family} {s t w : State} {idx : BitVec 6} {l : List Bool}

/-! ### Polls that miss (R124) -/

/-- A wait whose first polls miss goes on with as many fewer. -/
theorem spinOn_of_misses {poll : Op (Option α)} {n k : Nat} (h : misses poll (n + k) n s t) :
    spinOn poll (n + k) s = spinOn poll k t := by
  induction n generalizing s with
  | zero =>
    obtain rfl : t = s := h
    rw [Nat.zero_add]
  | succ n ih =>
    rw [Nat.add_right_comm] at h ⊢
    obtain ⟨u, hpoll, hrest⟩ := h
    rw [spinOn_later hpoll]
    exact ih hrest

/-- Behind polls that miss, the counter has been counted down once for each. -/
theorem spinCount_of_misses {poll : Op (Option α)} {c n : Nat} (h : misses poll c (n + 1) s t) :
    t.spinCount = c - (n + 1) := by
  induction n generalizing c s with
  | zero =>
    obtain ⟨u, -, rfl⟩ := h
    rfl
  | succ n ih =>
    obtain ⟨u, -, hrest⟩ := h
    rw [ih hrest]
    omega

/-! ### The masks of the response checks, as bits -/

theorem and_endBit (b : Byte) : b &&& 0x01 = if b.getLsbD 0 then 0x01 else 0 := BitVec.and_twoPow b 0

theorem and_illegalBit (b : Byte) : b &&& 0x40 = if b.getLsbD 6 then 0x40 else 0 := BitVec.and_twoPow b 6

theorem and_crcBit (b : Byte) : b &&& 0x80 = if b.getLsbD 7 then 0x80 else 0 := BitVec.and_twoPow b 7

theorem and_bothFlags (b : Byte) : b &&& 0xC0 = (b &&& 0x40) ||| (b &&& 0x80) :=
  BitVec.and_or_distrib_left (y := 0x40) (z := 0x80)

/-! ### The response checks, each by what it compares (R122) -/

/-- Check (a) fails (R122a). -/
theorem indexOk_eq_false {kind : SdKind} {resp : List Byte} : indexOk kind idx resp = false ↔
    (kind = .sdr1 ∨ kind = .sdr1b ∨ kind = .sdr6 ∨ kind = .sdr7) ∧ (resp.getD 0 0).extractLsb' 0 6 ≠ idx ∨
      (kind = .sdr2 ∨ kind = .sdr3) ∧ resp.getD 0 0 ≠ 0x3F := by
  cases kind <;> simp [indexOk]

/-- The transmission bit or the end bit is wrong (R260; log 19). -/
theorem fixedBitsOk_eq_false {kind : SdKind} {resp : List Byte} : fixedBitsOk kind resp = false ↔
    kind ≠ .none ∧ (resp.getD 0 0 &&& 0x40 ≠ 0 ∨ resp.getD (kind.nativeLength - 1) 0 &&& 0x01 = 0) := by
  have bits : ∀ b e : Byte, (!b.getLsbD 6 && e.getLsbD 0) = false ↔ b &&& 0x40 ≠ 0 ∨ e &&& 0x01 = 0 := fun b e => by
    rw [and_illegalBit, and_endBit]
    cases b.getLsbD 6 <;> cases e.getLsbD 0 <;> decide
  cases kind with
  | none => simp [fixedBitsOk]
  | sdr1 | sdr1b | sdr2 | sdr3 | sdr6 | sdr7 => exact (bits _ _).trans (and_iff_right nofun).symm

/-- Check (b) fails (R122b). -/
theorem checksumOk_eq_false {kind : SdKind} {resp : List Byte} : checksumOk kind resp = false ↔
    (kind = .sdr1 ∨ kind = .sdr1b ∨ kind = .sdr6 ∨ kind = .sdr7) ∧ resp.getD 5 0 ≠ computeCrc7 (resp.take 5) := by
  cases kind <;> simp [checksumOk]

/-- Check (c) (R122c; log 18, 53). -/
theorem cardFlags_eq (crcFirst : Bool) (kind : SdKind) (resp : List Byte) : cardFlags crcFirst kind resp =
    if (kind = .sdr1 ∨ kind = .sdr1b) ∧ resp.getD 2 0 &&& 0xC0 = 0xC0 then some (if crcFirst then .crc else .illegal)
    else if (kind = .sdr1 ∨ kind = .sdr1b) ∧ resp.getD 2 0 &&& 0x40 = 0x40 then some .illegal
    else if (kind = .sdr1 ∨ kind = .sdr1b) ∧ resp.getD 2 0 &&& 0x80 = 0x80 then some .crc
    else none := by
  have flags : ∀ b : Byte, (if b.getLsbD 7 && (crcFirst || !b.getLsbD 6) then some Cause.crc
        else if b.getLsbD 6 then some .illegal else none) =
      if b &&& 0xC0 = 0xC0 then some (if crcFirst then .crc else .illegal)
      else if b &&& 0x40 = 0x40 then some .illegal
      else if b &&& 0x80 = 0x80 then some .crc else none := fun b => by
    rw [and_bothFlags, and_illegalBit, and_crcBit]
    cases b.getLsbD 6 <;> cases b.getLsbD 7 <;> cases crcFirst <;> rfl
  cases kind with
  | sdr1 | sdr1b => simpa [cardFlags] using flags (resp.getD 2 0)
  | none | sdr2 | sdr3 | sdr6 | sdr7 => simp [cardFlags]

/-- The checks of a native answer, in their order (R122, R269). -/
theorem responseFault_native (p : Params) (kind : SdKind) (idx : BitVec 6) (resp : List Byte) :
    responseFault p .sdNative kind idx resp =
      if p.checkRespIndex = true ∧ p.checkFixedBits = true ∧ fixedBitsOk kind resp = false then some .malformed
      else if p.checkRespIndex = true ∧ indexOk kind idx resp = false then some .malformed
      else if p.checkRespCrc7 = true ∧ checksumOk kind resp = false then some .crc
      else cardFlags p.crcFlagFirst kind resp := by
  simp only [responseFault, Bool.and_eq_true, Bool.not_eq_true', and_assoc]

/-! ### Host operations of one step -/

/-- A host operation whose one operation ends in a cause. -/
theorem runHost_then_cause {x : Op Unit} {r : HostResult} {c : Cause} (h : x s = .error (.cause c) w) :
    runHost (do x; pure r) s = .next { w with result := .error c } := runHost_cause (bind_error h)

/-- A step of a host operation that returns a fixed result ran its one operation, to a value or to a cause. -/
theorem runHost_then_every {R : State → State → Prop} {x : Op Unit} {r : HostResult} (h : Every R x)
    (hx : runHost (do x; pure r) s = .next t) : ∃ u, R s u ∧ t = { u with result := t.result } := by
  refine runHost_every (.intro (fun s a u hu => ?_) fun s c u hu => ?_) hx
  · obtain ⟨_, v, hv, hend⟩ := bind_eq_ok.mp hu
    cases hend
    exact h.of_ok hv
  · rcases bind_eq_error.mp hu with hv | ⟨_, v, -, hend⟩
    · exact h.of_cause hv
    · cases hend

/-! ### CMD7 and CMD12 as instructions (R142, R146) -/

theorem exec_cmd7 (rca : Half) (crc : BitVec 7) (s : State) :
    exec (.cmd7 rca crc) s = runHost (do selectCard rca; pure .ok) s := rfl

theorem exec_cmd12 (s : State) : exec .cmd12 s = runHost (do stopStream; pure .ok) s := rfl

/-- A CMD12 that the card does not answer: the stream is closed all the same (R118, R146). -/
theorem stopStream_silent (h : OnLanes s f) (hl : s.env.core.cmdLine = List.replicate s.cfg.respSpinMax true ++ l)
    (hne : l ≠ []) : ∃ t, stopStream s = .error (.cause .timeout) t ∧
      Went f .command { s.env.core with cmdLine := l } (frameSent s.cfg 12 0) s t ∧
      t.sess = { s.sess with bitlen := .b8, mode := .none } := by
  have hlen : respLength (s.cfg.fam f).wire 12 .sdr1b ≠ 0 := by rw [h.native]; exact Nat.succ_ne_zero 5
  obtain ⟨t, hrun, ht⟩ := executeCommand_silent h.port (app := false) (arg := 0) rfl hlen hl hne
  have hmode := Went.sess (g := fun ss => { ss with mode := .none }) ht.went.quiet
  refine ⟨{ t with sess := { t.sess with mode := .none } }, ?_, ?_, by rw [ht.session]⟩
  · simp only [stopStream, bind_ok (datPort_run h), bind_ok (attempt_cause hrun), setSession, upd_bind, rethrow, raise_bind]
  · have hall := (ht.went.mono (G := .command) rfl).trans hmode
    rwa [ht.went.env, List.append_nil] at hall

end Sys2Proof.Machine

namespace Sys2Proof.Proofs

open Sys2Proof.Machine

/-- Settles O11: the polls that miss are behind the wait (`spinOn_of_misses`), then the next poll answers, or none is left. -/
theorem boundedWait : Obligations.BoundedWait := by
  intro α poll max n s t u w
  refine ⟨fun hn hmiss hpoll => ?_, fun hmax hmiss => ?_⟩
  · obtain ⟨k, rfl⟩ : ∃ k, max = n + (k + 1) := Nat.exists_eq_add_of_lt hn
    rw [Nat.add_sub_cancel_left] at hpoll
    rw [spinOn_of_misses hmiss, spinOn_now hpoll]
  · obtain ⟨m, rfl⟩ : ∃ m, max = m + 1 := Nat.exists_eq_add_of_le' hmax
    exact ⟨(spinCount_of_misses hmiss).trans (Nat.sub_self _), spinOn_of_misses (k := 0) hmiss⟩

/-- Settles O12: a command that is answered or not (`executeCommand_answered`, `executeCommand_silent`), and the checks one by
one (`responseFault_native`). -/
theorem executeCommandDecides : Obligations.ExecuteCommandDecides := by
  intro s f idx arg kind l hp hk hne
  simp only [exec_executeCommand]
  refine ⟨fun a hfit hl => ?_, fun h0 hl => ?_, fun resp => ⟨rfl, ?_⟩⟩
  · obtain ⟨t, ht, hrun⟩ := executeCommand_answered hp (arg := arg) hk hfit hl hne
    cases hfault : responseFault s.cfg (s.cfg.fam f).wire kind idx a.bytes with
    | none =>
      rw [hfault, ite_self] at hrun
      exact ⟨_, runHost_then hrun, ht.did .ok⟩
    | some c =>
      rw [hfault, if_neg (responseFault_length hfault)] at hrun
      exact ⟨_, runHost_then_cause hrun, ht.did (.error c)⟩
  · obtain ⟨t, hrun, ht⟩ := executeCommand_silent hp (arg := arg) hk h0 hl hne
    exact ⟨_, runHost_then_cause hrun, ht.did _⟩
  · simp only [responseFault_native, fixedBitsOk_eq_false, indexOk_eq_false, checksumOk_eq_false, cardFlags_eq]

/-- Settles O18: CMD12 closes the stream in every environment (`stopStream_stops`); each outcome of the two commands is that
of the operation they run. -/
theorem busyFrames : Obligations.BusyFrames := by
  refine ⟨fun s t hx => ?_, fun s f a busy m l rca crc h hl hm hline hbusy hlanes => ⟨fun ha => ?_, fun ha => ?_⟩,
    fun s f a stuck m l rca crc h hl hm hline hcap hstuck hlanes => ⟨fun ha => ?_, fun ha => ?_⟩,
    fun s f a c l h hl hfit hfault hline => ?_, fun s f l h hl hline => ?_⟩
  · rw [exec_cmd12] at hx
    obtain ⟨u, hstop, hu⟩ := runHost_then_every stopStream_stops hx
    rw [hu]
    exact hstop.restored
  · rw [← h.native] at ha
    obtain ⟨t, hrun, ht, hsess⟩ := selectCard_quiet h (rca := rca) ha hline hl hbusy hlanes hm
    exact ⟨_, runHost_then hrun, ht.did .ok, hsess⟩
  · rw [← h.native] at ha
    obtain ⟨t, hrun, ht, hsess, -⟩ := stopStream_quiet h ha hline hl hbusy hlanes hm
    exact ⟨_, runHost_then hrun, ht.did .ok, hsess⟩
  · rw [← h.native] at ha
    obtain ⟨t, hrun, ht, -⟩ := selectCard_out h (rca := rca) ha hline hl hcap hstuck hlanes hm
    exact ⟨_, runHost_then_cause hrun, ht.did _⟩
  · rw [← h.native] at ha
    obtain ⟨t, hrun, ht⟩ := stopStream_out h ha hline hl hcap hstuck hlanes hm
    exact ⟨_, runHost_then_cause hrun, ht.did _⟩
  · obtain ⟨t, hrun, ht⟩ := stopStream_rejected h hfit hfault hline hl
    exact ⟨_, runHost_then_cause hrun, ht.did _⟩
  · obtain ⟨t, hrun, ht, hsess⟩ := stopStream_silent h hline hl
    exact ⟨_, runHost_then_cause hrun, ht.did _, hsess⟩

end Sys2Proof.Proofs
end

section
/-! PROOFS. The SD command frames (42_sd_commands.md R135 to R145) as instructions, and the two card operations made of such
commands alone: `card_init` on the SPI flavour (43_card_sequencer.md R162) and `card_stop` (R167). -/

namespace Sys2Proof.Machine

variable {α : Type} {f : Family} {F : Foot} {s t : State} {g : Session → Session} {r : Reg} {v arg : Word} {l : List Bool}

/-! ### The write a changed setting ends with (R187, R193) -/

theorem pollPiWritten_total (s : State) : ∃ r t, pollPiWritten s = .ok r t ∧ t.hist = s.hist := by
  obtain ⟨p, t, hrun, hh⟩ := nextPi_total s
  exact ⟨if p.ioBusy then none else some (), t, by simp only [pollPiWritten, bind_ok hrun, pure_run], hh⟩

/-- A register write that completes records the write and nothing behind it, in every environment (R187). -/
theorem regWrite_hist (hb : s.busOwner = .cart f) (hf : regsFit f (s.cfg.fam f) = true) (h : regWrite r v s = .ok () t) :
    t.hist = .regWrite (regAddr s.cfg f r) v :: s.hist := by
  simp only [regWrite, bind_ok (regAt_run hb hf r), emit_bind,
    bind_ok (famParams_run (s := { s with hist := .regWrite (regAddr s.cfg f r) v :: s.hist }) hb)] at h
  obtain ⟨u, hh, hok | herr⟩ := piSpin_total pollPiWritten_total (s.cfg.fam f).waits.pi
    { s with hist := .regWrite (regAddr s.cfg f r) v :: s.hist }
  · rw [hok] at h
    cases h
    exact hh
  · rw [herr] at h
    cases h

/-- `port_config` with changed settings ends with the write of `SD_CFG` for the session it leaves (R193). -/
theorem reconfigure_last (hb : s.busOwner = .cart f) (ho : (s.cfg.fam f).offload = false)
    (hf : regsFit f (s.cfg.fam f) = true) (h : reconfigure g s = .ok () t) :
    t.hist.head? = some (.regWrite (regAddr s.cfg f .sdCfg)
      (sdCfgWord (s.cfg.fam f) t.sess.busWidth t.sess.speed t.sess.bitlen)) := by
  simp only [reconfigure, bind_ok (sdPort_bitLevel hb ho), get'_bind] at h
  obtain ⟨_, u, hwrite, hset⟩ := bind_eq_ok.mp h
  have hsess : u.sess = s.sess := ((touches_regWrite _ _).of_ok hwrite).session_eq rfl rfl
  cases hset
  simp only [regWrite_hist hb hf hwrite, hsess, List.head?_cons]

/-- So does an operation on the port whose last part is one. -/
theorem bind_reconfigure_last {x : Op α} (h : OnPort s f) (hx : Touches F x) (hF : F.bus = false)
    (hrun : (x >>= fun _ => reconfigure g) s = .ok () t) :
    t.hist.head? = some (.regWrite (regAddr s.cfg f .sdCfg)
      (sdCfgWord (s.cfg.fam f) t.sess.busWidth t.sess.speed t.sess.bitlen)) := by
  obtain ⟨_, u, hfirst, hlast⟩ := bind_eq_ok.mp hrun
  have hsame := hx.of_ok hfirst
  rw [← hsame.cfg]
  exact reconfigure_last ((hsame.owner hF).trans h.owner) (by rw [hsame.cfg]; exact h.bitLevel)
    (by rw [hsame.cfg]; exact h.quiet.regs) hlast

theorem widenBus_last (h : OnPort s f) (hrun : widenBus s = .ok () t) :
    t.hist.head? = some (.regWrite (regAddr s.cfg f .sdCfg)
      (sdCfgWord (s.cfg.fam f) t.sess.busWidth t.sess.speed t.sess.bitlen)) := by
  rw [widenBus, get'_bind] at hrun
  exact bind_reconfigure_last h (touches_sendAppCommand _ _ _) rfl hrun

theorem highSpeed_last (h : OnLanes s f) (hrun : highSpeed s = .ok () t) :
    t.hist.head? = some (.regWrite (regAddr s.cfg f .sdCfg)
      (sdCfgWord (s.cfg.fam f) t.sess.busWidth t.sess.speed t.sess.bitlen)) := by
  rw [highSpeed, bind_ok (datPort_run h), ← bind_assoc] at hrun
  exact bind_reconfigure_last (F := .command) h.port
    (((touches_executeCommand _ _ _).mono rfl).bind fun _ => (touches_receiveOther (n := 64) rfl).mono rfl) rfl hrun

/-! ### CMD8 (R137) -/

/-- The echo test as masks and values. -/
theorem echoOk_iff {b3 b4 : Byte} : echoOk b3 b4 = true ↔ b3 &&& 0x0F = 0x01 ∧ b4 = 0xAA := by
  have nibble : b3.extractLsb' 0 4 = 1#4 ↔ b3 &&& 0x0F = 0x01 := by
    revert b3
    decide
  rw [echoOk, Bool.and_eq_true, beq_iff_eq, beq_iff_eq, nibble]

/-- On the SPI flavour the checks of a response look at nothing (log 22). -/
theorem Answer.good_of_fits_spi {p : Params} {app : Bool} {idx : BitVec 6} {kind : SdKind} {a : Answer}
    (hk : respKind idx app = some kind) (h : a.fits p .spi idx kind) : a.good p .spi app idx := ⟨kind, hk, h, rfl⟩

/-- A CMD8 whose SPI status byte says illegal command says version 1 (R162). -/
theorem voltageCheck_illegal (h : OnPort s f) (hw : (s.cfg.fam f).wire = .spi) {a : Answer}
    (ha : a.good s.cfg (s.cfg.fam f).wire false 8) (hill : spiIllegal (a.bytes.getD 0 0) = true)
    (hl : s.env.core.cmdLine = a.wire ++ l) (hne : l ≠ []) :
    ∃ t, voltageCheck s = .ok false t ∧
      Exchanged f { s.env.core with cmdLine := l } (commandSent s.cfg 8 argCmd8) 8 argCmd8 a.bytes s t := by
  have hlen : a.bytes.length = 5 := by rw [Answer.good_length ha (kind := .sdr7) rfl, hw]; rfl
  obtain ⟨t, hrun, ht⟩ := executeCommand_good h (arg := argCmd8) ha hl hne
  refine ⟨t, ?_, ht⟩
  simp only [voltageCheck, bind_ok (sdPort_run h), bind_ok (attempt_ok hrun), hw,
    bind_ok (respByte_run ht.resp (i := 0) (by omega)), hill, if_true, pure_run]

/-! ### ACMD41 (R138) -/

/-- The frame marks no round in `seq`. -/
theorem noMark_quiet (_ : Nat) (s : State) (hq : Quiet s f) : ∃ t, (pure () : Op Unit) s = .ok () t ∧
    Went f .command s.env.core [] s t ∧ t.sess = s.sess ∧ t.env = s.env :=
  ⟨s, rfl, .refl _ hq, rfl, rfl⟩

/-- A poll whose rounds all say not ready ends at its cap, at whole bytes behind its first round (R138). -/
theorem pollReady_absent (h : OnPort s f) {rounds : List (Answer × Answer)} (hcap : rounds.length = s.cfg.acmd41Max)
    (hpos : rounds ≠ [])
    (hw : ∀ r ∈ rounds, roundGood s.cfg (s.cfg.fam f).wire r ∧ saysReady (s.cfg.fam f).wire r.2 = false)
    (hl : s.env.core.cmdLine = (rounds.flatMap fun r => r.1.wire ++ r.2.wire) ++ l) (hne : l ≠ []) :
    ∃ t, pollReady (fun _ => pure ()) arg s = .error (.cause .absent) t ∧
      Went f .command { s.env.core with cmdLine := l } ((List.replicate rounds.length (roundSent s.cfg arg)).flatten) s t ∧
      t.sess = { s.sess with bitlen := .b8 } := by
  obtain ⟨first, rest, rfl⟩ := List.exists_cons_of_ne_nil hpos
  obtain ⟨hgood, hno⟩ := hw first (.head _)
  obtain ⟨t, u, hsend, htest, hu, hsess⟩ := round_quiet h (arg := arg) hgood
    (l := (rest.flatMap fun r => r.1.wire ++ r.2.wire) ++ l) (by rw [hl]; simp) (by simp [hne])
  rw [hno, if_neg Bool.false_ne_true] at hsess
  have hcfg := hu.cfg
  obtain ⟨w, hloop, hrest, hsess'⟩ := pollLoop_waits (F := .command) (arg := arg) rfl rfl noMark_quiet rest
    (h.went hu rfl) (by rw [hsess]) (fun r hr => by rw [hcfg]; exact hw r (.tail _ hr)) (n := 0) (k := 1)
    (by rw [hu.env]) hne
  rw [hcfg] at hloop hrest
  refine ⟨w, ?_, ?_, hsess'.trans hsess⟩
  · have hrun : pollLoop (fun _ => pure ()) arg (s.cfg.fam f).wire (rest.length + 1) 0 s =
        pollLoop (fun _ => pure ()) arg (s.cfg.fam f).wire rest.length 1 u := by
      simp only [pollLoop, pure_bind_run, bind_ok hsend, bind_ok htest, hno, Bool.false_eq_true, if_false]
    simp only [pollReady, bind_ok (sdPort_run h), get'_bind, ← hcap, List.length_cons, hrun]
    exact hloop
  · have hall := hu.trans hrest
    rw [hu.env] at hall
    simpa [List.replicate_succ] using hall

/-! ### Frames that do not return ok (R135) -/

theorem SameSession.busWidth (h : SameSession s t) : t.sess.busWidth = s.sess.busWidth := (congrArg Session.busWidth h :)

theorem SameSession.speed (h : SameSession s t) : t.sess.speed = s.sess.speed := (congrArg Session.speed h :)

/-- A frame other than CMD12 that ends in a cause keeps the session but for the bit length, in every environment. -/
theorem exec_fails_sameSession {i : Instr} (hi : usesEngine i = true) (h12 : i ≠ .cmd12) (hx : exec i s = .next t)
    (hr : t.result ≠ .ok) : SameSession s t := by
  have command : ∀ {app idx arg}, FailsSame (executeCommand app idx arg) := .of_touches (touches_executeCommand _ _ _) rfl
  cases i with
  | cmd0 => exact runHost_fails (x := goIdle) command hx hr
  | cmd8 => exact runHost_same (touches_voltageCheck.bind fun _ => .pure _) rfl hx
  | cmd55 rca crc => exact runHost_fails command hx hr
  | acmd41 arg crc => exact runHost_fails (pollReady_fails (F := {}) (fun _ => .pure _) rfl arg) hx hr
  | cmd2 => exact runHost_fails (x := readCid) command hx hr
  | cmd3 => exact runHost_fails publishRca_fails hx hr
  | cmd7 rca crc => exact runHost_fails (.of_touches (touches_selectCard rca) rfl) hx hr
  | acmd6 => exact runHost_fails widenBus_fails hx hr
  | cmd6 => exact runHost_fails highSpeed_fails hx hr
  | cmd58 => exact runHost_fails readOcr_fails hx hr
  | cmd12 => exact absurd rfl h12
  | cmd18 arg crc => exact runHost_fails (openAtArg_fails _ _ arg) hx hr
  | cmd25 arg crc => exact runHost_fails (openAtArg_fails _ _ arg) hx hr
  | executeCommand idx arg => exact runHost_fails command ((exec_executeCommand idx arg s).symm.trans hx) hr
  | sendAppCommand idx rca arg => exact runHost_fails (.of_touches (touches_sendAppCommand idx rca arg) rfl) hx hr
  | _ => cases hi

/-! ### Host operations -/

/-- CMD0, CMD2 and CMD55 are one command each (R136, R139, R140). -/
theorem exec_simpleFrame {i : Instr} {idx : BitVec 6} {rca : Half} {crc : BitVec 7}
    (hi : (i, idx, arg) = (Instr.cmd0, 0, 0) ∨ (i, idx, arg) = (Instr.cmd2, 2, 0) ∨
      (i, idx, arg) = (Instr.cmd55 rca crc, 55, rcaArg rca)) (s : State) :
    exec i s = runHost (do executeCommand false idx arg; pure .ok) s := by
  simp only [Prod.mk.injEq] at hi
  obtain ⟨rfl, rfl, rfl⟩ | ⟨rfl, rfl, rfl⟩ | ⟨rfl, rfl, rfl⟩ := hi
  · rfl
  · rfl
  · rfl

theorem exec_cmd8 (s : State) : exec .cmd8 s = runHost (do let v ← voltageCheck; pure (.version v)) s := rfl

theorem exec_acmd41 (arg : Word) (crc : BitVec 7) (s : State) :
    exec (.acmd41 arg crc) s = runHost (do pollReady (fun _ => pure ()) arg; pure .ok) s := rfl

theorem exec_cardInit (s : State) : exec .cardInit s = runHost (do cardInit; pure .ok) s := rfl

theorem exec_cardStop (s : State) : exec .cardStop s = runHost (do cardStop; pure .ok) s := rfl

/-- The result of a step is no part of the bus. -/
theorem Restored.withResult (h : Restored s t) (r : HostResult) : Restored s { t with result := r } :=
  ⟨h.owner, h.saved, h.native, h.dom⟩

theorem mayInit_of (h : s.cfg.initRequired = false ∨ s.initDone = true ∨ s.sess.ready = true) : s.mayInit = true := by
  rcases h with h | h | h <;> simp [State.mayInit, h]

end Sys2Proof.Machine

namespace Sys2Proof.Proofs

open Sys2Proof.Machine

/-- Settles O13: each of the three is one command (`exec_simpleFrame`) whose answer is good. -/
theorem simpleFrames : Obligations.SimpleFrames := by
  intro s f a l rca crc hp hne hl i idx arg hi hgood
  rw [exec_simpleFrame hi]
  obtain ⟨t, hrun, ht⟩ := executeCommand_good hp (arg := arg) hgood hl hne
  exact ⟨_, runHost_then hrun, ht.did .ok⟩

/-- Settles O15: the echo is judged (`voltageCheck_echo`, `echoOk_iff`), or the card says version 1 by its status byte or by
silence. -/
theorem voltageCheck : Obligations.VoltageCheck := by
  intro s f l hp hne
  simp only [exec_cmd8]
  refine ⟨fun a ha hspi hl => ?_, fun a hfit hw hill hl => ?_, fun hl => ?_⟩
  · obtain ⟨t, ht, hrun⟩ := voltageCheck_echo hp ha hspi hl hne
    by_cases he : echoOk (a.bytes.getD 3 0) (a.bytes.getD 4 0) = true
    · rw [if_pos he] at hrun
      rw [if_pos (echoOk_iff.mp he)]
      exact ⟨_, runHost_ok (bind_ok hrun), ht.did _⟩
    · rw [if_neg he] at hrun
      rw [if_neg (mt echoOk_iff.mpr he)]
      exact ⟨_, runHost_cause (bind_error hrun), ht.did _⟩
  · have ha : a.good s.cfg (s.cfg.fam f).wire false 8 := by
      rw [hw] at hfit ⊢
      exact Answer.good_of_fits_spi rfl hfit
    obtain ⟨t, hrun, ht⟩ := voltageCheck_illegal hp hw ha hill hl hne
    exact ⟨_, runHost_ok (bind_ok hrun), ht.did _⟩
  · obtain ⟨t, hrun, ht⟩ := voltageCheck_silent hp hl hne
    exact ⟨_, runHost_ok (bind_ok hrun), ht.did _⟩

/-- Settles O16: the poll by induction over its rounds, to the one that says ready (`pollReady_quiet`) or to the cap
(`pollReady_absent`). -/
theorem operatingConditionPoll : Obligations.OperatingConditionPoll := by
  intro s f arg crc l hp hne
  simp only [exec_acmd41]
  refine ⟨fun b hb hl => ?_, fun rounds hcap hpos hw hl => ?_⟩
  · obtain ⟨t, hrun, ht, hsess⟩ := pollReady_quiet (F := .command) rfl rfl noMark_quiet hp hb arg hl hne
    exact ⟨_, runHost_then hrun, ht.did .ok, hsess⟩
  · obtain ⟨t, hrun, ht, hsess⟩ := pollReady_absent hp (arg := arg) hcap
      (List.length_pos_iff.mp (by omega)) hw hl hne
    rw [hcap] at ht
    exact ⟨_, runHost_then_cause hrun, ht.did _, hsess⟩

/-- Settles O17: a failing frame keeps the session (`exec_fails_sameSession`); CMD3 and CMD58 take theirs from the response
(`publishRca_quiet`, `readOcr_quiet`). -/
theorem publishedValues : Obligations.PublishedValues := by
  refine ⟨fun i s t hi h12 hx hr => (exec_fails_sameSession hi h12 hx hr).restored,
    fun s f a l hp hne hl => ⟨fun hw ha => ?_, fun ha => ?_⟩⟩
  · rw [← hw] at ha
    obtain ⟨t, hrun, ht, hsess⟩ := publishRca_quiet hp hw ha hl hne
    exact ⟨_, runHost_then hrun, ht.did .ok, hsess⟩
  · obtain ⟨t, hrun, ht, hsess⟩ := readOcr_quiet hp ha hl hne
    exact ⟨_, runHost_then hrun, ht.did .ok, hsess⟩

/-- Settles O19: the two exchanges and the write of `SD_CFG` (`widenBus_quiet`), which is the last event
(`widenBus_last`). -/
theorem widenBus : Obligations.WidenBus := by
  refine ⟨fun s t hx hr => ?_, fun s f a b l hp hne ha hb hl => ?_⟩
  · exact (exec_fails_sameSession (i := .acmd6) rfl nofun hx hr).busWidth
  · obtain ⟨t, hrun, ht, hsess⟩ := widenBus_quiet hp ha hb hl hne
    have hlast := widenBus_last hp hrun
    rw [hsess] at hlast
    exact ⟨_, runHost_then hrun, ht.did .ok, hsess, hlast⟩

/-- Settles O20: the exchange, the block and the write of `SD_CFG` (`highSpeed_quiet`), which is the last event
(`highSpeed_last`). -/
theorem highSpeed : Obligations.HighSpeed := by
  refine ⟨fun s t hx hr => ?_, fun s f a d tr ns m l h hne hm ha hl hd hb hlanes => ?_⟩
  · exact (exec_fails_sameSession (i := .cmd6) rfl nofun hx hr).speed
  · rw [← h.native] at ha
    obtain ⟨t, hrun, ht, hsess, -⟩ := highSpeed_quiet h ha hl hne hd hb hlanes hm
    have hlast := highSpeed_last h hrun
    rw [hsess] at hlast
    exact ⟨_, runHost_then hrun, ht.did .ok, hsess, hlast⟩

/-- Settles O33: the bring-up over the SPI wire to its end (`runBringUp_spi`, `runBringUp_spi_wrote`), or to the step that
fails (`runBringUp_spi_fails`). -/
theorem cardInitSpi : Obligations.CardInitSpi := by
  intro s f b v2 l h hmay ho hw hg hne
  have hinit := cardInit_ready h.probed h.cart (mayInit_of hmay)
  simp only [exec_cardInit]
  refine ⟨fun hl => ?_, fun x c bits out hfail hl => ?_⟩
  · obtain ⟨t, hrun, ht⟩ := runBringUp_spi h ho hw hg hl hne
    have hwrote := fun hpl => runBringUp_spi_wrote h ho hw hg hl hne hpl hrun
    exact ⟨_, runHost_then (hinit.trans hrun), ht.went.did .ok, ht.restored.withResult _, ht.rest, hwrote, ht.sess⟩
  · obtain ⟨t, hrun, ht⟩ := runBringUp_spi_fails h ho hw hg hfail hl hne
    exact ⟨_, runHost_then_cause (hinit.trans hrun), ht.went.did _, ht.restored.withResult _, ht.rest, ht.sess, ht.wrote⟩

/-- Settles O41: no stream (`cardStop_closed`), a stream on the SPI flavour (`cardStop_spi`), a stream on the native wire
(`cardStop_open`). -/
theorem cardStop : Obligations.CardStop := by
  refine ⟨fun s hm => runHost_then (cardStop_closed hm), fun s f hc hb hm ho hw => ?_,
    fun s f a busy m l h hm ho hw ha hl hne hbusy hlanes hmne => ?_⟩
  · obtain ⟨t, hrun⟩ := cardStop_spi hc hb hm ho hw
    exact runHost_bind_refuse hrun
  · obtain ⟨t, hrun, ht, hres, hsess⟩ := cardStop_open h ho hw hm ha hl hne hbusy hlanes hmne
    exact ⟨_, runHost_then hrun, ht.did .ok, hres.withResult _, hsess⟩

end Sys2Proof.Proofs
end

section
/-! PROOFS. The bring-up of a native and of an offloaded family, the mode-switch test and `disk_initialize`: each a short use of
the laws about `runBringUp` (43_card_sequencer.md R160, R163, R178; 46_block_adapter.md R222). -/

namespace Sys2Proof.Machine

variable {s t : State}

/-! ### The dispatch of a bring-up -/

theorem exec_diskInitialize {drive v : Byte} (h : diskInitialize drive s = .ok v t) :
    exec (.diskInitialize drive) s = .next { t with result := .status v } := runHost_ok (bind_ok h)

theorem cardInit_noCartridge (hp : s.probed = true) (hc : s.cartType = none) :
    cardInit s = .error (.cause .noCartridge) s := dispatch_none hp hc

theorem bringUpAgain_noCartridge (hp : s.probed = true) (hc : s.cartType = none) :
    bringUpAgain s = .error (.cause .noCartridge) s := dispatch_none hp hc

/-- A session that may be brought up is brought up as `disk_initialize` does it (R160, R222). -/
theorem cardInit_eq_bringUpAgain (hp : s.probed = true) (hi : s.mayInit = true) : cardInit s = bringUpAgain s := by
  cases hc : s.cartType with
  | none => rw [cardInit_noCartridge hp hc, bringUpAgain_noCartridge hp hc]
  | some f => rw [cardInit_ready hp hc hi, bringUpAgain_known hp hc]

theorem exec_cardInit_mayInit (hp : s.probed = true) (hi : s.mayInit = true) :
    exec .cardInit s = runHost (do bringUpAgain; pure .ok) s := by
  rw [exec_cardInit]
  simp only [runHost, bind, EStateM.bind, cardInit_eq_bringUpAgain hp hi]

/-- `card_init` of a ready session is a bring-up that does not look at `ready` (R160). -/
theorem exec_cardInit_readied {f : Family} (hp : s.probed = true) (hc : s.cartType = some f) :
    exec .cardInit s.readied = runHost (do bringUpAgain; pure .ok) s := by
  have hagain : ∀ u : State, u.probed = true → u.cartType = some f →
      runHost (do bringUpAgain; pure .ok) u = runHost (do runBringUp; pure .ok) u := fun u hu hcu => by
    simp only [runHost, bind, EStateM.bind, bringUpAgain_known hu hcu]
  rw [exec_cardInit_mayInit (s := s.readied) hp (mayInit_of (.inr (.inr rfl))), hagain _ hp hc,
    hagain s.readied hp hc, runBringUp_readied]

/-! ### `disk_initialize` -/

theorem driveInRange_iff {drive : Byte} : driveInRange s drive = true ↔ drive.toNat < s.cfg.nVolumes := by
  simp [driveInRange]

theorem diskInitialize_unbound {drive : Byte} (h : driveInRange s drive = false ∨ s.isBound drive = false) :
    diskInitialize drive s = .ok staNoinit s := by
  rcases h with h | h <;> cases hd : driveInRange s drive <;> simp_all [diskInitialize]

theorem diskInitialize_ready {drive : Byte} (hd : driveInRange s drive = true) (hb : s.isBound drive = true)
    (hr : s.sess.ready = true) :
    diskInitialize drive s = .ok 0 { s with noinit := s.noinit.set drive.toNat false } := by
  simp only [diskInitialize, get'_bind, id, hd, hb, hr, Bool.not_true, Bool.false_eq_true, if_false, if_true]
  rfl

section Down

variable {drive : Byte} (hd : driveInRange s drive = true) (hb : s.isBound drive = true) (hr : s.sess.ready = false)
include hd hb hr

/-- A bound drive whose session is down: its bit is cleared where the bring-up succeeds (R222). -/
theorem diskInitialize_broughtUp (h : bringUpAgain s = .ok () t) :
    diskInitialize drive s = .ok 0 { t with noinit := s.noinit.set drive.toNat false } := by
  have hn : t.noinit = s.noinit := ((touches_bringUpAgain.of_ok h).disk rfl).2
  simp only [diskInitialize, get'_bind, id, hd, hb, hr, Bool.not_true, Bool.false_eq_true, if_false, bind_ok (attempt_ok h)]
  rw [← hn]
  rfl

/-- It is set where the bring-up ends in a cause (R222). -/
theorem diskInitialize_failed {c : Cause} (h : bringUpAgain s = .error (.cause c) t) :
    diskInitialize drive s = .ok staNoinit { t with noinit := s.noinit.set drive.toNat true } := by
  have hn : t.noinit = s.noinit := ((touches_bringUpAgain.of_error h).disk rfl).2
  simp only [diskInitialize, get'_bind, id, hd, hb, hr, Bool.not_true, Bool.false_eq_true, if_false,
    bind_ok (attempt_cause h)]
  rw [← hn]
  rfl

end Down

/-- What a host operation with a result of its value can answer: that result, or a cause. -/
theorem runHost_value_cases {α : Type} {x : Op α} {y : α → HostResult}
    (h : runHost (do let a ← x; pure (y a)) s = .next t) :
    (∃ a u, x s = .ok a u ∧ t = { u with result := y a }) ∨
      ∃ c u, x s = .error (.cause c) u ∧ t = { u with result := .error c } := by
  cases hx : x s with
  | ok a u =>
    simp only [runHost, bind_ok hx, pure_run] at h
    cases h
    exact .inl ⟨a, u, rfl, rfl⟩
  | error e u =>
    cases e with
    | cause c =>
      simp only [runHost, bind_error hx] at h
      cases h
      exact .inr ⟨c, u, rfl, rfl⟩
    | refuse q => rw [runHost_bind_refuse hx] at h; cases h
    | fault q => rw [runHost_bind_fault hx] at h; cases h

/-- The same of one with a fixed result. -/
theorem runHost_then_cases {x : Op Unit} {r : HostResult} (h : runHost (do x; pure r) s = .next t) :
    (∃ u, x s = .ok () u ∧ t = { u with result := r }) ∨
      ∃ c u, x s = .error (.cause c) u ∧ t = { u with result := .error c } :=
  (runHost_value_cases h).imp_left fun ⟨_, u, hx, ht⟩ => ⟨u, hx, ht⟩

end Sys2Proof.Machine

namespace Sys2Proof.Proofs

open Sys2Proof.Machine

/-- Settles O39: the test read off its definition, and the branch of `ensure_mode` it selects. -/
theorem modeSwitchTest : Obligations.ModeSwitchTest := by
  intro ss m lba
  refine ⟨?_, fun s hs h => ?_⟩
  · have hlba : lba = ss.lastLba + 1 ↔ lba.toNat = (ss.lastLba.toNat + 1) % 2 ^ 32 := by
      rw [← BitVec.toNat_inj, BitVec.toNat_add]
      rfl
    rw [← hlba]
    simp [needsSwitch]
  · subst hs
    simp [ensureMode, onlyIf, h]

/-- Settles O32: not ready before an asked-for `init` (`cardInit_before`), else the bring-up over the native wire to its end
(`runBringUp_native`, `runBringUp_native_wrote`), or to the step that fails (`runBringUp_native_fails`). -/
theorem cardInitNative : Obligations.CardInitNative := by
  refine ⟨fun s hreq hp hc hi hr => ?_, fun s f b v2 l m h hmay ho hw hg hne hm => ?_⟩
  · obtain ⟨f, hf⟩ := Option.ne_none_iff_exists'.mp hc
    have hbefore := cardInit_before hp hf (show s.mayInit = false by simp [State.mayInit, hreq, hi, hr])
    rw [exec_cardInit, runHost_then_cause hbefore, ← hr]
  · have hinit := cardInit_ready h.probed h.cart (mayInit_of hmay)
    simp only [exec_cardInit]
    refine ⟨fun hl hd => ?_, fun x c bits nibs out hfail hl hd => ?_⟩
    · obtain ⟨t, hrun, ht⟩ := runBringUp_native h ho hw hg hl hne hd hm
      have hwrote := fun hpl => runBringUp_native_wrote h ho hw hg hl hne hd hm hpl hrun
      exact ⟨_, runHost_then (hinit.trans hrun), ht.went.did .ok, ht.restored.withResult _, ht.rest, hwrote, ht.sess⟩
    · obtain ⟨t, hrun, ht⟩ := runBringUp_native_fails h ho hw hg hfail hl hne hd hm
      exact ⟨_, runHost_then_cause (hinit.trans hrun), ht.went.did _, ht.restored.withResult _, ht.rest, ht.sess, ht.wrote⟩

/-- Settles O34: the one cartridge command that brings the card up (`runBringUp_offload`), or fails with
`'i'(SD_OP_DEINIT, 0)` behind it (`runBringUp_deinits`) and the session down (`runBringUp_ends`). -/
theorem cardInitOffload : Obligations.CardInitOffload := by
  refine ⟨fun s f r0 r1 xs ys ws h hmay ho hx hy hw hne => ?_, fun s f c issued ws l h hmay hc hs hne hidle => ?_⟩
  · obtain ⟨t, hrun, ht, hcb, hswap, hcmd⟩ := runBringUp_offload h ho hx hy hw hne
    exact ⟨_, runHost_then ((cardInit_ready h.probed h.cart (mayInit_of hmay)).trans hrun), ht.went.did .ok, hcmd,
      ht.restored.withResult _, ht.rest, hswap, hcb, ht.sess⟩
  · obtain ⟨t, hrun, hcmd⟩ := runBringUp_deinits h hc hs hne hidle
    have hdown := (wp_error (runBringUp_ends s) hrun).1
    exact ⟨_, runHost_then_cause ((cardInit_ready h.probed h.cart (mayInit_of hmay)).trans hrun), rfl, hdown, hcmd⟩

/-- Settles O46: the three ways `disk_initialize` ends (`diskInitialize_unbound`, `diskInitialize_ready`,
`diskInitialize_broughtUp` or `diskInitialize_failed`), and that its bring-up is `card_init`'s. -/
theorem diskInitialize : Obligations.DiskInitialize := by
  refine ⟨fun s hp hmay => exec_cardInit_mayInit hp (mayInit_of hmay), fun s hp hc => ?_,
    fun s hp hc => runHost_then_cause (bringUpAgain_noCartridge hp hc), fun s drive => ⟨fun h => ?_, fun hd hb => ?_⟩⟩
  · obtain ⟨f, hf⟩ := Option.ne_none_iff_exists'.mp hc
    exact (exec_cardInit_readied hp hf).symm
  · exact exec_diskInitialize (diskInitialize_unbound (h.imp_left fun h => by simpa [driveInRange] using h))
  · have hd := driveInRange_iff.mpr hd
    refine ⟨fun hr => exec_diskInitialize (diskInitialize_ready hd hb hr), fun hr t ht => ?_⟩
    rcases runHost_then_cases ht with ⟨u, hu, rfl⟩ | ⟨c, u, hu, rfl⟩
    · exact ⟨fun _ => exec_diskInitialize (diskInitialize_broughtUp hd hb hr hu), nofun⟩
    · exact ⟨nofun, fun _ _ => exec_diskInitialize (diskInitialize_failed hd hb hr hu)⟩

end Sys2Proof.Proofs
end

section
/-! PROOFS. How a bracket and a dispatched operation end, whatever the environment answers: the inversions that the claims in
every environment are derived from (45_autodetect_dispatch.md R214, 47_bus_dma.md R235 to R238, 60_exceptions.md R270). -/

namespace Sys2Proof.Machine

variable {α β : Type} {f : Family} {s t : State} {a : α} {c : Cause}

/-! ### Caught outcomes -/

/-- What is caught is the operation's value, or its cause. -/
theorem attempt_eq_ok {x : Op α} {r : Except Cause α} (h : attempt x s = .ok r t) :
    (∃ a, r = .ok a ∧ x s = .ok a t) ∨ ∃ c, r = .error c ∧ x s = .error (.cause c) t := by
  unfold attempt at h
  split at h <;> cases h
  · exact .inl ⟨_, rfl, by assumption⟩
  · exact .inr ⟨_, rfl, by assumption⟩

/-! ### The bracket -/

theorem acquireBus_eq_ok (h : acquireBus s = .ok () t) : ∃ f, s.cartType = some f ∧ s.busOwner = .native ∧ Acquired f s t := by
  cases hc : s.cartType with
  | none => simp [acquireBus, hc] at h
  | some f =>
    cases hb : s.busOwner with
    | cart g => rw [acquireBus_nested hc hb] at h; cases h
    | native =>
      obtain ⟨u, hrun, hu⟩ := acquireFor_run f hb
      simp only [acquireBus, get'_bind, hc, hrun] at h
      cases h
      exact ⟨f, rfl, rfl, hu⟩

theorem releaseBus_eq_ok (h : releaseBus s = .ok () t) : ∃ f, s.busOwner = .cart f ∧ s.nativeSaved = true ∧ Released f s t := by
  cases hb : s.busOwner with
  | native => simp [releaseBus, hb] at h
  | cart f =>
    cases hn : s.nativeSaved with
    | false => simp [releaseBus, hb, hn] at h
    | true =>
      obtain ⟨u, hrun, hu⟩ := releaseBus_run hb hn
      rw [hrun] at h
      cases h
      exact ⟨f, rfl, rfl, hu⟩

/-- A bracket that ends in a value: acquired, run, released (R179). -/
theorem bracketed_eq_ok {clean : Op Unit} {body : Op α} (h : bracketed clean body s = .ok a t) :
    ∃ f u v g, s.cartType = some f ∧ s.busOwner = .native ∧ Acquired f s u ∧ body u = .ok a v ∧ Released g v t := by
  obtain ⟨_, u, hacq, h⟩ := bind_eq_ok.mp h
  obtain ⟨f, hc, hb, hu⟩ := acquireBus_eq_ok hacq
  obtain ⟨r, v, hbody, h⟩ := bind_eq_ok.mp h
  rcases attempt_eq_ok hbody with ⟨b, rfl, hrun⟩ | ⟨c, rfl, hrun⟩
  · obtain ⟨_, w, hrel, h⟩ := bind_eq_ok.mp h
    obtain ⟨g, -, -, hw⟩ := releaseBus_eq_ok hrel
    cases h
    exact ⟨f, u, v, g, hc, hb, hu, hrun, hw⟩
  · obtain ⟨_, w, -, h⟩ := bind_eq_ok.mp h
    obtain ⟨_, x, -, h⟩ := bind_eq_ok.mp h
    cases h

/-- A bracket that ends in a cause: its body did, and it was cleaned up and released (R270). -/
theorem bracketed_eq_cause {clean : Op Unit} {body : Op α} (hclean : NoCause clean)
    (h : bracketed clean body s = .error (.cause c) t) :
    ∃ f u v w g, s.cartType = some f ∧ s.busOwner = .native ∧ Acquired f s u ∧ body u = .error (.cause c) v ∧
      clean v = .ok () w ∧ Released g w t := by
  rcases bind_eq_error.mp h with h | ⟨_, u, hacq, h⟩
  · exact absurd h (noCause_acquireBus _ _ _)
  obtain ⟨f, hc, hb, hu⟩ := acquireBus_eq_ok hacq
  rcases bind_eq_error.mp h with h | ⟨r, v, hbody, h⟩
  · exact absurd h (NoCause.attempt _ _ _ _)
  rcases attempt_eq_ok hbody with ⟨b, rfl, hrun⟩ | ⟨d, rfl, hrun⟩
  · rcases bind_eq_error.mp h with h | ⟨_, w, -, h⟩
    · exact absurd h (noCause_releaseBus _ _ _)
    · cases h
  · rcases bind_eq_error.mp h with h | ⟨_, w, hcl, h⟩
    · exact absurd h (hclean _ _ _)
    rcases bind_eq_error.mp h with h | ⟨_, x, hrel, h⟩
    · exact absurd h (noCause_releaseBus _ _ _)
    obtain ⟨g, -, -, hx⟩ := releaseBus_eq_ok hrel
    cases h
    exact ⟨f, u, v, w, g, hc, hb, hu, hrun, hcl, hx⟩

theorem Acquired.sess (h : Acquired f s t) : t.sess = s.sess := h.same.session_eq rfl rfl

theorem Released.sess (h : Released f s t) : t.sess = s.sess := h.same.session_eq rfl rfl

/-! ### The probe and the dispatch -/

theorem noCause_probeLoop (l : List Family) (i : Nat) : NoCause (probeLoop l i) := by
  induction l generalizing i with
  | nil => exact .bind (.upd _) fun _ => .bind (.upd _) fun _ => .pure _
  | cons f l ih =>
    exact .bind (.upd _) fun _ => .bind (noCause_probeOne f) fun _ =>
      .ite (.bind (.upd _) fun _ => .bind (.upd _) fun _ => .pure _) (ih _)

/-- The probe itself ends in no cause: it answers that there is no cartridge (R210). -/
theorem noCause_probeOp : NoCause probeOp :=
  .bind (.get' _) fun _ => .ite (.get' _) (.bind (.get' _) fun _ => noCause_probeLoop _ _)

/-- A dispatched operation that ends in a value: the handler of the family the probe found did (R214). -/
theorem dispatch_eq_ok {handler : Family → Op α} (h : dispatch handler s = .ok a t) :
    ∃ f u, probeOp s = .ok (some f) u ∧ handler f u = .ok a t := by
  obtain ⟨o, u, hp, h⟩ := bind_eq_ok.mp h
  cases o with
  | none => cases h
  | some f => exact ⟨f, u, hp, h⟩

/-- A dispatched operation that ends in a cause: no cartridge, or the handler's (R214). -/
theorem dispatch_eq_cause {handler : Family → Op α} (h : dispatch handler s = .error (.cause c) t) :
    c = .noCartridge ∨ ∃ f u, probeOp s = .ok (some f) u ∧ handler f u = .error (.cause c) t := by
  rcases bind_eq_error.mp h with h | ⟨o, u, hp, h⟩
  · exact absurd h (noCause_probeOp _ _ _)
  cases o with
  | none => cases h; exact .inl rfl
  | some f => exact .inr ⟨f, u, hp, h⟩

/-! ### The clean-ups end in no cause -/

theorem NoCause.bestEffort (x : Op α) : NoCause (bestEffort x) := .bind (.attempt _) fun _ => .pure _

theorem NoCause.onlyIf {b : Bool} {x : Op Unit} (h : NoCause x) : NoCause (onlyIf b x) := .ite h (.pure _)

theorem noCause_resetPort : NoCause resetPort :=
  .bind noCause_famParams fun _ => .bind (.get' _) fun _ => .ite (.bestEffort _) (.bind (.get' _) fun _ =>
    .bind (.bestEffort _) fun _ => .bestEffort _)

theorem noCause_abortTransfer : NoCause abortTransfer :=
  .bind noCause_famParams fun _ => .bind (.get' _) fun _ => .bind (.onlyIf (.bestEffort _)) fun _ =>
    .bind (.upd _) fun _ => noCause_resetPort

theorem noCause_putDown : NoCause putDown := .bind (.upd _) fun _ => .upd _

/-! ### A transfer -/

/-- The body a transfer of family `f` runs in its bracket: the offloaded one, or the native one (R165, R166, R178). -/
def TransferRuns (q : FamilyParams) (offloaded : Word → Op Unit) (native body : Op Unit) : Prop :=
  q.offload = true ∧ body = swapTransfer (offloaded q.cartBuf) ∨ q.offload = false ∧ q.wire = .sdNative ∧ body = native

/-- A transfer with a ready session is refused, or is one bracket (R165, R166). -/
theorem transferBody_cases (f : Family) (buf lba count : Word) (offloaded : Word → Op Unit) (native : Op Unit) (s : State) :
    (∃ r, transferBody s.cfg f buf lba count offloaded native s = .error (.refuse r) s) ∨
      ∃ body, TransferRuns (s.cfg.fam f) offloaded native body ∧
        transferBody s.cfg f buf lba count offloaded native s = bracketed abortTransfer body s := by
  cases hop : operandRefusal s.cfg buf lba count with
  | some r => exact .inl ⟨r, transferBody_refused hop⟩
  | none =>
    cases ho : (s.cfg.fam f).offload with
    | true => exact .inr ⟨_, .inl ⟨ho, rfl⟩, by simp only [transferBody, hop, ho, if_true]⟩
    | false =>
      cases hw : (s.cfg.fam f).wire with
      | spi => exact .inl ⟨_, transferBody_spi hop ho hw⟩
      | sdNative =>
        cases ha : blockArg s.sess.highCapacity lba with
        | none => exact .inl ⟨_, transferBody_noArg hop ho hw ha⟩
        | some arg =>
          exact .inr ⟨_, .inr ⟨ho, hw, rfl⟩, by
            simp only [transferBody, hop, ho, hw, nativeTransfer, get'_bind, ha, Bool.false_eq_true, if_false, reduceCtorEq]⟩

section Transfer

variable {buf lba count : Word} {offloaded : Word → Op Unit} {native : Op Unit}

/-- A transfer that ends in a value: the session was ready, and a bracket around a body did (R165). -/
theorem transfer_eq_ok (h : transfer buf lba count offloaded native s = .ok () t) :
    ∃ f u body, probeOp s = .ok (some f) u ∧ u.sess.ready = true ∧ TransferRuns (u.cfg.fam f) offloaded native body ∧
      bracketed abortTransfer body u = .ok () t := by
  obtain ⟨f, u, hp, h⟩ := dispatch_eq_ok h
  simp only [get'_bind] at h
  cases hr : u.sess.ready with
  | false => simp [hr] at h
  | true =>
    rw [hr, if_pos rfl] at h
    rcases transferBody_cases f buf lba count offloaded native u with ⟨r, hx⟩ | ⟨body, hb, hx⟩
    · rw [hx] at h; cases h
    · exact ⟨f, u, body, hp, hr, hb, hx.symm.trans h⟩

/-- A transfer that ends in a cause: no cartridge, a session that is not ready, or a bracket around a body that did. -/
theorem transfer_eq_cause (h : transfer buf lba count offloaded native s = .error (.cause c) t) :
    c = .noCartridge ∨ (∃ f, c = .notReady ∧ probeOp s = .ok (some f) t) ∨
      ∃ f u body, probeOp s = .ok (some f) u ∧ u.sess.ready = true ∧ TransferRuns (u.cfg.fam f) offloaded native body ∧
        bracketed abortTransfer body u = .error (.cause c) t := by
  rcases dispatch_eq_cause h with h | ⟨f, u, hp, h⟩
  · exact .inl h
  simp only [get'_bind] at h
  cases hr : u.sess.ready with
  | false =>
    simp only [hr, Bool.false_eq_true, if_false, raise_run, EStateM.Result.error.injEq, Halt.cause.injEq] at h
    obtain ⟨rfl, rfl⟩ := h
    exact .inr (.inl ⟨f, rfl, hp⟩)
  | true =>
    rw [hr, if_pos rfl] at h
    rcases transferBody_cases f buf lba count offloaded native u with ⟨r, hx⟩ | ⟨body, hb, hx⟩
    · rw [hx] at h; cases h
    · exact .inr (.inr ⟨f, u, body, hp, hr, hb, hx.symm.trans h⟩)

end Transfer

end Sys2Proof.Machine
end

section
/-! PROOFS. Between operations the bus is the rest of the machine's, at the launch timing (43_card_sequencer.md R179,
47_bus_dma.md R240, R245): what runs inside a bracket leaves the bus alone, and every bracket gives it back. -/

namespace Sys2Proof.Machine

variable {α : Type} {f g : Family} {s t u v : State}

/-! ### What runs inside a bracket leaves the bus alone -/

/-- Whatever a body or a clean-up may write inside its bracket. -/
def Foot.held : Foot := { Foot.inside with init := true }

theorem held_setSession (g : Session → Session) : Touches .held (setSession g) := (touches_session g).mono rfl

theorem held_countBlock : Touches .held countBlock := held_setSession fun ss => { ss with lastLba := ss.lastLba + 1 }

theorem held_readLoop (n dest : Nat) : Touches .held (readLoop n dest) := by
  induction n generalizing dest with
  | zero => exact .pure _
  | succ n ih =>
    exact ((touches_receiveBlock _).mono rfl).bind fun _ => ((touches_moveToRam _).mono rfl).bind fun _ =>
      held_countBlock.bind fun _ => ih _

theorem held_writeLoop (n src : Nat) : Touches .held (writeLoop n src) := by
  induction n generalizing src with
  | zero => exact .pure _
  | succ n ih =>
    exact ((touches_moveFromRam _).mono rfl).bind fun _ => .bind (.get' _) fun _ =>
      ((touches_sendBlock _).mono rfl).bind fun _ => held_countBlock.bind fun _ => ih _

theorem held_cartCommand (code : Byte) (a0 a1 : Word) : Touches .held (cartCommand code a0 a1) :=
  (touches_cartCommand code a0 a1).mono rfl

theorem held_offloadReadLoop (buf : Word) (n : Nat) (lba : Word) (dest : Nat) :
    Touches .held (offloadReadLoop buf n lba dest) := by
  induction n generalizing lba dest with
  | zero => exact .pure _
  | succ n ih =>
    exact (held_cartCommand _ _ _).bind fun _ => (held_cartCommand _ _ _).bind fun _ =>
      ((touches_moveToRam _).mono rfl).bind fun _ => ih _ _

theorem held_offloadWriteLoop (buf : Word) (n : Nat) (lba : Word) (src : Nat) :
    Touches .held (offloadWriteLoop buf n lba src) := by
  induction n generalizing lba src with
  | zero => exact .pure _
  | succ n ih =>
    exact ((touches_moveFromRam _).mono rfl).bind fun _ => (held_cartCommand _ _ _).bind fun _ =>
      (held_cartCommand _ _ _).bind fun _ => ih _ _

theorem held_nativeBody (m : AccessMode) (lba : Word) {loop : Op Unit} (h : Touches .held loop) :
    Touches .held (do ensureMode m lba; swapTransfer loop) :=
  ((touches_ensureMode m lba).mono rfl).bind fun _ => touches_swapTransfer rfl h

theorem held_abortTransfer : Touches .held abortTransfer :=
  touches_famParams.bind fun _ => .bind (.get' _) fun _ => .bind (.onlyIf (touches_stopStream.bestEffort.mono rfl)) fun _ =>
    (held_setSession _).bind fun _ => touches_resetPort.mono rfl

theorem held_bringUp : Touches .held bringUp :=
  (held_setSession _).bind fun _ => touches_famParams.bind fun _ =>
    .bind (.ite (touches_offloadBringUp.mono rfl) ((touches_wireBringUp _).mono rfl)) fun _ =>
    (held_setSession _).bind fun _ => (touches_setBringUpSeq _).mono rfl

theorem held_failBringUp : Touches .held failBringUp :=
  ((touches_setBringUpSeq _).mono rfl).bind fun _ => (touches_resetPort.mono rfl).bind fun _ =>
    touches_sessionDown.mono rfl

theorem held_putDown : Touches .held putDown :=
  (touches_sessionDown.mono rfl).bind fun _ => (touches_setInitDone _).mono rfl

/-- What `init` does behind the session it puts down (R188). -/
theorem held_initBody (f : Family) : Touches .held (initBody f) :=
  held_putDown.bind fun _ => ((touches_matchFamily f).mono rfl).bind fun _ => .ite
    (touches_famParams.bind fun _ => .bind (.onlyIf (touches_resetPort.mono rfl)) fun _ =>
      .bind (.forEach (fun _ => (held_cartCommand _ _ _).bind fun _ => .pure _) _) fun _ =>
      (touches_setInitDone _).mono rfl)
    (.raise _)

theorem held_exitBody (f : Family) : Touches .held (exitBody f) :=
  .bind (.get' _) fun _ => .bind (.onlyIf ((touches_swapDrive _).mono rfl)) fun _ =>
    .bind (.get' _) fun _ => ((touches_regWrite _ _).mono rfl).bind fun _ => held_putDown

/-! ### A bracket gives the bus back -/

/-- With the bus native and its invariant, so again after the run. -/
def BusBack (s t : State) : Prop := BusInv s → s.busOwner = .native → BusInv t ∧ t.busOwner = .native ∧ t.cfg = s.cfg

theorem order_busBack : Order BusBack where
  refl _ hi hb := ⟨hi, hb, rfl⟩
  trans h k hi hb := by
    obtain ⟨hi', hb', hc'⟩ := h hi hb
    obtain ⟨hi'', hb'', hc''⟩ := k hi' hb'
    exact ⟨hi'', hb'', hc''.trans hc'⟩

theorem BusInv.of_same {F : Foot} (hi : BusInv s) (h : SameOn F s t) (hF : F.bus = false) : BusInv t := by
  obtain ⟨hdom, hcfg, hsaved, howner⟩ := h.bus hF
  obtain ⟨saved, fresh, native, cart⟩ := hi
  constructor
  · rw [hsaved, hcfg, h.cfg]; exact saved
  · rw [hsaved, hdom, h.cfg, howner]; exact fresh
  · rw [howner, hsaved, hdom, hcfg]; exact native
  · rw [howner, hdom, h.cfg]; exact cart

theorem busBack_of_same {F : Foot} (h : SameOn F s t) (hF : F.bus = false) : BusBack s t := fun hi hb =>
  ⟨hi.of_same h hF, (h.owner hF).trans hb, h.cfg⟩

theorem busBack_touches {F : Foot} {x : Op α} (h : Touches F x) (hF : F.bus = false) : Every BusBack x :=
  .of_touches h fun _ _ hs => busBack_of_same hs hF

/-- What the next capture saves is the launch configuration (R240). -/
theorem BusInv.captured (hi : BusInv s) : captured s = s.cfg.launch := by
  cases hn : s.nativeSaved with
  | true => simp [Machine.captured, hn, hi.saved hn]
  | false => simp [Machine.captured, hn, (hi.fresh hn).1]

/-- Outside a bracket the live timing is the launch configuration (R245). -/
theorem BusInv.launch (hi : BusInv s) (hb : s.busOwner = .native) : s.piDom = s.cfg.launch := by
  cases hn : s.nativeSaved with
  | true => exact (hi.native hb hn).trans (hi.saved hn)
  | false => exact (hi.fresh hn).1

/-- From the acquire to the release of one bracket (R236, R237). -/
theorem busBack_of_bracket {F : Foot} (hu : Acquired f s u) (hm : SameOn F u v) (hF : F.bus = false)
    (ht : Released g v t) : BusBack s t := fun hi hb => by
  obtain ⟨-, hn, -, -⟩ := hm.bus hF
  have hcfg : t.cfg = s.cfg := ht.same.cfg.trans (hm.cfg.trans hu.same.cfg)
  have hnat : v.nativeCfg = s.cfg.launch := hn.trans (hu.native.trans (hi.captured))
  refine ⟨⟨fun _ => ?_, fun h => ?_, fun _ _ => ht.dom.trans ht.native.symm, fun g h => ?_⟩, ht.owner, hcfg⟩
  · rw [ht.native, hnat, hcfg]
  · rw [ht.saved] at h; cases h
  · rw [ht.owner] at h; cases h

theorem bracketed_busBack {clean : Op Unit} {body : Op α} (hn : NoCause clean) (hc : Touches .held clean)
    (hb : Touches .held body) : Every BusBack (bracketed clean body) := by
  refine .intro (fun s a t h => ?_) fun s c t h => ?_
  · obtain ⟨f, u, v, g, -, -, hu, hrun, ht⟩ := bracketed_eq_ok h
    exact busBack_of_bracket hu (hb.of_ok hrun) rfl ht
  · obtain ⟨f, u, v, w, g, -, -, hu, hrun, hclean, ht⟩ := bracketed_eq_cause hn h
    exact busBack_of_bracket hu ((hb.of_error hrun).trans (hc.of_ok hclean)) rfl ht

/-! ### The probe and the dispatched operations -/

theorem probeOne_busBack (f : Family) : Every BusBack (probeOne f) := by
  refine .intro (fun s m t h => ?_) fun s c t h => absurd h (noCause_probeOne f _ _ _)
  obtain ⟨_, u, hacq, h⟩ := bind_eq_ok.mp h
  cases hb : s.busOwner with
  | cart g => rw [acquireFor_nested hb] at hacq; cases hacq
  | native =>
    obtain ⟨u', hrun, hu⟩ := acquireFor_run f hb
    rw [hrun] at hacq
    cases hacq
    obtain ⟨r, v, hmatch, h⟩ := bind_eq_ok.mp h
    obtain ⟨_, w, hrel, h⟩ := bind_eq_ok.mp h
    obtain ⟨g, -, -, hw⟩ := releaseBus_eq_ok hrel
    have ht : t = w := by cases r <;> cases h <;> rfl
    rw [ht]
    exact busBack_of_bracket hu ((touches_matchFamily f).attempt.of_ok hmatch) rfl hw

theorem probeLoop_busBack (l : List Family) (i : Nat) : Every BusBack (probeLoop l i) := by
  have o := order_busBack
  have found : ∀ (c : Option Family) (q : ProbeSeq), Every BusBack (do
      upd fun s => { s with cartType := c, probed := true }
      setProbeSeq q
      pure c : Op (Option Family)) := fun c q =>
    .bind o (busBack_touches (F := { ident := true }) (.upd fun s => by constructor <;> simp) rfl) fun _ =>
      .bind o (busBack_touches (F := { seq := true }) (.upd fun s => by constructor <;> simp) rfl) fun _ => .pure o c
  induction l generalizing i with
  | nil => exact found none .noCart
  | cons f l ih =>
    exact .bind o (busBack_touches (F := { seq := true }) (.upd fun s => by constructor <;> simp) rfl) fun _ =>
      .bind o (probeOne_busBack f) fun _ => .ite (found (some f) (.bound f)) (ih _)

theorem probeOp_busBack : Every BusBack probeOp := by
  have o := order_busBack
  exact .bind o (.get' o _) fun _ => .ite (.get' o _) (.bind o (.get' o _) fun _ => probeLoop_busBack _ _)

theorem dispatch_busBack {handler : Family → Op α} (h : ∀ f, Every BusBack (handler f)) :
    Every BusBack (dispatch handler) := by
  refine .bind order_busBack probeOp_busBack fun c => ?_
  cases c with
  | none => exact .raise order_busBack _
  | some f => exact h f

theorem runBringUp_busBack : Every BusBack runBringUp :=
  .bind order_busBack (bracketed_busBack noCause_failBringUp held_failBringUp held_bringUp).attempt fun r =>
    .bind order_busBack (busBack_touches (touches_setBringUpSeq _) rfl) fun _ => .rethrow order_busBack r

theorem cardInit_busBack : Every BusBack cardInit := by
  have o := order_busBack
  exact dispatch_busBack fun _ => .bind o (.get' o _) fun _ => .ite runBringUp_busBack
    (.bind o (busBack_touches touches_sessionDown rfl) fun _ => .raise o _)

theorem nativeTransfer_busBack (lba : Word) {body : Op Unit} (h : Touches .held body) :
    Every BusBack (nativeTransfer lba body) := by
  refine .bind order_busBack (.get' order_busBack _) fun hc => ?_
  cases blockArg hc lba with
  | none => exact .refuse _
  | some arg => exact bracketed_busBack noCause_abortTransfer held_abortTransfer h

theorem transfer_busBack (buf lba count : Word) {offloaded : Word → Op Unit} {native : Op Unit}
    (ho : ∀ w, Touches .held (offloaded w)) (hn : Touches .held native) :
    Every BusBack (transfer buf lba count offloaded native) := by
  have o := order_busBack
  refine dispatch_busBack fun f => .bind o (.get' o _) fun p => .bind o (.get' o _) fun _ => .ite ?_ (.raise o _)
  unfold transferBody
  cases operandRefusal p buf lba count with
  | some r => exact .refuse r
  | none =>
    exact .ite (bracketed_busBack noCause_abortTransfer held_abortTransfer (touches_swapTransfer rfl (ho _)))
      (.ite (.refuse _) (nativeTransfer_busBack lba hn))

theorem cardRead_busBack (dest lba count : Word) : Every BusBack (cardRead dest lba count) :=
  transfer_busBack _ _ _ (fun _ => held_offloadReadLoop _ _ _ _) (held_nativeBody _ _ (held_readLoop _ _))

theorem cardWrite_busBack (src lba count : Word) : Every BusBack (cardWrite src lba count) :=
  transfer_busBack _ _ _ (fun _ => held_offloadWriteLoop _ _ _ _) (held_nativeBody _ _ (held_writeLoop _ _))

theorem cardStop_busBack : Every BusBack cardStop := by
  have o := order_busBack
  exact .bind o (.get' o _) fun _ =>
    .onlyIf o (bracketed_busBack (.pure _) (.pure _) (touches_stopStream.mono rfl))

theorem initOp_busBack : Every BusBack initOp := by
  have o := order_busBack
  exact dispatch_busBack fun f => .bind o (bracketed_busBack (.pure _) (.pure _) (held_initBody f)) fun _ => .get' o _

theorem exitOp_busBack : Every BusBack exitOp := by
  have o := order_busBack
  exact dispatch_busBack fun f => .bind o (.get' o _) fun _ => .bind o (.onlyIf o (cardStop_busBack.bestEffort o)) fun _ =>
    bracketed_busBack noCause_putDown held_putDown (held_exitBody f)

theorem setByteswap_busBack (on : Bool) : Every BusBack (setByteswap on) :=
  bracketed_busBack (.pure _) (.pure _) (touches_famParams.bind fun _ =>
    .ite (((touches_swapDrive _).bestEffort.mono rfl).bind fun _ => .upd fun s => by
      constructor <;> simp [Foot.held, Foot.inside, Foot.transfer])
      (.refuse _))

theorem setNoinit_busBack (drive : Byte) (v : Bool) : Every BusBack (setNoinit drive v) :=
  busBack_touches (touches_setNoinit drive v) rfl

theorem diskInitialize_busBack (drive : Byte) : Every BusBack (diskInitialize drive) := by
  have o := order_busBack
  have flag : ∀ v b, Every BusBack (do setNoinit drive v; pure b : Op Byte) := fun v b =>
    .bind o (setNoinit_busBack drive v) fun _ => .pure o b
  have again : Every BusBack bringUpAgain := dispatch_busBack fun _ => runBringUp_busBack
  refine .bind o (.get' o _) fun _ => .ite (.pure o _) (.ite (.pure o _) (.ite (flag _ _) (.bind o again.attempt fun r => ?_)))
  cases r with
  | ok _ => exact flag _ _
  | error _ => exact flag _ _

theorem diskTransfer_busBack (drive : Byte) (lba count : Word) {op : Op Unit} (h : Every BusBack op) :
    Every BusBack (diskTransfer drive lba count op) := by
  have o := order_busBack
  refine .bind o (.get' o _) fun s => ?_
  cases diskCheck s drive lba count with
  | some r => exact .pure o r
  | none =>
    refine .bind o h.attempt fun r => ?_
    split
    · exact .pure o _
    · exact .bind o (setNoinit_busBack drive true) fun _ => .pure o _
    · exact .pure o _

/-! ### Every instruction but `acquire` -/

theorem busBack_result (s : State) (r : HostResult) : BusBack s { s with result := r } := fun hi hb =>
  ⟨⟨hi.saved, hi.fresh, hi.native, hi.cart⟩, hb, rfl⟩

theorem runHost_busBack {x : Op HostResult} (h : Every BusBack x) (hx : runHost x s = .next t) : BusBack s t := by
  obtain ⟨u, hu, ht⟩ := runHost_every h hx
  rw [ht]
  exact order_busBack.trans hu (busBack_result u t.result)

/-- A host operation that ends with a result of its value. -/
theorem runHost_busBack_then {x : Op α} {y : α → HostResult} (h : Every BusBack x)
    (hx : runHost (do let a ← x; pure (y a)) s = .next t) : BusBack s t :=
  runHost_busBack (.bind order_busBack h fun _ => .pure order_busBack _) hx

/-- One without the bus in its footprint. -/
theorem runHost_busBack_outside {F : Foot} {x : Op α} {y : α → HostResult} (h : Touches F x) (hF : F.bus = false)
    (hx : runHost (do let a ← x; pure (y a)) s = .next t) : BusBack s t :=
  runHost_busBack_then (busBack_touches h hF) hx

/-- An instruction but the two of the bracket itself leaves the bus as it found it, native (R240, R245): a frame and a
cartridge command do not touch it, every other operation brackets what it does. -/
theorem exec_busBack {i : Instr} (hi : i ≠ .acquire) (hr : i ≠ .release) (h : exec i s = .next t) : BusBack s t := by
  have o := order_busBack
  have command : ∀ {app idx arg}, runHost (do executeCommand app idx arg; pure .ok) s = .next t → BusBack s t :=
    runHost_busBack_outside (touches_executeCommand _ _ _) rfl
  have cart : ∀ {code a0 a1}, runHost (cartOperation code a0 a1) s = .next t → BusBack s t :=
    runHost_busBack_outside (touches_cartCommand _ _ _) rfl
  cases i with
  | acquire => exact absurd rfl hi
  | release => exact absurd rfl hr
  | cmd0 => exact command h
  | cmd8 => exact runHost_busBack_outside touches_voltageCheck rfl h
  | cmd55 rca crc => exact command h
  | acmd41 arg crc => exact runHost_busBack_outside (touches_pollReady (F := .command) rfl (fun _ => .pure _) arg) rfl h
  | cmd2 => exact command h
  | cmd3 => exact runHost_busBack_outside touches_publishRca rfl h
  | cmd7 rca crc => exact runHost_busBack_outside (touches_selectCard rca) rfl h
  | acmd6 => exact runHost_busBack_outside touches_widenBus rfl h
  | cmd6 => exact runHost_busBack_outside touches_highSpeed rfl h
  | cmd58 => exact runHost_busBack_outside touches_readOcr rfl h
  | cmd12 => exact runHost_busBack_outside touches_stopStream rfl h
  | cmd18 arg crc => exact runHost_busBack_outside (touches_openAtArg _ _ _) rfl h
  | cmd25 arg crc => exact runHost_busBack_outside (touches_openAtArg _ _ _) rfl h
  | ccSdOp a0 a1 => exact cart h
  | ccSectorSet a0 a1 => exact cart h
  | ccRead a0 a1 => exact cart h
  | ccWrite a0 a1 => exact cart h
  | ccConfigSet a0 a1 => exact cart h
  | ccConfigGet a0 a1 => exact cart h
  | computeCrc7 bytes =>
    simp only [exec, execComputeCrc7] at h
    exact runHost_busBack_outside (F := { engine := true }) (.upd fun s => by constructor <;> simp) rfl h
  | computeCrc16 block =>
    simp only [exec, execComputeCrc16] at h
    exact runHost_busBack_outside (F := { lanes := true }) (.upd fun s => by constructor <;> simp) rfl h
  | executeCommand idx arg => exact command ((exec_executeCommand idx arg s).symm.trans h)
  | sendAppCommand idx rca arg => exact runHost_busBack_outside (touches_sendAppCommand idx rca arg) rfl h
  | init => exact runHost_busBack_then initOp_busBack h
  | exit => exact runHost_busBack_then exitOp_busBack h
  | cardInit => exact runHost_busBack_then cardInit_busBack h
  | cardRead dest lba count => exact runHost_busBack_then (cardRead_busBack dest lba count) h
  | cardWrite src lba count => exact runHost_busBack_then (cardWrite_busBack src lba count) h
  | cardStop => exact runHost_busBack_then cardStop_busBack h
  | setByteswap on => exact runHost_busBack_then (setByteswap_busBack on) h
  | probe =>
    refine runHost_busBack (.bind o probeOp_busBack fun c => ?_) h
    cases c with
    | none => exact .raise o _
    | some f => exact .pure o _
  | diskInitialize drive => exact runHost_busBack_then (diskInitialize_busBack drive) h
  | diskStatus drive =>
    simp only [exec, execDiskStatus] at h
    exact runHost_busBack_then (.get' o _) h
  | diskRead drive buffer lba count =>
    exact runHost_busBack_then (diskTransfer_busBack drive lba count (cardRead_busBack _ _ _)) h
  | diskWrite drive buffer lba count =>
    exact runHost_busBack_then (diskTransfer_busBack drive lba count (cardWrite_busBack _ _ _)) h
  | diskIoctl drive cmd buf =>
    simp only [exec, execDiskIoctl] at h
    exact runHost_busBack_then (.get' o _) h
  | bind drive => exact runHost_busBack_outside (touches_bindOp drive) rfl h

/-- With the bus native there is nothing to release (R236). -/
theorem exec_release_native (hb : s.busOwner = .native) : exec .release s = .refused .releaseWithoutAcquire :=
  runHost_bind_refuse (w := s) (by simp only [releaseBus, get'_bind, hb, refuse_run])

end Sys2Proof.Machine

namespace Sys2Proof.Proofs

open Sys2Proof.Machine

/-- Settles O59: every bracket gives the bus back (`exec_busBack`), and a native bus is at the launch timing
(`BusInv.launch`). -/
theorem nativeBetweenOperations : Obligations.NativeBetweenOperations := by
  intro i s t hi hb hne h
  by_cases hr : i = .release
  · rw [hr, exec_release_native hb] at h
    cases h
  · obtain ⟨hi', hb', hc⟩ := exec_busBack hne hr h hi hb
    exact ⟨hb', hc ▸ hi'.launch hb'⟩

end Sys2Proof.Proofs
end

section
/-! PROOFS. What reaches the cartridge's sector buffer: no transfer writes it beyond a sector, in any environment
(43_card_sequencer.md R171, R178; 47_bus_dma.md R244). With it the transfers that succeed, each by the law about its body. -/

namespace Sys2Proof.Machine

variable {α β : Type} {p : Params} {f : Family} {s t u : State} {dest src lba count : Word}

/-! ### The relation -/

/-- A bracket of family `f` under the parameters `p` stays one, and the buffer reads as before beyond a sector. -/
def BeyondSame (p : Params) (f : Family) (s t : State) : Prop :=
  s.cfg = p → s.busOwner = .cart f →
    t.cfg = p ∧ t.busOwner = .cart f ∧ ∀ a, sector ≤ a → t.cb.read a = s.cb.read a

theorem order_beyond (p : Params) (f : Family) : Order (BeyondSame p f) where
  refl _ hp hb := ⟨hp, hb, fun _ _ => rfl⟩
  trans h k hp hb := by
    obtain ⟨hp', hb', h'⟩ := h hp hb
    obtain ⟨hp'', hb'', h''⟩ := k hp' hb'
    exact ⟨hp'', hb'', fun a ha => (h'' a ha).trans (h' a ha)⟩

theorem beyond_touches {F : Foot} {x : Op α} (h : Touches F x) (hc : F.buffer = false) (hb : F.bus = false) :
    Every (BeyondSame p f) x :=
  .of_touches h fun _ _ hs hp ho => ⟨hs.cfg.trans hp, (hs.owner hb).trans ho, fun a _ => by rw [hs.buffer hc]⟩

theorem beyond_access {x : Op α} (h : Touches .access x) : Every (BeyondSame p f) x := beyond_touches h rfl rfl

/-- Bytes that end within a sector. -/
theorem beyond_writeBytes {a : Nat} {g : State → List Byte} (hg : ∀ s, a + (g s).length ≤ sector) :
    Every (BeyondSame p f) (upd fun s => { s with cb := s.cb.writeBytes a (g s) }) :=
  .upd fun s hp hb => ⟨hp, hb, fun _ hle => Memory.read_writeBytes_outside _ _ _ (.inr ((hg s).trans hle))⟩

/-- What follows an operation only has to keep a relation for the values it can answer. -/
theorem Every.bind_of_ok {R : State → State → Prop} (o : Order R) {x : Op α} {k : α → Op β} (hx : Every R x)
    (hk : ∀ s a t, x s = .ok a t → Every R (k a)) : Every R (x >>= k) := by
  refine .intro (fun s b u h => ?_) fun s c u h => ?_
  · obtain ⟨a, t, h1, h2⟩ := bind_eq_ok.mp h
    exact o.trans (hx.of_ok h1) ((hk s a t h1).of_ok h2)
  · rcases bind_eq_error.mp h with h1 | ⟨a, t, h1, h2⟩
    · exact hx.of_cause h1
    · exact o.trans (hx.of_ok h1) ((hk s a t h1).of_cause h2)

/-- Inside the bracket the family's parameters are known. -/
theorem beyond_famParams {k : FamilyParams → Op α} (hk : Every (BeyondSame p f) (k (p.fam f))) :
    Every (BeyondSame p f) (famParams >>= k) := by
  refine .intro (fun s a t h hp hb => ?_) fun s c t h hp hb => ?_ <;> rw [bind_ok (famParams_run hb), hp] at h
  · exact hk.of_ok h hp hb
  · exact hk.of_cause h hp hb

/-! ### Cartridge commands -/

theorem beyond_placeInBuffer {offset : Nat} {bs : List Byte} (h : offset + bs.length ≤ sector) :
    Every (BeyondSame p f) (placeInBuffer offset bs) :=
  beyond_writeBytes (g := fun s => if s.byteswap then swapPairs bs else bs) fun s => by
    cases s.byteswap <;> simpa [length_swapPairs] using h

/-- A command that brings no more than a sector to the start of the buffer, or nothing (R178). -/
def BringsSector (q : FamilyParams) (code : Byte) (a0 a1 : Word) : Prop := code = 0x73 → a0 = q.cartBuf ∧ a1 = 1

theorem readCount_self_le (q : FamilyParams) : readCount q q.cartBuf 1 ≤ sector := by
  have h1 : (1 : Word).toNat = 1 := rfl
  simp only [readCount, h1]
  omega

theorem beyond_cartSideEffect {code : Byte} {a0 a1 : Word} (h : BringsSector (p.fam f) code a0 a1) :
    Every (BeyondSame p f) (cartSideEffect code a0 a1) := by
  refine beyond_famParams ?_
  by_cases hc : code = 0x73
  · obtain ⟨rfl, rfl⟩ := h hc
    refine .onlyIf (order_beyond p f) (.bind_of_ok (order_beyond p f)
      (beyond_access (.many touches_nextSectorByte _)) fun s bs t hbs => beyond_placeInBuffer ?_)
    rw [readOffset_self, many_length hbs, Nat.zero_add]
    exact readCount_self_le _
  · have hne : (code == 0x73) = false := by simpa using hc
    rw [hne]
    exact .pure (order_beyond p f) _

theorem touches_cartIssue (code : Byte) (a0 a1 : Word) : Touches .access (cartIssue code a0 a1) :=
  touches_famParams.bind fun _ => (touches_spinOn rfl touches_pollStatus _).bind fun _ => (touches_regWrite _ _).bind fun _ =>
    (touches_regWrite _ _).bind fun _ => touches_regWrite _ _

theorem touches_cartFinish : Touches .access cartFinish :=
  touches_famParams.bind fun _ => (touches_spinOn rfl touches_pollStatus _).bind fun _ => .ite (.raise _)
    ((touches_regRead _).bind fun _ => (touches_regRead _).bind fun _ => .pure _)

theorem beyond_cartHandshake {code : Byte} {a0 a1 : Word} (h : BringsSector (p.fam f) code a0 a1) :
    Every (BeyondSame p f) (cartHandshake code a0 a1) := by
  have o := order_beyond p f
  exact .bind o (beyond_access (touches_cartIssue _ _ _)) fun _ => .bind o (beyond_access (touches_recordCommand _ _ _)) fun _ =>
    .bind o (beyond_cartSideEffect h) fun _ => beyond_access touches_cartFinish

theorem beyond_swapDrive (on : Bool) : Every (BeyondSame p f) (swapDrive on) := by
  have o := order_beyond p f
  have mirror : Every (BeyondSame p f) (upd fun s => { s with byteswap := on }) :=
    .upd fun s hp hb => ⟨hp, hb, fun _ _ => rfl⟩
  exact beyond_famParams (.ite (.bind o (beyond_cartHandshake fun h => absurd h (by decide)) fun _ => mirror)
    (.bind o (beyond_access (touches_regWrite _ _)) fun _ => mirror))

theorem beyond_swapAround {wrap : Bool} {body : Op α} (h : Every (BeyondSame p f) body) :
    Every (BeyondSame p f) (swapAround wrap body) := by
  have o := order_beyond p f
  refine .ite (.bind o (.get' o _) fun _ => .bind o (beyond_swapDrive _) fun _ => .bind o h.attempt fun r => ?_) h
  cases r with
  | ok a => exact .bind o (beyond_swapDrive _) fun _ => .pure o _
  | error c => exact .bind o ((beyond_swapDrive _).bestEffort o) fun _ => .raise o _

theorem beyond_cartCommand {code : Byte} {a0 a1 : Word} (h : BringsSector (p.fam f) code a0 a1) :
    Every (BeyondSame p f) (cartCommand code a0 a1) :=
  beyond_famParams (beyond_swapAround (beyond_cartHandshake h))

theorem beyond_swapTransfer {body : Op α} (h : Every (BeyondSame p f) body) : Every (BeyondSame p f) (swapTransfer body) :=
  beyond_famParams (beyond_swapAround h)

/-! ### Blocks and sector moves -/

theorem datRx_length {n : Nat} {bs : List Byte} (h : datRx n s = .ok bs t) : bs.length = n := by
  obtain ⟨q, _, -, h⟩ := bind_eq_ok.mp h
  simp only [get'_bind] at h
  obtain ⟨cs, _, hmany, h⟩ := bind_eq_ok.mp h
  cases h
  unfold datBytes at hmany
  split at hmany
  · obtain ⟨_, _, -, hmany⟩ := bind_eq_ok.mp hmany
    obtain ⟨_, _, -, hmany⟩ := bind_eq_ok.mp hmany
    obtain ⟨_, _, -, hmany⟩ := bind_eq_ok.mp hmany
    exact many_length hmany
  · exact many_length hmany

/-- A received sector fills the first 512 bytes of the buffer (R171). -/
theorem beyond_receiveSector : Every (BeyondSame p f) (receiveBlock sector) := by
  have o := order_beyond p f
  refine .bind o (beyond_touches touches_waitDataStart rfl rfl) fun _ => .bind_of_ok o (beyond_access (touches_datRx _))
    fun s d t hd => .bind o (.get' o _) fun _ => .bind o (beyond_access (touches_datRx _)) fun _ =>
    .bind o (beyond_touches touches_datRxBit rfl rfl) fun _ => .bind o (.get' o _) fun _ => .bind o (.onlyIf o ?_) fun _ =>
    .onlyIf o (beyond_placeInBuffer (by rw [datRx_length hd, Nat.zero_add]))
  exact .bind o (.upd fun s hp hb => ⟨hp, hb, fun _ _ => rfl⟩) fun _ => .ite (.pure o _) (.raise o _)

/-- What a sector move writes beside the cartridge's buffer. -/
def Foot.memory : Foot := { Foot.access with ram := true }

theorem memory_copyMoves (k src dst : Nat) : Touches .memory (copyMoves k src dst) := by
  induction k generalizing src dst with
  | zero => exact .pure _
  | succ k ih => exact touches_cacheAlone.bind fun _ => .bind (.upd fun s => (sameOn_move8 s _ _).mono rfl) fun _ => ih _ _

theorem memory_opCacheWbInv (a n : Nat) : Touches .memory (opCacheWbInv a n) :=
  touches_cacheAlone.bind fun _ => ((touches_emit _).mono rfl).bind fun _ => .upd fun s => (sameOn_cacheWbInv s a n).mono rfl

theorem memory_opCacheWb (a n : Nat) : Touches .memory (opCacheWb a n) :=
  touches_cacheAlone.bind fun _ => ((touches_emit _).mono rfl).bind fun _ => .upd fun s => (sameOn_cacheWb s a n).mono rfl

theorem memory_programToRam (a : Nat) (w : Word) : Touches .memory (programToRam a w) :=
  .upd fun s => by constructor <;> simp [Foot.memory, Foot.access]

theorem memory_programToCart (a : Nat) (w : Word) : Touches .memory (programToCart a w) :=
  .upd fun s => by constructor <;> simp [Foot.memory, Foot.access]

theorem memory_physWrite (g : State → List Byte) (a : Nat) :
    Touches .memory (upd fun s => { s with phys := s.phys.writeBytes a (g s) }) :=
  .upd fun s => by constructor <;> simp [Foot.memory]

/-- A DMA into RAM leaves the cartridge's buffer as it was (R244). -/
theorem memory_dmaFromCart (a : Nat) : Touches .memory (dmaFromCart a) := by
  refine touches_busFamily.bind fun _ => touches_famParams.bind fun _ => ((touches_piWaitIdle _).mono rfl).bind fun _ =>
    (memory_programToRam _ _).bind fun _ => ((touches_emit _).mono rfl).bind fun _ => touches_cacheAlone.bind fun _ =>
    ((touches_piWaitIdle _).attempt.mono rfl).bind fun r => ?_
  cases r with
  | ok _ => exact memory_physWrite (fun s => s.cb.readBytes 0 sector) a
  | error c => exact ((Touches.many touches_nextJunkByte _).mono rfl).bind fun _ => (memory_physWrite _ a).bind fun _ => .raise _

theorem memory_moveToRam (dest : Nat) : Touches .memory (moveToRam dest) :=
  .bind (.bind (.get' _) fun _ => .ite ((memory_opCacheWbInv _ _).bind fun _ => memory_dmaFromCart _)
    ((memory_opCacheWbInv _ _).bind fun _ => (memory_dmaFromCart _).bind fun _ => memory_copyMoves _ _ _)) fun _ =>
    touches_cacheAlone

theorem beyond_dmaToCart (a : Nat) : Every (BeyondSame p f) (dmaToCart a) := by
  have o := order_beyond p f
  have mem : ∀ {γ : Type} {x : Op γ}, Touches .memory x → Every (BeyondSame p f) x := fun h => beyond_touches h rfl rfl
  refine .bind o (mem touches_busFamily) fun _ => .bind o (mem touches_famParams) fun _ =>
    .bind o (beyond_access (touches_piWaitIdle _)) fun _ => .bind o (mem (memory_programToCart _ _)) fun _ =>
    .bind o (beyond_access (touches_emit _)) fun _ => .bind o (mem touches_cacheAlone) fun _ =>
    .bind o (beyond_access (touches_piWaitIdle _)).attempt fun r => ?_
  cases r with
  | ok _ => exact beyond_writeBytes fun s => by rw [Memory.length_readBytes, Nat.zero_add]
  | error c =>
    exact .bind_of_ok o (beyond_access (.many touches_nextJunkByte _)) fun s junk t h =>
      .bind o (beyond_writeBytes fun _ => by rw [many_length h, Nat.zero_add]) fun _ => .raise o _

theorem beyond_moveFromRam (src : Nat) : Every (BeyondSame p f) (moveFromRam src) := by
  have o := order_beyond p f
  have mem : ∀ {x : Op Unit}, Touches .memory x → Every (BeyondSame p f) x := fun h => beyond_touches h rfl rfl
  exact .bind o (.bind o (.get' o _) fun _ => .ite (.bind o (mem (memory_opCacheWb _ _)) fun _ => beyond_dmaToCart _)
    (.bind o (mem (memory_copyMoves _ _ _)) fun _ => .bind o (mem (memory_opCacheWb _ _)) fun _ => beyond_dmaToCart _))
    fun _ => mem touches_cacheAlone

/-! ### The loops -/

theorem beyond_countBlock : Every (BeyondSame p f) countBlock := beyond_touches (touches_session _) rfl rfl

theorem beyond_moveToRam (dest : Nat) : Every (BeyondSame p f) (moveToRam dest) :=
  beyond_touches (memory_moveToRam dest) rfl rfl

theorem beyond_readLoop (n dest : Nat) : Every (BeyondSame p f) (readLoop n dest) := by
  have o := order_beyond p f
  induction n generalizing dest with
  | zero => exact .pure o _
  | succ n ih =>
    exact .bind o beyond_receiveSector fun _ => .bind o (beyond_moveToRam _) fun _ => .bind o beyond_countBlock fun _ => ih _

theorem beyond_writeLoop (n src : Nat) : Every (BeyondSame p f) (writeLoop n src) := by
  have o := order_beyond p f
  induction n generalizing src with
  | zero => exact .pure o _
  | succ n ih =>
    exact .bind o (beyond_moveFromRam _) fun _ => .bind o (.get' o _) fun _ =>
      .bind o (beyond_touches (touches_sendBlock _) rfl rfl) fun _ => .bind o beyond_countBlock fun _ => ih _

theorem beyond_offloadReadLoop (n : Nat) (lba : Word) (dest : Nat) :
    Every (BeyondSame p f) (offloadReadLoop (p.fam f).cartBuf n lba dest) := by
  have o := order_beyond p f
  induction n generalizing lba dest with
  | zero => exact .pure o _
  | succ n ih =>
    exact .bind o (beyond_cartCommand fun h => absurd h (by decide)) fun _ =>
      .bind o (beyond_cartCommand fun _ => ⟨rfl, rfl⟩) fun _ => .bind o (beyond_moveToRam _) fun _ => ih _ _

theorem beyond_offloadWriteLoop (buf : Word) (n : Nat) (lba : Word) (src : Nat) :
    Every (BeyondSame p f) (offloadWriteLoop buf n lba src) := by
  have o := order_beyond p f
  induction n generalizing lba src with
  | zero => exact .pure o _
  | succ n ih =>
    exact .bind o (beyond_moveFromRam _) fun _ => .bind o (beyond_cartCommand fun h => absurd h (by decide)) fun _ =>
      .bind o (beyond_cartCommand fun h => absurd h (by decide)) fun _ => ih _ _

/-! ### Whole transfers -/

theorem beyond_nativeBody (m : AccessMode) (lba : Word) {loop : Op Unit} (h : Every (BeyondSame p f) loop) :
    Every (BeyondSame p f) (do ensureMode m lba; swapTransfer loop) :=
  .bind (order_beyond p f) (beyond_touches (touches_ensureMode m lba) rfl rfl) fun _ => beyond_swapTransfer h

theorem probeOp_known (hp : s.probed = true) : probeOp s = .ok s.cartType s := by
  simp only [probeOp, get'_bind, hp, if_true, get'_run]

/-- With a known cartridge, a transfer that ends in a value is one bracket around the family's body. -/
theorem transfer_known_ok {buf : Word} {offloaded : Word → Op Unit} {native : Op Unit} (hp : s.probed = true)
    (hc : s.cartType = some f) (h : transfer buf lba count offloaded native s = .ok () t) :
    ∃ body u v g, TransferRuns (s.cfg.fam f) offloaded native body ∧ Acquired f s u ∧ body u = .ok () v ∧ Released g v t := by
  obtain ⟨f', s', body, hprobe, -, hbody, h⟩ := transfer_eq_ok h
  rw [probeOp_known hp, hc] at hprobe
  cases hprobe
  obtain ⟨f', u, v, g, hc', -, hu, hrun, ht⟩ := bracketed_eq_ok h
  cases hc.symm.trans hc'
  exact ⟨body, u, v, g, hbody, hu, hrun, ht⟩

/-- A transfer that succeeds leaves the buffer beyond a sector as it was, whatever the environment answered. -/
theorem transfer_beyond {buf : Word} {offloaded : Word → Op Unit} {native : Op Unit}
    (ho : ∀ p f, Every (BeyondSame p f) (offloaded (p.fam f).cartBuf)) (hn : ∀ p f, Every (BeyondSame p f) native)
    (hp : s.probed = true) (hc : s.cartType = some f) (h : transfer buf lba count offloaded native s = .ok () t) :
    ∀ a, sector ≤ a → t.cb.read a = s.cb.read a := by
  obtain ⟨body, u, v, g, hbody, hu, hrun, ht⟩ := transfer_known_ok hp hc h
  have hevery : Every (BeyondSame s.cfg f) body := by
    rcases hbody with ⟨-, rfl⟩ | ⟨-, -, rfl⟩
    · exact beyond_swapTransfer (ho _ _)
    · exact hn _ _
  obtain ⟨-, -, hv⟩ := hevery.of_ok hrun hu.same.cfg hu.owner
  intro a ha
  rw [ht.same.buffer rfl, hv a ha, hu.same.buffer rfl]

theorem cardRead_beyond (hp : s.probed = true) (hc : s.cartType = some f) (h : cardRead dest lba count s = .ok () t) :
    ∀ a, sector ≤ a → t.cb.read a = s.cb.read a :=
  transfer_beyond (fun _ _ => beyond_offloadReadLoop _ _ _) (fun _ _ => beyond_nativeBody _ _ (beyond_readLoop _ _)) hp hc h

theorem cardWrite_beyond (hp : s.probed = true) (hc : s.cartType = some f) (h : cardWrite src lba count s = .ok () t) :
    ∀ a, sector ≤ a → t.cb.read a = s.cb.read a :=
  transfer_beyond (fun _ _ => beyond_offloadWriteLoop _ _ _ _) (fun _ _ => beyond_nativeBody _ _ (beyond_writeLoop _ _)) hp hc h

/-! ### The host operations -/

/-- A disk transfer that passes the adapter's checks is the card operation (R224, R225). -/
theorem diskTransfer_ok {drive : Byte} {op : Op Unit} (hck : diskCheck s drive lba count = none) (hop : op s = .ok () t) :
    diskTransfer drive lba count op s = .ok .ok t := by
  simp only [diskTransfer, get'_bind, id, hck, bind_ok (attempt_ok hop), pure_run]

/-- `card_read` and `disk_read` of a transfer that succeeds. -/
theorem exec_read_ok {i : Instr} {r : HostResult} (hi : (i = .cardRead dest lba count ∧ r = .ok) ∨
      ∃ drive, i = .diskRead drive dest lba count ∧ diskCheck s drive lba count = none ∧ r = .disk .ok)
    (h : cardRead dest lba count s = .ok () t) : exec i s = .next { t with result := r } := by
  rcases hi with ⟨rfl, rfl⟩ | ⟨drive, rfl, hck, rfl⟩
  · exact runHost_then h
  · exact runHost_ok (bind_ok (diskTransfer_ok hck h))

/-- `card_write` and `disk_write` of a transfer that succeeds. -/
theorem exec_write_ok {i : Instr} {r : HostResult} (hi : (i = .cardWrite src lba count ∧ r = .ok) ∨
      ∃ drive, i = .diskWrite drive src lba count ∧ diskCheck s drive lba count = none ∧ r = .disk .ok)
    (h : cardWrite src lba count s = .ok () t) : exec i s = .next { t with result := r } := by
  rcases hi with ⟨rfl, rfl⟩ | ⟨drive, rfl, hck, rfl⟩
  · exact runHost_then h
  · exact runHost_ok (bind_ok (diskTransfer_ok hck h))

/-! ### The six cartridge commands -/

/-- A cartridge command of the host is `cart_command` in front of the two result words (R178). -/
theorem exec_cartOperands {i : Instr} {code : Byte} {a0 a1 : Word} (h : cartOperands i = some (code, a0, a1)) (s : State) :
    exec i s = runHost (cartOperation code a0 a1) s := by
  cases i <;> cases h <;> rfl

/-- A body with the swap around it that ends in a value: the body did, between the two settings of the swap (R198). -/
theorem swapAround_eq_ok {wrap : Bool} {body : Op α} {a : α} (h : swapAround wrap body s = .ok a t) :
    ∃ v w, (if wrap then swapDrive true s = .ok () v else v = s) ∧ body v = .ok a w ∧
      if wrap then swapDrive s.byteswap w = .ok () t else t = w := by
  cases wrap with
  | false => exact ⟨s, t, rfl, h, rfl⟩
  | true =>
    simp only [swapAround, if_true, get'_bind] at h
    obtain ⟨_, v, hon, h⟩ := bind_eq_ok.mp h
    obtain ⟨r, w, hbody, h⟩ := bind_eq_ok.mp h
    rcases attempt_eq_ok hbody with ⟨b, rfl, hrun⟩ | ⟨c, rfl, -⟩
    · obtain ⟨_, x, hoff, h⟩ := bind_eq_ok.mp h
      cases h
      exact ⟨v, w, hon, hrun, hoff⟩
    · obtain ⟨_, x, -, h⟩ := bind_eq_ok.mp h
      cases h

/-- A command in an environment that answers at once leaves the event that holds its answer (R195). -/
theorem cartCommand_records {code : Byte} {a0 a1 r0 r1 : Word} (h : Held s f) {xs ys ws : List Word}
    (hx : xs.length = aroundWords (s.cfg.fam f) (wraps (s.cfg.fam f) code))
    (hw : s.env.words = xs ++ r0 :: r1 :: (ys ++ ws)) (hne : ws ≠ []) {bs sec : List Byte}
    (hs : s.env.sector = bs ++ sec) (hsec : bs = [] ∨ sec ≠ [])
    (hlen : bs.length = broughtBytes (s.cfg.fam f) code a0 a1) {p : Word × Word}
    (hrun : cartCommand code a0 a1 s = .ok p t) : Event.cartCmd code a0 a1 (some (r0, r1)) ∈ t.hist := by
  rw [cartCommand_around h.owner] at hrun
  obtain ⟨v, w, hon, hbody, hoff⟩ := swapAround_eq_ok hrun
  have hlater : Extends w t := by
    cases hwrap : wraps (s.cfg.fam f) code with
    | false => rw [hwrap] at hoff; exact .of_eq (congrArg State.hist hoff)
    | true => rw [hwrap] at hoff; exact ((lasts_swapDrive (w := {}) _).of_ok hoff).hist
  have hv : SameOn .cart s v ∧ Quiet v f ∧ v.env.core.words = r0 :: r1 :: (ys ++ ws) ∧
      v.env.core.sector = s.env.core.sector := by
    cases hwrap : wraps (s.cfg.fam f) code with
    | false =>
      rw [hwrap] at hx hon
      obtain rfl : v = s := by simpa using hon
      obtain rfl : xs = [] := List.eq_nil_of_length_eq_zero hx
      exact ⟨.refl _ _, h.quiet, hw, rfl⟩
    | true =>
      rw [hwrap] at hx hon
      obtain ⟨v', hrun', hd, -, -⟩ := swapDrive_quiet h.owner h.quiet true hx hw fun _ => by simp
      rw [if_pos rfl, hrun'] at hon
      cases hon
      exact ⟨hd.went.same, hd.went.quiet, by rw [hd.went.env], by rw [hd.went.env]⟩
  obtain ⟨hsame, hquiet, hwords, hsector⟩ := hv
  obtain ⟨w', hrun', -, -, hev⟩ := cartHandshake_quiet ((hsame.owner rfl).trans h.owner) hquiet code a0 a1 hwords
    (by simp [hne]) (hsector.trans hs) hsec (by rw [hsame.cfg]; exact hlen)
  rw [hrun'] at hbody
  cases hbody
  obtain ⟨later, ht⟩ := hlater
  exact ht ▸ List.mem_append_right _ hev

end Sys2Proof.Machine

namespace Sys2Proof.Proofs

open Sys2Proof.Machine

/-- Settles O23: the law about `cart_command` (`cartCommand_quiet`), and the event its handshake leaves. -/
theorem cartCommands : Obligations.CartCommands := by
  intro s f i code a0 a1 r0 r1 xs ys ws bs sec h hi hx hy hw hne hs hsec hlen
  obtain ⟨t, hrun, hd, hsw, hcb⟩ := cartCommand_quiet h.owner h.quiet code a0 a1 hx hy hw hne hs hsec hlen
  have hexec : exec i s = .next { t with result := .cart r0 r1 } := by
    rw [exec_cartOperands hi]
    exact runHost_ok (bind_ok hrun)
  have hevent := cartCommand_records h hx hw hne hs hsec hlen hrun
  exact ⟨_, hexec, hd.went.did _, hd.wrote, hd.issued, hevent, hsw, hcb⟩

/-- Settles O35: the law about the transfer (`cardRead_native`), and the buffer beyond a sector (`cardRead_beyond`). -/
theorem cardReadNative : Obligations.CardReadNative := by
  intro s f dest lba count arg b blocks l m xs ys ws h ho hn hb8 harg hg hlen hgood hl hne hd hm hw i r hi
  obtain ⟨t, hrun, hwent, hres, hsess, hsw, hinto⟩ := cardRead_native h.idle h.ready ho hn h.operands harg h.ram h.cb hb8 hg
    hlen hgood hl hne hd hm hw
  have hbeyond := cardRead_beyond h.idle.probed h.idle.cart hrun
  exact ⟨_, exec_read_ok hi hrun, hwent.did r, hres.withResult r, hsess, hsw,
    hbeyond, hinto⟩

/-- Settles O36: the law about the transfer (`cardWrite_native`), and the buffer beyond a sector (`cardWrite_beyond`). -/
theorem cardWriteNative : Obligations.CardWriteNative := by
  intro s f src lba count arg b tokens l m xs ys ws h ho hn hb8 harg hg hlen hgood hl hne hd hm hw i r hi
  obtain ⟨t, hrun, hwent, hres, hsess, hsw, hfrom⟩ := cardWrite_native h.idle h.ready ho hn h.operands harg h.ram h.cb hb8 hg
    hlen hgood hl hne hd hm hw
  have hbeyond := cardWrite_beyond h.idle.probed h.idle.cart hrun
  exact ⟨_, exec_write_ok hi hrun, hwent.did r, hres.withResult r, hsess, hsw,
    hbeyond, hfrom⟩

/-- Settles O37: the law about the transfer (`cardRead_offload`), and the buffer beyond a sector (`cardRead_beyond`). -/
theorem cardReadOffload : Obligations.CardReadOffload := by
  intro s f dest lba count sectors sec h ho hbuf hlen hall hs hne hw i r hi
  obtain ⟨t, hrun, hwent, hres, hsess, hsw, hcom, htra, hinto⟩ := cardRead_offload h.idle h.ready ho h.operands hbuf h.ram
    h.cb hlen hall hs hne hw
  have hbeyond := cardRead_beyond h.idle.probed h.idle.cart hrun
  exact ⟨_, exec_read_ok hi hrun, hwent.did r, hres.withResult r, hsess, hsw, hcom, htra,
    hbeyond, hinto⟩

/-- Settles O38: the law about the transfer (`cardWrite_offload`), and the buffer beyond a sector (`cardWrite_beyond`). -/
theorem cardWriteOffload : Obligations.CardWriteOffload := by
  intro s f src lba count h ho hw i r hi
  obtain ⟨t, hrun, hwent, hres, hsess, hsw, hcom, htra, hfrom, hlast⟩ := cardWrite_offload h.idle h.ready ho h.operands
    h.ram h.cb hw
  have hbeyond := cardWrite_beyond h.idle.probed h.idle.cart hrun
  exact ⟨_, exec_write_ok hi hrun, hwent.did r, hres.withResult r, hsess, hsw, hcom, htra,
    hbeyond, hlast, hfrom⟩

end Sys2Proof.Proofs
end

section
/-! PROOFS. Contiguous transfers: what moves blocks puts no byte on the command line, in any environment, and a transfer that
succeeds leaves its stream open behind its last block (43_card_sequencer.md R163 to R166, R175). -/

namespace Sys2Proof.Machine

variable {α β : Type} {f : Family} {s t u : State} {buf lba count : Word}

/-! ### No byte on the command line -/

def SameCommandLine (s t : State) : Prop := cmdBytes t.hist = cmdBytes s.hist

theorem order_sameCommandLine : Order SameCommandLine := ⟨fun _ => rfl, fun h k => Eq.trans k h⟩

/-- However the operation ends, no byte goes out on the command line. -/
def Uncommanded (x : Op α) : Prop := Every SameCommandLine x

namespace Uncommanded

theorem pure (a : α) : Uncommanded (Pure.pure a : Op α) := Every.pure order_sameCommandLine a
theorem get' (g : State → α) : Uncommanded (Machine.get' g) := Every.get' order_sameCommandLine g
theorem raise (c : Cause) : Uncommanded (Machine.raise c : Op α) := Every.raise order_sameCommandLine c
theorem refuse (r : Refusal) : Uncommanded (Machine.refuse r : Op α) := Every.refuse r

theorem bind {x : Op α} {k : α → Op β} (hx : Uncommanded x) (hk : ∀ a, Uncommanded (k a)) : Uncommanded (x >>= k) :=
  Every.bind order_sameCommandLine hx hk

theorem attempt {x : Op α} (hx : Uncommanded x) : Uncommanded (Machine.attempt x) := Every.attempt hx

theorem bestEffort {x : Op α} (hx : Uncommanded x) : Uncommanded (Machine.bestEffort x) :=
  Every.bestEffort order_sameCommandLine hx

theorem ite {c : Prop} [Decidable c] {x y : Op α} (hx : Uncommanded x) (hy : Uncommanded y) :
    Uncommanded (if c then x else y) := Every.ite hx hy

theorem onlyIf {c : Bool} {x : Op Unit} (hx : Uncommanded x) : Uncommanded (Machine.onlyIf c x) :=
  Every.onlyIf order_sameCommandLine hx

theorem many {one : Op α} (h : Uncommanded one) (n : Nat) : Uncommanded (Machine.many one n) :=
  Every.many order_sameCommandLine h n

theorem forEach {act : α → Op Unit} (h : ∀ a, Uncommanded (act a)) (l : List α) : Uncommanded (Machine.forEach act l) :=
  Every.forEach order_sameCommandLine h l

theorem spinOn {poll : Op (Option α)} (h : Uncommanded poll) (n : Nat) : Uncommanded (Machine.spinOn poll n) :=
  Every.spinOn order_sameCommandLine (fun _ _ => rfl) h n

/-- An update that leaves the history alone. -/
theorem update {g : State → State} (h : ∀ s, (g s).hist = s.hist) : Uncommanded (upd g) :=
  .upd fun s => congrArg cmdBytes (h s)

/-- An operation without the history in its footprint. -/
theorem silent {F : Foot} {x : Op α} (h : Touches F x) (hF : F.log = false) : Uncommanded x :=
  .of_touches h fun _ _ hs => congrArg cmdBytes (hs.log hF).2.2.1

theorem emit {e : Event} (he : e.cmdByte = none) : Uncommanded (Machine.emit e) :=
  .upd fun s => by simp [SameCommandLine, cmdBytes, he]

theorem draw (get : Env → List α) (put : List α → Env → Env) (free : Nat → α) : Uncommanded (Machine.draw get put free) :=
  .intro (fun s a t h => by unfold Machine.draw at h; split at h <;> cases h <;> rfl)
    fun s c t h => by unfold Machine.draw at h; split at h <;> cases h

end Uncommanded

/-! ### Registers, cartridge commands, the byte swap -/

theorem uncommanded_famParams : Uncommanded famParams := .silent (F := {}) touches_famParams rfl
theorem uncommanded_busFamily : Uncommanded busFamily := .silent (F := {}) touches_busFamily rfl
theorem uncommanded_sdPort : Uncommanded sdPort := .silent (F := {}) touches_sdPort rfl
theorem uncommanded_datPort : Uncommanded datPort := .silent (F := {}) touches_datPort rfl
theorem uncommanded_regAt (r : Reg) : Uncommanded (regAt r) := .silent (F := {}) (touches_regAt r) rfl
theorem uncommanded_freshWord : Uncommanded freshWord := .update fun _ => rfl

theorem uncommanded_pollPi (y : PiStatus → Option Unit) : Uncommanded (do let p ← nextPi; pure (y p)) :=
  .bind (.draw _ _ _) fun _ => .pure _

theorem uncommanded_piWaitIdle (f : Family) : Uncommanded (piWaitIdle f) :=
  .bind (.get' _) fun _ => .spinOn (uncommanded_pollPi _) _

theorem uncommanded_nextRegValue (r : Reg) : Uncommanded (nextRegValue r) := by
  have word : Uncommanded nextWord := .draw _ _ _
  cases r with
  | status => exact (.draw _ _ _ : Uncommanded nextStatus)
  | id => exact (.draw _ _ _ : Uncommanded nextIdent)
  | _ => exact word

theorem uncommanded_regRead (r : Reg) : Uncommanded (regRead r) :=
  .bind (uncommanded_regAt r) fun _ => .bind (uncommanded_nextRegValue r) fun _ => .bind (.emit rfl) fun _ => .pure _

theorem uncommanded_regWrite (r : Reg) (v : Word) : Uncommanded (regWrite r v) :=
  .bind (uncommanded_regAt r) fun _ => .bind (.emit rfl) fun _ => .bind uncommanded_famParams fun _ =>
    .spinOn (uncommanded_pollPi _) _

theorem uncommanded_waitStatus (n : Nat) : Uncommanded (spinOn pollStatus n) :=
  .spinOn (.bind uncommanded_famParams fun _ => .bind (uncommanded_regRead _) fun _ => .pure _) n

theorem uncommanded_placeInBuffer (offset : Nat) (bs : List Byte) : Uncommanded (placeInBuffer offset bs) :=
  .silent (touches_placeInBuffer offset bs) rfl

theorem uncommanded_cartHandshake (code : Byte) (a0 a1 : Word) : Uncommanded (cartHandshake code a0 a1) := by
  have issue : Uncommanded (cartIssue code a0 a1) := .bind uncommanded_famParams fun _ =>
    .bind (uncommanded_waitStatus _) fun _ => .bind (uncommanded_regWrite _ _) fun _ =>
    .bind (uncommanded_regWrite _ _) fun _ => uncommanded_regWrite _ _
  have record : Uncommanded (recordCommand code a0 a1) := fun s =>
    (.emit rfl : Uncommanded (emit (.cartCmd code a0 a1 (answerOf (cartAnswer code a0 a1 s))))) s
  have effect : Uncommanded (cartSideEffect code a0 a1) := .bind uncommanded_famParams fun _ =>
    .onlyIf (.bind (.many (.draw _ _ _) _) fun _ => uncommanded_placeInBuffer _ _)
  have finish : Uncommanded cartFinish := .bind uncommanded_famParams fun _ => .bind (uncommanded_waitStatus _) fun _ =>
    .ite (.raise _) (.bind (uncommanded_regRead _) fun _ => .bind (uncommanded_regRead _) fun _ => .pure _)
  exact .bind issue fun _ => .bind record fun _ => .bind effect fun _ => finish

theorem uncommanded_swapDrive (on : Bool) : Uncommanded (swapDrive on) := by
  have mirror : Uncommanded (upd fun s => { s with byteswap := on }) := .update fun _ => rfl
  exact .bind uncommanded_famParams fun _ => .ite (.bind (uncommanded_cartHandshake _ _ _) fun _ => mirror)
    (.bind (uncommanded_regWrite _ _) fun _ => mirror)

theorem uncommanded_swapTransfer {body : Op α} (h : Uncommanded body) : Uncommanded (swapTransfer body) := by
  refine .bind uncommanded_famParams fun _ => .ite (.bind (.get' _) fun _ => .bind (uncommanded_swapDrive _) fun _ =>
    .bind h.attempt fun r => ?_) h
  cases r with
  | ok a => exact .bind (uncommanded_swapDrive _) fun _ => .pure _
  | error c => exact .bind (uncommanded_swapDrive _).bestEffort fun _ => .raise _

/-! ### The data lanes -/

theorem uncommanded_setBitLen (len : BitLen) : Uncommanded (setBitLen len) :=
  .bind uncommanded_sdPort fun _ => .bind (.get' _) fun _ => .bind (.update fun _ => rfl) fun _ =>
    .onlyIf (.bind uncommanded_sdPort fun _ => .bind (.get' _) fun _ => uncommanded_regWrite _ _)

theorem uncommanded_atSingleBit {body : Op α} (h : Uncommanded body) : Uncommanded (atSingleBit body) := by
  refine .bind (Uncommanded.bind (uncommanded_setBitLen _) fun _ => h).attempt fun r => ?_
  cases r with
  | ok a => exact .bind (uncommanded_setBitLen _) fun _ => .pure _
  | error c => exact .bind (uncommanded_setBitLen _).bestEffort fun _ => .raise _

theorem uncommanded_portWrite (r : Reg) (v : Word) : Uncommanded (portWrite r v) :=
  .bind uncommanded_sdPort fun _ => .onlyIf (.bind (uncommanded_regWrite _ _) fun _ =>
    .bind (uncommanded_waitStatus _) fun _ => .pure _)

theorem uncommanded_portRead (r : Reg) (mask v : Word) : Uncommanded (portRead r mask v) :=
  .bind uncommanded_sdPort fun _ => .onlyIf (.bind (uncommanded_regAt r) fun _ => .bind uncommanded_freshWord fun _ =>
    .emit rfl)

theorem uncommanded_datRxBit : Uncommanded datRxBit := by
  have clock : Uncommanded laneClock := .bind (uncommanded_portWrite _ _) fun _ => .bind (.draw _ _ _) fun _ =>
    .bind (uncommanded_portRead _ _ _) fun _ => .pure _
  exact .bind uncommanded_datPort fun _ => .bind (.ite (uncommanded_atSingleBit clock) clock) fun _ =>
    .bind (.emit rfl) fun _ => .pure _

theorem uncommanded_datRx (n : Nat) : Uncommanded (datRx n) := by
  have byte : ∀ w, Uncommanded (clockByte w) := fun w => by
    have nibble : Uncommanded nextNibble := .draw _ _ _
    cases w with
    | w1 => exact .bind (.many nibble 8) fun _ => .pure _
    | w4 => exact .bind nibble fun _ => .bind nibble fun _ => .pure _
  have bytes : ∀ q w, Uncommanded (datBytes q w n) := fun q w =>
    .ite (.bind (uncommanded_regWrite _ _) fun _ => .bind (uncommanded_regWrite _ _) fun _ =>
      .bind (uncommanded_waitStatus _) fun _ => .many (byte _) _)
      (.many (.bind (uncommanded_portWrite _ _) fun _ => .bind (byte _) fun _ => .bind (uncommanded_portRead _ _ _) fun _ =>
        .pure _) _)
  exact .bind uncommanded_datPort fun _ => .bind (.get' _) fun _ => .bind (bytes _ _) fun _ => .bind (.emit rfl) fun _ =>
    .pure _

theorem uncommanded_datTx (d : TxData) : Uncommanded (datTx d) := by
  refine .bind uncommanded_datPort fun _ => .bind (.emit rfl) fun _ => .onlyIf ?_
  cases d with
  | bytes bs => exact .forEach (fun _ => uncommanded_portWrite _ _) _
  | nibble n => exact uncommanded_atSingleBit (uncommanded_portWrite _ _)

theorem uncommanded_waitOnLane (y : Bool → Option Unit) (n : Nat) :
    Uncommanded (spinOn (do let b ← datRxBit; pure (y b)) n) := .spinOn (.bind uncommanded_datRxBit fun _ => .pure _) n

theorem uncommanded_receiveBlock (n : Nat) : Uncommanded (receiveBlock n) := by
  have trailer : ∀ w d t, Uncommanded (checkTrailer w d t) := fun _ _ _ =>
    .bind (.update fun _ => rfl) fun _ => .ite (.pure _) (.raise _)
  exact .bind (.bind uncommanded_datPort fun _ => uncommanded_waitOnLane _ _) fun _ => .bind (uncommanded_datRx _) fun _ =>
    .bind (.get' _) fun _ => .bind (uncommanded_datRx _) fun _ => .bind uncommanded_datRxBit fun _ => .bind (.get' _) fun _ =>
    .bind (.onlyIf (trailer _ _ _)) fun _ => .onlyIf (uncommanded_placeInBuffer _ _)

theorem uncommanded_sendBlock (d : List Byte) : Uncommanded (sendBlock d) := by
  have token : Uncommanded readToken := .bind uncommanded_datRxBit fun _ => .bind uncommanded_datRxBit fun _ =>
    .bind uncommanded_datRxBit fun _ => .bind uncommanded_datRxBit fun _ => .bind uncommanded_datRxBit fun _ => .pure _
  refine .bind (.get' _) fun _ => .bind (.update fun _ => rfl) fun _ => .bind (uncommanded_datTx _) fun _ =>
    .bind (uncommanded_datTx _) fun _ => .bind (uncommanded_datTx _) fun _ => .bind (uncommanded_datTx _) fun _ =>
    .bind token fun tok => ?_
  cases tokenFault tok with
  | some c => exact .raise _
  | none => exact .bind uncommanded_datPort fun _ => uncommanded_waitOnLane _ _

/-! ### Sector moves -/

theorem uncommanded_cacheMayAct : Uncommanded cacheMayAct := by
  refine .intro (fun s a t h => ?_) fun s c t h => ?_ <;> obtain ⟨v, hrun, -, -, hhist, -⟩ := cacheMayAct_spec s <;>
    rw [hrun] at h <;> cases h
  exact congrArg cmdBytes hhist

theorem uncommanded_cacheOp {e : Event} (he : e.cmdByte = none) {g : State → State}
    (h : ∀ s, SameOn { ram := true } s (g s)) : Uncommanded (do cacheMayAct; emit e; upd g) :=
  .bind uncommanded_cacheMayAct fun _ => .bind (.emit he) fun _ => .silent (.upd h) rfl

theorem uncommanded_copyMoves (n src dst : Nat) : Uncommanded (copyMoves n src dst) := by
  induction n generalizing src dst with
  | zero => exact .pure _
  | succ n ih =>
    exact .bind uncommanded_cacheMayAct fun _ => .bind (.silent (.upd fun s => sameOn_move8 s src dst) rfl) fun _ => ih _ _

theorem uncommanded_dmaFromCart (a : Nat) : Uncommanded (dmaFromCart a) := by
  refine .bind uncommanded_busFamily fun _ => .bind uncommanded_famParams fun _ => .bind (uncommanded_piWaitIdle _) fun _ =>
    .bind (.update fun _ => rfl) fun _ => .bind (.emit rfl) fun _ => .bind uncommanded_cacheMayAct fun _ =>
    .bind (uncommanded_piWaitIdle _).attempt fun r => ?_
  cases r with
  | ok _ => exact .update fun _ => rfl
  | error c => exact .bind (.many (.draw _ _ _) _) fun _ => .bind (.update fun _ => rfl) fun _ => .raise _

theorem uncommanded_dmaToCart (a : Nat) : Uncommanded (dmaToCart a) := by
  refine .bind uncommanded_busFamily fun _ => .bind uncommanded_famParams fun _ => .bind (uncommanded_piWaitIdle _) fun _ =>
    .bind (.update fun _ => rfl) fun _ => .bind (.emit rfl) fun _ => .bind uncommanded_cacheMayAct fun _ =>
    .bind (uncommanded_piWaitIdle _).attempt fun r => ?_
  cases r with
  | ok _ => exact .update fun _ => rfl
  | error c => exact .bind (.many (.draw _ _ _) _) fun _ => .bind (.update fun _ => rfl) fun _ => .raise _

theorem uncommanded_moveToRam (dest : Nat) : Uncommanded (moveToRam dest) := by
  have back : ∀ a, Uncommanded (opCacheWbInv a sector) := fun a => uncommanded_cacheOp rfl fun s => sameOn_cacheWbInv s a _
  exact .bind (.bind (.get' _) fun _ => .ite (.bind (back _) fun _ => uncommanded_dmaFromCart _)
    (.bind (back _) fun _ => .bind (uncommanded_dmaFromCart _) fun _ => uncommanded_copyMoves _ _ _)) fun _ =>
    uncommanded_cacheMayAct

theorem uncommanded_moveFromRam (src : Nat) : Uncommanded (moveFromRam src) := by
  have back : ∀ a, Uncommanded (opCacheWb a sector) := fun a => uncommanded_cacheOp rfl fun s => sameOn_cacheWb s a _
  exact .bind (.bind (.get' _) fun _ => .ite (.bind (back _) fun _ => uncommanded_dmaToCart _)
    (.bind (uncommanded_copyMoves _ _ _) fun _ => .bind (back _) fun _ => uncommanded_dmaToCart _)) fun _ =>
    uncommanded_cacheMayAct

theorem uncommanded_countBlock : Uncommanded countBlock := .update fun _ => rfl

theorem uncommanded_readLoop (n dest : Nat) : Uncommanded (readLoop n dest) := by
  induction n generalizing dest with
  | zero => exact .pure _
  | succ n ih =>
    exact .bind (uncommanded_receiveBlock _) fun _ => .bind (uncommanded_moveToRam _) fun _ =>
      .bind uncommanded_countBlock fun _ => ih _

theorem uncommanded_writeLoop (n src : Nat) : Uncommanded (writeLoop n src) := by
  induction n generalizing src with
  | zero => exact .pure _
  | succ n ih =>
    exact .bind (uncommanded_moveFromRam _) fun _ => .bind (.get' _) fun _ => .bind (uncommanded_sendBlock _) fun _ =>
      .bind uncommanded_countBlock fun _ => ih _

end Sys2Proof.Machine
end

section
/-! PROOFS. The stream a native transfer leaves open, in any environment, and what a contiguous one behind it does
(43_card_sequencer.md R163 to R166, R175). -/

namespace Sys2Proof.Machine

variable {f : Family} {s t u : State} {m : AccessMode} {buf lba count : Word} {loop native : Op Unit} {n : Nat}
  {offloaded : Word → Op Unit} {a : Unit}

/-! ### The open stream -/

theorem SameOn.mode {F : Foot} (h : SameOn F s t) (hF : F.sess = false) : t.sess.mode = s.sess.mode := by
  rw [h.session hF]

theorem SameOn.lastLba {F : Foot} (h : SameOn F s t) (hF : F.sess = false) : t.sess.lastLba = s.sess.lastLba := by
  rw [h.session hF]

/-- The stream is as it was, `n` blocks further on. -/
structure Streamed (n : Nat) (s t : State) : Prop where
  mode : t.sess.mode = s.sess.mode
  last : t.sess.lastLba = s.sess.lastLba + BitVec.ofNat 32 n

theorem Streamed.refl (s : State) : Streamed 0 s s := ⟨rfl, (BitVec.add_zero _).symm⟩

theorem Streamed.behind {F : Foot} (h : SameOn F s t) (hF : F.sess = false) (k : Streamed n t u) : Streamed n s u :=
  ⟨k.mode.trans (h.mode hF), by rw [k.last, h.lastLba hF]⟩

theorem Streamed.before {F : Foot} (h : Streamed n s t) (k : SameOn F t u) (hF : F.sess = false) : Streamed n s u :=
  ⟨(k.mode hF).trans h.mode, (k.lastLba hF).trans h.last⟩

/-- One block counted before the others (R165, R166). -/
theorem Streamed.counted (h : countBlock s = .ok a t) (k : Streamed n t u) : Streamed (n + 1) s u := by
  cases h
  exact ⟨k.mode, k.last.trans (by simp [BitVec.ofNat_add, BitVec.add_assoc, BitVec.add_comm 1#32])⟩

theorem readLoop_streams {dest : Nat} (h : readLoop n dest s = .ok a t) : Streamed n s t := by
  induction n generalizing dest s with
  | zero => cases h; exact .refl _
  | succ n ih =>
    obtain ⟨_, u, hrx, h⟩ := bind_eq_ok.mp h
    obtain ⟨_, v, hmove, h⟩ := bind_eq_ok.mp h
    obtain ⟨_, w, hcount, h⟩ := bind_eq_ok.mp h
    exact .behind ((touches_receiveBlock _).of_ok hrx) rfl (.behind ((touches_moveToRam _).of_ok hmove) rfl
      (.counted hcount (ih h)))

theorem writeLoop_streams {src : Nat} (h : writeLoop n src s = .ok a t) : Streamed n s t := by
  induction n generalizing src s with
  | zero => cases h; exact .refl _
  | succ n ih =>
    obtain ⟨_, u, hmove, h⟩ := bind_eq_ok.mp h
    obtain ⟨d, _, htake, h⟩ := bind_eq_ok.mp h
    cases htake
    obtain ⟨_, v, htx, h⟩ := bind_eq_ok.mp h
    obtain ⟨_, w, hcount, h⟩ := bind_eq_ok.mp h
    exact .behind ((touches_moveFromRam _).of_ok hmove) rfl (.behind ((touches_sendBlock _).of_ok htx) rfl
      (.counted hcount (ih h)))

/-- The wrap around a transfer leaves the session to its body. -/
theorem swapTransfer_streams (hloop : ∀ v w, loop v = .ok () w → Streamed n v w) (h : swapTransfer loop s = .ok a t) :
    Streamed n s t := by
  obtain ⟨q, _, hq, h⟩ := bind_eq_ok.mp h
  obtain ⟨v, w, hon, hrun, hoff⟩ := swapAround_eq_ok h
  have hs := (touches_famParams (F := {})).of_ok hq
  cases hwrap : q.hasSwap && q.swapPolicy == .everyTransfer with
  | false =>
    rw [hwrap] at hon hoff
    rw [show t = w from hoff]
    rw [show v = _ from hon] at hrun
    exact .behind hs rfl (hloop _ _ hrun)
  | true =>
    rw [hwrap] at hon hoff
    exact .behind hs rfl (.behind ((touches_swapDrive _).of_ok hon) rfl
      ((hloop _ _ hrun).before ((touches_swapDrive _).of_ok hoff) rfl))

/-! ### Making sure of the mode -/

/-- Whatever the environment answered, a switch that succeeds leaves the stream open before its first block (R164). -/
theorem ensureMode_eq_ok (h : ensureMode m lba s = .ok a t) : t.sess.mode = m ∧ t.sess.lastLba = lba - 1 := by
  simp only [ensureMode, get'_bind] at h
  cases hsw : needsSwitch s.sess m lba with
  | false =>
    rw [hsw] at h
    cases h
    exact needsSwitch_false hsw
  | true =>
    rw [onlyIf_true hsw] at h
    obtain ⟨_, u, -, h⟩ := bind_eq_ok.mp h
    simp only [enterMode, openAt, get'_bind] at h
    cases harg : blockArg u.sess.highCapacity lba with
    | none => rw [harg] at h; cases h
    | some arg =>
      rw [harg] at h
      obtain ⟨_, v, -, h⟩ := bind_eq_ok.mp h
      cases h
      exact ⟨rfl, rfl⟩

/-- With the stream open at the LBA, making sure of it does nothing (R163). -/
theorem ensureMode_open (hm : s.sess.mode = m) (hl : s.sess.lastLba = lba - 1) : ensureMode m lba s = .ok () s := by
  have hsw : needsSwitch s.sess m lba = false := by
    simp [needsSwitch, hm, hl]
  simp only [ensureMode, get'_bind, hsw]
  rfl

/-! ### Transfers -/

/-- The cartridge is known, and its family frames blocks itself (R165, R166). -/
structure NativeRun (s : State) (f : Family) : Prop where
  probed : s.probed = true
  cart : s.cartType = some f
  native : (s.cfg.fam f).offload = false

/-- A known cartridge stays the one it is (R20, R214). -/
theorem NativeRun.step (h : NativeRun s f) {i : Instr} (hx : exec i s = .next t) : NativeRun t f := by
  have hfix := exec_fixed hx
  obtain ⟨hp, hc, -⟩ := hfix.ident h.probed
  exact ⟨hp, hc.trans h.cart, by rw [hfix.cfg]; exact h.native⟩

/-- A native transfer that ends in a value made sure of its mode and moved its blocks inside one bracket. -/
theorem NativeRun.transfer_ok (h : NativeRun s f)
    (hx : transfer buf lba count offloaded (do ensureMode m lba; swapTransfer loop) s = .ok () t) :
    ∃ g u v w, Acquired f s u ∧ ensureMode m lba u = .ok () v ∧ swapTransfer loop v = .ok () w ∧ Released g w t := by
  obtain ⟨body, u, w, g, hbody, hu, hrun, ht⟩ := transfer_known_ok h.probed h.cart hx
  rcases hbody with ⟨ho, -⟩ | ⟨-, -, rfl⟩
  · exact absurd (h.native.symm.trans ho) (by decide)
  · obtain ⟨_, v, hens, hloop⟩ := bind_eq_ok.mp hrun
    exact ⟨g, u, v, w, hu, hens, hloop, ht⟩

/-- It leaves its stream open, behind its last block. -/
theorem NativeRun.leaves_open (h : NativeRun s f) (hloop : ∀ v w, loop v = .ok () w → Streamed count.toNat v w)
    (hx : transfer buf lba count offloaded (do ensureMode m lba; swapTransfer loop) s = .ok () t) :
    t.sess.mode = m ∧ t.sess.lastLba = lba + count - 1 := by
  obtain ⟨g, u, v, w, -, hens, hrun, ht⟩ := h.transfer_ok hx
  obtain ⟨hmode, hlast⟩ := ensureMode_eq_ok hens
  have hs := swapTransfer_streams hloop hrun
  rw [ht.sess]
  refine ⟨hs.mode.trans hmode, hs.last.trans ?_⟩
  rw [hlast, BitVec.ofNat_toNat, BitVec.setWidth_eq]
  bv_omega

theorem cmdBytes_cfgEvents (c : BusConfig) (h : List Event) : cmdBytes ((cfgEvents c).reverse ++ h) = cmdBytes h := by
  have hnone : (cfgEvents c).reverse.filterMap Event.cmdByte = [] := rfl
  simp only [cmdBytes, List.filterMap_append, hnone, List.nil_append]

/-- With its stream open at the LBA, it puts no byte on the command line (R175). -/
theorem NativeRun.no_command (h : NativeRun s f) (hloop : Uncommanded loop) (hm : s.sess.mode = m)
    (hl : s.sess.lastLba = lba - 1)
    (hx : transfer buf lba count offloaded (do ensureMode m lba; swapTransfer loop) s = .ok () t) :
    cmdBytes t.hist = cmdBytes s.hist := by
  obtain ⟨g, u, v, w, hu, hens, hrun, ht⟩ := h.transfer_ok hx
  rw [ensureMode_open (by rw [hu.sess]; exact hm) (by rw [hu.sess]; exact hl)] at hens
  cases hens
  have hquiet : cmdBytes w.hist = cmdBytes u.hist := (uncommanded_swapTransfer hloop).of_ok hrun
  rw [ht.hist, cmdBytes_cfgEvents, hquiet, hu.hist, cmdBytes_cfgEvents]

/-- A transfer instruction that answers `ok` is its operation that ended in a value. -/
theorem runHost_then_ok {x : Op Unit} (h : runHost (do x; pure .ok) s = .next t) (ht : t.result = .ok) :
    ∃ u, x s = .ok () u ∧ t = { u with result := .ok } := by
  rcases runHost_then_cases h with hok | ⟨c, u, -, rfl⟩
  · exact hok
  · cases ht

/-- Two contiguous native transfers that succeed: the first leaves its stream open behind its last block, the second puts no
byte on the command line (R163, R175). -/
theorem NativeRun.contiguous (h : NativeRun s f) {i j : Instr} {loop' : Op Unit} {buf' count' : Word}
    {offloaded' : Word → Op Unit}
    (hi : exec i = runHost (do transfer buf lba count offloaded (do ensureMode m lba; swapTransfer loop); pure .ok))
    (hj : exec j = runHost (do
      transfer buf' (lba + count) count' offloaded' (do ensureMode m (lba + count); swapTransfer loop'); pure .ok))
    (hloop : ∀ v w, loop v = .ok () w → Streamed count.toNat v w) (hloop' : Uncommanded loop')
    (hx : exec i s = .next t) (ht : t.result = .ok) :
    t.sess.mode = m ∧ t.sess.lastLba = lba + count - 1 ∧
      (exec j t = .next u → u.result = .ok → cmdBytes u.hist = cmdBytes t.hist) := by
  have hrun := hx
  rw [hi] at hrun
  obtain ⟨v, hv, hend⟩ := runHost_then_ok hrun ht
  have hopen := h.leaves_open hloop hv
  obtain ⟨hmode, hlast⟩ : t.sess.mode = m ∧ t.sess.lastLba = lba + count - 1 := by rw [hend]; exact hopen
  refine ⟨hmode, hlast, fun hy hu => ?_⟩
  have ht' := h.step hx
  rw [hj] at hy
  obtain ⟨w, hw, hend'⟩ := runHost_then_ok hy hu
  have hquiet := ht'.no_command hloop' hmode hlast hw
  rw [hend']
  exact hquiet

end Sys2Proof.Machine

namespace Sys2Proof.Proofs

open Sys2Proof.Machine

/-- Settles O40: the two directions of `NativeRun.contiguous`. -/
theorem contiguousTransfers : Obligations.ContiguousTransfers := by
  intro s t u f p q a n k hp hc ho
  have h : NativeRun s f := ⟨hp, hc, ho⟩
  exact ⟨h.contiguous rfl rfl (fun _ _ => readLoop_streams) (uncommanded_readLoop _ _),
    h.contiguous rfl rfl (fun _ _ => writeLoop_streams) (uncommanded_writeLoop _ _)⟩

end Sys2Proof.Proofs
end

section
/-! PROOFS. A card operation that ends in a hardware error: no stream is open and the bus is native; no transfer changes
whether the session is ready (43_card_sequencer.md R160, R168, R177, R179; 60_exceptions.md R270, R272). -/

namespace Sys2Proof.Machine

variable {α : Type} {f : Family} {s t u : State} {c : Cause} {clean op : Op Unit} {body : Op α} {buf lba count : Word}
  {offloaded : Word → Op Unit} {native : Op Unit}

/-! ### What a hardware error leaves -/

/-- No stream is open and the bus is native. -/
structure Halted (t : State) : Prop where
  mode : t.sess.mode = .none
  owner : t.busOwner = .native

/-- Whatever the environment answers, the operation ends in a value, without a session to run on, or halted. -/
def Halts (x : Op α) : Prop := ∀ {s t c}, x s = .error (.cause c) t → c = .noCartridge ∨ c = .notReady ∨ Halted t

/-- A bracket whose clean-up leaves no stream open. -/
theorem bracketed_halts (hn : NoCause clean)
    (hm : ∀ {u c v w a}, body u = .error (.cause c) v → clean v = .ok a w → w.sess.mode = .none)
    (h : bracketed clean body s = .error (.cause c) t) : Halted t := by
  obtain ⟨f, u, v, w, g, -, -, -, hrun, hclean, ht⟩ := bracketed_eq_cause hn h
  exact ⟨by rw [ht.sess]; exact hm hrun hclean, ht.owner⟩

theorem dispatch_halts {handler : Family → Op α} (h : ∀ f, Halts (handler f)) : Halts (dispatch handler) := by
  intro s t c hx
  rcases dispatch_eq_cause hx with hno | ⟨f, u, -, hrun⟩
  · exact .inl hno
  · exact h f hrun

/-! ### The card operations -/

theorem putDown_ends {a : Unit} (h : putDown s = .ok a t) : t.sess.ready = false ∧ t.sess.mode = .none := by
  obtain ⟨_, u, hdown, hinit⟩ := bind_eq_ok.mp h
  cases hdown
  cases hinit
  exact ⟨rfl, rfl⟩

theorem abortTransfer_closes {a : Unit} (h : abortTransfer s = .ok a t) : t.sess.mode = .none := by
  obtain ⟨q, u, -, h⟩ := bind_eq_ok.mp h
  simp only [get'_bind] at h
  obtain ⟨_, v, -, h⟩ := bind_eq_ok.mp h
  obtain ⟨_, w, hset, hreset⟩ := bind_eq_ok.mp h
  cases hset
  rw [(touches_resetPort.of_ok hreset).mode rfl]

/-- What `init` does behind putting the session down opens no stream (R188). -/
theorem initBody_closed (h : initBody f s = .error (.cause c) t) : t.sess.mode = .none := by
  rcases bind_eq_error.mp h with h | ⟨_, u, hdown, h⟩
  · exact absurd h (noCause_putDown _ _ _)
  have same : SameOn { Foot.cart with init := true } u t := by
    refine Touches.of_error ?_ h
    exact ((touches_matchFamily f).mono rfl).bind fun _ => .ite
      (touches_famParams.bind fun _ => .bind (.onlyIf (touches_resetPort.mono rfl)) fun _ =>
        .bind (.forEach (fun _ => ((touches_cartCommand _ _ _).mono rfl).bind fun _ => .pure _) _) fun _ =>
        (touches_setInitDone _).mono rfl)
      (.raise _)
  rw [same.mode rfl]
  exact (putDown_ends hdown).2

theorem runBringUp_halts (h : runBringUp s = .error (.cause c) t) : Halted t := by
  refine ⟨(wp_error (runBringUp_ends s) h).2.1, ?_⟩
  rcases bind_eq_error.mp h with h | ⟨r, u, hrun, h⟩
  · exact absurd h (NoCause.attempt _ _ _ _)
  rcases bind_eq_error.mp h with h | ⟨_, v, hmark, h⟩
  · cases h
  cases hmark
  rcases attempt_eq_ok hrun with ⟨b, rfl, -⟩ | ⟨d, rfl, hcause⟩
  · cases h
  · cases h
    obtain ⟨_, _, _, _, g, -, -, -, -, -, ht⟩ := bracketed_eq_cause noCause_failBringUp hcause
    exact ht.owner

theorem cardInit_halts : Halts cardInit := dispatch_halts fun f s t c h => by
  simp only [get'_bind] at h
  cases hmay : s.mayInit with
  | true => rw [hmay] at h; exact .inr (.inr (runBringUp_halts h))
  | false =>
    rw [hmay] at h
    cases h
    exact .inr (.inl rfl)

theorem initOp_halts : Halts initOp := dispatch_halts fun f s t c h => by
  rcases bind_eq_error.mp h with h | ⟨_, u, -, h⟩
  · refine .inr (.inr (bracketed_halts (.pure _) (fun hrun hclean => ?_) h))
    cases hclean
    exact initBody_closed hrun
  · cases h

theorem exitOp_halts : Halts exitOp := dispatch_halts fun f s t c h => by
  simp only [get'_bind] at h
  rcases bind_eq_error.mp h with h | ⟨_, u, -, h⟩
  · exact absurd h (NoCause.onlyIf (.bestEffort _) _ _ _)
  · exact .inr (.inr (bracketed_halts noCause_putDown (fun _ hclean => (putDown_ends hclean).2) h))

theorem cardStop_halts : Halts cardStop := by
  intro s t c h
  simp only [cardStop, get'_bind] at h
  cases hm : s.sess.mode != .none with
  | false => rw [hm] at h; cases h
  | true =>
    rw [onlyIf_true hm] at h
    refine .inr (.inr (bracketed_halts (.pure _) (fun {u c v w a} hrun hclean => ?_) h))
    cases hclean
    have hstop : Stopped u v := stopStream_stops.of_cause hrun
    exact congrArg Session.mode hstop

theorem transfer_halts : Halts (transfer buf lba count offloaded native) := by
  intro s t c h
  rcases transfer_eq_cause h with hno | ⟨f, hready, -⟩ | ⟨f, u, body, -, -, -, hrun⟩
  · exact .inl hno
  · exact .inr (.inl hready)
  · exact .inr (.inr (bracketed_halts noCause_abortTransfer (fun _ hclean => abortTransfer_closes hclean) hrun))

/-! ### The host operations -/

/-- The result is a hardware error: one of the card operation, or the adapter's `ERROR` (R270). -/
def HardwareError (r : HostResult) : Prop :=
  r = .disk .error ∨ ∃ c, r = .error c ∧ c ≠ .noCartridge ∧ c ≠ .notReady ∧ c ≠ .param

/-- A card operation that answers a hardware error is halted. -/
theorem Halts.hardwareError {x : Op α} {y : α → HostResult} (hx : Halts x) (hy : ∀ a, ¬ HardwareError (y a))
    (h : runHost (do let a ← x; pure (y a)) s = .next t) (ht : HardwareError t.result) : Halted t := by
  rcases runHost_value_cases h with ⟨a, u, -, rfl⟩ | ⟨c, u, hrun, rfl⟩
  · exact absurd ht (hy a)
  · rcases ht with ht | ⟨d, hd, hcart, hready, -⟩
    · cases ht
    · cases hd
      rcases hx hrun with hno | hno | hu
      · exact absurd hno hcart
      · exact absurd hno hready
      · exact ⟨hu.mode, hu.owner⟩

theorem not_hardwareError_ok : ¬ HardwareError .ok := by rintro (h | ⟨c, h, -⟩) <;> cases h

theorem diskCheck_ne_error (s : State) (drive : Byte) (lba count : Word) : diskCheck s drive lba count ≠ some .error := by
  unfold diskCheck
  split_ifs <;> exact nofun

/-- The adapter's `ERROR` is a hardware error of the card operation (R224, R225). -/
theorem diskTransfer_eq_error {drive : Byte} (h : diskTransfer drive lba count op s = .ok .error t) :
    ∃ c, op s = .error (.cause c) t ∧ c ≠ .noCartridge ∧ c ≠ .notReady := by
  simp only [diskTransfer, get'_bind, id] at h
  cases hck : diskCheck s drive lba count with
  | some r =>
    rw [hck] at h
    cases h
    exact absurd hck (diskCheck_ne_error _ _ _ _)
  | none =>
    rw [hck] at h
    obtain ⟨r, u, hrun, h⟩ := bind_eq_ok.mp h
    rcases attempt_eq_ok hrun with ⟨a, rfl, -⟩ | ⟨c, rfl, hcause⟩
    · cases h
    · cases c <;> cases h <;> exact ⟨_, hcause, nofun, nofun⟩

/-- The adapter itself ends in no cause. -/
theorem noCause_diskTransfer {drive : Byte} : NoCause (diskTransfer drive lba count op) := by
  refine .bind (.get' _) fun s => ?_
  cases diskCheck s drive lba count with
  | some r => exact .pure _
  | none =>
    refine .bind (.attempt _) fun r => ?_
    split
    · exact .pure _
    · exact .bind (.upd _) fun _ => .pure _
    · exact .pure _

/-- An adapter transfer that answers a hardware error is halted. -/
theorem Halts.diskTransfer {drive : Byte} (hop : Halts op)
    (h : runHost (do let r ← diskTransfer drive lba count op; pure (.disk r)) s = .next t) (ht : HardwareError t.result) :
    Halted t := by
  rcases runHost_value_cases h with ⟨r, u, hrun, rfl⟩ | ⟨c, u, hrun, -⟩
  · rcases ht with ht | ⟨d, hd, -⟩
    · obtain rfl : r = .error := HostResult.disk.inj ht
      obtain ⟨c, hcause, hcart, hready⟩ := diskTransfer_eq_error hrun
      obtain ⟨hmode, howner⟩ := ((hop hcause).resolve_left hcart).resolve_left hready
      exact ⟨hmode, howner⟩
    · cases hd
  · exact absurd hrun (noCause_diskTransfer _ _ _)

/-! ### Whether the session is ready -/

def SameReady (s t : State) : Prop := t.sess.ready = s.sess.ready

theorem order_ready : Order SameReady := .same fun s => s.sess.ready

theorem ready_touches {F : Foot} {x : Op α} (h : Touches F x) (hF : F.sess = false) : Every SameReady x :=
  .of_touches h fun _ _ hs => by rw [SameReady, hs.session hF]

theorem ready_setSession {g : Session → Session} (h : ∀ ss, (g ss).ready = ss.ready) : Every SameReady (setSession g) :=
  .upd fun s => h s.sess

theorem ready_stopStream : Every SameReady stopStream :=
  stopStream_stops.mono fun s t (h : Stopped s t) => (congrArg Session.ready h :)

theorem ready_of_stream {x : Op α} (h : Every SameStream x) : Every SameReady x :=
  h.mono fun s t (h : SameStream s t) => (congrArg Session.ready h :)

theorem ready_ensureMode (m : AccessMode) (lba : Word) : Every SameReady (ensureMode m lba) := by
  have o := order_ready
  have opened : ∀ idx, Every SameReady (openAt m idx lba) := fun idx => by
    refine .bind o (.get' o _) fun hc => ?_
    cases blockArg hc lba with
    | none => exact .refuse _
    | some arg =>
      exact .bind o (ready_touches (touches_executeCommand _ _ _) rfl) fun _ => ready_setSession fun _ => rfl
  exact .bind o (.get' o _) fun _ => .onlyIf o (.bind o (.onlyIf o ready_stopStream) fun _ => opened _)

theorem ready_swapTransfer (h : Every SameReady body) : Every SameReady (swapTransfer body) := by
  have o := order_ready
  have drive : ∀ on, Every SameReady (swapDrive on) := fun on => ready_touches (touches_swapDrive on) rfl
  refine .bind o (ready_touches (F := {}) touches_famParams rfl) fun _ => .ite (.bind o (.get' o _) fun _ =>
    .bind o (drive _) fun _ => .bind o h.attempt fun r => ?_) h
  cases r with
  | ok a => exact .bind o (drive _) fun _ => .pure o _
  | error c => exact .bind o ((drive _).bestEffort o) fun _ => .raise o _

theorem ready_bracketed (hc : Every SameReady clean) (hb : Every SameReady body) :
    Every SameReady (bracketed clean body) := by
  have o := order_ready
  have release := ready_touches touches_releaseBus rfl
  refine .bind o (ready_touches touches_acquireBus rfl) fun _ => .bind o hb.attempt fun r => ?_
  cases r with
  | ok a => exact .bind o release fun _ => .pure o _
  | error c => exact .bind o hc fun _ => .bind o release fun _ => .raise o _

theorem ready_abortTransfer : Every SameReady abortTransfer := by
  have o := order_ready
  exact .bind o (ready_touches (F := {}) touches_famParams rfl) fun _ => .bind o (.get' o _) fun _ =>
    .bind o (.onlyIf o (ready_stopStream.bestEffort o)) fun _ => .bind o (ready_setSession fun _ => rfl) fun _ =>
    ready_touches touches_resetPort rfl

theorem ready_transfer (ho : ∀ w, Every SameReady (offloaded w)) (hn : Every SameReady native) :
    Every SameReady (transfer buf lba count offloaded native) := by
  have o := order_ready
  refine .bind o (ready_touches touches_probeOp rfl) fun c => ?_
  cases c with
  | none => exact .raise o _
  | some f =>
    refine .bind o (.get' o _) fun p => .bind o (.get' o _) fun _ => .ite ?_ (.raise o _)
    unfold transferBody
    cases operandRefusal p buf lba count with
    | some r => exact .refuse r
    | none =>
      refine .ite (ready_bracketed ready_abortTransfer (ready_swapTransfer (ho _))) (.ite (.refuse _)
        (.bind o (.get' o _) fun hc => ?_))
      cases blockArg hc lba with
      | none => exact .refuse _
      | some arg => exact ready_bracketed ready_abortTransfer hn

theorem ready_nativeBody {m : AccessMode} {loop : Op Unit} (h : Every SameStream loop) :
    Every SameReady (do ensureMode m lba; swapTransfer loop) :=
  .bind order_ready (ready_ensureMode m lba) fun _ => ready_swapTransfer (ready_of_stream h)

theorem ready_cartCommand (code : Byte) (a0 a1 : Word) : Every SameReady (cartCommand code a0 a1) :=
  ready_touches (touches_cartCommand code a0 a1) rfl

theorem ready_offloadReadLoop (buf : Word) (n : Nat) (lba : Word) (dest : Nat) :
    Every SameReady (offloadReadLoop buf n lba dest) := by
  have o := order_ready
  induction n generalizing lba dest with
  | zero => exact .pure o _
  | succ n ih =>
    exact .bind o (ready_cartCommand _ _ _) fun _ => .bind o (ready_cartCommand _ _ _) fun _ =>
      .bind o (ready_touches (touches_moveToRam _) rfl) fun _ => ih _ _

theorem ready_offloadWriteLoop (buf : Word) (n : Nat) (lba : Word) (src : Nat) :
    Every SameReady (offloadWriteLoop buf n lba src) := by
  have o := order_ready
  induction n generalizing lba src with
  | zero => exact .pure o _
  | succ n ih =>
    exact .bind o (ready_touches (touches_moveFromRam _) rfl) fun _ => .bind o (ready_cartCommand _ _ _) fun _ =>
      .bind o (ready_cartCommand _ _ _) fun _ => ih _ _

theorem ready_cardRead (dest lba count : Word) : Every SameReady (cardRead dest lba count) :=
  ready_transfer (fun _ => ready_offloadReadLoop _ _ _ _) (ready_nativeBody (readLoop_stream _ _))

theorem ready_cardWrite (src lba count : Word) : Every SameReady (cardWrite src lba count) :=
  ready_transfer (fun _ => ready_offloadWriteLoop _ _ _ _) (ready_nativeBody (writeLoop_stream _ _))

/-- No transfer makes a session ready, or ends one (R272). -/
theorem exec_transfer_ready {i : Instr} (hi : ∃ d l c, i = .cardRead d l c ∨ i = .cardWrite d l c)
    (h : exec i s = .next t) : t.sess.ready = s.sess.ready := by
  obtain ⟨d, l, c, rfl | rfl⟩ := hi
  · obtain ⟨u, hu, ht⟩ := runHost_then_every (ready_cardRead d l c) h
    rw [ht]
    exact hu
  · obtain ⟨u, hu, ht⟩ := runHost_then_every (ready_cardWrite d l c) h
    rw [ht]
    exact hu

/-- `exit` of a known cartridge leaves the session down however it ends (R189). -/
theorem exec_exit_down (hp : s.probed = true) (hc : s.cartType = some f) (h : exec .exit s = .next t) :
    t.sess.ready = false ∧ t.sess.mode = .none := by
  have down : ∀ {v w : State} {a : Unit}, exitBody f v = .ok a w → w.sess.ready = false ∧ w.sess.mode = .none := fun h => by
    simp only [exitBody, get'_bind] at h
    obtain ⟨_, _, -, h⟩ := bind_eq_ok.mp h
    simp only [get'_bind] at h
    obtain ⟨_, _, -, h⟩ := bind_eq_ok.mp h
    exact putDown_ends h
  rcases runHost_then_cases h with ⟨u, hrun, rfl⟩ | ⟨c, u, hrun, rfl⟩
  · simp only [exitOp, dispatch_known hp hc, get'_bind] at hrun
    obtain ⟨_, v, -, hrun⟩ := bind_eq_ok.mp hrun
    obtain ⟨_, x, y, g, -, -, -, hbody, hrel⟩ := bracketed_eq_ok hrun
    have hy := down hbody
    rw [← hrel.sess] at hy
    exact hy
  · simp only [exitOp, dispatch_known hp hc, get'_bind] at hrun
    rcases bind_eq_error.mp hrun with hrun | ⟨_, v, -, hrun⟩
    · exact absurd hrun (NoCause.onlyIf (.bestEffort _) _ _ _)
    · obtain ⟨_, x, y, z, g, -, -, -, -, hclean, hrel⟩ := bracketed_eq_cause noCause_putDown hrun
      have hz := putDown_ends hclean
      rw [← hrel.sess] at hz
      exact hz

/-- However `card_init` of a known cartridge ends: no stream is open, the session is ready exactly where it answered `ok`,
and the bring-up machine is at rest where it ran or was (R160, R272). -/
theorem exec_cardInit_ends (hp : s.probed = true) (hc : s.cartType = some f) (h : exec .cardInit s = .next t) :
    (t.sess.ready = true ↔ t.result = .ok) ∧ t.sess.mode = .none ∧
      (s.mayInit = true ∨ s.seq.bringUp = .rest → t.seq.bringUp = .rest) := by
  have hcases := runHost_then_cases h
  cases hmay : s.mayInit with
  | true =>
    rw [cardInit_ready hp hc hmay] at hcases
    rcases hcases with ⟨u, hrun, rfl⟩ | ⟨c, u, hrun, rfl⟩
    · obtain ⟨hready, hmode, hrest⟩ := wp_ok (runBringUp_ends s) hrun
      exact ⟨⟨fun _ => rfl, fun _ => hready⟩, hmode, fun _ => hrest⟩
    · obtain ⟨hready, hmode, hrest⟩ := wp_error (runBringUp_ends s) hrun
      exact ⟨⟨fun h => absurd (hready.symm.trans h) (by decide), nofun⟩, hmode, fun _ => hrest⟩
  | false =>
    rw [cardInit_before hp hc hmay] at hcases
    rcases hcases with ⟨u, hrun, -⟩ | ⟨c, u, hrun, rfl⟩
    · cases hrun
    · cases hrun
      exact ⟨⟨nofun, nofun⟩, rfl, fun hrest => hrest.resolve_left (by decide)⟩

/-- Whatever the environment answers, a card operation that answers a hardware error is halted (R168, R179, R270). -/
theorem exec_hardwareError {i : Instr}
    (hi : i = .init ∨ i = .exit ∨ i = .cardInit ∨ i = .cardStop ∨ (∃ d l c, i = .cardRead d l c ∨ i = .cardWrite d l c) ∨
      ∃ v d l c, i = .diskRead v d l c ∨ i = .diskWrite v d l c)
    (h : exec i s = .next t) (ht : HardwareError t.result) : Halted t := by
  have size : ∀ n, ¬ HardwareError (.bufferSize n) := by rintro n (h | ⟨c, h, -⟩) <;> cases h
  have plain : ∀ {x : Op Unit}, Halts x → runHost (do x; pure .ok) s = .next t → Halted t := fun hx h =>
    hx.hardwareError (fun _ => not_hardwareError_ok) h ht
  rcases hi with rfl | rfl | rfl | rfl | ⟨d, l, c, rfl | rfl⟩ | ⟨v, d, l, c, rfl | rfl⟩
  · exact initOp_halts.hardwareError size h ht
  · exact plain exitOp_halts h
  · exact plain cardInit_halts h
  · exact plain cardStop_halts h
  · exact plain transfer_halts h
  · exact plain transfer_halts h
  · exact Halts.diskTransfer transfer_halts h ht
  · exact Halts.diskTransfer transfer_halts h ht

end Sys2Proof.Machine

namespace Sys2Proof.Proofs

open Sys2Proof.Machine

/-- Settles O44: what holds in every environment first, then the failing transfers, each by the law about its operation. -/
theorem afterHardwareErrors : Obligations.AfterHardwareErrors := by
  refine ⟨fun i s t hi h ht => ?_, fun s t hp hc h => ?_, fun s t hp hc h => ?_, fun i s t hi h => exec_transfer_ready hi h,
    ?_, ?_, ?_, ?_⟩
  · obtain ⟨hmode, howner⟩ := exec_hardwareError hi h ht
    exact ⟨hmode, howner⟩
  · obtain ⟨f, hf⟩ := Option.ne_none_iff_exists'.mp hc
    obtain ⟨hready, hmode, hrest⟩ := exec_cardInit_ends hp hf h
    refine ⟨hready, hmode, fun hi => hrest ?_⟩
    rcases hi with hi | hi | hi | hi
    · exact .inl (mayInit_of (.inl hi))
    · exact .inl (mayInit_of (.inr (.inl hi)))
    · exact .inl (mayInit_of (.inr (.inr hi)))
    · exact .inr hi
  · obtain ⟨f, hf⟩ := Option.ne_none_iff_exists'.mp hc
    exact exec_exit_down hp hf h
  · intro s f dest lba count arg b blocks bad m l xs ys ws c h ho hn hb8 harg hg hlen hgood hbad hl hne hd hm hw
    obtain ⟨t, hrun, hsent, hwrites⟩ := cardRead_fails h ho hn hb8 harg hg hlen hgood hbad hl hne hd hm hw
    exact ⟨_, runHost_then_cause hrun, rfl, hsent, hwrites⟩
  · intro s f src lba count arg b tokens bad m l xs ys ws c h ho hn hb8 harg hg hlen hgood hbad hl hne hd hm hw
    obtain ⟨t, hrun, hsent, hwrites⟩ := cardWrite_fails h ho hn hb8 harg hg hlen hgood hbad hl hne hd hm hw
    exact ⟨_, runHost_then_cause hrun, rfl, hsent, hwrites⟩
  · intro s f buf lba count arg b c bits l m out i mode hi h ho hn harg hsw hg hc hl hne hd hm
    rcases hi with hi | hi <;> cases hi
    · obtain ⟨t, hrun, hsent, hwrites⟩ := transfer_unopened h.idle h.ready ho hn h.operands harg hsw hg hc hl hne hd hm
      exact ⟨_, runHost_then_cause (x := cardRead buf lba count) hrun, rfl, hsent, hwrites⟩
    · obtain ⟨t, hrun, hsent, hwrites⟩ := transfer_unopened h.idle h.ready ho hn h.operands harg hsw hg hc hl hne hd hm
      exact ⟨_, runHost_then_cause (x := cardWrite buf lba count) hrun, rfl, hsent, hwrites⟩
  · intro s f buf lba count i code good c issued ws l hi h hready hop hg hc hs hlen hne hidle
    rcases hi with hi | hi <;> cases hi
    · obtain ⟨t, hrun, hcom⟩ := cardRead_deinits h hready hop hg hc hs hlen hne hidle
      exact ⟨_, runHost_then_cause hrun, rfl, hcom⟩
    · obtain ⟨t, hrun, hcom⟩ := cardWrite_deinits h hready hop hg hc hs hlen hne hidle
      exact ⟨_, runHost_then_cause hrun, rfl, hcom⟩

end Sys2Proof.Proofs
end

section
/-! PROOFS. Cartridge commands that do not come to an answer (44_transport_handlers.md R186, R187, R195, R200): refused outside
a bracket, stuck behind a busy cartridge, failed by the error bit. -/

namespace Sys2Proof.Machine

variable {f : Family} {s t u : State} {st st' l : List Word} {w : Word} {W W' : List (Word × Word)}
  {C C' : List (Byte × Word × Word)} {code : Byte} {a0 a1 : Word}

/-- Outside a bracket no family has the bus (R186). -/
theorem famParams_native (hb : s.busOwner = .native) : famParams s = .error (.refuse .busNotOwned) s := by
  have hfam : busFamily s = .error (.refuse .busNotOwned) s := by simp only [busFamily, get'_bind, hb, refuse_run]
  exact bind_error hfam

/-- What an operation keeps, the step that returns its outcome keeps. -/
theorem SameOn.kept {F : Foot} (h : SameOn F s t) (r : HostResult) : Kept F s { t with result := r } := by
  show SameOn F s { t with result := s.result }
  rw [h.unset]
  exact h

/-- A command that the policy does not wrap is its handshake (R198). -/
theorem cartCommand_plain (hb : s.busOwner = .cart f) (hw : wraps (s.cfg.fam f) code = false) :
    cartCommand code a0 a1 s = cartHandshake code a0 a1 s := by
  rw [cartCommand_around hb, hw]
  rfl

/-! ### A cartridge that stays busy -/

/-- One poll takes one value of `STATUS` and records its read. -/
theorem pollStatus_run (hb : s.busOwner = .cart f) (hf : regsFit f (s.cfg.fam f) = true) (hl : s.env.status = w :: l) :
    pollStatus s = .ok (if statusBusy (s.cfg.fam f) w then none else some w) { s with
      env := { s.env with status := leftOf w l }, hist := .regRead (regAddr s.cfg f .status) w :: s.hist } := by
  have hdraw : nextStatus s = .ok w { s with env := { s.env with status := leftOf w l } } := by
    cases l with
    | nil =>
      have hsame : s = { s with env := { s.env with status := leftOf w [] } } := by
        rw [show leftOf w [] = s.env.status from hl.symm]
      unfold nextStatus draw
      rw [hl]
      exact congrArg _ hsame
    | cons x l => exact draw_head hl (List.cons_ne_nil x l)
  simp only [pollStatus, bind_ok (famParams_run hb), bind_ok (regRead_run (r := .status) hb hf hdraw), pure_run]

/-- A wait for a cartridge that is busy at every read times out, having read and nothing else (R124, R195). -/
theorem waitStatus_stuck (n : Nat) : ∀ {s : State}, s.busOwner = .cart f → regsFit f (s.cfg.fam f) = true →
    s.env.status ≠ [] → (∀ w ∈ s.env.status, statusBusy (s.cfg.fam f) w = true) →
    ∃ t, spinOn pollStatus n s = .error (.cause .timeout) t ∧ writes t.hist = writes s.hist ∧
      commands t.hist = commands s.hist := by
  induction n with
  | zero => exact fun _ _ _ _ => ⟨_, rfl, rfl, rfl⟩
  | succ n ih =>
    intro s hb hf hne hbusy
    obtain ⟨w, l, hl⟩ := List.exists_cons_of_ne_nil hne
    have hw : statusBusy (s.cfg.fam f) w = true := hbusy w (by simp [hl])
    have hpoll := pollStatus_run (s := { s with spinCount := n + 1 }) hb hf hl
    simp only [hw, if_true] at hpoll
    obtain ⟨t, hrun, hwrites, hcommands⟩ := ih (s := { s with
        env := { s.env with status := leftOf w l }, hist := .regRead (regAddr s.cfg f .status) w :: s.hist,
        spinCount := n }) hb hf (leftOf_ne w l) fun x hx => by
      rcases mem_leftOf hx with rfl | hx
      · exact hw
      · exact hbusy x (by simp [hl, hx])
    rw [writes_cons] at hwrites
    rw [commands_cons] at hcommands
    exact ⟨t, (spinOn_later hpoll).trans hrun, by simpa [Event.written] using hwrites,
      by simpa [Event.cartCommand] using hcommands⟩

/-- The handshake with such a cartridge ends in its first wait, before a register is written (R195). -/
theorem cartIssue_stuck (hb : s.busOwner = .cart f) (hf : regsFit f (s.cfg.fam f) = true) (hne : s.env.status ≠ [])
    (hbusy : ∀ w ∈ s.env.status, statusBusy (s.cfg.fam f) w = true) :
    ∃ t, cartIssue code a0 a1 s = .error (.cause .timeout) t ∧ writes t.hist = writes s.hist ∧
      commands t.hist = commands s.hist := by
  obtain ⟨t, hrun, hhist⟩ := waitStatus_stuck (s.cfg.fam f).waits.cmd hb hf hne hbusy
  exact ⟨t, by simp only [cartIssue, bind_ok (famParams_run hb), bind_error hrun], hhist⟩

/-! ### A cartridge that says error -/

/-- Inside a bracket, with no sample of the PI status that says a write is under way. -/
structure Writable (f : Family) (s : State) : Prop where
  owner : s.busOwner = .cart f
  pi : s.env.pi ≠ [] ∧ ∀ p ∈ s.env.pi, p.ioBusy = false
  caps : positiveCaps (s.cfg.fam f).waits
  regs : regsFit f (s.cfg.fam f) = true

/-- From one such state to another: the values of `STATUS` that are left, the register writes and the commands made. -/
structure Wrote (f : Family) (st : List Word) (W : List (Word × Word)) (C : List (Byte × Word × Word)) (s t : State) :
    Prop where
  writable : Writable f t
  cfg : t.cfg = s.cfg
  status : t.env.status = st
  wrote : writes t.hist = writes s.hist ++ W
  issued : commands t.hist = commands s.hist ++ C

theorem Wrote.refl (h : Writable f s) : Wrote f s.env.status [] [] s s := ⟨h, rfl, rfl, by simp, by simp⟩

theorem Wrote.trans (h : Wrote f st W C s t) (k : Wrote f st' W' C' t u) : Wrote f st' (W ++ W') (C ++ C') s u :=
  ⟨k.writable, k.cfg.trans h.cfg, k.status, by rw [k.wrote, h.wrote, List.append_assoc],
    by rw [k.issued, h.issued, List.append_assoc]⟩

/-- A change that leaves the bus, the parameters and the samples of the PI status alone. -/
theorem Writable.of_same (h : Writable f s) (hb : t.busOwner = s.busOwner) (hc : t.cfg = s.cfg)
    (hp : t.env.pi = s.env.pi) : Writable f t :=
  ⟨hb.trans h.owner, by rw [hp]; exact h.pi, by rw [hc]; exact h.caps, by rw [hc]; exact h.regs⟩

/-- One sample of the PI status ends the wait behind a write (R187). -/
theorem Writable.pollPi (h : Writable f s) :
    ∃ t, pollPiWritten s = .ok (some ()) t ∧ Wrote f s.env.status [] [] s t := by
  obtain ⟨p, l, hp, hl, hall, hdraw⟩ := draw_listed (get := Env.pi) (put := fun l e => { e with pi := l })
    (free := Config.freePi) (fun _ => rfl) h.pi.1 h.pi.2
  have hpi : nextPi s = .ok p { s with env := { s.env with pi := l } } := hdraw
  have hrun : pollPiWritten s = .ok (some ()) { s with env := { s.env with pi := l } } := by
    simp only [pollPiWritten, bind_ok hpi, hp, Bool.false_eq_true, if_false, pure_run]
  exact ⟨_, hrun, ⟨h.owner, ⟨hl, hall⟩, h.caps, h.regs⟩, rfl, rfl, (List.append_nil _).symm, (List.append_nil _).symm⟩

/-- A register write completes with its first sample (R187). -/
theorem Writable.regWrite (h : Writable f s) (r : Reg) (v : Word) :
    ∃ t, regWrite r v s = .ok () t ∧ Wrote f s.env.status [(regAddr s.cfg f r, v)] [] s t := by
  obtain ⟨n, hn⟩ := Nat.exists_eq_succ_of_ne_zero (Nat.pos_iff_ne_zero.mp h.caps.2.2.2.2.2)
  have hemit : Wrote f s.env.status [(regAddr s.cfg f r, v)] [] s
      { s with hist := .regWrite (regAddr s.cfg f r) v :: s.hist, spinCount := n + 1 } :=
    ⟨h.of_same rfl rfl rfl, rfl, rfl, writes_cons _ _, commands_cons _ _⟩
  obtain ⟨t, hpoll, ht⟩ := hemit.writable.pollPi
  refine ⟨t, ?_, by simpa using hemit.trans ht⟩
  simp only [Machine.regWrite, bind_ok (regAt_run h.owner h.regs r), emit_bind,
    bind_ok (famParams_run (s := { s with hist := .regWrite (regAddr s.cfg f r) v :: s.hist }) h.owner), hn]
  exact spinOn_now (s := { s with hist := .regWrite (regAddr s.cfg f r) v :: s.hist }) hpoll

/-- A wait whose first value is not busy ends with it (R195). -/
theorem Writable.waitStatus (h : Writable f s) (hl : s.env.status = w :: l) (hw : statusBusy (s.cfg.fam f) w = false)
    {n : Nat} (hn : 0 < n) : ∃ t, spinOn pollStatus n s = .ok w t ∧ Wrote f (leftOf w l) [] [] s t := by
  obtain ⟨n, rfl⟩ := Nat.exists_eq_succ_of_ne_zero (Nat.pos_iff_ne_zero.mp hn)
  have hpoll := pollStatus_run (s := { s with spinCount := n + 1 }) h.owner h.regs hl
  simp only [hw, Bool.false_eq_true, if_false] at hpoll
  exact ⟨_, spinOn_now hpoll, h.of_same rfl rfl rfl, rfl, rfl, writes_cons _ _, commands_cons _ _⟩

/-- The bytes an 's' brings come from a stream that always answers. -/
theorem Writable.sectorBytes (n : Nat) : ∀ {s : State}, Writable f s →
    ∃ bs t, many nextSectorByte n s = .ok bs t ∧ Wrote f s.env.status [] [] s t := by
  induction n with
  | zero => exact fun h => ⟨[], _, rfl, .refl h⟩
  | succ n ih =>
    intro s h
    have hbyte : ∃ b t, nextSectorByte s = .ok b t ∧ Wrote f s.env.status [] [] s t := by
      unfold nextSectorByte draw
      split
      · exact ⟨_, _, rfl, h.of_same rfl rfl rfl, rfl, rfl, by simp, by simp⟩
      · exact ⟨_, _, rfl, .refl h⟩
      · exact ⟨_, _, rfl, h.of_same rfl rfl rfl, rfl, rfl, by simp, by simp⟩
    obtain ⟨b, t, hrun, ht⟩ := hbyte
    obtain ⟨bs, u, hrest, hu⟩ := ih ht.writable
    rw [ht.status] at hu
    exact ⟨b :: bs, u, many_succ_ok hrun hrest, ht.trans hu⟩

/-- What a command does to the cartridge's buffer, it does whatever the cartridge answers (R178). -/
theorem Writable.sideEffect (h : Writable f s) (code : Byte) (a0 a1 : Word) :
    ∃ t, cartSideEffect code a0 a1 s = .ok () t ∧ Wrote f s.env.status [] [] s t := by
  cases hc : code == 0x73 with
  | false =>
    refine ⟨s, ?_, .refl h⟩
    rw [cartSideEffect, bind_ok (famParams_run h.owner), hc]
    rfl
  | true =>
    obtain ⟨bs, t, hrun, ht⟩ := Writable.sectorBytes (readCount (s.cfg.fam f) a0 a1) h
    refine ⟨{ t with
      cb := t.cb.writeBytes (readOffset (s.cfg.fam f) a0) (if t.byteswap then swapPairs bs else bs) }, ?_,
      ht.writable.of_same rfl rfl rfl, ht.cfg, ht.status, ht.wrote, ht.issued⟩
    rw [cartSideEffect, bind_ok (famParams_run h.owner), hc]
    exact bind_ok hrun

/-- A cartridge whose next value of `STATUS` says error and not busy answers no command (R195). -/
theorem Writable.answer_error (h : Writable f s) (hl : s.env.status = w :: l) (hw : statusBusy (s.cfg.fam f) w = false)
    (he : statusError (s.cfg.fam f) w = true) :
    ∃ t, cartAnswer code a0 a1 s = .error (.cause .cart) t ∧ Wrote f (leftOf w l) [] [] s t := by
  obtain ⟨t, hside, ht⟩ := h.sideEffect code a0 a1
  obtain ⟨u, hwait, hu⟩ := ht.writable.waitStatus (ht.status.trans hl) (by rw [ht.cfg]; exact hw) h.caps.2.1
  refine ⟨u, ?_, ht.trans hu⟩
  simp only [cartAnswer, bind_ok hside, cartFinish, bind_ok (famParams_run ht.writable.owner), ht.cfg, bind_ok hwait, he,
    if_true, raise_run]

/-- The arguments and the code of a command, behind a wait that its first value ends (R195). -/
theorem Writable.issue (h : Writable f s) (hl : s.env.status = w :: l) (hw : statusBusy (s.cfg.fam f) w = false) :
    ∃ t, cartIssue code a0 a1 s = .ok () t ∧ Wrote f (leftOf w l) (handshakeWrites s.cfg f code a0 a1) [] s t := by
  obtain ⟨s1, hr1, h1⟩ := h.waitStatus hl hw h.caps.2.1
  obtain ⟨s2, hr2, h2⟩ := h1.writable.regWrite .arg0 a0
  have h12 := h1.trans h2
  obtain ⟨s3, hr3, h3⟩ := h2.writable.regWrite .arg1 a1
  have h13 := h12.trans h3
  obtain ⟨s4, hr4, h4⟩ := h3.writable.regWrite .command (code.zeroExtend 32)
  have h14 := h13.trans h4
  refine ⟨s4, by simp only [cartIssue, bind_ok (famParams_run h.owner), bind_ok hr1, bind_ok hr2, bind_ok hr3, hr4], ?_⟩
  rw [h13.cfg, h12.cfg, h1.cfg, h3.status, h2.status, h1.status] at h14
  exact h14

/-- The handshake whose second value of `STATUS` says error and not busy: all is written, nothing answered (R195, R200). -/
theorem Writable.handshake_error {w0 w1 : Word} (h : Writable f s) (hl : s.env.status = w0 :: w1 :: l)
    (hw0 : statusBusy (s.cfg.fam f) w0 = false) (hw1 : statusBusy (s.cfg.fam f) w1 = false)
    (he : statusError (s.cfg.fam f) w1 = true) :
    ∃ t, cartHandshake code a0 a1 s = .error (.cause .cart) t ∧
      Wrote f (leftOf w1 l) (handshakeWrites s.cfg f code a0 a1) [(code, a0, a1)] s t ∧
      Event.cartCmd code a0 a1 none ∈ t.hist := by
  obtain ⟨t, hissue, ht⟩ := h.issue (code := code) (a0 := a0) (a1 := a1) hl hw0
  rw [← ht.cfg] at hw1 he
  obtain ⟨v, hv, -⟩ := ht.writable.answer_error (code := code) (a0 := a0) (a1 := a1) (l := l) ht.status hw1 he
  have hrecord : recordCommand code a0 a1 t = .ok () { t with hist := .cartCmd code a0 a1 none :: t.hist } := by
    simp only [recordCommand, hv, answerOf, emit_run]
  have hrec : Wrote f t.env.status [] [(code, a0, a1)] t { t with hist := .cartCmd code a0 a1 none :: t.hist } :=
    ⟨ht.writable.of_same rfl rfl rfl, rfl, rfl, writes_cons _ _, commands_cons _ _⟩
  obtain ⟨u, hu, hwrote⟩ := hrec.writable.answer_error (code := code) (a0 := a0) (a1 := a1) (l := l) ht.status hw1 he
  refine ⟨u, by simp only [cartHandshake, bind_ok hissue, bind_ok hrecord, hu], ?_,
    cartAnswer_records.of_cause hu _ (List.mem_cons_self ..)⟩
  simpa using (ht.trans hrec).trans hwrote

end Sys2Proof.Machine

namespace Sys2Proof.Proofs

open Sys2Proof.Machine

/-- Settles O24: outside a bracket the parameters of the family are refused (`famParams_native`); a busy cartridge ends the
first half of the handshake (`cartIssue_stuck`), one that says error the second (`Writable.handshake_error`). -/
theorem cartCommandFailures : Obligations.CartCommandFailures := by
  refine ⟨fun i s op hi hb => ?_, fun s f i code a0 a1 hb hi hwrap hf => ⟨fun hne hbusy => ?_,
    fun w0 w1 rest hl hw0 hw1 he hpi hidle hcaps => ?_⟩⟩
  · obtain ⟨code, a0, a1⟩ := op
    rw [exec_cartOperands hi]
    exact runHost_bind_refuse (bind_error (famParams_native hb))
  · obtain ⟨t, hissue, hwrites, hcommands⟩ := cartIssue_stuck (code := code) (a0 := a0) (a1 := a1) hb hf hne hbusy
    have hrun : cartCommand code a0 a1 s = .error (.cause .timeout) t :=
      (cartCommand_plain hb hwrap).trans (bind_error hissue)
    rw [exec_cartOperands hi]
    exact ⟨_, runHost_cause (bind_error hrun), rfl, ((touches_cartIssue _ _ _).of_error hissue).kept _, hwrites, hcommands⟩
  · obtain ⟨t, hshake, ht, hevent⟩ := Writable.handshake_error (code := code) (a0 := a0) (a1 := a1)
      ⟨hb, ⟨hpi, hidle⟩, hcaps, hf⟩ hl hw0 hw1 he
    have hrun : cartCommand code a0 a1 s = .error (.cause .cart) t := (cartCommand_plain hb hwrap).trans hshake
    rw [exec_cartOperands hi]
    exact ⟨_, runHost_cause (bind_error hrun), rfl, ((touches_cartHandshake _ _ _).of_error hshake).kept _, ht.wrote,
      ht.issued, hevent⟩

end Sys2Proof.Proofs
end

section
/-! PROOFS. The transport contract (44_transport_handlers.md R188, R189, R198): the byte-swap toggle, `init` and `exit` as
instructions, in an environment that answers at once and in every other. -/

namespace Sys2Proof.Machine

variable {α : Type} {f : Family} {F : Foot} {s t u : State} {c : Cause} {on v : Bool}

/-! ### The byte-swap toggle (R198) -/

theorem exec_setByteswap (on : Bool) (s : State) : exec (.setByteswap on) s = runHost (do setByteswap on; pure .ok) s := rfl

/-- What its body refuses, a bracket from the native bus is refused. -/
theorem bracketed_refused {clean : Op Unit} {body : Op α} {r : Refusal} (hc : s.cartType = some f)
    (hb : s.busOwner = .native) (hbody : ∀ t, Acquired f s t → body t = .error (.refuse r) t) :
    ∃ t, bracketed clean body s = .error (.refuse r) t := by
  obtain ⟨t, hrun, ht⟩ := acquireFor_run f hb
  have hacq : acquireBus s = .ok () t := by simp only [acquireBus, get'_bind, hc, hrun]
  exact ⟨t, (bind_ok hacq).trans (bind_error (attempt_refuse (hbody t ht)))⟩

theorem setByteswap_noControl (hc : s.cartType = some f) (hb : s.busOwner = .native)
    (hs : (s.cfg.fam f).hasSwap = false) : ∃ t, setByteswap on s = .error (.refuse .noSwapControl) t :=
  bracketed_refused hc hb fun t ht => by
    simp only [bind_ok (famParams_run ht.owner), ht.same.cfg, hs, Bool.false_eq_true, if_false, refuse_run]

/-- The toggle has no error of its own: the accesses are made at best effort (R280; log 23). -/
theorem noCause_setByteswap : NoCause (setByteswap on) := fun s c t h => by
  obtain ⟨_, u, v, _, _, -, -, -, hbody, -, -⟩ := bracketed_eq_cause (.pure _) h
  exact NoCause.bind noCause_famParams (fun _ => .ite (.bind (.bestEffort _) fun _ => .upd _) (.refuse _)) _ _ _ hbody

/-- However its accesses end, the mirror holds the value, and the bus is native again. -/
theorem setByteswap_eq_ok (h : setByteswap on s = .ok () t) : t.byteswap = on ∧ t.busOwner = .native := by
  obtain ⟨f, u, v, g, -, -, -, hbody, ht⟩ := bracketed_eq_ok h
  refine ⟨(ht.same.swap rfl).trans ?_, ht.owner⟩
  obtain ⟨q, w, -, hbody⟩ := bind_eq_ok.mp hbody
  cases hs : q.hasSwap with
  | false => rw [hs] at hbody; cases hbody
  | true =>
    rw [hs, if_pos rfl] at hbody
    obtain ⟨_, x, -, hmirror⟩ := bind_eq_ok.mp hbody
    cases hmirror
    rfl

/-! ### The record of `init` (log 35) -/

theorem exec_init (s : State) : exec .init s = runHost (do let n ← initOp; pure (.bufferSize n)) s := rfl

theorem exec_exit (s : State) : exec .exit s = runHost (do exitOp; pure .ok) s := rfl

/-- Where the block holds the record, it is `v`. -/
def Recorded (v : Bool) (t : State) : Prop := t.cfg.initRequired = true → t.initDone = v

theorem Recorded.of_same (h : Recorded v s) (k : SameOn F s t) (hF : F.init = false) : Recorded v t := fun hr =>
  (k.init hF).trans (h (k.cfg ▸ hr))

theorem setInitDone_records {a : Unit} (h : setInitDone v s = .ok a t) : Recorded v t := by
  cases h
  exact fun hr => if_pos hr

theorem putDown_records {a : Unit} (h : putDown s = .ok a t) : Recorded false t := by
  obtain ⟨_, u, -, hset⟩ := bind_eq_ok.mp h
  exact setInitDone_records hset

/-- A body of `init` that ends in a value ended in the record (R188). -/
theorem initBody_records {a : Unit} (h : initBody f s = .ok a t) : Recorded true t := by
  obtain ⟨_, u, -, h⟩ := bind_eq_ok.mp h
  obtain ⟨m, v, -, h⟩ := bind_eq_ok.mp h
  cases m with
  | false => cases h
  | true =>
    obtain ⟨q, w, -, h⟩ := bind_eq_ok.mp h
    obtain ⟨_, x, -, h⟩ := bind_eq_ok.mp h
    obtain ⟨_, y, -, hset⟩ := bind_eq_ok.mp h
    exact setInitDone_records hset

theorem touches_sendSettings (l : List (Word × Word)) : Touches .cart (sendSettings l) :=
  .forEach (fun _ => (touches_cartCommand _ _ _).bind fun _ => .pure _) l

/-- One that ends in a cause ended behind the session put down and before the record (R188). -/
theorem initBody_fails_records (h : initBody f s = .error (.cause c) t) : Recorded false t := by
  rcases bind_eq_error.mp h with h | ⟨_, u, hdown, h⟩
  · exact absurd h (noCause_putDown _ _ _)
  have hu := putDown_records hdown
  rcases bind_eq_error.mp h with h | ⟨m, v, hmatch, h⟩
  · exact hu.of_same ((touches_matchFamily f).of_error h) rfl
  have hv := hu.of_same ((touches_matchFamily f).of_ok hmatch) rfl
  cases m with
  | false => cases h; exact hv
  | true =>
    rcases bind_eq_error.mp h with h | ⟨q, w, hfam, h⟩
    · exact absurd h (noCause_famParams _ _ _)
    have hw := hv.of_same ((touches_famParams (F := {})).of_ok hfam) rfl
    rcases bind_eq_error.mp h with h | ⟨_, x, hreset, h⟩
    · exact absurd h (noCause_resetPort.onlyIf _ _ _)
    have hx := hw.of_same (touches_resetPort.onlyIf.of_ok hreset) rfl
    rcases bind_eq_error.mp h with h | ⟨_, y, -, h⟩
    · exact hx.of_same ((touches_sendSettings _).of_error h) rfl
    · cases h

/-- `init` of a known cartridge: done where it answers the size, undone where it answers a cause. -/
theorem exec_init_records (hp : s.probed = true) (hc : s.cartType = some f) (h : exec .init s = .next t) :
    (∃ n, t.result = .bufferSize n ∧ Recorded true t) ∨ ∃ c, t.result = .error c ∧ Recorded false t := by
  rw [exec_init] at h
  rcases runHost_value_cases h with ⟨n, u, hrun, rfl⟩ | ⟨c, u, hrun, rfl⟩
  · rw [initOp, dispatch_known hp hc] at hrun
    obtain ⟨_, v, hbracket, hsize⟩ := bind_eq_ok.mp hrun
    cases hsize
    obtain ⟨_, _, w, g, -, -, -, hbody, hrel⟩ := bracketed_eq_ok hbracket
    have hu : Recorded true u := (initBody_records hbody).of_same hrel.same rfl
    exact .inl ⟨_, rfl, hu⟩
  · rw [initOp, dispatch_known hp hc] at hrun
    rcases bind_eq_error.mp hrun with hrun | ⟨_, v, -, hsize⟩
    · obtain ⟨_, _, w, x, g, -, -, -, hbody, hclean, hrel⟩ := bracketed_eq_cause (.pure _) hrun
      cases hclean
      have hu : Recorded false u := (initBody_fails_records hbody).of_same hrel.same rfl
      exact .inr ⟨c, rfl, hu⟩
    · cases hsize

theorem exitBody_records {a : Unit} (h : exitBody f s = .ok a t) : Recorded false t := by
  simp only [exitBody, get'_bind] at h
  obtain ⟨_, u, -, h⟩ := bind_eq_ok.mp h
  simp only [get'_bind] at h
  obtain ⟨_, v, -, hdown⟩ := bind_eq_ok.mp h
  exact putDown_records hdown

/-- With a known cartridge `exit` stops the stream that is open, and its bracket follows (R189). -/
theorem exitOp_known (hp : s.probed = true) (hc : s.cartType = some f) : exitOp s = (do
    onlyIf (s.sess.mode != AccessMode.none) (bestEffort cardStop)
    bracketed putDown (exitBody f)) s := by
  rw [exitOp, dispatch_known hp hc, get'_bind]

/-- `exit` of a known cartridge undoes the record however it ends: by its body, or by the clean-up behind it (R189). -/
theorem exec_exit_records (hp : s.probed = true) (hc : s.cartType = some f) (h : exec .exit s = .next t) :
    Recorded false t := by
  rw [exec_exit] at h
  rcases runHost_then_cases h with ⟨u, hrun, rfl⟩ | ⟨c, u, hrun, rfl⟩
  · rw [exitOp_known hp hc] at hrun
    obtain ⟨_, v, -, hrun⟩ := bind_eq_ok.mp hrun
    obtain ⟨_, _, w, g, -, -, -, hbody, hrel⟩ := bracketed_eq_ok hrun
    have hu : Recorded false u := (exitBody_records hbody).of_same hrel.same rfl
    exact hu
  · rw [exitOp_known hp hc] at hrun
    rcases bind_eq_error.mp hrun with hrun | ⟨_, v, -, hrun⟩
    · exact absurd hrun (NoCause.onlyIf (.bestEffort _) _ _ _)
    · obtain ⟨_, _, w, x, g, -, -, -, -, hclean, hrel⟩ := bracketed_eq_cause noCause_putDown hrun
      have hu : Recorded false u := (putDown_records hclean).of_same hrel.same rfl
      exact hu

/-! ### Who writes the record -/

/-- A host operation of a footprint without the record keeps all that a disk operation keeps. -/
theorem runHost_kept {x : Op α} {y : α → HostResult} (h : Touches F x) (hle : F.le .all = true)
    (hx : runHost (do let a ← x; pure (y a)) s = .next t) : Kept .all s t := by
  obtain ⟨u, hu, ht⟩ := runHost_sameOn (h.bind fun _ => .pure _) hx
  rw [ht]
  exact (hu.mono hle).kept _

/-- No instruction but `init` and `exit` writes beyond what a disk operation may. -/
theorem exec_kept {i : Instr} (hi : i ≠ .init) (he : i ≠ .exit) (h : exec i s = .next t) : Kept .all s t := by
  have command : ∀ {app idx arg}, runHost (do executeCommand app idx arg; pure .ok) s = .next t → Kept .all s t :=
    runHost_kept (touches_executeCommand _ _ _) rfl
  have cart : ∀ {code a0 a1}, runHost (cartOperation code a0 a1) s = .next t → Kept .all s t :=
    runHost_kept (touches_cartCommand _ _ _) rfl
  cases i with
  | init => exact absurd rfl hi
  | exit => exact absurd rfl he
  | cmd0 => exact command h
  | cmd8 => exact runHost_kept touches_voltageCheck rfl h
  | cmd55 rca crc => exact command h
  | acmd41 arg crc => exact runHost_kept (touches_pollReady (F := .command) rfl (fun _ => .pure _) arg) rfl h
  | cmd2 => exact command h
  | cmd3 => exact runHost_kept touches_publishRca rfl h
  | cmd7 rca crc => exact runHost_kept (touches_selectCard rca) rfl h
  | acmd6 => exact runHost_kept touches_widenBus rfl h
  | cmd6 => exact runHost_kept touches_highSpeed rfl h
  | cmd58 => exact runHost_kept touches_readOcr rfl h
  | cmd12 => exact runHost_kept touches_stopStream rfl h
  | cmd18 arg crc => exact runHost_kept (touches_openAtArg _ _ _) rfl h
  | cmd25 arg crc => exact runHost_kept (touches_openAtArg _ _ _) rfl h
  | ccSdOp a0 a1 => exact cart h
  | ccSectorSet a0 a1 => exact cart h
  | ccRead a0 a1 => exact cart h
  | ccWrite a0 a1 => exact cart h
  | ccConfigSet a0 a1 => exact cart h
  | ccConfigGet a0 a1 => exact cart h
  | computeCrc7 bytes =>
    simp only [exec, execComputeCrc7] at h
    exact runHost_kept (F := { engine := true }) (.upd fun s => by constructor <;> simp) rfl h
  | computeCrc16 block =>
    simp only [exec, execComputeCrc16] at h
    exact runHost_kept (F := { lanes := true }) (.upd fun s => by constructor <;> simp) rfl h
  | executeCommand idx arg => exact command ((exec_executeCommand idx arg s).symm.trans h)
  | sendAppCommand idx rca arg => exact runHost_kept (touches_sendAppCommand idx rca arg) rfl h
  | cardInit => exact runHost_kept touches_cardInit rfl h
  | cardRead dest lba count => exact runHost_kept (touches_cardRead dest lba count) rfl h
  | cardWrite src lba count => exact runHost_kept (touches_cardWrite src lba count) rfl h
  | cardStop => exact runHost_kept touches_cardStop rfl h
  | setByteswap on => exact runHost_kept (touches_setByteswap on) rfl h
  | probe =>
    obtain ⟨u, hu, ht⟩ := runHost_sameOn (F := .all) ((touches_probeOp.mono rfl).bind fun c => by
      cases c with
      | none => exact .raise _
      | some f => exact .pure _) h
    rw [ht]
    exact hu.kept _
  | diskInitialize drive => exact runHost_kept (touches_diskInitialize drive) rfl h
  | diskStatus drive =>
    simp only [exec, execDiskStatus] at h
    exact runHost_kept (F := {}) (.get' _) rfl h
  | diskRead drive buffer lba count =>
    exact runHost_kept (touches_diskTransfer drive lba count ((touches_cardRead _ _ _).mono rfl)) rfl h
  | diskWrite drive buffer lba count =>
    exact runHost_kept (touches_diskTransfer drive lba count ((touches_cardWrite _ _ _).mono rfl)) rfl h
  | diskIoctl drive cmd buf =>
    simp only [exec, execDiskIoctl] at h
    exact runHost_kept (F := {}) (.get' _) rfl h
  | bind drive => exact runHost_kept (touches_bindOp drive) rfl h
  | acquire => exact runHost_kept touches_acquireBus rfl h
  | release => exact runHost_kept touches_releaseBus rfl h

/-- Where the parameter does not have the block hold the record, it is as it was. -/
def RecordKept (s t : State) : Prop := s.cfg.initRequired = false → t.cfg = s.cfg ∧ t.initDone = s.initDone

theorem order_recordKept : Order RecordKept where
  refl _ _ := ⟨rfl, rfl⟩
  trans h k hr := by
    obtain ⟨hcfg, hdone⟩ := h hr
    obtain ⟨hcfg', hdone'⟩ := k (by rw [hcfg]; exact hr)
    exact ⟨hcfg'.trans hcfg, hdone'.trans hdone⟩

theorem recordKept_touches {x : Op α} (h : Touches F x) (hF : F.init = false) : Every RecordKept x :=
  .of_touches h fun _ _ hs _ => ⟨hs.cfg, hs.init hF⟩

theorem recordKept_setInitDone (v : Bool) : Every RecordKept (setInitDone v) := .upd fun s hr =>
  ⟨rfl, by simp only [State.noted, hr, Bool.false_eq_true, if_false]⟩

theorem recordKept_putDown : Every RecordKept putDown :=
  .bind order_recordKept (recordKept_touches touches_sessionDown rfl) fun _ => recordKept_setInitDone false

theorem recordKept_initBody (f : Family) : Every RecordKept (initBody f) := by
  have o := order_recordKept
  exact .bind o recordKept_putDown fun _ => .bind o (recordKept_touches (touches_matchFamily f) rfl) fun _ =>
    .ite (.bind o (recordKept_touches (F := {}) touches_famParams rfl) fun _ =>
      .bind o (.onlyIf o (recordKept_touches touches_resetPort rfl)) fun _ =>
      .bind o (recordKept_touches (touches_sendSettings _) rfl) fun _ => recordKept_setInitDone true) (.raise o _)

theorem recordKept_exitBody (f : Family) : Every RecordKept (exitBody f) := by
  have o := order_recordKept
  exact .bind o (.get' o _) fun _ => .bind o (.onlyIf o (recordKept_touches (touches_swapDrive false) rfl)) fun _ =>
    .bind o (.get' o _) fun _ => .bind o (recordKept_touches (touches_regWrite _ _) rfl) fun _ => recordKept_putDown

theorem recordKept_bracketed {clean : Op Unit} {body : Op α} (hc : Every RecordKept clean) (hb : Every RecordKept body) :
    Every RecordKept (bracketed clean body) := by
  have o := order_recordKept
  have release := recordKept_touches touches_releaseBus rfl
  refine .bind o (recordKept_touches touches_acquireBus rfl) fun _ => .bind o hb.attempt fun r => ?_
  cases r with
  | ok a => exact .bind o release fun _ => .pure o _
  | error c => exact .bind o hc fun _ => .bind o release fun _ => .raise o _

theorem recordKept_dispatch {handler : Family → Op α} (h : ∀ f, Every RecordKept (handler f)) :
    Every RecordKept (dispatch handler) := by
  refine .bind order_recordKept (recordKept_touches touches_probeOp rfl) fun c => ?_
  cases c with
  | none => exact .raise order_recordKept _
  | some f => exact h f

theorem recordKept_initOp : Every RecordKept initOp :=
  recordKept_dispatch fun f => .bind order_recordKept
    (recordKept_bracketed (.pure order_recordKept _) (recordKept_initBody f)) fun _ => .get' order_recordKept _

theorem recordKept_exitOp : Every RecordKept exitOp := by
  have o := order_recordKept
  exact recordKept_dispatch fun f => .bind o (.get' o _) fun _ =>
    .bind o (.onlyIf o ((recordKept_touches touches_cardStop rfl).bestEffort o)) fun _ =>
    recordKept_bracketed recordKept_putDown (recordKept_exitBody f)

/-- A step whose instruction is not `init` or `exit`, or whose block holds no record, keeps it. -/
theorem exec_initDone {i : Instr} (hi : (i ≠ .init ∧ i ≠ .exit) ∨ s.cfg.initRequired = false)
    (h : exec i s = .next t) : t.initDone = s.initDone := by
  by_cases hne : i ≠ .init ∧ i ≠ .exit
  · exact (exec_kept hne.1 hne.2 h).init rfl
  have hr := hi.resolve_left hne
  rcases not_and_or.mp hne with hinit | hexit
  · rw [not_not.mp hinit, exec_init] at h
    obtain ⟨u, hu, ht⟩ := runHost_every (.bind order_recordKept recordKept_initOp fun _ => .pure order_recordKept _) h
    rw [ht]
    exact (hu hr).2
  · rw [not_not.mp hexit, exec_exit] at h
    obtain ⟨u, hu, ht⟩ := runHost_then_every recordKept_exitOp h
    rw [ht]
    exact (hu hr).2

/-! ### An identifier that does not match (R188) -/

/-- The body of `init` behind a foreign identifier: the session put down, the keys written, and the cause. -/
theorem initBody_unmatched (hb : s.busOwner = .cart f) (hq : Quiet s f) {id : Word} {ids : List Word}
    (hi : s.env.core.ident = id :: ids) (hne : ids ≠ []) (hid : identifierMatches s.cfg f id = false) :
    ∃ t, initBody f s = .error (.cause .probe) t ∧
      Drove f { Foot.setting with init := true } { s.env.core with ident := ids } (keyWrites s.cfg f) [] s t ∧
      t.sess = { s.sess with ready := false, mode := .none } ∧ t.initDone = s.noted false := by
  obtain ⟨u, hdown, hu, hsess, hdone, hhist, howner, -, -⟩ := putDown_quiet hq
  obtain ⟨t, hmatch, ht⟩ := matchFamily_quiet (howner.trans hb) hu.quiet (by rw [hu.env]; exact hi) hne
  rw [hu.cfg, hid] at hmatch
  rw [hu.env, hu.cfg] at ht
  refine ⟨t, ?_, (Drove.silent hu hhist).trans (ht.mono rfl), (ht.went.same.session_eq rfl rfl).trans hsess,
    (ht.went.same.init rfl).trans hdone⟩
  simp only [initBody, bind_ok hdown, bind_ok hmatch, Bool.false_eq_true, if_false, raise_run]

/-- `init` of a cartridge whose identifier does not match (R188). -/
theorem initOp_unmatched (h : Idle s f) {id : Word} {ids : List Word} (hi : s.env.core.ident = id :: ids) (hne : ids ≠ [])
    (hid : identifierMatches s.cfg f id = false) :
    ∃ t, initOp s = .error (.cause .probe) t ∧
      Went f { Foot.setting with init := true, bus := true } { s.env.core with ident := ids } [] s t ∧
      writes t.hist = writes s.hist ++ keyWrites s.cfg f ∧ Restored s t ∧
      t.sess = { s.sess with ready := false, mode := .none } ∧ t.initDone = s.noted false := by
  have body : ∀ t, Acquired f s t → Went f .bracket s.env.core [] s t → ∃ u, initBody f t = .error (.cause .probe) u ∧
      Drove f { Foot.setting with init := true } { s.env.core with ident := ids } (keyWrites s.cfg f) [] t u ∧
      u.sess = { t.sess with ready := false, mode := .none } ∧ u.initDone = t.noted false := fun t ht htw => by
    have := initBody_unmatched ht.owner htw.quiet (by rw [htw.env]; exact hi) hne (by rw [htw.cfg]; exact hid)
    rwa [htw.env, htw.cfg] at this
  obtain ⟨t, u, w, v, ht, hrun, hclean, hv, hres, hall, hwent⟩ := bracketed_fails (clean := pure ())
    (F := { Foot.setting with init := true }) (G := { Foot.setting with init := true, bus := true })
    h.cart h.bus h.quiet rfl rfl rfl fun t ht htw => by
      obtain ⟨u, hrun, hu, -, -⟩ := body t ht htw
      have hstay := Went.refl (F := { Foot.setting with init := true }) hu.went.quiet
      rw [hu.went.env] at hstay
      exact ⟨u, u, hrun, hu.went, rfl, hstay⟩
  cases hclean
  obtain ⟨u', hrun', hu, hsess, hdone⟩ := body t ht (ht.quiet h.quiet)
  rw [hrun] at hrun'
  cases hrun'
  refine ⟨v, ?_, hwent, ?_, hres, ?_, ?_⟩
  · rw [initOp, dispatch_known h.probed h.cart]
    exact bind_error hall
  · rw [hv.hist, writes_cfgEvents, hu.wrote, ht.hist, writes_cfgEvents]
  · rw [hv.sess, hsess, ht.sess]
  · exact (hv.same.init rfl).trans (hdone.trans (noted_same ht.same rfl _))

/-! ### `exit` with a stream open (R189) -/

theorem exitOp_closed (hp : s.probed = true) (hc : s.cartType = some f) (hm : s.sess.mode = .none) :
    exitOp s = bracketed putDown (exitBody f) s :=
  (exitOp_known hp hc).trans (bind_ok (onlyIf_false (by simp [hm]) _))

theorem exitOp_open (hp : s.probed = true) (hc : s.cartType = some f) (hm : s.sess.mode ≠ .none)
    (hstop : cardStop s = .ok () t) : exitOp s = bracketed putDown (exitBody f) t :=
  (exitOp_known hp hc).trans (bind_ok ((onlyIf_true (by simpa using hm) _).trans (bestEffort_ok hstop)))

/-- A refusal is no outcome to ignore (U9; log 22). -/
theorem exitOp_spi (hp : s.probed = true) (hc : s.cartType = some f) (hb : s.busOwner = .native)
    (hm : s.sess.mode ≠ .none) (ho : (s.cfg.fam f).offload = false) (hw : (s.cfg.fam f).wire = .spi) :
    ∃ t, exitOp s = .error (.refuse .spiDataPath) t := by
  obtain ⟨t, hstop⟩ := cardStop_spi hc hb hm ho hw
  have hbest : bestEffort cardStop s = .error (.refuse .spiDataPath) t := bind_error (attempt_refuse hstop)
  exact ⟨t, (exitOp_known hp hc).trans (bind_error ((onlyIf_true (by simpa using hm) _).trans hbest))⟩

/-- Between operations again: the identity is as it was and the bus is back. -/
theorem Idle.after {e : Env} {out : List Sent} (h : Idle s f) (hw : Went f F e out s t) (hF : F.ident = false)
    (hres : Restored s t) : Idle t f :=
  ⟨(hw.same.ident hF).1.trans h.probed, (hw.same.ident hF).2.trans h.cart, hres.owner, hw.quiet⟩

/-- The register writes of the stop of a stream come behind those before it, and where the port is not modelled by its
registers there are none (R192). -/
theorem cardStop_wrote (h : Idle s f) (hrun : cardStop s = .ok () t) :
    ∃ stop, writes t.hist = writes s.hist ++ stop ∧ ((s.cfg.fam f).portLevel = false → stop = []) := by
  obtain ⟨l, hl⟩ := ((lasts_cardStop (w := {})).of_ok hrun).hist
  have hwrites : writes t.hist = writes s.hist ++ writes l := by
    rw [hl, writes, List.filterMap_append, List.reverse_append]
    rfl
  refine ⟨writes l, hwrites, fun hp => ?_⟩
  have hnone := cardStop_writes h.cart h.bus hp hrun
  exact List.self_eq_append_right.mp (hnone.symm.trans hwrites)

end Sys2Proof.Machine

namespace Sys2Proof.Proofs

open Sys2Proof.Machine

/-- Settles O25: the law about the toggle (`setByteswap_quiet`), what it leaves in every environment (`setByteswap_eq_ok`)
and its refusal without a control. -/
theorem setByteswap : Obligations.SetByteswap := by
  refine ⟨fun s f on xs ws h hs hx hw hne => ?_, fun s t on h => ?_, fun s f on hc hb hs => ?_⟩
  · obtain ⟨t, hrun, hd, hres, hswap, hcb⟩ := setByteswap_quiet h hs on hx hw hne
    exact ⟨_, runHost_then hrun, hd.went.did .ok, hd.wrote, hd.issued, hres.withResult _, hswap, hcb⟩
  · rw [exec_setByteswap] at h
    rcases runHost_then_cases h with ⟨u, hrun, rfl⟩ | ⟨c, u, hrun, -⟩
    · obtain ⟨hswap, howner⟩ := setByteswap_eq_ok hrun
      exact ⟨rfl, hswap, ((touches_setByteswap on).of_ok hrun).session_eq rfl rfl, howner⟩
    · exact absurd hrun (noCause_setByteswap _ _ _)
  · obtain ⟨t, hrun⟩ := setByteswap_noControl (on := on) hc hb hs
    exact runHost_bind_refuse hrun

/-- Settles O26: the record in every environment (`exec_init_records`, `exec_exit_records`, `exec_initDone`), then the law
about `init` where the identifier matches (`initOp_quiet`) and where it does not (`initOp_unmatched`). -/
theorem initCompletes : Obligations.InitCompletes := by
  refine ⟨fun s t hr hp hc h => ?_, fun s t hr hp hc h => ?_, fun i s t hi h => exec_initDone hi h,
    fun s f id ids h hi hne => ⟨fun hid hw => ?_, fun hid => ?_⟩⟩
  · obtain ⟨f, hf⟩ := Option.ne_none_iff_exists'.mp hc
    have hrt : t.cfg.initRequired = true := (exec_fixed h).cfg ▸ hr
    rcases exec_init_records hp hf h with ⟨n, hres, hrec⟩ | ⟨c, hres, hrec⟩
    · exact ⟨fun _ => ⟨n, hres⟩, fun _ => hrec hrt⟩
    · refine ⟨fun hd => Bool.noConfusion ((hrec hrt).symm.trans hd), fun ⟨n, hn⟩ => ?_⟩
      rw [hres] at hn
      cases hn
  · obtain ⟨f, hf⟩ := Option.ne_none_iff_exists'.mp hc
    exact exec_exit_records hp hf h ((exec_fixed h).cfg ▸ hr)
  · obtain ⟨t, hrun, hd, hres, hsess, hswap, hcb, hdone⟩ := initOp_quiet h hi hne hid hw
    exact ⟨_, runHost_ok (bind_ok hrun), hd.went.did _, hd.wrote, hd.issued, hres.withResult _, hsess, hswap, hcb, hdone⟩
  · obtain ⟨t, hrun, hwent, hwrites, hres, hsess, hdone⟩ := initOp_unmatched h hi hne hid
    exact ⟨_, runHost_cause (bind_error hrun), hwent.did _, hwrites, hres.withResult _, hsess, hdone⟩

/-- Settles O27: the refusal on the SPI flavour (`exitOp_spi`); the bracket of `exit` (`exitBracket_quiet`) alone, or behind
the stop of the open stream (`cardStop_open`). -/
theorem exitCompletes : Obligations.ExitCompletes := by
  refine ⟨fun s f hp hc hb hm ho hw => ?_, fun s f xs ws h hx hw hne => ⟨fun hm => ?_,
    fun a busy m l hm ho hn ha hl hlne hbusy hd hmne => ?_⟩⟩
  · obtain ⟨t, hrun⟩ := exitOp_spi hp hc hb hm ho hw
    exact runHost_bind_refuse hrun
  · obtain ⟨t, hrun, hd, hres, hsess, hswap, hcb, hdone⟩ := exitBracket_quiet h hx hw hne
    exact ⟨_, runHost_then ((exitOp_closed h.probed h.cart hm).trans hrun), hd.went.did .ok, hd.wrote, hres.withResult _,
      hsess, hswap, hcb, hdone⟩
  · obtain ⟨t, hstop, ht, hrest, hsesst⟩ := cardStop_open h ho hn hm ha hl hlne hbusy hd hmne
    obtain ⟨stop, hwrote, hnone⟩ := cardStop_wrote h hstop
    have hcfg := ht.cfg
    have hswt : t.byteswap = s.byteswap := ht.same.swap rfl
    obtain ⟨u, hrun, hu, hres, hsess, hswap, hcb, hdone⟩ := exitBracket_quiet (h.after ht rfl hrest) (xs := xs) (ws := ws)
      (by rw [hswt, hcfg]; exact hx) (by rw [ht.env]; exact hw) (by rw [hswt, hcfg]; exact hne)
    have hwent := (ht.mono (G := { Foot.command with bus := true, buffer := true, swap := true, init := true }) rfl).trans
      (hu.went.mono rfl)
    rw [ht.env, List.append_nil] at hwent
    refine ⟨_, runHost_then ((exitOp_open h.probed h.cart hm hstop).trans hrun), hwent.did .ok,
      ⟨stop, ?_, hnone⟩, (hrest.trans hres).withResult _, ?_, hswap, hcb.trans (ht.same.buffer rfl),
      hdone.trans (noted_same ht.same rfl _)⟩
    · show writes u.hist = _
      rw [hu.wrote, hwrote, hcfg, hswt]
    · show u.sess = _
      rw [hsess, hsesst]

end Sys2Proof.Proofs
end

section
/-! PROOFS. The probe, and the operations dispatched by it (45_autodetect_dispatch.md R210 to R215): the laws about the loop of
the probe, brought to the instruction, and what a later probe or dispatch finds. -/

namespace Sys2Proof.Machine

variable {α : Type} {f : Family} {F : Foot} {s t : State} {c : Option Family}

/-! ### The probe as an instruction -/

/-- A probe that is not over runs the loop over the families in their order (R210). -/
theorem probeOp_unprobed (hp : s.probed = false) : probeOp s = probeLoop s.cfg.probeOrder 0 s := by
  simp only [probeOp, get'_bind, hp, Bool.false_eq_true, if_false]

/-- `probe` is a dispatch whose handler says the family. -/
theorem exec_probe (s : State) : exec .probe s = runHost (dispatch fun f => pure (.family f)) s := rfl

/-- What `probe` returns, given what the probe found. -/
def probeResult : Option Family → HostResult
  | some f => .family f
  | none => .error .noCartridge

theorem exec_probe_of_ok (h : probeOp s = .ok c t) : exec .probe s = .next { t with result := probeResult c } := by
  rw [exec_probe]
  cases c with
  | some f => exact runHost_ok (bind_ok h)
  | none => exact runHost_cause (bind_ok h)

/-- A `probe` that answers found something out, and left what that run left but for the result. -/
theorem exec_probe_eq_next (h : exec .probe s = .next t) : ∃ c u, probeOp s = .ok c u ∧ { t with result := s.result } = u := by
  cases hx : probeOp s with
  | ok c u =>
    rw [exec_probe_of_ok hx] at h
    cases h
    exact ⟨c, u, rfl, (touches_probeOp.of_ok hx).unset⟩
  | error e u =>
    have hd : (dispatch fun f => pure (.family f) : Op HostResult) s = .error e u := bind_error hx
    cases e with
    | cause q => exact absurd hx (noCause_probeOp _ _ _)
    | refuse q => rw [exec_probe, runHost_refuse hd] at h; cases h
    | fault q => rw [exec_probe, runHost, hd] at h; cases h

/-- A run that touches no memory leaves every byte as it was. -/
theorem SameOn.sameBytes (h : SameOn F s t) (hr : F.ram = false) (hb : F.buffer = false) (r : HostResult) :
    SameBytes s { t with result := r } := fun a =>
  ⟨hostByte_same h hr a, congrArg (·.read a) (h.ram hr).1, congrArg (·.read a) (h.buffer hb)⟩

/-! ### What the probe leaves behind it -/

theorem probeLoop_eq_ok {l : List Family} {i : Nat} (h : probeLoop l i s = .ok c t) : t.probed = true ∧ t.cartType = c := by
  induction l generalizing i s with
  | nil => cases h; exact ⟨rfl, rfl⟩
  | cons f l ih =>
    obtain ⟨_, u, -, h⟩ := bind_eq_ok.mp h
    obtain ⟨m, v, -, h⟩ := bind_eq_ok.mp h
    cases m with
    | true => cases h; exact ⟨rfl, rfl⟩
    | false => exact ih h

/-- A probe that answers is over, and what it found is the identity (R210). -/
theorem probeOp_eq_ok (h : probeOp s = .ok c t) : t.probed = true ∧ t.cartType = c := by
  cases hp : s.probed with
  | true =>
    rw [probeOp_known hp] at h
    cases h
    exact ⟨hp, rfl⟩
  | false => exact probeLoop_eq_ok (probeOp_unprobed hp ▸ h)

/-- A second probe gives the first one's answer and changes nothing (R215). -/
theorem probeOp_again (h : probeOp s = .ok c t) : probeOp t = .ok c t := by
  obtain ⟨hp, hc⟩ := probeOp_eq_ok h
  rw [probeOp_known hp, hc]

/-! ### The dispatch behind a probe -/

/-- A dispatch does what it does behind a probe of its own (R214). -/
theorem dispatch_behind_probe (handler : Family → Op α) (h : probeOp s = .ok c t) : dispatch handler s = dispatch handler t := by
  rw [dispatch, bind_ok h, bind_ok (probeOp_again h)]

theorem runHost_dispatch_behind_probe (handler : Family → Op α) (k : α → Op HostResult) (h : probeOp s = .ok c t) :
    runHost (dispatch handler >>= k) s = runHost (dispatch handler >>= k) t := by
  simp only [runHost, bind, EStateM.bind, dispatch_behind_probe handler h]

/-- The five dispatched operations are a dispatch in front of their result (R214). -/
theorem exec_dispatched {i : Instr}
    (hi : i = .init ∨ i = .exit ∨ i = .cardInit ∨ (∃ d l c, i = .cardRead d l c) ∨ ∃ d l c, i = .cardWrite d l c) :
    ∃ (α : Type) (handler : Family → Op α) (k : α → Op HostResult), exec i = runHost (dispatch handler >>= k) := by
  rcases hi with rfl | rfl | rfl | ⟨d, l, c, rfl⟩ | ⟨d, l, c, rfl⟩ <;> exact ⟨_, _, _, rfl⟩

end Sys2Proof.Machine

namespace Sys2Proof.Proofs

open Sys2Proof.Machine

/-- Settles O28: the loop of the probe where a family matches (`probeLoop_found`); once probed, the identity is the answer. -/
theorem probeFinds : Obligations.ProbeFinds := by
  refine ⟨fun s f pre post vals ids id hp hb hq horder hlen hno hyes hi hne => ?_, fun s f hp hc => ?_⟩
  · obtain ⟨t, hloop, hres, hsame, henv, hsent, hwr, hprobed, hcart, hseq⟩ :=
      probeLoop_found (i := 0) (post := post) pre hb hq hlen hno hyes hi hne
    have hrun : probeOp s = .ok (some f) t := by rw [probeOp_unprobed hp, horder, hloop]
    exact ⟨_, exec_probe_of_ok hrun, rfl, hprobed, hcart, hseq, hres.withResult _, hsame.kept _, hsame.sameBytes rfl rfl _,
      henv, hsent, hwr⟩
  · rw [exec_probe_of_ok (probeOp_known hp), hc]
    rfl

/-- Settles O29: the loop of the probe where no family matches (`probeLoop_none`). A probe with an empty order takes no
bracket, so the bus stays where it was. -/
theorem probeNone : Obligations.ProbeNone := by
  refine ⟨fun s vals ids hp hb hq hlen hno hi hne => ?_, fun s hp hc => ?_⟩
  · obtain ⟨t, hloop, hres, hsame, -, -, hwr, hprobed, hcart, hseq⟩ := probeLoop_none (i := 0) _ hb hq hlen hno hi hne
    have hrun : probeOp s = .ok none t := (probeOp_unprobed hp).trans hloop
    have howner : t.busOwner = .native := by
      by_cases ho : s.cfg.probeOrder = []
      · rw [ho] at hloop
        cases hloop
        exact hb
      · exact (hres ho).owner
    exact ⟨_, exec_probe_of_ok hrun, rfl, hprobed, hcart, hseq, howner, hsame.kept _, hsame.sameBytes rfl rfl _, hwr⟩
  · rw [exec_probe_of_ok (probeOp_known hp), hc]
    rfl

/-- Settles O30 by O28: the order up to the first place of `f` holds other families alone, and none of those matches. -/
theorem probeExclusive : Obligations.ProbeExclusive := by
  intro s f val rest hp hb hq hmem hval hi hne
  obtain ⟨pre, post, horder, hfirst⟩ := List.eq_append_cons_of_mem hmem
  have hno : ∀ gv ∈ pre.zip (pre.map val), identifierMatches s.cfg gv.1 gv.2 = false := fun gv hgv => by
    rw [← List.map_prod_left_eq_zip] at hgv
    obtain ⟨g, hg, rfl⟩ := List.mem_map.mp hgv
    exact (hval g).trans (decide_eq_false fun hgf => hfirst (hgf ▸ hg))
  have hyes : identifierMatches s.cfg f (val f) = true := (hval f).trans (decide_eq_true rfl)
  have hident : s.env.ident = pre.map val ++ val f :: (post.map val ++ rest) := by simp [hi, horder]
  obtain ⟨t, hrun, hres, -, hcart, hseq, -⟩ := probeFinds.1 s f pre post (pre.map val) (post.map val ++ rest) (val f)
    hp hb hq horder (List.length_map _) hno hyes hident (List.append_ne_nil_of_right_ne_nil _ hne)
  exact ⟨t, hrun, hres, hcart, by rw [hseq]⟩

/-- Settles O31: behind a probe, the probe of the dispatch answers again (`runHost_dispatch_behind_probe`). -/
theorem dispatchProbesFirst : Obligations.DispatchProbesFirst := by
  intro i s t _ hi h
  obtain ⟨c, u, hrun, hu⟩ := exec_probe_eq_next h
  obtain ⟨_, handler, k, hexec⟩ := exec_dispatched hi
  rw [hu, hexec]
  exact runHost_dispatch_behind_probe handler k hrun

end Sys2Proof.Proofs
end

section
/-! PROOFS. The block-device adapter: `bind`, `disk_status` and `disk_ioctl`, and `disk_read` and `disk_write` as checks in front
of the card operation (46_block_adapter.md R220, R221, R223 to R226, R228). -/

namespace Sys2Proof.Machine

variable {s t : State} {drive : Byte} {lba count : Word} {op : Op Unit}

/-! ### The checks in numbers -/

theorem not_driveInRange_iff : (!driveInRange s drive) = true ↔ s.cfg.nVolumes ≤ drive.toNat := by simp [driveInRange]

theorem not_isBound_iff : (!s.isBound drive) = true ↔ s.bound.getD drive.toNat false = false := by simp [State.isBound]

/-- A drive that is out of range, unbound or marked is not initialised (R223). -/
theorem diskStatus_eq (s : State) (drive : Byte) : diskStatus s drive =
    if s.cfg.nVolumes ≤ drive.toNat ∨ s.bound.getD drive.toNat false = false ∨ s.noinit.getD drive.toNat true = true
    then 0x01 else 0x00 := by
  refine if_congr ?_ rfl rfl
  rw [Bool.or_eq_true, Bool.or_eq_true, not_driveInRange_iff, not_isBound_iff, or_assoc]
  rfl

/-- The range, the binding and the code, in that order (R221, R226). -/
theorem diskIoctl_eq (s : State) (drive cmd : Byte) : diskIoctl s drive cmd =
    if s.cfg.nVolumes ≤ drive.toNat then .paramError
    else if s.bound.getD drive.toNat false = false then .notReady
    else if cmd = 0x00 then .ok
    else .paramError :=
  if_congr not_driveInRange_iff rfl (if_congr not_isBound_iff rfl rfl)

/-- The checks in front of a transfer, in their order (R224, R268). -/
theorem diskCheck_eq (s : State) (drive : Byte) (lba count : Word) : diskCheck s drive lba count =
    if s.cfg.nVolumes ≤ drive.toNat then some .paramError
    else if count = 0 ∨ 2 ^ 32 < lba.toNat + count.toNat then some .paramError
    else if s.bound.getD drive.toNat false = false then some .notReady
    else if s.noinit.getD drive.toNat true = true then some .notReady
    else none := by
  have hoperands : (!countOk count || !rangeOk lba count) = true ↔ count = 0 ∨ 2 ^ 32 < lba.toNat + count.toNat := by
    simp [countOk, rangeOk]
  exact if_congr not_driveInRange_iff rfl (if_congr hoperands rfl (if_congr not_isBound_iff rfl rfl))

/-- `bind` as its checks in their order, and the binding behind them (R220, R221; log 49). -/
theorem bindOp_eq (s : State) (drive : Byte) : bindOp drive s =
    if s.cfg.nVolumes ≤ drive.toNat then .error (.cause .param) s
    else if s.bound.getD drive.toNat false = true then .ok () s
    else if s.probed = false ∨ s.cartType = none then .error (.cause .noCartridge) s
    else if s.sess.ready = false then .error (.cause .notReady) s
    else .ok () { s with bound := s.bound.set drive.toNat true, noinit := s.noinit.set drive.toNat false } := by
  have hcart : (!s.probed || s.cartType.isNone) = true ↔ s.probed = false ∨ s.cartType = none := by simp
  have hready : (!s.sess.ready) = true ↔ s.sess.ready = false := by simp
  simp only [bindOp, get'_bind, id, not_driveInRange_iff, State.isBound, hcart, hready]
  split_ifs <;> rfl

/-! ### The translated outcome -/

/-- What the adapter makes of each cause (R228). -/
theorem translate_spec (c : Cause) :
    ((c = .noCartridge ∨ c = .notReady) → translate c = .notReady) ∧
    ((c = .timeout ∨ c = .crc ∨ c = .mismatch ∨ c = .malformed ∨ c = .illegal ∨ c = .absent ∨ c = .write ∨
      c = .cart ∨ c = .probe) → translate c = .error) ∧
    (c = .param → translate c = .paramError) := by
  refine ⟨?_, ?_, ?_⟩
  · rintro (rfl | rfl) <;> rfl
  · rintro (rfl | rfl | rfl | rfl | rfl | rfl | rfl | rfl | rfl) <;> rfl
  · rintro rfl
    rfl

/-- A disk transfer that a check answers (R224). -/
theorem diskTransfer_checked {r : DiskResult} (hck : diskCheck s drive lba count = some r) :
    diskTransfer drive lba count op s = .ok r s := by
  simp only [diskTransfer, get'_bind, id, hck, pure_run]

/-- A disk transfer whose card operation ends in a cause: it is translated, and a session that was not ready marks the drive
(R224, R225, R228). -/
theorem diskTransfer_failed {c : Cause} (hck : diskCheck s drive lba count = none) (hop : op s = .error (.cause c) t) :
    diskTransfer drive lba count op s = .ok (translate c)
      { t with noinit := if c = .notReady then t.noinit.set drive.toNat true else t.noinit } := by
  simp only [diskTransfer, get'_bind, id, hck, bind_ok (attempt_cause hop)]
  cases c <;> rfl

/-! ### The host operations -/

/-- A host operation that is refused ran its one operation to that refusal. -/
theorem runHost_then_eq_refused {x : Op Unit} {r : HostResult} {q : Refusal}
    (h : runHost (do x; pure r) s = .refused q) : ∃ u, x s = .error (.refuse q) u := by
  cases hx : x s with
  | ok a u =>
    rw [runHost_then hx] at h
    cases h
  | error e u =>
    cases e with
    | cause c =>
      rw [runHost_then_cause hx] at h
      cases h
    | refuse p =>
      rw [runHost_bind_refuse hx] at h
      cases h
      exact ⟨u, rfl⟩
    | fault p =>
      rw [runHost_bind_fault hx] at h
      cases h

/-- A disk transfer as a host operation. -/
def runDisk (drive : Byte) (lba count : Word) (op : Op Unit) : State → Host.Outcome State Fault Refusal :=
  runHost (do let r ← diskTransfer drive lba count op; pure (.disk r))

theorem runDisk_of_ok {r : DiskResult} (h : diskTransfer drive lba count op s = .ok r t) :
    runDisk drive lba count op s = .next { t with result := .disk r } := runHost_ok (bind_ok h)

/-- `disk_read` is a disk transfer of `card_read`, `disk_write` one of `card_write` (R224, R225). -/
theorem exec_diskTransfer {buf : Word} {i j : Instr}
    (h : (i, j) = (.diskRead drive buf lba count, .cardRead buf lba count) ∨
      (i, j) = (.diskWrite drive buf lba count, .cardWrite buf lba count)) :
    ∃ op, Touches .card op ∧ exec i = runDisk drive lba count op ∧ exec j = runHost (do op; pure .ok) := by
  rcases h with h | h <;> cases h
  · exact ⟨_, touches_cardRead buf lba count, rfl, rfl⟩
  · exact ⟨_, touches_cardWrite buf lba count, rfl, rfl⟩

/-- Behind the checks, a refusal of the card operation is the refusal of the disk operation. -/
theorem runDisk_refused {q : Refusal} (hck : diskCheck s drive lba count = none)
    (h : runHost (do op; pure .ok) s = .refused q) : runDisk drive lba count op s = .refused q := by
  obtain ⟨u, hu⟩ := runHost_then_eq_refused h
  exact runHost_bind_refuse (diskTransfer_refused hck hu)

/-- Behind the checks, the disk operation ends in the state the card operation ends in, its outcome translated and a drive
marked whose session was not ready (R224, R225, R228). A card operation leaves the drive table as it was. -/
theorem runDisk_refines (hop : Touches .card op) (hck : diskCheck s drive lba count = none)
    (h : runHost (do op; pure .ok) s = .next t) :
    (t.result = .ok ∨ ∃ c, t.result = .error c) ∧ runDisk drive lba count op s = .next { t with
      result := .disk (adapterResult t.result)
      noinit := if t.result = .error .notReady then s.noinit.set drive.toNat true else s.noinit } := by
  rcases runHost_then_cases h with ⟨u, hu, rfl⟩ | ⟨c, u, hu, rfl⟩
  · have hn : u.noinit = s.noinit := ((hop.of_ok hu).disk rfl).2
    refine ⟨.inl rfl, ?_⟩
    rw [runDisk_of_ok (diskTransfer_ok hck hu), if_neg nofun, ← hn]
    rfl
  · have hn : u.noinit = s.noinit := ((hop.of_error hu).disk rfl).2
    refine ⟨.inr ⟨c, rfl⟩, ?_⟩
    rw [runDisk_of_ok (diskTransfer_failed hck hu), ← hn]
    simp only [HostResult.error.injEq]
    rfl

end Sys2Proof.Machine

namespace Sys2Proof.Proofs

open Sys2Proof.Machine

/-- Settles O49: each check by `diskCheck_eq`, and behind them the card operation (`runDisk_refused`, `runDisk_refines`). -/
theorem diskTransfers : Obligations.DiskTransfers := by
  intro s drive buf lba count i j hij
  obtain ⟨op, hop, hi, hj⟩ := exec_diskTransfer hij
  rw [hi, hj]
  refine ⟨fun hout => ?_, fun hin hbad => ?_, fun hin hcount hlba => ?_⟩
  · exact runDisk_of_ok (diskTransfer_checked (by rw [diskCheck_eq, if_pos hout]))
  · exact runDisk_of_ok (diskTransfer_checked (by rw [diskCheck_eq, if_neg hin.not_ge, if_pos hbad]))
  · have hck := diskCheck_eq s drive lba count
    rw [if_neg hin.not_ge, if_neg (not_or.mpr ⟨hcount, hlba.not_gt⟩)] at hck
    refine ⟨fun hdrive => ?_, fun hbound hinit => ?_⟩
    · rw [← ite_or, if_pos hdrive] at hck
      exact runDisk_of_ok (diskTransfer_checked hck)
    · rw [hbound, hinit] at hck
      refine ⟨fun q hq => runDisk_refused hck hq, fun t ht => ?_⟩
      obtain ⟨hresult, hrun⟩ := runDisk_refines hop hck ht
      refine ⟨adapterResult t.result, hrun, hresult, fun hok => ?_, fun c hc => ?_⟩
      · rw [hok]
        rfl
      · rw [hc]
        exact translate_spec c

/-- Settles O45: each branch of `bindOp_eq`, as a step. -/
theorem bindResult : Obligations.BindResult := by
  intro s drive
  have hrun := bindOp_eq s drive
  split_ifs at hrun ⊢
  · exact runHost_then_cause hrun
  · exact runHost_then hrun
  · exact runHost_then_cause hrun
  · exact runHost_then_cause hrun
  · exact runHost_then hrun

/-- Settles O47: the status read off the drive table (`diskStatus_eq`). -/
theorem diskStatusPure : Obligations.DiskStatusPure := by
  intro s drive
  rw [← diskStatus_eq]
  rfl

/-- Settles O48: the answer read off the drive table and the code (`diskIoctl_eq`). -/
theorem diskIoctl : Obligations.DiskIoctl := by
  intro s drive cmd buf
  rw [← diskIoctl_eq]
  rfl

end Sys2Proof.Proofs
end

section
/-! PROOFS. The causes the hardware gives, and the operations that end in no other, in any environment: everything a card
operation runs behind its checks (60_exceptions.md R260, R263, R264). One lemma for each way operations are put together,
then one for each operation, in the order of the model. -/

namespace Sys2Proof.Machine

variable {α β : Type} {c : Cause}

/-! ### The causes -/

/-- A cause that card, cartridge, PI controller or bus gives; the other three are answers of the checks (R260, R264). -/
def Cause.hardware : Cause → Bool
  | .noCartridge | .notReady | .param => false
  | .probe | .timeout | .absent | .mismatch | .crc | .illegal | .malformed | .write | .cart => true

theorem cardFlags_hardware {first : Bool} {kind : SdKind} {resp : List Byte} (h : cardFlags first kind resp = some c) :
    c.hardware = true := by
  cases kind with
  | sdr1 | sdr1b =>
    simp only [cardFlags] at h
    split_ifs at h <;> cases h <;> rfl
  | none | sdr2 | sdr3 | sdr6 | sdr7 => cases h

/-- A response check that fails gives a cause of the hardware (R122). -/
theorem responseFault_hardware {p : Params} {wire : Wire} {kind : SdKind} {idx : BitVec 6} {resp : List Byte}
    (h : responseFault p wire kind idx resp = some c) : c.hardware = true := by
  cases wire with
  | spi => cases h
  | sdNative =>
    simp only [responseFault] at h
    split_ifs at h
    · cases h; rfl
    · cases h; rfl
    · cases h; rfl
    · exact cardFlags_hardware h

/-- So does a status token that does not say accepted (R173). -/
theorem tokenFault_hardware {tok : BitVec 3} (h : tokenFault tok = some c) : c.hardware = true := by
  unfold tokenFault at h
  split_ifs at h <;> cases h <;> rfl

/-! ### Putting operations together -/

/-- Whatever the environment answers, a cause the operation ends in is one the hardware gives. -/
def HardwareOnly (x : Op α) : Prop := ∀ s c t, x s = .error (.cause c) t → c.hardware = true

namespace HardwareOnly

theorem of_noCause {x : Op α} (h : NoCause x) : HardwareOnly x := fun s c t hx => absurd hx (h s c t)

theorem pure (a : α) : HardwareOnly (Pure.pure a : Op α) := of_noCause (.pure a)
theorem get' (g : State → α) : HardwareOnly (Machine.get' g) := of_noCause (.get' g)
theorem upd (g : State → State) : HardwareOnly (Machine.upd g) := of_noCause (.upd g)
theorem refuse (r : Refusal) : HardwareOnly (Machine.refuse r : Op α) := of_noCause (.refuse r)

theorem raise (hc : c.hardware = true) : HardwareOnly (Machine.raise c : Op α) := fun _ _ _ h => by cases h; exact hc

theorem bind {x : Op α} {k : α → Op β} (hx : HardwareOnly x) (hk : ∀ a, HardwareOnly (k a)) : HardwareOnly (x >>= k) :=
  fun s c u h => by
    rcases bind_eq_error.mp h with h1 | ⟨a, t, -, h2⟩
    · exact hx s c u h1
    · exact hk a t c u h2

/-- What stands behind a caught operation has to keep to the hardware's causes only where the caught cause is one. -/
theorem caught {x : Op α} {k : Except Cause α → Op β} (hx : HardwareOnly x) (hok : ∀ a, HardwareOnly (k (.ok a)))
    (herr : ∀ c, c.hardware = true → HardwareOnly (k (.error c))) : HardwareOnly (attempt x >>= k) := fun s c u h => by
  rcases bind_eq_error.mp h with h1 | ⟨r, t, h1, h2⟩
  · exact absurd h1 (NoCause.attempt x s c u)
  · rcases attempt_eq_ok h1 with ⟨a, rfl, -⟩ | ⟨d, rfl, hd⟩
    · exact hok a t c u h2
    · exact herr d (hx s d t hd) t c u h2

theorem ite {b : Prop} [Decidable b] {x y : Op α} (hx : HardwareOnly x) (hy : HardwareOnly y) :
    HardwareOnly (if b then x else y) := by
  split <;> assumption

theorem onlyIf {b : Bool} {x : Op Unit} (h : HardwareOnly x) : HardwareOnly (Machine.onlyIf b x) := ite h (pure _)

theorem many {one : Op α} (h : HardwareOnly one) (n : Nat) : HardwareOnly (Machine.many one n) := by
  induction n with
  | zero => exact pure _
  | succ n ih => exact h.bind fun _ => ih.bind fun _ => pure _

theorem forEach {act : α → Op Unit} (h : ∀ a, HardwareOnly (act a)) (l : List α) :
    HardwareOnly (Machine.forEach act l) := by
  induction l with
  | nil => exact pure _
  | cons a l ih => exact (h a).bind fun _ => ih

/-- A wait that runs out is a timeout (R124). -/
theorem spinOn {poll : Op (Option α)} (h : HardwareOnly poll) (n : Nat) : HardwareOnly (Machine.spinOn poll n) := by
  induction n with
  | zero => exact raise rfl
  | succ n ih =>
    refine (upd _).bind fun _ => h.bind fun r => ?_
    cases r with
    | some a => exact pure _
    | none => exact (upd _).bind fun _ => ih

/-- A bracket ends in the cause of its body (R270). -/
theorem bracketed {clean : Op Unit} {body : Op α} (hc : NoCause clean) (hb : HardwareOnly body) :
    HardwareOnly (Machine.bracketed clean body) := fun s c t h => by
  obtain ⟨f, u, v, w, g, -, -, -, hrun, -, -⟩ := bracketed_eq_cause hc h
  exact hb u c v hrun

end HardwareOnly

/-! ### Answers, registers and cartridge commands -/

theorem noCause_draw (get : Env → List α) (put : List α → Env → Env) (free : Nat → α) : NoCause (draw get put free) :=
  fun s c t h => by
    unfold draw at h
    split at h <;> cases h

theorem hardware_draw (get : Env → List α) (put : List α → Env → Env) (free : Nat → α) :
    HardwareOnly (draw get put free) := .of_noCause (noCause_draw get put free)

theorem hardware_famParams : HardwareOnly famParams := .of_noCause noCause_famParams

theorem noCause_busFamily : NoCause busFamily :=
  .bind (.get' _) fun o => by
    cases o with
    | native => exact .refuse _
    | cart f => exact .pure _

theorem hardware_piWaitIdle (f : Family) : HardwareOnly (piWaitIdle f) :=
  .bind (.get' _) fun _ => .spinOn (.bind (hardware_draw _ _ _) fun _ => .pure _) _

theorem hardware_regAt (r : Reg) : HardwareOnly (regAt r) :=
  .bind (.of_noCause noCause_busFamily) fun _ => .bind (.get' _) fun _ => .ite (.pure _) (.refuse _)

theorem hardware_nextRegValue (r : Reg) : HardwareOnly (nextRegValue r) := by
  cases r <;> unfold nextRegValue <;> exact hardware_draw (α := Word) _ _ _

theorem hardware_regRead (r : Reg) : HardwareOnly (regRead r) :=
  .bind (hardware_regAt r) fun _ => .bind (hardware_nextRegValue r) fun _ => .bind (.upd _) fun _ => .pure _

theorem hardware_regWrite (r : Reg) (v : Word) : HardwareOnly (regWrite r v) :=
  .bind (hardware_regAt r) fun _ => .bind (.upd _) fun _ => .bind hardware_famParams fun _ =>
    .spinOn (.bind (hardware_draw _ _ _) fun _ => .pure _) _

theorem hardware_pollStatus : HardwareOnly pollStatus :=
  .bind hardware_famParams fun _ => .bind (hardware_regRead _) fun _ => .pure _

theorem hardware_cartSideEffect (code : Byte) (a0 a1 : Word) : HardwareOnly (cartSideEffect code a0 a1) :=
  .bind hardware_famParams fun _ => .onlyIf (.bind (.many (hardware_draw _ _ _) _) fun _ => .upd _)

theorem hardware_cartIssue (code : Byte) (a0 a1 : Word) : HardwareOnly (cartIssue code a0 a1) :=
  .bind hardware_famParams fun _ => .bind (.spinOn hardware_pollStatus _) fun _ =>
    .bind (hardware_regWrite _ _) fun _ => .bind (hardware_regWrite _ _) fun _ => hardware_regWrite _ _

/-- The error bit of `STATUS` is the cause `cart` (R195). -/
theorem hardware_cartFinish : HardwareOnly cartFinish :=
  .bind hardware_famParams fun _ => .bind (.spinOn hardware_pollStatus _) fun _ => .ite (.raise rfl)
    (.bind (hardware_regRead _) fun _ => .bind (hardware_regRead _) fun _ => .pure _)

theorem hardware_recordCommand (code : Byte) (a0 a1 : Word) : HardwareOnly (recordCommand code a0 a1) :=
  fun s _ _ h => by cases h

theorem hardware_cartHandshake (code : Byte) (a0 a1 : Word) : HardwareOnly (cartHandshake code a0 a1) :=
  .bind (hardware_cartIssue _ _ _) fun _ => .bind (hardware_recordCommand _ _ _) fun _ =>
    .bind (hardware_cartSideEffect _ _ _) fun _ => hardware_cartFinish

theorem hardware_swapDrive (on : Bool) : HardwareOnly (swapDrive on) :=
  .bind hardware_famParams fun _ => .ite (.bind (hardware_cartHandshake _ _ _) fun _ => .upd _)
    (.bind (hardware_regWrite _ _) fun _ => .upd _)

theorem hardware_swapAround {wrap : Bool} {body : Op α} (h : HardwareOnly body) : HardwareOnly (swapAround wrap body) :=
  .ite (.bind (.get' _) fun _ => .bind (hardware_swapDrive _) fun _ => .caught h
      (fun _ => .bind (hardware_swapDrive _) fun _ => .pure _)
      (fun _ hc => .bind (.of_noCause (.bestEffort _)) fun _ => .raise hc))
    h

theorem hardware_cartCommand (code : Byte) (a0 a1 : Word) : HardwareOnly (cartCommand code a0 a1) :=
  .bind hardware_famParams fun _ => hardware_swapAround (hardware_cartHandshake _ _ _)

theorem hardware_swapTransfer {body : Op α} (h : HardwareOnly body) : HardwareOnly (swapTransfer body) :=
  .bind hardware_famParams fun _ => hardware_swapAround h

/-! ### The SD port -/

theorem hardware_sdPort : HardwareOnly sdPort := .of_noCause noCause_sdPort

theorem hardware_datPort : HardwareOnly datPort := .of_noCause noCause_datPort

theorem hardware_portConfig : HardwareOnly portConfig :=
  .bind hardware_sdPort fun _ => .bind (.get' _) fun _ => hardware_regWrite _ _

theorem hardware_reconfigure (g : Session → Session) : HardwareOnly (reconfigure g) :=
  .bind hardware_sdPort fun _ => .bind (.get' _) fun _ => .bind (hardware_regWrite _ _) fun _ => .upd _

theorem hardware_setBitLen (len : BitLen) : HardwareOnly (setBitLen len) :=
  .bind hardware_sdPort fun _ => .bind (.get' _) fun _ => .bind (.upd _) fun _ => .onlyIf hardware_portConfig

theorem hardware_atSingleBit {body : Op α} (h : HardwareOnly body) : HardwareOnly (atSingleBit body) :=
  .caught (.bind (hardware_setBitLen _) fun _ => h) (fun _ => .bind (hardware_setBitLen _) fun _ => .pure _)
    fun _ hc => .bind (.of_noCause (.bestEffort _)) fun _ => .raise hc

theorem hardware_portWrite (r : Reg) (v : Word) : HardwareOnly (portWrite r v) :=
  .bind hardware_sdPort fun _ => .onlyIf (.bind (hardware_regWrite _ _) fun _ =>
    .bind (.spinOn hardware_pollStatus _) fun _ => .pure _)

theorem hardware_freshWord : HardwareOnly freshWord := fun _ _ _ h => by cases h

theorem hardware_portRead (r : Reg) (mask v : Word) : HardwareOnly (portRead r mask v) :=
  .bind hardware_sdPort fun _ => .onlyIf (.bind (hardware_regAt _) fun _ => .bind hardware_freshWord fun _ => .upd _)

theorem hardware_cmdTx (b : Byte) : HardwareOnly (cmdTx b) :=
  .bind hardware_sdPort fun _ => .bind (.upd _) fun _ => hardware_portWrite _ _

theorem hardware_cmdRxBit : HardwareOnly cmdRxBit :=
  .bind hardware_sdPort fun _ => .bind (hardware_portWrite _ _) fun _ => .bind (hardware_draw _ _ _) fun _ =>
    .bind (hardware_portRead _ _ _) fun _ => .bind (.upd _) fun _ => .pure _

theorem hardware_cmdRx : HardwareOnly cmdRx :=
  .bind hardware_sdPort fun _ => .bind (hardware_portWrite _ _) fun _ => .bind (.many (hardware_draw _ _ _) _) fun _ =>
    .bind (hardware_portRead _ _ _) fun _ => .bind (.upd _) fun _ => .pure _

theorem hardware_laneClock : HardwareOnly laneClock :=
  .bind (hardware_portWrite _ _) fun _ => .bind (hardware_draw _ _ _) fun _ => .bind (hardware_portRead _ _ _) fun _ => .pure _

theorem hardware_datRxBit : HardwareOnly datRxBit :=
  .bind hardware_datPort fun _ => .bind (.ite (hardware_atSingleBit hardware_laneClock) hardware_laneClock) fun _ =>
    .bind (.upd _) fun _ => .pure _

theorem hardware_clockByte (width : BusWidth) : HardwareOnly (clockByte width) := by
  cases width with
  | w1 => exact .bind (.many (hardware_draw _ _ _) _) fun _ => .pure _
  | w4 => exact .bind (hardware_draw _ _ _) fun _ => .bind (hardware_draw _ _ _) fun _ => .pure _

theorem hardware_datByte (width : BusWidth) : HardwareOnly (datByte width) :=
  .bind (hardware_portWrite _ _) fun _ => .bind (hardware_clockByte _) fun _ => .bind (hardware_portRead _ _ _) fun _ => .pure _

theorem hardware_cartSideDma (q : FamilyParams) (width : BusWidth) (n : Nat) : HardwareOnly (cartSideDma q width n) :=
  .bind (hardware_regWrite _ _) fun _ => .bind (hardware_regWrite _ _) fun _ => .bind (.spinOn hardware_pollStatus _) fun _ =>
    .many (hardware_clockByte _) _

theorem hardware_datRx (n : Nat) : HardwareOnly (datRx n) :=
  .bind hardware_datPort fun _ => .bind (.get' _) fun _ =>
    .bind (.ite (hardware_cartSideDma _ _ _) (.many (hardware_datByte _) _)) fun _ => .bind (.upd _) fun _ => .pure _

theorem hardware_driveLanes (d : TxData) : HardwareOnly (driveLanes d) := by
  cases d with
  | nibble n => exact hardware_atSingleBit (hardware_portWrite _ _)
  | bytes bs => exact .forEach (fun _ => hardware_portWrite _ _) _

theorem hardware_datTx (d : TxData) : HardwareOnly (datTx d) :=
  .bind hardware_datPort fun _ => .bind (.upd _) fun _ => .onlyIf (hardware_driveLanes d)

/-! ### Sector moves -/

theorem hardware_cacheMayAct : HardwareOnly cacheMayAct := .bind (hardware_draw _ _ _) fun _ => .upd _

theorem hardware_opCacheWbInv (a n : Nat) : HardwareOnly (opCacheWbInv a n) :=
  .bind hardware_cacheMayAct fun _ => .bind (.upd _) fun _ => .upd _

theorem hardware_opCacheWb (a n : Nat) : HardwareOnly (opCacheWb a n) :=
  .bind hardware_cacheMayAct fun _ => .bind (.upd _) fun _ => .upd _

theorem hardware_dmaFromCart (ram : Nat) : HardwareOnly (dmaFromCart ram) :=
  .bind (.of_noCause noCause_busFamily) fun _ => .bind hardware_famParams fun _ => .bind (hardware_piWaitIdle _) fun _ =>
    .bind (.upd _) fun _ => .bind (.upd _) fun _ => .bind hardware_cacheMayAct fun _ => .caught (hardware_piWaitIdle _)
      (fun _ => .upd _) fun _ hc => .bind (.many (hardware_draw _ _ _) _) fun _ => .bind (.upd _) fun _ => .raise hc

theorem hardware_dmaToCart (ram : Nat) : HardwareOnly (dmaToCart ram) :=
  .bind (.of_noCause noCause_busFamily) fun _ => .bind hardware_famParams fun _ => .bind (hardware_piWaitIdle _) fun _ =>
    .bind (.upd _) fun _ => .bind (.upd _) fun _ => .bind hardware_cacheMayAct fun _ => .caught (hardware_piWaitIdle _)
      (fun _ => .upd _) fun _ hc => .bind (.many (hardware_draw _ _ _) _) fun _ => .bind (.upd _) fun _ => .raise hc

theorem hardware_copyMoves (n src dst : Nat) : HardwareOnly (copyMoves n src dst) := by
  induction n generalizing src dst with
  | zero => exact .pure _
  | succ n ih => exact .bind hardware_cacheMayAct fun _ => .bind (.upd _) fun _ => ih _ _

theorem hardware_moveToRam (dest : Nat) : HardwareOnly (moveToRam dest) :=
  .bind (.bind (.get' _) fun _ => .ite (.bind (hardware_opCacheWbInv _ _) fun _ => hardware_dmaFromCart _)
    (.bind (hardware_opCacheWbInv _ _) fun _ => .bind (hardware_dmaFromCart _) fun _ => hardware_copyMoves _ _ _)) fun _ =>
    hardware_cacheMayAct

theorem hardware_moveFromRam (src : Nat) : HardwareOnly (moveFromRam src) :=
  .bind (.bind (.get' _) fun _ => .ite (.bind (hardware_opCacheWb _ _) fun _ => hardware_dmaToCart _)
    (.bind (hardware_copyMoves _ _ _) fun _ => .bind (hardware_opCacheWb _ _) fun _ => hardware_dmaToCart _)) fun _ =>
    hardware_cacheMayAct

/-! ### The command engine and the data blocks -/

theorem noCause_respByte (i : Nat) : NoCause (respByte i) := fun s c t h => by
  unfold respByte at h
  split at h <;> cases h

theorem hardware_respByte (i : Nat) : HardwareOnly (respByte i) := .of_noCause (noCause_respByte i)

theorem hardware_collectResponse (spinMax len : Nat) : HardwareOnly (collectResponse spinMax len) :=
  .bind (hardware_atSingleBit (.bind (.spinOn (.bind hardware_cmdRxBit fun _ => .pure _) _) fun _ =>
    .bind (.many hardware_cmdRxBit _) fun _ => .pure _)) fun _ => .bind (.many hardware_cmdRx _) fun _ => .pure _

theorem hardware_transmitFrame (leadin : Nat) (idx : BitVec 6) (arg : Word) : HardwareOnly (transmitFrame leadin idx arg) :=
  .bind (.upd _) fun _ => .bind (hardware_setBitLen _) fun _ => .bind (.forEach hardware_cmdTx _) fun _ =>
    .bind (.forEach hardware_cmdTx _) fun _ => .upd _

/-- A response that does not come, or that a check rejects (R117 to R122). -/
theorem hardware_receiveResponse (p : Params) (q : FamilyParams) (kind : SdKind) (idx : BitVec 6) :
    HardwareOnly (receiveResponse p q kind idx) := by
  refine .ite (.bind (.upd _) fun _ => .forEach hardware_cmdTx _) (.caught (hardware_collectResponse _ _) (fun bytes => ?_)
    fun _ hc => .bind (.upd _) fun _ => .raise hc)
  refine .bind (.upd _) fun _ => .bind (.forEach hardware_cmdTx _) fun _ => ?_
  cases hf : responseFault p q.wire kind idx bytes with
  | some c => exact .raise (responseFault_hardware hf)
  | none => exact .pure _

theorem hardware_executeCommand (app : Bool) (idx : BitVec 6) (arg : Word) : HardwareOnly (executeCommand app idx arg) := by
  refine .bind hardware_sdPort fun q => .bind (.get' _) fun p => ?_
  cases respKind idx app with
  | none => exact .refuse _
  | some kind => exact .bind (hardware_transmitFrame _ _ _) fun _ => hardware_receiveResponse _ _ _ _

theorem hardware_sendAppCommand (idx : BitVec 6) (rca : Half) (arg : Word) : HardwareOnly (sendAppCommand idx rca arg) :=
  .bind hardware_sdPort fun _ => .bind (.onlyIf (.refuse _)) fun _ => .bind (hardware_executeCommand _ _ _) fun _ =>
    hardware_executeCommand _ _ _

theorem hardware_waitDataStart : HardwareOnly waitDataStart :=
  .bind hardware_datPort fun _ => .spinOn (.bind hardware_datRxBit fun _ => .pure _) _

theorem hardware_waitNotBusy : HardwareOnly waitNotBusy :=
  .bind hardware_datPort fun _ => .spinOn (.bind hardware_datRxBit fun _ => .pure _) _

theorem hardware_receiveBlock (n : Nat) : HardwareOnly (receiveBlock n) :=
  .bind hardware_waitDataStart fun _ => .bind (hardware_datRx _) fun _ => .bind (.get' _) fun _ =>
    .bind (hardware_datRx _) fun _ => .bind hardware_datRxBit fun _ => .bind (.get' _) fun _ =>
    .bind (.onlyIf (.bind (.upd _) fun _ => .ite (.pure _) (.raise rfl))) fun _ => .onlyIf (.upd _)

theorem hardware_readToken : HardwareOnly readToken :=
  .bind hardware_datRxBit fun _ => .bind hardware_datRxBit fun _ => .bind hardware_datRxBit fun _ =>
    .bind hardware_datRxBit fun _ => .bind hardware_datRxBit fun _ => .pure _

theorem hardware_sendBlock (d : List Byte) : HardwareOnly (sendBlock d) := by
  refine .bind (.get' _) fun _ => .bind (.upd _) fun _ => .bind (hardware_datTx _) fun _ => .bind (hardware_datTx _) fun _ =>
    .bind (hardware_datTx _) fun _ => .bind (hardware_datTx _) fun _ => .bind hardware_readToken fun tok => ?_
  cases hf : tokenFault tok with
  | some c => exact .raise (tokenFault_hardware hf)
  | none => exact hardware_waitNotBusy

/-! ### SD commands -/

theorem hardware_checkEcho : HardwareOnly checkEcho :=
  .bind (hardware_respByte _) fun _ => .bind (hardware_respByte _) fun _ => .ite (.pure _) (.raise rfl)

/-- CMD8 takes silence and an illegal command for a version 1 card, and hands every other cause up (R137). -/
theorem hardware_voltageCheck : HardwareOnly voltageCheck := by
  refine .bind hardware_sdPort fun q => .caught (hardware_executeCommand _ _ _) (fun _ => ?_) fun c hc => ?_
  · cases q.wire with
    | sdNative => exact hardware_checkEcho
    | spi => exact .bind (hardware_respByte _) fun _ => .ite (.pure _) hardware_checkEcho
  · split
    · exact .pure _
    · exact .pure _
    · next heq =>
      cases heq
      exact .raise hc
    · next heq => cases heq

theorem hardware_testReady (wire : Wire) : HardwareOnly (testReady wire) := by
  cases wire with
  | sdNative => exact .bind (hardware_respByte _) fun _ => .ite (.bind (.upd _) fun _ => .pure _) (.pure _)
  | spi => exact .bind (hardware_respByte _) fun _ => .pure _

theorem hardware_pollLoop {mark : Nat → Op Unit} (hm : ∀ k, HardwareOnly (mark k)) (arg : Word) (wire : Wire)
    (fuel k : Nat) : HardwareOnly (pollLoop mark arg wire fuel k) := by
  induction fuel generalizing k with
  | zero => exact .raise rfl
  | succ n ih =>
    exact .bind (hm k) fun _ => .bind (hardware_sendAppCommand _ _ _) fun _ => .bind (hardware_testReady _) fun _ =>
      .ite (.pure _) (ih _)

theorem hardware_pollReady {mark : Nat → Op Unit} (hm : ∀ k, HardwareOnly (mark k)) (arg : Word) :
    HardwareOnly (pollReady mark arg) :=
  .bind hardware_sdPort fun _ => .bind (.get' _) fun _ => hardware_pollLoop hm _ _ _ _

theorem hardware_publishRca : HardwareOnly publishRca :=
  .bind hardware_sdPort fun _ => .bind (.onlyIf fun _ _ _ h => by cases h) fun _ => .bind (hardware_executeCommand _ _ _) fun _ =>
    .bind (hardware_respByte _) fun _ => .bind (hardware_respByte _) fun _ => .upd _

theorem hardware_selectCard (rca : Half) : HardwareOnly (selectCard rca) :=
  .bind hardware_datPort fun _ => .bind (hardware_executeCommand _ _ _) fun _ => hardware_waitNotBusy

theorem hardware_widenBus : HardwareOnly widenBus :=
  .bind (.get' _) fun _ => .bind (hardware_sendAppCommand _ _ _) fun _ => hardware_reconfigure _

theorem hardware_highSpeed : HardwareOnly highSpeed :=
  .bind hardware_datPort fun _ => .bind (hardware_executeCommand _ _ _) fun _ => .bind (hardware_receiveBlock _) fun _ =>
    hardware_reconfigure _

theorem hardware_readOcr : HardwareOnly readOcr :=
  .bind (hardware_executeCommand _ _ _) fun _ => .bind (hardware_respByte _) fun _ => .upd _

/-- CMD12 gives the cause of its frame back behind the session it closes (R146). -/
theorem hardware_stopStream : HardwareOnly stopStream :=
  .bind hardware_datPort fun _ => .caught (hardware_executeCommand _ _ _)
    (fun _ => .bind (.upd _) fun _ => .bind (.pure _) fun _ => hardware_waitNotBusy)
    fun _ hc => .bind (.upd _) fun _ => .bind (.raise hc) fun _ => hardware_waitNotBusy

theorem hardware_openStream (m : AccessMode) (idx : BitVec 6) (arg last : Word) : HardwareOnly (openStream m idx arg last) :=
  .bind (hardware_executeCommand _ _ _) fun _ => .upd _

theorem hardware_openAt (m : AccessMode) (idx : BitVec 6) (lba : Word) : HardwareOnly (openAt m idx lba) := by
  refine .bind (.get' _) fun hc => ?_
  cases blockArg hc lba with
  | none => exact .refuse _
  | some arg => exact hardware_openStream _ _ _ _

theorem hardware_openAtArg (m : AccessMode) (idx : BitVec 6) (arg : Word) : HardwareOnly (openAtArg m idx arg) := by
  refine .bind (.get' _) fun hc => ?_
  cases lbaOfArg hc arg with
  | some lba => exact hardware_openStream _ _ _ _
  | none => exact .bind hardware_freshWord fun _ => hardware_openStream _ _ _ _

/-! ### Bring-up and transfers -/

theorem hardware_mark (q : BringUpSeq) : HardwareOnly (setBringUpSeq q) := .upd _

theorem hardware_nativeBringUp : HardwareOnly nativeBringUp :=
  .bind (.get' _) fun _ => .bind (hardware_mark _) fun _ => .bind (hardware_executeCommand _ _ _) fun _ =>
    .bind (hardware_mark _) fun _ => .bind hardware_voltageCheck fun _ =>
    .bind (hardware_pollReady (fun _ => hardware_mark _) _) fun _ =>
    .bind (hardware_mark _) fun _ => .bind (hardware_executeCommand _ _ _) fun _ => .bind (hardware_mark _) fun _ =>
    .bind hardware_publishRca fun _ => .bind (.onlyIf (.bind (hardware_mark _) fun _ => .bind (.get' _) fun _ =>
      hardware_selectCard _)) fun _ => .bind (hardware_mark _) fun _ => .bind hardware_widenBus fun _ =>
    .bind (hardware_mark _) fun _ => hardware_highSpeed

theorem hardware_spiBringUp : HardwareOnly spiBringUp :=
  .bind (.get' _) fun _ => .bind (hardware_mark _) fun _ => .bind (hardware_executeCommand _ _ _) fun _ =>
    .bind (hardware_respByte _) fun _ => .ite (.bind (hardware_mark _) fun _ => .bind hardware_voltageCheck fun _ =>
      .bind (hardware_pollReady (fun _ => hardware_mark _) _) fun _ => .bind (hardware_mark _) fun _ => hardware_readOcr)
      (.raise rfl)

theorem hardware_wireBringUp (wire : Wire) : HardwareOnly (wireBringUp wire) := by
  refine .bind hardware_portConfig fun _ => ?_
  cases wire with
  | sdNative => exact hardware_nativeBringUp
  | spi => exact hardware_spiBringUp

theorem hardware_bringUp : HardwareOnly bringUp :=
  .bind (.upd _) fun _ => .bind hardware_famParams fun _ => .bind
    (.ite (.bind (.get' _) fun _ => .bind (hardware_cartCommand _ _ _) fun _ => .pure _) (hardware_wireBringUp _)) fun _ =>
    .bind (.upd _) fun _ => hardware_mark _

/-- A bring-up that fails ends in the cause of the step that failed (R160). -/
theorem hardware_runBringUp : HardwareOnly runBringUp :=
  .caught (.bracketed noCause_failBringUp hardware_bringUp) (fun _ => .bind (hardware_mark _) fun _ => .pure _)
    fun _ hc => .bind (hardware_mark _) fun _ => .raise hc

theorem hardware_ensureMode (m : AccessMode) (lba : Word) : HardwareOnly (ensureMode m lba) :=
  .bind (.get' _) fun _ => .onlyIf (.bind (.onlyIf hardware_stopStream) fun _ => hardware_openAt _ _ _)

theorem hardware_readLoop (n dest : Nat) : HardwareOnly (readLoop n dest) := by
  induction n generalizing dest with
  | zero => exact .pure _
  | succ n ih =>
    exact .bind (hardware_receiveBlock _) fun _ => .bind (hardware_moveToRam _) fun _ => .bind (.upd _) fun _ => ih _

theorem hardware_writeLoop (n src : Nat) : HardwareOnly (writeLoop n src) := by
  induction n generalizing src with
  | zero => exact .pure _
  | succ n ih =>
    exact .bind (hardware_moveFromRam _) fun _ => .bind (.get' _) fun _ => .bind (hardware_sendBlock _) fun _ =>
      .bind (.upd _) fun _ => ih _

theorem hardware_offloadReadLoop (buf : Word) (n : Nat) (lba : Word) (dest : Nat) :
    HardwareOnly (offloadReadLoop buf n lba dest) := by
  induction n generalizing lba dest with
  | zero => exact .pure _
  | succ n ih =>
    exact .bind (hardware_cartCommand _ _ _) fun _ => .bind (hardware_cartCommand _ _ _) fun _ =>
      .bind (hardware_moveToRam _) fun _ => ih _ _

theorem hardware_offloadWriteLoop (buf : Word) (n : Nat) (lba : Word) (src : Nat) :
    HardwareOnly (offloadWriteLoop buf n lba src) := by
  induction n generalizing lba src with
  | zero => exact .pure _
  | succ n ih =>
    exact .bind (hardware_moveFromRam _) fun _ => .bind (hardware_cartCommand _ _ _) fun _ =>
      .bind (hardware_cartCommand _ _ _) fun _ => ih _ _

/-- A transfer with a ready session is refused, or is one bracket (`transferBody_cases`). -/
theorem hardware_transferBody (f : Family) (buf lba count : Word) {offloaded : Word → Op Unit} {native : Op Unit}
    (ho : ∀ w, HardwareOnly (offloaded w)) (hn : HardwareOnly native) {s t : State}
    (h : transferBody s.cfg f buf lba count offloaded native s = .error (.cause c) t) : c.hardware = true := by
  rcases transferBody_cases f buf lba count offloaded native s with ⟨r, hx⟩ | ⟨body, hb, hx⟩
  · rw [hx] at h
    cases h
  · have hbody : HardwareOnly body := by
      rcases hb with ⟨-, rfl⟩ | ⟨-, -, rfl⟩
      · exact hardware_swapTransfer (ho _)
      · exact hn
    exact HardwareOnly.bracketed noCause_abortTransfer hbody s c t (hx.symm.trans h)

theorem hardware_cardStop : HardwareOnly cardStop :=
  .bind (.get' _) fun _ => .onlyIf (.bracketed (.pure _) hardware_stopStream)

/-! ### The transport contract -/

theorem hardware_matchFamily (f : Family) : HardwareOnly (matchFamily f) :=
  .bind (.get' _) fun _ => .bind (.forEach (fun _ => hardware_regWrite _ _) _) fun _ =>
    .bind (hardware_regRead _) fun _ => .pure _

/-- A foreign identifier is the cause `probe` (R188). -/
theorem hardware_initBody (f : Family) : HardwareOnly (initBody f) :=
  .bind (.of_noCause noCause_putDown) fun _ => .bind (hardware_matchFamily f) fun _ => .ite
    (.bind hardware_famParams fun _ => .bind (.onlyIf (.of_noCause noCause_resetPort)) fun _ =>
      .bind (.forEach (fun _ => .bind (hardware_cartCommand _ _ _) fun _ => .pure _) _) fun _ => .upd _)
    (.raise rfl)

theorem hardware_exitBody (f : Family) : HardwareOnly (exitBody f) :=
  .bind (.get' _) fun _ => .bind (.onlyIf (hardware_swapDrive _)) fun _ => .bind (.get' _) fun _ =>
    .bind (hardware_regWrite _ _) fun _ => .of_noCause noCause_putDown

end Sys2Proof.Machine
end

section
/-! PROOFS. An operation that its checks turn away (60_exceptions.md R263, R264, R280): a parameter error comes with the state
as it was, and behind a probe that is over neither it nor `not_ready` nor `no_cartridge` comes with an event. -/

namespace Sys2Proof.Machine

variable {α : Type} {i : Instr} {s t : State} {c : Cause}

/-! ### Results of the checks -/

/-- The result says that a check turned the operation away: a cause no hardware gives, or the adapter's word for one (R263,
R264, R228). -/
def HostResult.turnedAway : HostResult → Bool
  | .error c => !c.hardware
  | .disk .notReady | .disk .paramError => true
  | .disk .ok | .disk .error | .none | .ok | .crc7 _ | .crc16 _ _ | .version _ | .cart _ _ | .bufferSize _ | .family _
  | .status _ => false

/-- A parameter error, of a card operation or of the adapter. -/
def ParamError (r : HostResult) : Prop := r = .error .param ∨ r = .disk .paramError

theorem ParamError.turnedAway {r : HostResult} (h : ParamError r) : r.turnedAway = true := by
  rcases h with rfl | rfl <;> rfl

/-- What a step leaves whose result is an answer of the checks. -/
structure ChecksAlone (s t : State) : Prop where
  state : ParamError t.result → t = { s with result := t.result }
  hist : s.probed = true → t.result.turnedAway = true → t.hist = s.hist

/-- A result that is no answer of the checks. -/
theorem ChecksAlone.of_passed (h : t.result.turnedAway = false) : ChecksAlone s t :=
  ⟨fun hp => absurd hp.turnedAway (by simp [h]), fun _ ht => absurd ht (by simp [h])⟩

theorem ChecksAlone.of_unchanged (s : State) (r : HostResult) : ChecksAlone s { s with result := r } :=
  ⟨fun _ => rfl, fun _ _ => rfl⟩

/-- An answer that is no parameter error, with no event once the probe is over. -/
theorem ChecksAlone.of_silent (hp : ¬ ParamError t.result) (hh : s.probed = true → t.hist = s.hist) : ChecksAlone s t :=
  ⟨fun h => absurd h hp, fun hs _ => hh hs⟩

/-! ### Operations behind their checks -/

/-- A cause the operation ends in is one of the hardware, or an answer of its checks: no parameter error, and with no event
once the probe is over. -/
def ChecksFirst (x : Op α) : Prop :=
  ∀ s c t, x s = .error (.cause c) t → c.hardware = true ∨ c ≠ .param ∧ (s.probed = true → t.hist = s.hist)

theorem HardwareOnly.checksFirst {x : Op α} (h : HardwareOnly x) : ChecksFirst x := fun s c t hx => .inl (h s c t hx)

/-- A probe that is over changes nothing (R210). -/
theorem probeOp_keeps {o : Option Family} (hs : s.probed = true) (h : probeOp s = .ok o t) : t = s := by
  rw [probeOp_known hs] at h
  cases h
  rfl

/-- A dispatch answers `no_cartridge` itself, with no event where the probe was over (R214). -/
theorem checksFirst_dispatch {handler : Family → Op α} (h : ∀ f, ChecksFirst (handler f)) :
    ChecksFirst (dispatch handler) := by
  intro s c t hx
  rcases bind_eq_error.mp hx with hx | ⟨o, u, hp, hx⟩
  · exact absurd hx (noCause_probeOp _ _ _)
  cases o with
  | none =>
    cases hx
    exact .inr ⟨nofun, fun hs => by rw [probeOp_keeps hs hp]⟩
  | some f =>
    refine (h f u c t hx).imp_right fun ⟨hne, hh⟩ => ⟨hne, fun hs => ?_⟩
    obtain rfl := probeOp_keeps hs hp
    exact hh hs

/-- `card_init` that may not run yet puts the session down and says so (R160; log 35). -/
theorem checksFirst_cardInit : ChecksFirst cardInit := checksFirst_dispatch fun f s c t h => by
  simp only [get'_bind] at h
  cases hmay : s.mayInit with
  | true =>
    rw [hmay, if_pos rfl] at h
    exact .inl (hardware_runBringUp s c t h)
  | false =>
    rw [hmay] at h
    cases h
    exact .inr ⟨nofun, fun _ => rfl⟩

/-- A transfer asks for a ready session before anything else (R165, R166). -/
theorem checksFirst_transfer (buf lba count : Word) {offloaded : Word → Op Unit} {native : Op Unit}
    (ho : ∀ w, HardwareOnly (offloaded w)) (hn : HardwareOnly native) :
    ChecksFirst (transfer buf lba count offloaded native) :=
  checksFirst_dispatch fun f s c t h => by
    simp only [get'_bind] at h
    cases hr : s.sess.ready with
    | true =>
      rw [hr, if_pos rfl] at h
      exact .inl (hardware_transferBody f buf lba count ho hn h)
    | false =>
      rw [hr] at h
      cases h
      exact .inr ⟨nofun, fun _ => rfl⟩

theorem checksFirst_cardRead (dest lba count : Word) : ChecksFirst (cardRead dest lba count) :=
  checksFirst_transfer _ _ _ (fun _ => hardware_offloadReadLoop _ _ _ _)
    (.bind (hardware_ensureMode _ _) fun _ => hardware_swapTransfer (hardware_readLoop _ _))

theorem checksFirst_cardWrite (src lba count : Word) : ChecksFirst (cardWrite src lba count) :=
  checksFirst_transfer _ _ _ (fun _ => hardware_offloadWriteLoop _ _ _ _)
    (.bind (hardware_ensureMode _ _) fun _ => hardware_swapTransfer (hardware_writeLoop _ _))

theorem checksFirst_initOp : ChecksFirst initOp := checksFirst_dispatch fun f =>
  HardwareOnly.checksFirst (.bind (.bracketed (.pure _) (hardware_initBody f)) fun _ => .get' _)

theorem checksFirst_exitOp : ChecksFirst exitOp := checksFirst_dispatch fun f =>
  HardwareOnly.checksFirst (.bind (.get' _) fun _ => .bind (.onlyIf (.of_noCause (.bestEffort _))) fun _ =>
    .bracketed noCause_putDown (hardware_exitBody f))

theorem noCause_diskInitialize (drive : Byte) : NoCause (diskInitialize drive) := by
  have flag : ∀ v b, NoCause (do setNoinit drive v; pure b : Op Byte) := fun _ _ => .bind (.upd _) fun _ => .pure _
  refine .bind (.get' _) fun _ => .ite (.pure _) (.ite (.pure _) (.ite (flag _ _) (.bind (.attempt _) fun r => ?_)))
  cases r <;> exact flag _ _

/-! ### As host operations -/

/-- A host operation whose values are no answers of the checks. -/
theorem runHost_checksAlone {x : Op α} {y : α → HostResult} (hx : ChecksFirst x) (hy : ∀ a, (y a).turnedAway = false)
    (h : runHost (do let a ← x; pure (y a)) s = .next t) : ChecksAlone s t := by
  rcases runHost_value_cases h with ⟨a, u, -, rfl⟩ | ⟨c, u, hrun, rfl⟩
  · exact .of_passed (hy a)
  rcases hx s c u hrun with hc | ⟨hne, hh⟩
  · exact .of_passed (by simp [HostResult.turnedAway, hc])
  · refine .of_silent ?_ hh
    rintro (hp | hp)
    · exact hne (by simpa using hp)
    · cases hp

/-- The adapter's word for a cause is an answer of the checks where the cause is one (R228). -/
theorem turnedAway_translate (c : Cause) : (HostResult.disk (translate c)).turnedAway = !c.hardware := by
  cases c <;> rfl

theorem translate_eq_paramError : translate c = .paramError ↔ c = .param := by
  cases c <;> decide

/-- Behind the adapter's checks: the card operation's value, or its cause translated, the drive table apart (R224, R228). -/
theorem diskTransfer_eq_ok {drive : Byte} {lba count : Word} {op : Op Unit} {r : DiskResult}
    (hck : diskCheck s drive lba count = none) (h : diskTransfer drive lba count op s = .ok r t) :
    r = .ok ∨ ∃ c u, op s = .error (.cause c) u ∧ r = translate c ∧ t.hist = u.hist := by
  have hrun := h
  simp only [diskTransfer, get'_bind, id, hck] at hrun
  obtain ⟨o, u, hcaught, hrest⟩ := bind_eq_ok.mp hrun
  rcases attempt_eq_ok hcaught with ⟨a, rfl, -⟩ | ⟨c, rfl, hc⟩
  · cases hrest
    exact .inl rfl
  · rw [diskTransfer_failed hck hc] at h
    cases h
    exact .inr ⟨c, u, hc, rfl, rfl⟩

/-- `disk_read` and `disk_write`: their own checks change nothing, and the adapter's `not_ready` behind them is the card
operation's (R224, R228). -/
theorem runDisk_checksAlone {drive : Byte} {lba count : Word} {op : Op Unit} (hop : ChecksFirst op)
    (h : runDisk drive lba count op s = .next t) : ChecksAlone s t := by
  cases hck : diskCheck s drive lba count with
  | some r =>
    rw [runDisk_of_ok (diskTransfer_checked hck)] at h
    cases h
    exact .of_unchanged s _
  | none =>
    rcases runHost_value_cases h with ⟨r, u, hrun, rfl⟩ | ⟨c, u, hrun, -⟩
    · rcases diskTransfer_eq_ok hck hrun with rfl | ⟨c, v, hc, rfl, hv⟩
      · exact .of_passed rfl
      rcases hop s c v hc with hw | ⟨hne, hh⟩
      · exact .of_passed (by rw [turnedAway_translate, hw]; rfl)
      · refine .of_silent ?_ fun hs => hv.trans (hh hs)
        rintro (hp | hp)
        · cases hp
        · exact hne (translate_eq_paramError.mp (HostResult.disk.inj hp))
    · exact absurd hrun (noCause_diskTransfer _ _ _)

/-- A probe without a match answers `no_cartridge` (R210). -/
theorem exec_probe_checksAlone (h : exec .probe s = .next t) : ChecksAlone s t := by
  obtain ⟨o, u, hp, -⟩ := exec_probe_eq_next h
  rw [exec_probe_of_ok hp] at h
  cases h
  cases o with
  | some f => exact .of_passed rfl
  | none =>
    refine .of_silent ?_ fun hs => by rw [probeOp_keeps hs hp]
    rintro (hp | hp) <;> cases hp

/-- A binding that a check turns away changes nothing (R220, R264). -/
theorem exec_bind_checksAlone {drive : Byte} (h : exec (.bind drive) s = .next t) : ChecksAlone s t := by
  have hrun := bindOp_eq s drive
  rcases runHost_then_cases h with ⟨u, -, rfl⟩ | ⟨c, u, hx, rfl⟩
  · exact .of_passed rfl
  · rw [hx] at hrun
    split_ifs at hrun <;> cases hrun <;> exact .of_unchanged s _

/-! ### Instructions without a bracket of their own -/

/-- The instructions that neither take, give back nor probe the bus and that no check of the sequencer or the adapter comes
before: frames, cartridge commands, checksums and the drive's status. -/
def runsDirectly : Instr → Bool
  | .cmd0 | .cmd8 | .cmd55 _ _ | .acmd41 _ _ | .cmd2 | .cmd3 | .cmd7 _ _ | .acmd6 | .cmd6 | .cmd58 | .cmd12
  | .cmd18 _ _ | .cmd25 _ _ | .ccSdOp _ _ | .ccSectorSet _ _ | .ccRead _ _ | .ccWrite _ _ | .ccConfigSet _ _
  | .ccConfigGet _ _ | .computeCrc7 _ | .computeCrc16 _ | .executeCommand _ _ | .sendAppCommand _ _ _ | .diskStatus _ => true
  | .init | .exit | .cardInit | .cardRead _ _ _ | .cardWrite _ _ _ | .cardStop | .setByteswap _ | .probe
  | .diskInitialize _ | .diskRead _ _ _ _ | .diskWrite _ _ _ _ | .diskIoctl _ _ _ | .bind _ | .acquire | .release => false

/-- The instruction is one run that leaves the bus alone, ends in no cause but the hardware's, and returns no answer of the
checks. -/
def RunsDirectly (i : Instr) : Prop :=
  ∃ (α : Type) (F : Foot) (x : Op α) (y : α → HostResult), exec i = runHost (do let a ← x; pure (y a)) ∧ Touches F x ∧
    F.bus = false ∧ HardwareOnly x ∧ ∀ a, (y a).turnedAway = false

theorem RunsDirectly.intro {F : Foot} {x : Op α} {y : α → HostResult} (ht : Touches F x) (hF : F.bus = false)
    (hx : HardwareOnly x) (hy : ∀ a, (y a).turnedAway = false) (h : exec i = runHost (do let a ← x; pure (y a))) :
    RunsDirectly i := ⟨α, F, x, y, h, ht, hF, hx, hy⟩

theorem runsDirectly_of_eq_true (hi : runsDirectly i = true) : RunsDirectly i := by
  have ok : ∀ {F : Foot} {x : Op Unit}, Touches F x → F.bus = false → HardwareOnly x →
      exec i = runHost (do x; pure .ok) → RunsDirectly i := fun ht hF hx h => .intro ht hF hx (fun _ => rfl) h
  have command : ∀ {app idx arg}, exec i = runHost (do executeCommand app idx arg; pure .ok) → RunsDirectly i :=
    ok (touches_executeCommand _ _ _) rfl (hardware_executeCommand _ _ _)
  have cart : ∀ {code a0 a1}, exec i = runHost (cartOperation code a0 a1) → RunsDirectly i := fun h =>
    .intro (touches_cartCommand _ _ _) rfl (hardware_cartCommand _ _ _) (fun _ => rfl) h
  cases i with
  | cmd0 => exact command rfl
  | cmd8 => exact .intro touches_voltageCheck rfl hardware_voltageCheck (fun _ => rfl) rfl
  | cmd55 rca crc => exact command rfl
  | acmd41 arg crc =>
    exact ok (touches_pollReady (F := .command) rfl (fun _ => .pure _) arg) rfl
      (hardware_pollReady (fun _ => .pure _) arg) rfl
  | cmd2 => exact command rfl
  | cmd3 => exact ok touches_publishRca rfl hardware_publishRca rfl
  | cmd7 rca crc => exact ok (touches_selectCard rca) rfl (hardware_selectCard rca) rfl
  | acmd6 => exact ok touches_widenBus rfl hardware_widenBus rfl
  | cmd6 => exact ok touches_highSpeed rfl hardware_highSpeed rfl
  | cmd58 => exact ok touches_readOcr rfl hardware_readOcr rfl
  | cmd12 => exact ok touches_stopStream rfl hardware_stopStream rfl
  | cmd18 arg crc => exact ok (touches_openAtArg _ _ _) rfl (hardware_openAtArg _ _ _) rfl
  | cmd25 arg crc => exact ok (touches_openAtArg _ _ _) rfl (hardware_openAtArg _ _ _) rfl
  | ccSdOp a0 a1 => exact cart rfl
  | ccSectorSet a0 a1 => exact cart rfl
  | ccRead a0 a1 => exact cart rfl
  | ccWrite a0 a1 => exact cart rfl
  | ccConfigSet a0 a1 => exact cart rfl
  | ccConfigGet a0 a1 => exact cart rfl
  | computeCrc7 bytes =>
    exact .intro (F := { engine := true }) (y := fun _ => .crc7 (computeCrc7 bytes))
      (.upd fun s => by constructor <;> simp) rfl (.upd _) (fun _ => rfl) rfl
  | computeCrc16 block =>
    exact .intro (F := { lanes := true }) (y := fun _ => .crc16 (laneCrcs block) (trailerOf (laneCrcs block)))
      (.upd fun s => by constructor <;> simp) rfl (.upd _) (fun _ => rfl) rfl
  | executeCommand idx arg =>
    exact ok (F := .exchange) (x := do let app ← get' State.app; executeCommand app idx arg)
      (.bind (.get' _) fun _ => touches_executeCommand _ _ _) rfl (.bind (.get' _) fun _ => hardware_executeCommand _ _ _) rfl
  | sendAppCommand idx rca arg => exact ok (touches_sendAppCommand idx rca arg) rfl (hardware_sendAppCommand idx rca arg) rfl
  | diskStatus drive => exact .intro (F := {}) (.get' fun s => diskStatus s drive) rfl (.get' _) (fun _ => rfl) rfl
  | _ => cases hi

/-! ### Every instruction -/

theorem exec_checksAlone (h : exec i s = .next t) : ChecksAlone s t := by
  have ok : ∀ {x : Op Unit}, ChecksFirst x → runHost (do x; pure .ok) s = .next t → ChecksAlone s t := fun hx h =>
    runHost_checksAlone hx (fun _ => rfl) h
  have bus : ∀ {x : Op Unit}, NoCause x → runHost (do x; pure .none) s = .next t → ChecksAlone s t := fun hx h =>
    runHost_checksAlone (HardwareOnly.of_noCause hx).checksFirst (fun _ => rfl) h
  by_cases hd : runsDirectly i = true
  · obtain ⟨α, F, x, y, hi, -, -, hx, hy⟩ := runsDirectly_of_eq_true hd
    rw [hi] at h
    exact runHost_checksAlone hx.checksFirst hy h
  cases i with
  | init => exact runHost_checksAlone checksFirst_initOp (fun _ => rfl) h
  | exit => exact ok checksFirst_exitOp h
  | cardInit => exact ok checksFirst_cardInit h
  | cardRead dest lba count => exact ok (checksFirst_cardRead dest lba count) h
  | cardWrite src lba count => exact ok (checksFirst_cardWrite src lba count) h
  | cardStop => exact ok hardware_cardStop.checksFirst h
  | setByteswap on => exact ok (HardwareOnly.of_noCause noCause_setByteswap).checksFirst h
  | probe =>
    exact exec_probe_checksAlone h
  | diskInitialize drive =>
    exact runHost_checksAlone (HardwareOnly.of_noCause (noCause_diskInitialize drive)).checksFirst (fun _ => rfl) h
  | diskRead drive buffer lba count => exact runDisk_checksAlone (checksFirst_cardRead _ _ _) h
  | diskWrite drive buffer lba count => exact runDisk_checksAlone (checksFirst_cardWrite _ _ _) h
  | diskIoctl drive cmd buf =>
    cases h
    exact .of_unchanged s _
  | bind drive => exact exec_bind_checksAlone h
  | acquire => exact bus noCause_acquireBus h
  | release => exact bus noCause_releaseBus h
  | _ => exact absurd rfl hd

end Sys2Proof.Machine

namespace Sys2Proof.Proofs

open Sys2Proof.Machine

/-- Settles O50: the answers of the checks are parameter errors alone in `bind` and in the adapter, which change nothing then
(`exec_checksAlone`). -/
theorem parameterErrorsTouchNothing : Obligations.ParameterErrorsTouchNothing := by
  intro i s t h hp
  exact (exec_checksAlone h).state hp

/-- Settles O51: each of the five results is an answer of the checks, which record no event (`exec_checksAlone`). -/
theorem preChecksEmitNothing : Obligations.PreChecksEmitNothing := by
  intro i s t hs h hr
  refine (exec_checksAlone h).hist hs ?_
  rcases hr with hr | hr | hr | hr | hr <;> rw [hr] <;> rfl

end Sys2Proof.Proofs
end

section
/-! PROOFS. The bracket invariant along every step (47_bus_dma.md R240, R245). With the bus native it is `exec_busBack`'s; in an
open bracket every operation but `release` that is not refused leaves the bus alone, since what would take it is refused
there (R238). -/

namespace Sys2Proof.Machine

variable {α β : Type} {f : Family} {i : Instr} {s t : State}

/-! ### In an open bracket -/

/-- All but the bus. -/
def Foot.offBus : Foot := { Foot.all with bus := false, init := true }

theorem Foot.le_offBus {F : Foot} (hF : F.bus = false) : F.le .offBus = true := by
  simp [Foot.le, hF, Foot.offBus, Foot.all, Foot.card, Foot.inside, Foot.transfer, Foot.command, Foot.exchange, Foot.clocked,
    Foot.access]

/-- Begun in an open bracket, the run leaves the bus alone. -/
def HeldAlone (s t : State) : Prop := s.busOwner ≠ .native → SameOn .offBus s t

theorem order_heldAlone : Order HeldAlone where
  refl s _ := .refl _ s
  trans h k hs := (h hs).trans (k (by rw [(h hs).owner rfl]; exact hs))

theorem heldAlone_touches {F : Foot} {x : Op α} (h : Touches F x) (hF : F.bus = false) : Every HeldAlone x :=
  .of_touches h fun _ _ hs _ => hs.mono (Foot.le_offBus hF)

/-- What comes behind an operation that only the native bus lets through. -/
theorem heldAlone_behind {x : Op α} {k : α → Op β} (hc : NoCause x)
    (hx : ∀ {s a t}, x s = .ok a t → s.busOwner = .native) :
    Every HeldAlone (x >>= k) := by
  refine .intro (fun s b t h hs => ?_) fun s c t h hs => ?_
  · obtain ⟨a, u, hrun, -⟩ := bind_eq_ok.mp h
    exact absurd (hx hrun) hs
  · rcases bind_eq_error.mp h with h | ⟨a, u, hrun, -⟩
    · exact absurd h (hc s c t)
    · exact absurd (hx hrun) hs

/-- No bracket opens inside a bracket (R238). -/
theorem heldAlone_bracketed (clean : Op Unit) (body : Op α) : Every HeldAlone (bracketed clean body) :=
  heldAlone_behind noCause_acquireBus fun h => by
    obtain ⟨f, -, hb, -⟩ := acquireBus_eq_ok h
    exact hb

theorem heldAlone_probeOne (f : Family) : Every HeldAlone (probeOne f) :=
  heldAlone_behind (noCause_acquireFor f) fun {s a t} h => by
    cases hb : s.busOwner with
    | native => rfl
    | cart g => rw [acquireFor_nested hb] at h; cases h

theorem heldAlone_probeLoop (l : List Family) (i : Nat) : Every HeldAlone (probeLoop l i) := by
  have o := order_heldAlone
  have mark : ∀ q, Every HeldAlone (setProbeSeq q) := fun q =>
    heldAlone_touches (F := { seq := true }) (.upd fun s => by constructor <;> simp) rfl
  have found : ∀ c : Option Family, Every HeldAlone (upd fun s => { s with cartType := c, probed := true }) := fun c =>
    heldAlone_touches (F := { ident := true }) (.upd fun s => by constructor <;> simp) rfl
  induction l generalizing i with
  | nil => exact .bind o (found none) fun _ => .bind o (mark _) fun _ => .pure o _
  | cons f l ih =>
    exact .bind o (mark _) fun _ => .bind o (heldAlone_probeOne f) fun _ => .ite
      (.bind o (found (some f)) fun _ => .bind o (mark _) fun _ => .pure o _) (ih _)

theorem heldAlone_probeOp : Every HeldAlone probeOp := by
  have o := order_heldAlone
  exact .bind o (.get' o _) fun _ => .ite (.get' o _) (.bind o (.get' o _) fun _ => heldAlone_probeLoop _ _)

theorem heldAlone_dispatch {handler : Family → Op α} (h : ∀ f, Every HeldAlone (handler f)) :
    Every HeldAlone (dispatch handler) := by
  refine .bind order_heldAlone heldAlone_probeOp fun c => ?_
  cases c with
  | none => exact .raise order_heldAlone _
  | some f => exact h f

/-- A bring-up is a bracket, and a mark of its machine behind it (R160). -/
theorem heldAlone_runBringUp : Every HeldAlone runBringUp :=
  .bind order_heldAlone (heldAlone_bracketed _ _).attempt fun r =>
    .bind order_heldAlone (heldAlone_touches (touches_setBringUpSeq _) rfl) fun _ => .rethrow order_heldAlone r

theorem heldAlone_cardInit : Every HeldAlone cardInit := by
  have o := order_heldAlone
  exact heldAlone_dispatch fun _ => .bind o (.get' o _) fun _ => .ite heldAlone_runBringUp
    (.bind o (heldAlone_touches touches_sessionDown rfl) fun _ => .raise o _)

/-- A transfer asks for a ready session, and then is refused or is a bracket (R165, R166). -/
theorem heldAlone_transfer (buf lba count : Word) (offloaded : Word → Op Unit) (native : Op Unit) :
    Every HeldAlone (transfer buf lba count offloaded native) := by
  have o := order_heldAlone
  refine heldAlone_dispatch fun f => .bind o (.get' o _) fun p => .bind o (.get' o _) fun _ => .ite ?_ (.raise o _)
  unfold transferBody
  cases operandRefusal p buf lba count with
  | some r => exact .refuse r
  | none =>
    refine .ite (heldAlone_bracketed _ _) (.ite (.refuse _) (.bind o (.get' o _) fun hc => ?_))
    cases blockArg hc lba with
    | none => exact .refuse _
    | some arg => exact heldAlone_bracketed _ _

theorem heldAlone_cardStop : Every HeldAlone cardStop :=
  .bind order_heldAlone (.get' order_heldAlone _) fun _ => .onlyIf order_heldAlone (heldAlone_bracketed _ _)

theorem heldAlone_initOp : Every HeldAlone initOp :=
  heldAlone_dispatch fun _ => .bind order_heldAlone (heldAlone_bracketed _ _) fun _ => .get' order_heldAlone _

theorem heldAlone_exitOp : Every HeldAlone exitOp := by
  have o := order_heldAlone
  exact heldAlone_dispatch fun _ => .bind o (.get' o _) fun _ => .bind o (.onlyIf o (heldAlone_cardStop.bestEffort o)) fun _ =>
    heldAlone_bracketed _ _

theorem heldAlone_setNoinit (drive : Byte) (v : Bool) : Every HeldAlone (setNoinit drive v) :=
  heldAlone_touches (touches_setNoinit drive v) rfl

theorem heldAlone_diskInitialize (drive : Byte) : Every HeldAlone (diskInitialize drive) := by
  have o := order_heldAlone
  have flag : ∀ v b, Every HeldAlone (do setNoinit drive v; pure b : Op Byte) := fun v b =>
    .bind o (heldAlone_setNoinit drive v) fun _ => .pure o b
  have again : Every HeldAlone bringUpAgain := heldAlone_dispatch fun _ => heldAlone_runBringUp
  refine .bind o (.get' o _) fun _ => .ite (.pure o _) (.ite (.pure o _) (.ite (flag _ _) (.bind o again.attempt fun r => ?_)))
  cases r <;> exact flag _ _

theorem heldAlone_diskTransfer (drive : Byte) (lba count : Word) {op : Op Unit} (h : Every HeldAlone op) :
    Every HeldAlone (diskTransfer drive lba count op) := by
  have o := order_heldAlone
  refine .bind o (.get' o _) fun s => ?_
  cases diskCheck s drive lba count with
  | some r => exact .pure o r
  | none =>
    refine .bind o h.attempt fun r => ?_
    split
    · exact .pure o _
    · exact .bind o (heldAlone_setNoinit drive true) fun _ => .pure o _
    · exact .pure o _

/-! ### The invariant -/

/-- The result of a step is no part of the invariant. -/
theorem BusInv.result (hi : BusInv s) (r : HostResult) : BusInv { s with result := r } :=
  ⟨hi.saved, hi.fresh, hi.native, hi.cart⟩

/-- Nor is the queue of requests. -/
theorem BusInv.port (hi : BusInv s) (l : List Request) : BusInv { s with port := l } :=
  ⟨hi.saved, hi.fresh, hi.native, hi.cart⟩

/-- A host operation that, in an open bracket, leaves the bus alone. -/
theorem BusInv.runHost {x : Op α} {y : α → HostResult} (hi : BusInv s) (hb : s.busOwner ≠ .native) (hx : Every HeldAlone x)
    (h : runHost (do let a ← x; pure (y a)) s = .next t) : BusInv t := by
  rcases runHost_value_cases h with ⟨a, u, hrun, rfl⟩ | ⟨c, u, hrun, rfl⟩
  · exact (hi.of_same (hx.of_ok hrun hb) rfl).result _
  · exact (hi.of_same (hx.of_cause hrun hb) rfl).result _

/-- Behind an acquire (R237). -/
theorem BusInv.acquired (hi : BusInv s) (h : Acquired f s t) : BusInv t where
  saved _ := by rw [h.native, hi.captured, h.same.cfg]
  fresh hn := absurd h.saved (by simp [hn])
  native hn _ := by rw [h.owner] at hn; cases hn
  cart g hg := by
    obtain rfl : f = g := BusOwner.cart.inj (h.owner.symm.trans hg)
    rw [h.dom, h.same.cfg]

/-- Behind the release of a bracket with a capture (R236). -/
theorem BusInv.released (hi : BusInv s) (hs : s.nativeSaved = true) (h : Released f s t) : BusInv t where
  saved _ := by rw [h.native, hi.saved hs, h.same.cfg]
  fresh hn := absurd h.saved (by simp [hn])
  native _ _ := h.dom.trans h.native.symm
  cart g hg := by rw [h.owner] at hg; cases hg

theorem BusInv.exec_acquire (hi : BusInv s) (h : exec .acquire s = .next t) : BusInv t := by
  rcases runHost_then_cases h with ⟨u, hrun, rfl⟩ | ⟨c, u, hrun, -⟩
  · obtain ⟨f, -, -, hu⟩ := acquireBus_eq_ok hrun
    exact (hi.acquired hu).result _
  · exact absurd hrun (noCause_acquireBus _ _ _)

theorem BusInv.exec_release (hi : BusInv s) (h : exec .release s = .next t) : BusInv t := by
  rcases runHost_then_cases h with ⟨u, hrun, rfl⟩ | ⟨c, u, hrun, -⟩
  · obtain ⟨f, -, hs, hu⟩ := releaseBus_eq_ok hrun
    exact (hi.released hs hu).result _
  · exact absurd hrun (noCause_releaseBus _ _ _)

/-- In an open bracket, whatever is not refused and is no `release` keeps the invariant (R238). -/
theorem BusInv.exec_held (hi : BusInv s) (hb : s.busOwner ≠ .native) (ha : i ≠ .acquire) (hr : i ≠ .release)
    (h : exec i s = .next t) : BusInv t := by
  have o := order_heldAlone
  by_cases hd : runsDirectly i = true
  · obtain ⟨α, F, x, y, he, hx, hF, -, -⟩ := runsDirectly_of_eq_true hd
    rw [he] at h
    exact hi.runHost hb (heldAlone_touches hx hF) h
  cases i with
  | init => exact hi.runHost hb heldAlone_initOp h
  | exit => exact hi.runHost hb heldAlone_exitOp h
  | cardInit => exact hi.runHost hb heldAlone_cardInit h
  | cardRead dest lba count => exact hi.runHost hb (heldAlone_transfer _ _ _ _ _) h
  | cardWrite src lba count => exact hi.runHost hb (heldAlone_transfer _ _ _ _ _) h
  | cardStop => exact hi.runHost hb heldAlone_cardStop h
  | setByteswap on => exact hi.runHost hb (heldAlone_bracketed _ _) h
  | probe =>
    obtain ⟨c, u, hp, -⟩ := exec_probe_eq_next h
    rw [exec_probe_of_ok hp] at h
    cases h
    exact (hi.of_same (heldAlone_probeOp.of_ok hp hb) rfl).result _
  | diskInitialize drive => exact hi.runHost hb (heldAlone_diskInitialize drive) h
  | diskRead drive buffer lba count =>
    exact hi.runHost hb (heldAlone_diskTransfer drive lba count (heldAlone_transfer _ _ _ _ _)) h
  | diskWrite drive buffer lba count =>
    exact hi.runHost hb (heldAlone_diskTransfer drive lba count (heldAlone_transfer _ _ _ _ _)) h
  | diskIoctl drive cmd buf =>
    cases h
    exact hi.result _
  | bind drive => exact hi.runHost hb (heldAlone_touches (touches_bindOp drive) rfl) h
  | acquire => exact absurd rfl ha
  | release => exact absurd rfl hr
  | _ => exact absurd rfl hd

/-! ### Every step -/

theorem BusInv.exec (hi : BusInv s) (h : exec i s = .next t) : BusInv t := by
  by_cases ha : i = .acquire
  · exact hi.exec_acquire (ha ▸ h)
  by_cases hr : i = .release
  · exact hi.exec_release (hr ▸ h)
  by_cases hb : s.busOwner = .native
  · obtain ⟨hi', -, -⟩ := exec_busBack ha hr h hi hb
    exact hi'
  · exact hi.exec_held hb ha hr h

theorem BusInv.settle (hi : BusInv s) : BusInv (settle s) := by
  obtain ⟨hsame, -⟩ := settle_spec s
  exact hi.of_same hsame rfl

theorem BusInv.runRequest {r : Request} (hi : BusInv s) (h : runRequest r s = .next t) : BusInv t := by
  unfold Machine.runRequest at h
  split at h
  · cases h
  · split at h
    · exact hi.exec h
    · cases h

end Sys2Proof.Machine

namespace Sys2Proof.Proofs

open Sys2Proof.Machine

/-- Settles O57: the cache's own acts leave the bus alone (`BusInv.settle`), and every instruction keeps the invariant
(`BusInv.exec`). -/
theorem stepKeepsBracket : Obligations.StepKeepsBracket := by
  intro s t hi h
  cases hport : s.port with
  | nil =>
    rw [step_of_no_request hport] at h
    cases h
    exact hi.settle
  | cons r rest =>
    simp only [step, hport] at h
    exact (hi.port rest).settle.runRequest h

end Sys2Proof.Proofs
end
